-- ==== Sys2Proof/Word.lean ====
section
/-! DEFINITION. The words of the engine: bytes, 32-bit registers and addresses (00_scope.md R7, R9). -/

namespace Sys2Proof

/-- One byte of host memory (20_memory.md R60). -/
abbrev Byte := BitVec 8

/-- A register, an operand word or a host address: 32 bits (00_scope.md R7, R9). -/
abbrev Word := BitVec 32

/-- The number of byte addresses of host memory, 2^32 (20_memory.md R60). -/
abbrev addressCount : Nat := 4294967296

end Sys2Proof
end

