-- ==== Sys2Proof/Syntax.lean ====
section
/-! DEFINITION. The engine's commands, one constructor per row of the opcode map (30_encoding.md R95).

The last argument `wr` of every constructor is the WR flag with its operand (R92): `none` is WR = 0, `some a` is
WR = 1 with W7 = `a`. An operand a command uses only under an option bit is an `Option` with that bit. Operand words a
command does not use are ignored (R94) and have no place here (notes/assumptions/22.md). -/

namespace Sys2Proof

/-- A command with its operands (30_encoding.md R95). -/
inductive Instr where
  | nop (wr : Option Word)
  | endRun (wr : Option Word)
  | jump (target : Word) (wr : Option Word)
  | bwInit (base cap : Word) (wr : Option Word)
  | bwBits (n : Nat) (value : Word) (wr : Option Word)
  | bwFlush (wr : Option Word)
  | brInit (base len : Word) (wr : Option Word)
  | brBits (n : Nat) (wr : Option Word)
  | crc32 (cont : Option Word) (src len : Word) (wr : Option Word)
  | crcCombine (combined blockCrc : Word) (wr : Option Word)
  | rle1Enc (src len dst cap : Word) (wr : Option Word)
  | rle1Dec (src len dst cap : Word) (wr : Option Word)
  | bwtFwd (src n dst : Word) (sa : Option Word) (wr : Option Word)
  | bwtInv (src n origPtr dst : Word) (tv : Option Word) (wr : Option Word)
  | mtfEnc (src n dst cap map : Word) (wr : Option Word)
  | mtfDec (src count map dst cap : Word) (wr : Option Word)
  | hufLen (freq alphaSize dst : Word) (wr : Option Word)
  | hufCodes (lengths alphaSize dst : Word) (wr : Option Word)
  | hufEnc (nGroups : Nat) (syms count tables selectors alphaSize : Word) (wr : Option Word)
  | hufDec (nGroups : Nat) (dst cap tables selectors alphaSize nSel : Word) (wr : Option Word)
  | blkEnc (k : Nat) (src n blockCrc : Word) (wr : Option Word)
  | blkDec (k : Nat) (dst cap : Word) (wr : Option Word)
  | streamEnc (k : Nat) (src len dst cap : Word) (wr : Option Word)
  | streamDec (src len dst cap : Word) (wr : Option Word)
  deriving DecidableEq, Repr

end Sys2Proof
end

