-- ==== Sys2Proof/WellFormed.lean ====
section
/-! DEFINITION. Which terms of `Instr` stand for a descriptor: the OPT sub-fields fit their bits (30_encoding.md R95).
A value inside its bits but outside its legal range (BW_BITS n = 40) is well formed: it raises INVALID_PARAMETER when it
runs (R93). -/

namespace Sys2Proof

/-- The OPT sub-field of a command fits the bits R95 gives it: n in 5:0, nGroups in 2:0, k in 3:0. -/
def Instr.wellFormed : Instr → Bool
  | .bwBits n _ _ => n < 64
  | .brBits n _ => n < 64
  | .hufEnc g _ _ _ _ _ _ => g < 8
  | .hufDec g _ _ _ _ _ _ _ => g < 8
  | .blkEnc k _ _ _ _ => k < 16
  | .blkDec k _ _ _ => k < 16
  | .streamEnc k _ _ _ _ _ => k < 16
  | .nop _ | .endRun _ | .jump _ _ | .bwInit _ _ _ | .bwFlush _ | .brInit _ _ _ | .crc32 _ _ _ _
  | .crcCombine _ _ _ | .rle1Enc _ _ _ _ _ | .rle1Dec _ _ _ _ _ | .bwtFwd _ _ _ _ _ | .bwtInv _ _ _ _ _ _
  | .mtfEnc _ _ _ _ _ _ | .mtfDec _ _ _ _ _ _ | .hufLen _ _ _ _ | .hufCodes _ _ _ _
  | .streamDec _ _ _ _ _ => true

end Sys2Proof
end

