-- ==== Sys2Proof/Decode.lean ====
section
/-! DEFINITION. Decoding and encoding of descriptors (30_encoding.md R90 to R97). -/

namespace Sys2Proof

/-! ### Byte order (20_memory.md R63) -/

/-- A little-endian byte sequence as a number: the first byte is bits 7:0 (20_memory.md R63). -/
def leNat : List Byte → Nat
  | [] => 0
  | b :: bs => b.toNat + 256 * leNat bs

/-- The low `n` bytes of a number, the least significant first (20_memory.md R63). -/
def leBytes : Nat → Nat → List Byte
  | 0, _ => []
  | n + 1, v => BitVec.ofNat 8 v :: leBytes n (v / 256)

/-! ### Descriptors -/

/-- The eight words of a descriptor (30_encoding.md R90). -/
structure Descriptor where
  (w0 w1 w2 w3 w4 w5 w6 w7 : Word)
  deriving DecidableEq, Repr

/-- Why a descriptor does not decode; the first three are ILLEGAL_COMMAND 1, 2, 3 (30_encoding.md R97). -/
inductive DecodeError where
  | reservedOpcode
  | reservedBits
  | unusedOption
  /-- Fewer than 32 bytes were given: no fetch gives that. -/
  | truncated
  deriving DecidableEq, Repr

/-- The word at byte offset `4 i` of a byte sequence, little-endian (30_encoding.md R90). -/
def wordAt (bs : List Byte) (i : Nat) : Word :=
  BitVec.ofNat 32 (leNat ((bs.drop (4 * i)).take 4))

/-- The eight little-endian words of a descriptor's bytes (30_encoding.md R90). -/
def descriptorOfBytes (bs : List Byte) : Descriptor :=
  ⟨wordAt bs 0, wordAt bs 1, wordAt bs 2, wordAt bs 3, wordAt bs 4, wordAt bs 5, wordAt bs 6, wordAt bs 7⟩

/-- The 32 bytes of a descriptor in address order (30_encoding.md R90). -/
def bytesOfDescriptor (d : Descriptor) : List Byte :=
  leBytes 4 d.w0.toNat ++ leBytes 4 d.w1.toNat ++ leBytes 4 d.w2.toNat ++ leBytes 4 d.w3.toNat ++
  leBytes 4 d.w4.toNat ++ leBytes 4 d.w5.toNat ++ leBytes 4 d.w6.toNat ++ leBytes 4 d.w7.toNat

/-- `w[lo + width - 1 : lo]` as a number (00_scope.md R9). -/
def bitField (w : Word) (lo width : Nat) : Nat :=
  w.toNat / 2 ^ lo % 2 ^ width

/-- OPC, W0[7:0] (30_encoding.md R91). -/
def opcField (w0 : Word) : Nat := bitField w0 0 8
/-- WR, W0[8] (30_encoding.md R91). -/
def wrField (w0 : Word) : Bool := bitField w0 8 1 == 1
/-- OPT, W0[23:16] (30_encoding.md R91, R93). -/
def optField (w0 : Word) : Nat := bitField w0 16 8
/-- The reserved bits of W0, 15:9 and 31:24, are all 0 (30_encoding.md R91). -/
def reservedClear (w0 : Word) : Bool := bitField w0 9 7 == 0 && bitField w0 24 8 == 0

/-- WR and W7 together: the result address when WR = 1 (30_encoding.md R92). -/
def resultArea (d : Descriptor) : Option Word :=
  if wrField d.w0 then some d.w7 else none

/-- An operand that is used only when OPT bit 0 is set (CONT, SA, TV of 30_encoding.md R95). -/
def optionOperand (d : Descriptor) (w : Word) : Option Word :=
  if optField d.w0 % 2 = 1 then some w else none

/-- The opcode map (30_encoding.md R95): for an OPC value, how many low OPT bits its command uses and the command its
descriptor stands for; `none` for a reserved OPC (R96). -/
def opcodeRow : Nat → Option (Nat × (Descriptor → Instr))
  | 0x00 => some (0, fun d => .nop (resultArea d))
  | 0x01 => some (0, fun d => .endRun (resultArea d))
  | 0x02 => some (0, fun d => .jump d.w1 (resultArea d))
  | 0x10 => some (0, fun d => .bwInit d.w1 d.w2 (resultArea d))
  | 0x11 => some (6, fun d => .bwBits (optField d.w0) d.w1 (resultArea d))
  | 0x12 => some (0, fun d => .bwFlush (resultArea d))
  | 0x18 => some (0, fun d => .brInit d.w1 d.w2 (resultArea d))
  | 0x19 => some (6, fun d => .brBits (optField d.w0) (resultArea d))
  | 0x20 => some (1, fun d => .crc32 (optionOperand d d.w3) d.w1 d.w2 (resultArea d))
  | 0x21 => some (0, fun d => .crcCombine d.w1 d.w2 (resultArea d))
  | 0x30 => some (0, fun d => .rle1Enc d.w1 d.w2 d.w3 d.w4 (resultArea d))
  | 0x31 => some (0, fun d => .rle1Dec d.w1 d.w2 d.w3 d.w4 (resultArea d))
  | 0x40 => some (1, fun d => .bwtFwd d.w1 d.w2 d.w3 (optionOperand d d.w4) (resultArea d))
  | 0x41 => some (1, fun d => .bwtInv d.w1 d.w2 d.w3 d.w4 (optionOperand d d.w5) (resultArea d))
  | 0x50 => some (0, fun d => .mtfEnc d.w1 d.w2 d.w3 d.w4 d.w5 (resultArea d))
  | 0x51 => some (0, fun d => .mtfDec d.w1 d.w2 d.w3 d.w4 d.w5 (resultArea d))
  | 0x60 => some (0, fun d => .hufLen d.w1 d.w2 d.w3 (resultArea d))
  | 0x61 => some (0, fun d => .hufCodes d.w1 d.w2 d.w3 (resultArea d))
  | 0x62 => some (3, fun d => .hufEnc (optField d.w0) d.w1 d.w2 d.w3 d.w4 d.w5 (resultArea d))
  | 0x63 => some (3, fun d => .hufDec (optField d.w0) d.w1 d.w2 d.w3 d.w4 d.w5 d.w6 (resultArea d))
  | 0x70 => some (4, fun d => .blkEnc (optField d.w0) d.w1 d.w2 d.w3 (resultArea d))
  | 0x71 => some (4, fun d => .blkDec (optField d.w0) d.w1 d.w2 (resultArea d))
  | 0x78 => some (4, fun d => .streamEnc (optField d.w0) d.w1 d.w2 d.w3 d.w4 (resultArea d))
  | 0x79 => some (0, fun d => .streamDec d.w1 d.w2 d.w3 d.w4 (resultArea d))
  | _ => none

/-- Decoding in the order of 30_encoding.md R97: OPC, then the reserved bits of W0, then the OPT bits. -/
def decodeDescriptor (d : Descriptor) : Except DecodeError Instr :=
  match opcodeRow (opcField d.w0) with
  | none => .error .reservedOpcode
  | some (used, build) =>
    if reservedClear d.w0 = false then .error .reservedBits
    else if optField d.w0 / 2 ^ used ≠ 0 then .error .unusedOption
    else .ok (build d)

/-- Decoding of bytes in address order: the command of the first 32 and the bytes after them (30_encoding.md R90). -/
def decodeBytes (bs : List Byte) : Except DecodeError (Instr × List Byte) :=
  if bs.length < 32 then .error .truncated
  else match decodeDescriptor (descriptorOfBytes bs) with
    | .ok i => .ok (i, bs.drop 32)
    | .error e => .error e

/-! ### Encoding -/

/-- W0 from OPC, WR and OPT (30_encoding.md R91). -/
def packW0 (opc : Nat) (wr : Bool) (opt : Nat) : Word :=
  BitVec.ofNat 32 (opc + 256 * wr.toNat + 65536 * opt)

/-- A descriptor from its fields; an operand word the command does not use is 0 (30_encoding.md R90 to R94). -/
def packDescriptor (opc opt : Nat) (wr : Option Word) (a b c d e f : Word) : Descriptor :=
  ⟨packW0 opc wr.isSome opt, a, b, c, d, e, f, wr.getD 0⟩

/-- The descriptor of a command (30_encoding.md R95). -/
def encode : Instr → Descriptor
  | .nop wr => packDescriptor 0x00 0 wr 0 0 0 0 0 0
  | .endRun wr => packDescriptor 0x01 0 wr 0 0 0 0 0 0
  | .jump target wr => packDescriptor 0x02 0 wr target 0 0 0 0 0
  | .bwInit base cap wr => packDescriptor 0x10 0 wr base cap 0 0 0 0
  | .bwBits n value wr => packDescriptor 0x11 n wr value 0 0 0 0 0
  | .bwFlush wr => packDescriptor 0x12 0 wr 0 0 0 0 0 0
  | .brInit base len wr => packDescriptor 0x18 0 wr base len 0 0 0 0
  | .brBits n wr => packDescriptor 0x19 n wr 0 0 0 0 0 0
  | .crc32 cont src len wr => packDescriptor 0x20 cont.isSome.toNat wr src len (cont.getD 0) 0 0 0
  | .crcCombine combined blockCrc wr => packDescriptor 0x21 0 wr combined blockCrc 0 0 0 0
  | .rle1Enc src len dst cap wr => packDescriptor 0x30 0 wr src len dst cap 0 0
  | .rle1Dec src len dst cap wr => packDescriptor 0x31 0 wr src len dst cap 0 0
  | .bwtFwd src n dst sa wr => packDescriptor 0x40 sa.isSome.toNat wr src n dst (sa.getD 0) 0 0
  | .bwtInv src n origPtr dst tv wr => packDescriptor 0x41 tv.isSome.toNat wr src n origPtr dst (tv.getD 0) 0
  | .mtfEnc src n dst cap map wr => packDescriptor 0x50 0 wr src n dst cap map 0
  | .mtfDec src count map dst cap wr => packDescriptor 0x51 0 wr src count map dst cap 0
  | .hufLen freq alphaSize dst wr => packDescriptor 0x60 0 wr freq alphaSize dst 0 0 0
  | .hufCodes lengths alphaSize dst wr => packDescriptor 0x61 0 wr lengths alphaSize dst 0 0 0
  | .hufEnc g syms count tables selectors alphaSize wr =>
      packDescriptor 0x62 g wr syms count tables selectors alphaSize 0
  | .hufDec g dst cap tables selectors alphaSize nSel wr =>
      packDescriptor 0x63 g wr dst cap tables selectors alphaSize nSel
  | .blkEnc k src n blockCrc wr => packDescriptor 0x70 k wr src n blockCrc 0 0 0
  | .blkDec k dst cap wr => packDescriptor 0x71 k wr dst cap 0 0 0 0
  | .streamEnc k src len dst cap wr => packDescriptor 0x78 k wr src len dst cap 0 0
  | .streamDec src len dst cap wr => packDescriptor 0x79 0 wr src len dst cap 0 0

/-- The 32 bytes of a command's descriptor in address order. -/
def encodeBytes (i : Instr) : List Byte :=
  bytesOfDescriptor (encode i)

/-! ### The opcode table's numbering -/

/-- The 32 bytes of the instruction whose first `nbits` bits are `w`, bit 0 being bit 0 of W0 and every bit above
`nbits` being 0. -/
def tableBytes (nbits w : Nat) : List Byte :=
  leBytes 32 (w % 2 ^ nbits)

/-- What the decoder reads from an instruction whose bits are `w`, numbered as spec/opcode_table.json numbers them. -/
def decodeTableWord (nbits w : Nat) : Option Instr :=
  match decodeBytes (tableBytes nbits w) with
  | .ok (i, _) => some i
  | .error _ => none

end Sys2Proof
end

