-- ==== Sys2Proof/Config.lean ====
section
/-! DEFINITION. The engine's fixed constants (00_scope.md R7), the identification values (10_state.md R20) and the free values. -/

namespace Sys2Proof.Config

/-- `BLOCK_UNIT`, 00_scope.md R7. -/
abbrev blockUnit : Nat := 100000
/-- `BWT_MAX_N`, 00_scope.md R7. -/
abbrev bwtMaxN : Nat := 900000
/-- `GROUP_SIZE`, 00_scope.md R7. -/
abbrev groupSize : Nat := 50
/-- `MAX_CODE_LEN`, 00_scope.md R7. -/
abbrev maxCodeLen : Nat := 20
/-- `ALPHA_MAX`, 00_scope.md R7. -/
abbrev alphaMax : Nat := 258
/-- `RLE1_RUN_MAX`, 00_scope.md R7. -/
abbrev rle1RunMax : Nat := 255
/-- `N_ITERS`, 00_scope.md R7. -/
abbrev nIters : Nat := 4
/-- `CRC_POLY`, 00_scope.md R7. -/
abbrev crcPoly : Word := 0x04C11DB7#32
/-- `CRC_INIT`, 00_scope.md R7. -/
abbrev crcInit : Word := 0xFFFFFFFF#32
/-- `CRC_XOROUT`, 00_scope.md R7 (90_conflicts.md C1). -/
abbrev crcXorOut : Word := 0xFFFFFFFF#32
/-- `BLOCK_MAGIC`, 48 bits, 00_scope.md R7. -/
abbrev blockMagic : Nat := 0x314159265359
/-- `EOS_MAGIC`, 48 bits, 00_scope.md R7. -/
abbrev eosMagic : Nat := 0x177245385090
/-- `DESC_SIZE`, 00_scope.md R7. -/
abbrev descSize : Nat := 32
/-- The size of the register window, 10_state.md R20. -/
abbrev windowSize : Nat := 4096
/-- The hard-wired `ID`, 10_state.md R21. -/
abbrev idValue : Word := 0x42575445#32
/-- The hard-wired `VERSION`, 10_state.md R22. -/
abbrev versionValue : Word := 0x00010000#32

/-- How many phases, each twice as long as the one before, the model follows a run to its end or into a loop when the host
touches memory during it (20_memory.md R77): 2^36, so that the phases reach past 2^(2^36) commands, more than a run has
states to be in. DEDUCED, notes/assumptions/11.md. -/
abbrev runPhases : Nat := 68719476736

/-- A byte the spec leaves unspecified (93_implementation_defined.md U20, U24). A free value: nothing constrains it.
DESIGN CHOICE (its form), notes/assumptions/4.md. -/
opaque freeByte : Nat → Byte

/-- A register read the spec leaves unspecified (93_implementation_defined.md U23). A free value.
DESIGN CHOICE (its form), notes/assumptions/4.md. -/
opaque freeWord : Nat → Word

/-- RESULT0 of a HUF_ENC that has appended this many bits, 2^32 or more: the count does not fit the register and no rule
says what the register holds (46_huffman.md R238, 00_scope.md R9). A free value.
DESIGN CHOICE, notes/assumptions/29.md. -/
opaque freeBitCount : Nat → Word

/-- A number the spec leaves unspecified within bounds (93_implementation_defined.md U21, U22); the user of it
applies the bounds. A free value. DESIGN CHOICE (its form), notes/assumptions/4.md. -/
opaque freeNat : Nat → Nat

end Sys2Proof.Config
end

