-- ==== Sys2Proof/Machine/State.lean ====
section
/-! DEFINITION. The state of the machine: the registers of 10_state.md R20, host memory (20_memory.md R60), the platform's
parameters (00_scope.md R8) and the host's pending actions. Reset values: 10_state.md R20, 70_reset_and_hazards.md R340. -/

namespace Sys2Proof.Machine

/-- Host memory: (address, byte) pairs, addresses rising, no byte equal to what an unlisted address reads as. -/
abbrev Memory := List Host.Cell

/-- The bit writer's registers (10_state.md R20, R32): BW_BASE, BW_CAP, BW_COUNT, BW_ACC, BW_NBITS. -/
structure WriterRegs where
  base  : Word
  cap   : Word
  count : Word
  /-- BW_ACC[6:0]; bits 31:7 read 0. -/
  acc   : BitVec 7
  /-- BW_NBITS[2:0]; bits 31:3 read 0. -/
  nbits : BitVec 3
  deriving DecidableEq, Repr

/-- The bit reader's registers (10_state.md R20, R33): BR_BASE, BR_LEN, BR_POS. -/
structure ReaderRegs where
  base : Word
  len  : Word
  pos  : Word
  deriving DecidableEq, Repr

/-- RESULT0 .. RESULT3 (10_state.md R31). -/
structure Results where
  r0 : Word
  r1 : Word
  r2 : Word
  r3 : Word
  deriving DecidableEq, Repr

/-- A run of host addresses that respond to the engine. -/
structure Region where
  base : Nat
  size : Nat
  deriving DecidableEq, Repr

/-- The platform's parameters (00_scope.md R8): REG_BASE, and MemAdmits as the union of `regions` less the register
window (20_memory.md R61). No step changes them. -/
structure Platform where
  regBase : Word
  regions : List Region
  deriving DecidableEq, Repr

/-- What the host may do at its turn (00_scope.md R16). -/
inductive HostAction where
  /-- A read of the register window at `offset` with an access of `width` bytes (10_state.md R20). -/
  | readReg (offset : BitVec 12) (width : Nat)
  /-- A write of `value` to the register window at `offset` with an access of `width` bytes. -/
  | writeReg (offset : BitVec 12) (width : Nat) (value : Word)
  /-- A read of `len` bytes of host memory. -/
  | readMem (addr : Word) (len : Nat)
  /-- A write of bytes to host memory. -/
  | writeMem (addr : Word) (bytes : List Byte)
  /-- The platform's reset input (70_reset_and_hazards.md R340). -/
  | resetPin
  /-- The host lets the engine take one step. -/
  | yield
  deriving DecidableEq, Repr

/-- The bytes `addr .. addr + len - 1` (20_memory.md R64). -/
structure Span where
  addr : Nat
  len  : Nat
  deriving DecidableEq, Repr

/-- The ranges of the run's commands so far, which the host must leave alone as long as the run goes on (20_memory.md R77).
The model's own, notes/assumptions/11.md. -/
structure RunLog where
  /-- The ranges that a command of the run so far reads or writes. -/
  used    : List Span
  /-- The ranges that a command of the run so far writes. -/
  written : List Span
  deriving DecidableEq, Repr

/-- The log at the start of a run. -/
def RunLog.empty : RunLog := ⟨[], []⟩

/-- The state. All but the last five fields are the spec's; those five are the model's own (INVENTORY.md, State). -/
structure State where
  /-- CTRL.IE (10_state.md R23). -/
  ie       : Bool
  /-- STATUS.BUSY (10_state.md R25, R39). -/
  busy     : Bool
  /-- STATUS.DONE (10_state.md R25). -/
  done     : Bool
  /-- STATUS.ERR (10_state.md R25). -/
  err      : Bool
  /-- DLIST (10_state.md R27). -/
  dlist    : Word
  /-- DP, the descriptor pointer, the engine's pc (10_state.md R28). -/
  dp       : Word
  /-- ERRCODE[7:0]; bits 31:8 read 0 (10_state.md R29). -/
  errcode  : BitVec 8
  /-- ERRINFO (10_state.md R29). -/
  errinfo  : Word
  /-- ERRPOS (10_state.md R29). -/
  errpos   : Word
  /-- CMDCOUNT (10_state.md R30). -/
  cmdcount : Word
  /-- RESULT0 .. RESULT3 (10_state.md R31). -/
  results  : Results
  /-- The bit writer (10_state.md R32). -/
  bw       : WriterRegs
  /-- The bit reader (10_state.md R33). -/
  br       : ReaderRegs
  /-- Host memory (20_memory.md R60). -/
  mem      : Memory
  /-- The platform's parameters (00_scope.md R8). -/
  platform : Platform
  /-- The host's pending actions, oldest first. The model's own, notes/assumptions/1.md. -/
  inputs   : List HostAction
  /-- What the host's last register read returned. The model's own, notes/assumptions/25.md. -/
  hostReg  : Word
  /-- What the host's last memory read returned. The model's own, notes/assumptions/25.md. -/
  hostBuf  : List Byte
  /-- How many free values have been drawn. The model's own, notes/assumptions/4.md. -/
  fresh    : Nat
  /-- What the run has used of memory since START. The model's own, notes/assumptions/11.md. -/
  runLog   : RunLog
  deriving DecidableEq, Repr

/-- Why the machine stops. No command of the engine raises one: the engine's errors are error stops (60_exceptions.md
R321), which are next states. -/
inductive Fault where
  /-- Raised by a host memory access past the last of the 2^32 addresses (20_memory.md R60). Safe: the run of the model
  ends, notes/assumptions/13.md. -/
  | noSuchAddress (addr len : Nat)
  deriving DecidableEq, Repr

/-- Why the model has no step. -/
inductive Refusal where
  /-- An instruction without a meaning, by its mnemonic; raised by no arm of `exec` once every command is modelled. Safe. -/
  | notModelled (mnemonic : String)
  /-- Raised by a host access of the register window that is not an aligned 32-bit register access: HostAccessOther,
  "which the model refuses" (00_scope.md R8). Safe, notes/assumptions/12.md. -/
  | hostAccessOther (offset width : Nat)
  /-- Raised by a host memory access during a run that breaks the host's duty (20_memory.md R77: "A model gives such a host
  move no step"). Safe, notes/assumptions/11.md. -/
  | hostDuty (addr len : Nat)
  deriving DecidableEq, Repr

/-- The outcome of one step. -/
abbrev Step := Host.Outcome State Fault Refusal

/-- The error codes of 60_exceptions.md R300. -/
inductive ErrorCode where
  | illegalCommand
  | invalidParameter
  | outputBufferTooSmall
  | truncatedInput
  | malformedRunLength
  | invalidOriginPointer
  | invalidSymbol
  | huffmanOverflow
  | invalidHuffmanCode
  | unsupportedLegacyFeature
  | checksumMismatch
  | formatError
  | busError
  | descriptorFault
  deriving DecidableEq, Repr

/-- An error of the engine with its sub-code and position (60_exceptions.md R300, R321). -/
structure EngineError where
  code : ErrorCode
  info : Nat := 0
  pos  : Nat := 0
  deriving DecidableEq, Repr

/-- The machine right after reset (10_state.md R20, 70_reset_and_hazards.md R340, R341). Values the spec does not give:
memory 0 everywhere (notes/assumptions/3.md), the platform of 95_test_vectors.md with REG_BASE 0x40000000
(notes/assumptions/2.md), and the model's own five fields. -/
def State.reset : State where
  ie := false
  busy := false
  done := false
  err := false
  dlist := 0
  dp := 0
  errcode := 0
  errinfo := 0
  errpos := 0
  cmdcount := 0
  results := ⟨0, 0, 0, 0⟩
  bw := ⟨0, 0, 0, 0, 0⟩
  br := ⟨0, 0, 0⟩
  mem := []
  platform := ⟨0x40000000#32, [⟨0, 0x10000⟩]⟩
  inputs := []
  hostReg := 0
  hostBuf := []
  fresh := 0
  runLog := RunLog.empty

end Sys2Proof.Machine
end

