-- ==== Sys2Proof/Machine/Ops.lean ====
section
/-! DEFINITION. The shared operations of every command: memory (20_memory.md), admission (R64), the error stop
(60_exceptions.md R321), completion (R310) and the free values of unspecified state. -/

namespace Sys2Proof.Machine

/-! ### Host memory (00_scope.md R12, 20_memory.md R60 to R67) -/

/-- What an unlisted address reads as. DESIGN CHOICE, notes/assumptions/3.md. -/
abbrev unlistedByte : Byte := 0#8

/-- `MemRead(addr, 1)` (00_scope.md R12). -/
def Memory.read : Memory → Nat → Byte
  | [], _ => unlistedByte
  | (k, v) :: m, a => if k = a then v else Memory.read m a

/-- `MemReadBytes(addr, n)` (00_scope.md R12). -/
def Memory.readBytes (m : Memory) (a n : Nat) : List Byte :=
  (List.range n).map fun i => m.read (a + i)

/-- The listed cells of a byte sequence from `a` upwards. -/
def cellsFrom : Nat → List Byte → Memory
  | _, [] => []
  | a, b :: bs => if b = unlistedByte then cellsFrom (a + 1) bs else (a, b) :: cellsFrom (a + 1) bs

/-- `MemWriteBytes(addr, S)` (00_scope.md R12). -/
def Memory.writeBytes (m : Memory) (a : Nat) (bs : List Byte) : Memory :=
  m.filter (fun c => c.1 < a) ++ cellsFrom a bs ++ m.filter (fun c => a + bs.length ≤ c.1)

/-- The canonical form: addresses strictly rising, no entry equal to what an unlisted address reads as. -/
def Memory.wf : Memory → Bool
  | [] => true
  | (a, b) :: m => b != unlistedByte && m.all (fun c => a < c.1) && Memory.wf m

/-- Every listed address is one of the 2^32 (20_memory.md R60). -/
def Memory.inSpace (m : Memory) : Bool :=
  m.all fun c => c.1 < addressCount

/-- `MemRead(addr, n)`, little-endian (00_scope.md R12, 20_memory.md R63). -/
def Memory.readNat (m : Memory) (a n : Nat) : Nat :=
  leNat (m.readBytes a n)

/-- An array of `count` little-endian numbers of `width` bytes (20_memory.md R63, R66). -/
def Memory.readArray (m : Memory) (a width count : Nat) : List Nat :=
  (List.range count).map fun i => m.readNat (a + width * i) width

/-- The bytes of an array of little-endian numbers of `width` bytes (20_memory.md R63, R66). -/
def arrayBytes (width : Nat) (vs : List Nat) : List Byte :=
  vs.flatMap (leBytes width)

/-- The latched descriptor at `a` (60_exceptions.md R310, 20_memory.md R75). -/
def Memory.readDescriptor (m : Memory) (a : Nat) : Descriptor :=
  descriptorOfBytes (m.readBytes a Config.descSize)

/-! ### Spans and admission (20_memory.md R61, R64, R68) -/

/-- The address after the span's last byte. -/
abbrev Span.limit (s : Span) : Nat := s.addr + s.len

/-- The span holds the address. -/
def Span.contains (s : Span) (a : Nat) : Bool :=
  s.addr ≤ a && a < s.limit

/-- The span passes the top of the address space: addr + len > 2^32 (20_memory.md R64). -/
def Span.wraps (s : Span) : Bool :=
  addressCount < s.limit

/-- The two spans share no byte; an empty span shares none (20_memory.md R64, R68). -/
def Span.disjoint (s t : Span) : Bool :=
  s.len == 0 || t.len == 0 || s.limit ≤ t.addr || t.limit ≤ s.addr

/-- Every address of `lo .. hi - 1` lies in some region: the part below and the part above the first region's bytes must
lie in the others. -/
def coveredBy : List Region → Nat → Nat → Bool
  | [], lo, hi => hi ≤ lo
  | r :: rs, lo, hi =>
    hi ≤ lo || (coveredBy rs lo (min hi r.base) && coveredBy rs (max lo (r.base + r.size)) hi)

/-- The register window as a span of host addresses (10_state.md R20). -/
def Platform.window (p : Platform) : Span :=
  ⟨p.regBase.toNat, Config.windowSize⟩

/-- `MemAdmits(a)`: the address is in a region and not in the register window (00_scope.md R8, 20_memory.md R61). -/
def Platform.admits (p : Platform) (a : Nat) : Bool :=
  p.regions.any (fun r => r.base ≤ a && a < r.base + r.size) && !p.window.contains a

/-- The span is admitted: `MemAdmits` holds for every byte address in it; an empty span is admitted (20_memory.md R64). -/
def Platform.admitsSpan (p : Platform) (s : Span) : Bool :=
  s.len == 0 || (coveredBy p.regions s.addr s.limit && s.disjoint p.window)

/-! ### Free values (93_implementation_defined.md U20 to U24) -/

/-- `n` unspecified bytes, drawn from the counter value `f` on. -/
def freeBytes (f n : Nat) : List Byte :=
  (List.range n).map fun i => Config.freeByte (f + i)

/-- The bytes of one span become unspecified (93_implementation_defined.md U20). -/
def havocSpan (sp : Span) (s : State) : State :=
  { s with mem := s.mem.writeBytes sp.addr (freeBytes s.fresh sp.len), fresh := s.fresh + sp.len }

/-- The bytes of every span become unspecified. -/
def havocSpans : List Span → State → State
  | [], s => s
  | sp :: sps, s => havocSpans sps (havocSpan sp s)

/-- BW_COUNT, BW_ACC and BW_NBITS become unspecified within the invariants of 10_state.md R32; BW_BASE and BW_CAP keep
their values (60_exceptions.md R321). -/
def havocWriter (s : State) : State :=
  let nbits := Config.freeNat (s.fresh + 1) % 8
  { s with
    bw := { s.bw with
      count := BitVec.ofNat 32 (Config.freeNat s.fresh % (s.bw.cap.toNat + 1))
      nbits := BitVec.ofNat 3 nbits
      acc := BitVec.ofNat 7 (Config.freeNat (s.fresh + 2) % 2 ^ nbits) }
    fresh := s.fresh + 3 }

/-- BR_POS becomes unspecified within 0 .. 8 × BR_LEN; BR_BASE and BR_LEN keep their values (60_exceptions.md R321). -/
def havocReader (s : State) : State :=
  { s with
    br := { s.br with pos := BitVec.ofNat 32 (Config.freeNat s.fresh % (8 * s.br.len.toNat + 1)) }
    fresh := s.fresh + 1 }

/-! ### Taking an error: the error stop (60_exceptions.md R300, R321, R322) -/

/-- The number of an error code (60_exceptions.md R300). -/
def ErrorCode.number : ErrorCode → BitVec 8
  | .illegalCommand => 1
  | .invalidParameter => 2
  | .outputBufferTooSmall => 3
  | .truncatedInput => 4
  | .malformedRunLength => 5
  | .invalidOriginPointer => 6
  | .invalidSymbol => 7
  | .huffmanOverflow => 8
  | .invalidHuffmanCode => 9
  | .unsupportedLegacyFeature => 10
  | .checksumMismatch => 11
  | .formatError => 12
  | .busError => 13
  | .descriptorFault => 14

/-- The error stop (60_exceptions.md R321): the record is written, ERR is set, BUSY cleared, and DP keeps the failing
descriptor's address. Nothing else is saved and control goes to the host (R322); there is no return command (R323). -/
def errorStop (e : EngineError) (s : State) : State :=
  { s with
    errcode := e.code.number
    errinfo := BitVec.ofNat 32 e.info
    errpos := BitVec.ofNat 32 e.pos
    err := true
    busy := false }

/-- The error stop of a command that failed after its checks and leaves the bytes of `spans` unspecified
(60_exceptions.md R321, 93_implementation_defined.md U20). -/
def failSpans (spans : List Span) (e : EngineError) (s : State) : State :=
  errorStop e (havocSpans spans s)

/-- The error stop of a failing append to the bit writer: the free part of the buffer and the BW registers are
unspecified (60_exceptions.md R321, 93_implementation_defined.md U21). -/
def failAppend (free : Span) (e : EngineError) (s : State) : State :=
  errorStop e (havocWriter (havocSpan free s))

/-- The error stop of a failing HUF_DEC or BLK_DEC: the destination and BR_POS are unspecified (60_exceptions.md R321,
93_implementation_defined.md U22). -/
def failRead (dst : Span) (e : EngineError) (s : State) : State :=
  errorStop e (havocReader (havocSpan dst s))

/-! ### Completion (60_exceptions.md R310) -/

/-- The 16 bytes of the result write-back area: RESULT0 .. RESULT3, little-endian (20_memory.md R70). -/
def Results.bytes (r : Results) : List Byte :=
  leBytes 4 r.r0.toNat ++ leBytes 4 r.r1.toNat ++ leBytes 4 r.r2.toNat ++ leBytes 4 r.r3.toNat

/-- A command with results writes all four words (10_state.md R31). Each is given as a number below 2^32: every command's
results are bounded by its operands or its cursor's length, but for HUF_ENC's bit count, which `bitCountResult` turns
into a word (notes/assumptions/29.md). -/
def setResults (r0 r1 r2 r3 : Nat) (s : State) : State :=
  { s with results := ⟨BitVec.ofNat 32 r0, BitVec.ofNat 32 r1, BitVec.ofNat 32 r2, BitVec.ofNat 32 r3⟩ }

/-- A command stores bytes in host memory. -/
def storeBytes (a : Nat) (bs : List Byte) (s : State) : State :=
  { s with mem := s.mem.writeBytes a bs }

/-- The steps every command takes when it completes without error: CMDCOUNT, then the WR write-back (60_exceptions.md
R310, 10_state.md R30, 20_memory.md R70). -/
def complete (wr : Option Word) (s : State) : State :=
  match wr with
  | none => { s with cmdcount := s.cmdcount + 1 }
  | some a => { s with cmdcount := s.cmdcount + 1, mem := s.mem.writeBytes a.toNat s.results.bytes }

/-- `pc <- (pc + 32) mod 2^32` (40_control.md R143). -/
def advance (s : State) : State :=
  { s with dp := s.dp + 32 }

/-- `pc <- target` (40_control.md R142). -/
def jumpTo (target : Word) (s : State) : State :=
  { s with dp := target }

/-- The run stops at END: DONE is set, BUSY cleared, pc is not advanced (40_control.md R141). -/
def stopDone (s : State) : State :=
  { s with done := true, busy := false }

/-- Completion of every command but END and JUMP (40_control.md R143, 60_exceptions.md R310). -/
def finish (wr : Option Word) (s : State) : State :=
  advance (complete wr s)

/-! ### Small error constructors -/

/-- INVALID_PARAMETER (60_exceptions.md R301). -/
abbrev invalidParameter (sub : Nat) : EngineError := { code := .invalidParameter, info := sub }
/-- OUTPUT_BUFFER_TOO_SMALL(0) (60_exceptions.md R300). -/
abbrev outputTooSmall : EngineError := { code := .outputBufferTooSmall }
/-- TRUNCATED_INPUT(0) at a bit position (60_exceptions.md R300, R321). -/
abbrev truncatedInput (pos : Nat) : EngineError := { code := .truncatedInput, pos := pos }
/-- FORMAT_ERROR (60_exceptions.md R303). -/
abbrev formatError (sub : Nat) : EngineError := { code := .formatError, info := sub }

end Sys2Proof.Machine
end

