-- ==== Sys2Proof/Machine/Operands.lean ====
section
/-! DEFINITION. The operand forms: the checks and the memory ranges of every command (60_exceptions.md R320 steps 2 to 5,
20_memory.md R64, R68, R70, R71), each from the command's own rule. -/

namespace Sys2Proof.Machine

/-- How a command uses a range. -/
inductive Access where
  /-- The whole buffer of BW_INIT and BR_INIT: checked, neither read nor written (20_memory.md R71). -/
  | probe
  | read
  | write
  deriving DecidableEq, Repr

/-- A range of a command. -/
structure OperandRange where
  access : Access
  span : Span
  /-- The index of the descriptor word that names the range's address (20_memory.md R64); 0 for the bit writer's free
  part and the bit reader's remainder, which INIT checked and which never raise BUS_ERROR (R71). -/
  word : Nat
  deriving DecidableEq, Repr

/-- What a command checks before its first access (60_exceptions.md R320). -/
structure Plan where
  /-- The value checks of step 2 hold. -/
  values : Bool := true
  /-- The ranges in the order the command's rule lists them, without the WR area. -/
  ranges : List OperandRange := []
  deriving DecidableEq, Repr

/-- A read range named by descriptor word `word`. -/
abbrev readRange (word : Nat) (addr : Word) (len : Nat) : OperandRange := ⟨.read, ⟨addr.toNat, len⟩, word⟩
/-- A write range named by descriptor word `word`. -/
abbrev writeRange (word : Nat) (addr : Word) (len : Nat) : OperandRange := ⟨.write, ⟨addr.toNat, len⟩, word⟩
/-- An INIT buffer named by descriptor word `word`. -/
abbrev probeRange (word : Nat) (addr : Word) (len : Nat) : OperandRange := ⟨.probe, ⟨addr.toNat, len⟩, word⟩

/-- The free part of the bit writer's buffer (20_memory.md R71). -/
def WriterRegs.freeSpan (w : WriterRegs) : Span :=
  ⟨w.base.toNat + w.count.toNat, w.cap.toNat - w.count.toNat⟩

/-- The remainder of the bit reader's buffer (20_memory.md R71). -/
def ReaderRegs.remainder (r : ReaderRegs) : Span :=
  ⟨r.base.toNat + r.pos.toNat / 8, r.len.toNat - r.pos.toNat / 8⟩

/-- The write range of a command that appends to the bit writer (20_memory.md R71). -/
def appendRange (s : State) : OperandRange := ⟨.write, s.bw.freeSpan, 0⟩
/-- The read range of a command that reads from the bit reader (20_memory.md R71). -/
def cursorRange (s : State) : OperandRange := ⟨.read, s.br.remainder, 0⟩

/-- The WR area (20_memory.md R70). -/
def resultSpan (a : Word) : Span := ⟨a.toNat, 16⟩

/-- The plan with the WR area as its last range (20_memory.md R70, 60_exceptions.md R320). -/
def Plan.withResults (p : Plan) : Option Word → Plan
  | none => p
  | some a => { p with ranges := p.ranges ++ [⟨.write, resultSpan a, 7⟩] }

/-- Two ranges of one command may stand together: a write range is disjoint from every read and write range
(20_memory.md R68). -/
def OperandRange.compatible (a b : OperandRange) : Bool :=
  a.access == .probe || b.access == .probe || (a.access == .read && b.access == .read) || a.span.disjoint b.span

/-- Every pair of ranges may stand together (20_memory.md R68). -/
def pairwiseCompatible : List OperandRange → Bool
  | [] => true
  | r :: rs => rs.all r.compatible && pairwiseCompatible rs

/-- The first range, in order, that a descriptor word names and that is not admitted (20_memory.md R64). -/
def firstUnadmitted (p : Platform) : List OperandRange → Option Nat
  | [] => none
  | r :: rs => if r.word != 0 && !p.admitsSpan r.span then some r.word else firstUnadmitted p rs

/-- Steps 2 to 5 of 60_exceptions.md R320: values, wrap, overlap, admission; the first failing one names the error. -/
def Plan.check (p : Plan) (platform : Platform) : Option EngineError :=
  if !p.values then some (invalidParameter 1)
  else if p.ranges.any (fun r => r.span.wraps) then some (invalidParameter 2)
  else if !pairwiseCompatible p.ranges then some (invalidParameter 3)
  else match firstUnadmitted platform p.ranges with
    | some word => some { code := .busError, info := word }
    | none => none

/-- The spans of the plan's ranges of one kind. -/
def Plan.spansOf (p : Plan) (access : Access) : List Span :=
  (p.ranges.filter (fun r => r.access == access)).map (fun r => r.span)

/-- The number of 50-symbol groups of `m` symbols (46_huffman.md R236). -/
def groupCount (m : Nat) : Nat := (m + 49) / 50

/-! ### The plan of each command -/

/-- NOP (40_control.md R140), END (R141), JUMP (R142), CRC_COMBINE (42_crc32.md R172): the WR area only. -/
def planNone : Plan := {}

/-- BW_INIT (41_bitstream.md R152). -/
def planBwInit (base cap : Word) : Plan := { ranges := [probeRange 1 base cap.toNat] }

/-- BW_BITS (41_bitstream.md R153). -/
def planBwBits (n : Nat) (s : State) : Plan := { values := n ≤ 32, ranges := [appendRange s] }

/-- BW_FLUSH (41_bitstream.md R154). -/
def planBwFlush (s : State) : Plan := { ranges := [appendRange s] }

/-- BR_INIT (41_bitstream.md R155). -/
def planBrInit (base len : Word) : Plan :=
  { values := len.toNat < 2 ^ 29, ranges := [probeRange 1 base len.toNat] }

/-- BR_BITS (41_bitstream.md R156). -/
def planBrBits (n : Nat) (s : State) : Plan := { values := n ≤ 32, ranges := [cursorRange s] }

/-- CRC32 (42_crc32.md R171). -/
def planCrc32 (src len : Word) : Plan := { ranges := [readRange 1 src len.toNat] }

/-- RLE1_ENC and RLE1_DEC (43_rle1.md R181, R183). -/
def planRle1 (src len dst cap : Word) : Plan :=
  { ranges := [readRange 1 src len.toNat, writeRange 3 dst cap.toNat] }

/-- The write range of an optional u32 array of `n` elements (44_bwt.md R191, R195). -/
def optionalArray (word n : Nat) : Option Word → List OperandRange
  | none => []
  | some a => [writeRange word a (4 * n)]

/-- BWT_FWD (44_bwt.md R191). -/
def planBwtFwd (src n dst : Word) (sa : Option Word) : Plan :=
  { values := 1 ≤ n.toNat && n.toNat ≤ Config.bwtMaxN
    ranges := [readRange 1 src n.toNat, writeRange 3 dst n.toNat] ++ optionalArray 4 n.toNat sa }

/-- BWT_INV (44_bwt.md R195). -/
def planBwtInv (src n dst : Word) (tv : Option Word) : Plan :=
  { values := n.toNat ≤ Config.bwtMaxN
    ranges := [readRange 1 src n.toNat, writeRange 4 dst n.toNat] ++ optionalArray 5 n.toNat tv }

/-- MTF_ENC (45_mtf_rle2.md R213). -/
def planMtfEnc (src n dst cap map : Word) : Plan :=
  { values := 1 ≤ n.toNat && n.toNat ≤ Config.bwtMaxN
    ranges := [readRange 1 src n.toNat, writeRange 3 dst (2 * cap.toNat), writeRange 5 map 32] }

/-- MTF_DEC (45_mtf_rle2.md R215). -/
def planMtfDec (src count map dst cap : Word) : Plan :=
  { ranges := [readRange 1 src (2 * count.toNat), readRange 3 map 32, writeRange 4 dst cap.toNat] }

/-- 2 <= alphaSize <= 258 (46_huffman.md R230). -/
def alphaSizeOk (a : Word) : Bool := 2 ≤ a.toNat && a.toNat ≤ Config.alphaMax

/-- HUF_LEN (46_huffman.md R231). -/
def planHufLen (freq alphaSize dst : Word) : Plan :=
  { values := alphaSizeOk alphaSize
    ranges := [readRange 1 freq (4 * alphaSize.toNat), writeRange 3 dst alphaSize.toNat] }

/-- HUF_CODES (46_huffman.md R234). -/
def planHufCodes (lengths alphaSize dst : Word) : Plan :=
  { values := alphaSizeOk alphaSize
    ranges := [readRange 1 lengths alphaSize.toNat, writeRange 3 dst (4 * alphaSize.toNat)] }

/-- 1 <= nGroups <= 6 (46_huffman.md R238, R240). -/
def groupsOk (g : Nat) : Bool := 1 ≤ g && g ≤ 6

/-- HUF_ENC (46_huffman.md R238). -/
def planHufEnc (g : Nat) (syms count tables selectors alphaSize : Word) (s : State) : Plan :=
  { values := groupsOk g && alphaSizeOk alphaSize
    ranges := [readRange 1 syms (2 * count.toNat), readRange 3 tables (g * alphaSize.toNat),
      readRange 4 selectors (groupCount count.toNat), appendRange s] }

/-- HUF_DEC (46_huffman.md R240). -/
def planHufDec (g : Nat) (dst cap tables selectors alphaSize nSel : Word) (s : State) : Plan :=
  { values := groupsOk g && alphaSizeOk alphaSize
    ranges := [writeRange 1 dst (2 * cap.toNat), readRange 3 tables (g * alphaSize.toNat),
      readRange 4 selectors nSel.toNat, cursorRange s] }

/-- K_MIN <= k <= K_MAX (00_scope.md R7). -/
def multiplierOk (k : Nat) : Bool := 1 ≤ k && k ≤ 9

/-- BLOCK_MAX(k) (00_scope.md R7). -/
def blockMax (k : Nat) : Nat := Config.blockUnit * k

/-- BLK_ENC (47_block_stream.md R270). -/
def planBlkEnc (k : Nat) (src n : Word) (s : State) : Plan :=
  { values := multiplierOk k && 1 ≤ n.toNat && n.toNat ≤ blockMax k
    ranges := [readRange 1 src n.toNat, appendRange s] }

/-- BLK_DEC (47_block_stream.md R275). -/
def planBlkDec (k : Nat) (dst cap : Word) (s : State) : Plan :=
  { values := multiplierOk k
    ranges := [writeRange 1 dst cap.toNat, cursorRange s] }

/-- STREAM_ENC (47_block_stream.md R280). -/
def planStreamEnc (k : Nat) (src len dst cap : Word) : Plan :=
  { values := multiplierOk k
    ranges := [readRange 1 src len.toNat, writeRange 3 dst cap.toNat] }

/-- STREAM_DEC (47_block_stream.md R285). -/
def planStreamDec (src len dst cap : Word) : Plan :=
  { values := len.toNat < 2 ^ 29
    ranges := [readRange 1 src len.toNat, writeRange 3 dst cap.toNat] }

/-- The whole plan of a command, its WR area included. -/
def instrPlan (i : Instr) (s : State) : Plan :=
  match i with
  | .nop wr => planNone.withResults wr
  | .endRun wr => planNone.withResults wr
  | .jump _ wr => planNone.withResults wr
  | .bwInit base cap wr => (planBwInit base cap).withResults wr
  | .bwBits n _ wr => (planBwBits n s).withResults wr
  | .bwFlush wr => (planBwFlush s).withResults wr
  | .brInit base len wr => (planBrInit base len).withResults wr
  | .brBits n wr => (planBrBits n s).withResults wr
  | .crc32 _ src len wr => (planCrc32 src len).withResults wr
  | .crcCombine _ _ wr => planNone.withResults wr
  | .rle1Enc src len dst cap wr => (planRle1 src len dst cap).withResults wr
  | .rle1Dec src len dst cap wr => (planRle1 src len dst cap).withResults wr
  | .bwtFwd src n dst sa wr => (planBwtFwd src n dst sa).withResults wr
  | .bwtInv src n _ dst tv wr => (planBwtInv src n dst tv).withResults wr
  | .mtfEnc src n dst cap map wr => (planMtfEnc src n dst cap map).withResults wr
  | .mtfDec src count map dst cap wr => (planMtfDec src count map dst cap).withResults wr
  | .hufLen freq alphaSize dst wr => (planHufLen freq alphaSize dst).withResults wr
  | .hufCodes lengths alphaSize dst wr => (planHufCodes lengths alphaSize dst).withResults wr
  | .hufEnc g syms count tables selectors alphaSize wr =>
      (planHufEnc g syms count tables selectors alphaSize s).withResults wr
  | .hufDec g dst cap tables selectors alphaSize nSel wr =>
      (planHufDec g dst cap tables selectors alphaSize nSel s).withResults wr
  | .blkEnc k src n _ wr => (planBlkEnc k src n s).withResults wr
  | .blkDec k dst cap wr => (planBlkDec k dst cap s).withResults wr
  | .streamEnc k src len dst cap wr => (planStreamEnc k src len dst cap).withResults wr
  | .streamDec src len dst cap wr => (planStreamDec src len dst cap).withResults wr

/-- The write ranges of a command, its WR area included (20_memory.md R68 to R71). -/
def writeSpans (i : Instr) (s : State) : List Span := (instrPlan i s).spansOf .write

/-- The read ranges of a command (20_memory.md R68, R71). -/
def readSpans (i : Instr) (s : State) : List Span := (instrPlan i s).spansOf .read

/-- A command runs its checks in the order of 60_exceptions.md R320 and, when all hold, its `body`; a failing check is an
error stop with no other effect (R321). -/
def guarded (p : Plan) (wr : Option Word) (body : State → State) (s : State) : Step :=
  match (p.withResults wr).check s.platform with
  | some e => .next (errorStop e s)
  | none => .next (body s)

end Sys2Proof.Machine
end

