-- ==== Sys2Proof/Machine/Control.lean ====
section
/-! DEFINITION. The control commands (40_control.md). -/

namespace Sys2Proof.Machine

/-- NOP (40_control.md R140). -/
def execNop (wr : Option Word) (s : State) : Step :=
  guarded planNone wr (fun s => finish wr s) s

/-- END (40_control.md R141): the common completion steps run first, then the run stops. -/
def execEndRun (wr : Option Word) (s : State) : Step :=
  guarded planNone wr (fun s => stopDone (complete wr s)) s

/-- JUMP (40_control.md R142). A bad target faults at the next fetch. -/
def execJump (target : Word) (wr : Option Word) (s : State) : Step :=
  guarded planNone wr (fun s => jumpTo target (complete wr s)) s

end Sys2Proof.Machine
end

