-- ==== Sys2Proof/Machine/Crc.lean ====
section
/-! DEFINITION. The CRC32 checker (42_crc32.md). -/

namespace Sys2Proof.Machine

/-- One of the eight shifts of a byte (42_crc32.md R170). -/
def crcShift (state : Word) : Word :=
  if state.getLsbD 31 then (state <<< 1) ^^^ Config.crcPoly else state <<< 1

/-- The state after one byte, its bits most significant first (42_crc32.md R170). -/
def crcByte (state : Word) (b : Byte) : Word :=
  let x := state ^^^ (b.setWidth 32 <<< 24)
  crcShift (crcShift (crcShift (crcShift (crcShift (crcShift (crcShift (crcShift x)))))))

/-- `crc_update(state, S)` (42_crc32.md R170). -/
def crcUpdate (state : Word) (bytes : List Byte) : Word :=
  bytes.foldl crcByte state

/-- `crc32(S)` (42_crc32.md R170). -/
def crcOf (bytes : List Byte) : Word :=
  crcUpdate Config.crcInit bytes ^^^ Config.crcXorOut

/-- `combine(c, b) = rotl32(c, 1) XOR b` (42_crc32.md R172). -/
def crcFold (c b : Word) : Word :=
  c.rotateLeft 1 ^^^ b

/-- CRC32 (42_crc32.md R171); `cont` is `some` state when CONT = 1. -/
def execCrc32 (cont : Option Word) (src len : Word) (wr : Option Word) (s : State) : Step :=
  guarded (planCrc32 src len) wr (fun s =>
    let state := crcUpdate (cont.getD Config.crcInit) (s.mem.readBytes src.toNat len.toNat)
    finish wr (setResults (state ^^^ Config.crcXorOut).toNat state.toNat 0 0 s)) s

/-- CRC_COMBINE (42_crc32.md R172). -/
def execCrcCombine (combined blockCrc : Word) (wr : Option Word) (s : State) : Step :=
  guarded planNone wr (fun s => finish wr (setResults (crcFold combined blockCrc).toNat 0 0 0 s)) s

end Sys2Proof.Machine
end

