-- ==== Sys2Proof/Machine/BitStream.lean ====
section
/-! DEFINITION. The bit writer and the bit reader (41_bitstream.md): the primitives R150, R151 and the five commands. -/

namespace Sys2Proof.Machine

/-! ### Bit strings (00_scope.md R10, 20_memory.md R65) -/

/-- `bits_MSB(v, n)`: bits n-1 down to 0 of `v`, the first bit first (00_scope.md R10). -/
def bitsMSB (v : Nat) : Nat → List Bool
  | 0 => []
  | n + 1 => v.testBit n :: bitsMSB v n

/-- The number whose bits, most significant first, follow the value `v` (41_bitstream.md R151). -/
def bitsValue (v : Nat) : List Bool → Nat
  | [] => v
  | b :: bs => bitsValue (2 * v + b.toNat) bs

/-- The bits of a byte sequence, most significant bit of each byte first (20_memory.md R65). -/
def bitsOfBytes : List Byte → List Bool
  | [] => []
  | b :: bs => bitsMSB b.toNat 8 ++ bitsOfBytes bs

/-! ### The writer primitives (41_bitstream.md R150) -/

/-- A bit writer at work, the registers' or STREAM_ENC's own: its capacity, the bytes stored so far in the buffer
(`count`), the pending bits, and the bytes this command has stored, newest first. -/
structure BitSink where
  cap : Nat
  count : Nat
  acc : Nat
  nbits : Nat
  stored : List Byte
  deriving DecidableEq, Repr

/-- `writeBit(W, b)` (41_bitstream.md R150). -/
def BitSink.writeBit (w : BitSink) (b : Bool) : Except EngineError BitSink :=
  let acc := 2 * w.acc + b.toNat
  if w.nbits + 1 = 8 then
    if w.count < w.cap then
      .ok { w with count := w.count + 1, acc := 0, nbits := 0, stored := BitVec.ofNat 8 acc :: w.stored }
    else .error outputTooSmall
  else .ok { w with acc := acc, nbits := w.nbits + 1 }

/-- The bits of a string written in order: every `writeBits(W, v, n)` of R150 is this on `bitsMSB v n`. -/
def BitSink.writeAll : BitSink → List Bool → Except EngineError BitSink
  | w, [] => .ok w
  | w, b :: bs =>
    match w.writeBit b with
    | .ok w' => BitSink.writeAll w' bs
    | .error e => .error e

/-- `flush(W)`: zero bits up to the byte boundary (41_bitstream.md R150). -/
def BitSink.flush (w : BitSink) : Except EngineError BitSink :=
  w.writeAll (List.replicate ((8 - w.nbits) % 8) false)

/-- The number of bits the writer has taken, stored or pending (46_huffman.md R238, 47_block_stream.md R270). -/
def BitSink.bitCount (w : BitSink) : Nat := 8 * w.count + w.nbits

/-- The writer of the BW registers (10_state.md R32). -/
def WriterRegs.sink (r : WriterRegs) : BitSink :=
  ⟨r.cap.toNat, r.count.toNat, r.acc.toNat, r.nbits.toNat, []⟩

/-- The writer's state goes back to the BW registers, and the bytes it stored to memory from the old BW_COUNT on
(41_bitstream.md R150). -/
def putSink (w : BitSink) (s : State) : State :=
  { storeBytes (s.bw.base.toNat + s.bw.count.toNat) w.stored.reverse s with
    bw := { s.bw with
      count := BitVec.ofNat 32 w.count
      acc := BitVec.ofNat 7 w.acc
      nbits := BitVec.ofNat 3 w.nbits } }

/-! ### The reader primitive (41_bitstream.md R151) -/

/-- Bit number `p` of the buffer at `base` (10_state.md R33). -/
def bufferBit (m : Memory) (base p : Nat) : Bool :=
  (m.read (base + p / 8)).toNat.testBit (7 - p % 8)

/-- A bit reader at work, the registers' or STREAM_DEC's own: the number of the next bit and the bits from it to the end
of the buffer. `Rd.pos + n <= 8 * Rd.len` of R151 is `n <= rest.length`. -/
structure BitReader where
  pos : Nat
  rest : List Bool
  deriving DecidableEq, Repr

/-- The first `n` bits of a string and the rest, or nothing when there are fewer. -/
def splitBits : Nat → List Bool → Option (List Bool × List Bool)
  | 0, bs => some ([], bs)
  | _ + 1, [] => none
  | n + 1, b :: bs =>
    match splitBits n bs with
    | some (hd, tl) => some (b :: hd, tl)
    | none => none

/-- `readBits(Rd, n)` (41_bitstream.md R151): the check is made before any bit is consumed. -/
def BitReader.readBits (r : BitReader) (n : Nat) : Except EngineError (Nat × BitReader) :=
  match splitBits n r.rest with
  | some (hd, tl) => .ok (bitsValue 0 hd, ⟨r.pos + n, tl⟩)
  | none => .error (truncatedInput r.pos)

/-- The reader of the BR registers over memory (10_state.md R33). -/
def registerReader (s : State) : BitReader :=
  let pos := s.br.pos.toNat
  ⟨pos, (bitsOfBytes (s.mem.readBytes s.br.remainder.addr s.br.remainder.len)).drop (pos % 8)⟩

/-- The reader's position goes back to BR_POS. -/
def putReaderPos (pos : Nat) (s : State) : State :=
  { s with br := { s.br with pos := BitVec.ofNat 32 pos } }

/-! ### The commands -/

/-- BW_INIT (41_bitstream.md R152). -/
def execBwInit (base cap : Word) (wr : Option Word) (s : State) : Step :=
  guarded (planBwInit base cap) wr (fun s => finish wr { s with bw := ⟨base, cap, 0, 0, 0⟩ }) s

/-- BW_BITS (41_bitstream.md R153). -/
def execBwBits (n : Nat) (value : Word) (wr : Option Word) (s : State) : Step :=
  guarded (planBwBits n s) wr (fun s =>
    match s.bw.sink.writeAll (bitsMSB value.toNat n) with
    | .ok w => finish wr (putSink w s)
    | .error e => failAppend s.bw.freeSpan e s) s

/-- BW_FLUSH (41_bitstream.md R154). -/
def execBwFlush (wr : Option Word) (s : State) : Step :=
  guarded (planBwFlush s) wr (fun s =>
    match s.bw.sink.flush with
    | .ok w => finish wr (setResults w.count 0 0 0 (putSink w s))
    | .error e => failAppend s.bw.freeSpan e s) s

/-- BR_INIT (41_bitstream.md R155). -/
def execBrInit (base len : Word) (wr : Option Word) (s : State) : Step :=
  guarded (planBrInit base len) wr (fun s => finish wr { s with br := ⟨base, len, 0⟩ }) s

/-- BR_BITS (41_bitstream.md R156). A failing read leaves BR_POS as it is (60_exceptions.md R321). The bits are read one
by one from the buffer, as R151 writes it. -/
def execBrBits (n : Nat) (wr : Option Word) (s : State) : Step :=
  guarded (planBrBits n s) wr (fun s =>
    let pos := s.br.pos.toNat
    if pos + n ≤ 8 * s.br.len.toNat then
      let v := bitsValue 0 ((List.range n).map fun i => bufferBit s.mem s.br.base.toNat (pos + i))
      finish wr (setResults v (pos + n) 0 0 (putReaderPos (pos + n) s))
    else errorStop (truncatedInput pos) s) s

end Sys2Proof.Machine
end

