-- ==== Sys2Proof/Machine/Huffman.lean ====
section
/-! DEFINITION. The Huffman table builder, encoder and decoder, and the encoder's table planning (46_huffman.md). -/

namespace Sys2Proof.Machine

/-! ### Tables (46_huffman.md R230, R233) -/

/-- The largest of a list of numbers, 0 for none. -/
def maxOf (xs : List Nat) : Nat := xs.foldl max 0

/-- The smallest of a list of numbers, 0 for none. -/
def minOf (xs : List Nat) : Nat := xs.min?.getD 0

/-- The Kraft sum in units of 2^-20 (46_huffman.md R230). -/
def kraftSum (lens : List Nat) : Nat := (lens.map fun l => 2 ^ (Config.maxCodeLen - l)).sum

/-- A code length is legal (46_huffman.md R230). -/
def lengthOk (l : Nat) : Bool := 1 ≤ l && l ≤ Config.maxCodeLen

/-- `check_table(len)`: the error it raises, if any (46_huffman.md R230). -/
def checkTable (lens : List Nat) : Option EngineError :=
  if !lens.all lengthOk then some { code := .huffmanOverflow }
  else if 2 ^ Config.maxCodeLen < kraftSum lens then some { code := .invalidHuffmanCode }
  else none

/-- The first error of a list of tables in order (46_huffman.md R238). -/
def checkTables : List (List Nat) → Option EngineError
  | [] => none
  | t :: ts => match checkTable t with
    | some e => some e
    | none => checkTables ts

/-- The value of `vec` when the loop of `huf_codes` reaches length `n` (46_huffman.md R233). -/
def firstCode (lens : List Nat) : Nat → Nat
  | 0 => 0
  | n + 1 => 2 * (firstCode lens n + lens.count n)

/-- The code of symbol `i`: the first code of its length plus the number of lower symbols of the same length
(46_huffman.md R233). -/
def codeOf (lens : List Nat) (i : Nat) : Nat :=
  let l := lens.getD i 0
  firstCode lens l + (lens.take i).count l

/-- `huf_codes(len)` on a valid table (46_huffman.md R233). -/
def hufCodes (lens : List Nat) : List Nat :=
  (List.range lens.length).map (codeOf lens)

/-- A table with its codes: the (length, code) of each symbol. -/
abbrev CodeTable := List (Nat × Nat)

/-- The code table of valid lengths (46_huffman.md R233). -/
def codeTable (lens : List Nat) : CodeTable := lens.zip (hufCodes lens)

/-! ### The table builder (46_huffman.md R231) -/

/-- The tree under construction. -/
inductive HufTree where
  | leaf (sym : Nat)
  | node (left right : HufTree)
  deriving DecidableEq, Repr

/-- A node of the queue Q with its (weight, seq) pair (46_huffman.md R231). -/
structure HufNode where
  weight : Nat
  seq : Nat
  tree : HufTree
  deriving DecidableEq, Repr

/-- Pairs compare by weight, then by seq (46_huffman.md R231). -/
def HufNode.before (x y : HufNode) : Bool :=
  x.weight < y.weight || (x.weight == y.weight && x.seq < y.seq)

/-- A node put at its place in a queue kept in increasing order. -/
def enqueue (x : HufNode) : List HufNode → List HufNode
  | [] => [x]
  | y :: ys => if x.before y then x :: y :: ys else y :: enqueue x ys

/-- The merging loop of `depths`: the two first nodes of the queue become the children of a new one (46_huffman.md R231).
`fuel` is the queue's length. -/
def mergeNodes : Nat → Nat → List HufNode → Option HufTree
  | _, _, [] => none
  | _, _, [x] => some x.tree
  | 0, _, _ :: _ :: _ => none
  | fuel + 1, next, x :: y :: q =>
    mergeNodes fuel (next + 1) (enqueue ⟨x.weight + y.weight, next, .node x.tree y.tree⟩ q)

/-- The (symbol, depth) pairs of a tree whose root has depth `d`. -/
def leafDepths : HufTree → Nat → List (Nat × Nat)
  | .leaf sym, d => [(sym, d)]
  | .node l r, d => leafDepths l (d + 1) ++ leafDepths r (d + 1)

/-- The leaves of the weights, symbol `i` with seq `i` (46_huffman.md R231). -/
def leafNodes (w : List Nat) : List HufNode :=
  w.zipIdx.map fun p => ⟨p.1, p.2, .leaf p.2⟩

/-- `depths(w)` (46_huffman.md R231). -/
def hufDepths (w : List Nat) : List Nat :=
  match mergeNodes w.length w.length ((leafNodes w).foldr enqueue []) with
  | some t =>
    let ds := leafDepths t 0
    (List.range w.length).map fun i => (ds.lookup i).getD 0
  | none => []

/-- The loop of `huf_len` (46_huffman.md R231): lengths and rounds. `fuel` bounds the rounds, notes/assumptions/16.md. -/
def hufLenLoop : Nat → Nat → List Nat → List Nat × Nat
  | 0, rounds, w => (hufDepths w, rounds)
  | fuel + 1, rounds, w =>
    let d := hufDepths w
    if maxOf d ≤ Config.maxCodeLen then (d, rounds)
    else hufLenLoop fuel (rounds + 1) (w.map fun x => 1 + x / 2)

/-- `huf_len(f)` (46_huffman.md R231). -/
def hufLen (f : List Nat) : List Nat × Nat :=
  let w := f.map fun x => max x 1
  hufLenLoop ((maxOf w).log2 + 2) 0 w

/-! ### Group coding (46_huffman.md R235, R236) -/

/-- The bits of one symbol's code (46_huffman.md R236). -/
def symbolBits (t : CodeTable) (sym : Nat) : List Bool :=
  match t[sym]? with
  | some (len, code) => bitsMSB code len
  | none => []

/-- The bits `huf_enc` writes: group g of the symbols with table sel[g] (46_huffman.md R236). -/
def hufEncBits (tables : List CodeTable) : List Nat → List Nat → List Bool
  | [], _ => []
  | t :: sel, syms =>
    (syms.take Config.groupSize).flatMap (symbolBits (tables.getD t [])) ++
      hufEncBits tables sel (syms.drop Config.groupSize)

/-- `huf_sym(Rd, len, code)` after `l` bits of value `v` (46_huffman.md R235); `fuel` is max(len) - l. -/
def hufSymFrom (t : CodeTable) : Nat → Nat → Nat → BitReader → Except EngineError (Nat × BitReader)
  | 0, _, _, _ => .error { code := .invalidHuffmanCode }
  | fuel + 1, l, v, r =>
    match r.readBits 1 with
    | .error e => .error e
    | .ok (b, r) =>
      match t.idxOf? (l + 1, 2 * v + b) with
      | some i => .ok (i, r)
      | none => hufSymFrom t fuel (l + 1) (2 * v + b) r

/-- `huf_sym(Rd, len, code)` (46_huffman.md R235). -/
def hufSym (t : CodeTable) (r : BitReader) : Except EngineError (Nat × BitReader) :=
  hufSymFrom t (maxOf (t.map (·.1))) 0 0 r

/-- Up to `n` symbols of a group given to the consumer; true when EOB was met (46_huffman.md R236). -/
def hufGroup {σ : Type} (emit : σ → Nat → Except EngineError σ) (eob : Nat) (t : CodeTable) :
    Nat → σ → BitReader → Except EngineError (Bool × σ × BitReader)
  | 0, st, r => .ok (false, st, r)
  | n + 1, st, r =>
    match hufSym t r with
    | .error e => .error e
    | .ok (sym, r) =>
      match emit st sym with
      | .error e => .error e
      | .ok st => if sym = eob then .ok (true, st, r) else hufGroup emit eob t n st r

/-- `huf_dec(Rd, sel, nSel, len_t, EOB, emit)` (46_huffman.md R236); no selector is read beyond the group of EOB. -/
def hufDec {σ : Type} (emit : σ → Nat → Except EngineError σ) (eob : Nat) (tables : List CodeTable) :
    List Nat → σ → BitReader → Except EngineError (σ × BitReader)
  | [], _, _ => .error (formatError 7)
  | t :: sel, st, r =>
    match hufGroup emit eob (tables.getD t []) Config.groupSize st r with
    | .error e => .error e
    | .ok (true, st, r) => .ok (st, r)
    | .ok (false, st, r) => hufDec emit eob tables sel st r

/-! ### Planning (46_huffman.md R242) -/

/-- The symbols in groups of 50 (46_huffman.md R236). -/
def symbolGroups : Nat → List Nat → List (List Nat)
  | 0, _ => []
  | n + 1, syms => syms.take Config.groupSize :: symbolGroups n (syms.drop Config.groupSize)

/-- The number of tables for a symbol count (46_huffman.md R242). -/
def planGroupCount (n : Nat) : Nat :=
  if n < 200 then 2 else if n < 600 then 3 else if n < 1200 then 4 else if n < 2400 then 5 else 6

/-- `tables(sel)`: the lengths built from the symbols of each table's groups (46_huffman.md R242). -/
def planTables (a nGroups : Nat) (groups : List (List Nat)) (sel : List Nat) : List (List Nat) :=
  (List.range nGroups).map fun t =>
    let syms := ((groups.zip sel).filter (fun p => p.2 == t)).flatMap (·.1)
    (hufLen ((List.range a).map fun x => syms.count x)).1

/-- The bits of a group's symbols under a table (46_huffman.md R242). -/
def groupCost (lens : List Nat) (group : List Nat) : Nat :=
  (group.map fun x => lens.getD x 0).sum

/-- The lowest index of a least element (46_huffman.md R242). -/
def indexOfMin (xs : List Nat) : Nat := xs.idxOf (minOf xs)

/-- One reassignment pass: each group goes to its cheapest table, the lowest on a tie (46_huffman.md R242). -/
def reassign (groups : List (List Nat)) (tables : List (List Nat)) : List Nat :=
  groups.map fun g => indexOfMin (tables.map fun lens => groupCost lens g)

/-- The passes of `huf_plan`: tables rebuilt, then groups reassigned (46_huffman.md R242). -/
def refinePlan (a nGroups : Nat) (groups : List (List Nat)) : Nat → List Nat → List Nat
  | 0, sel => sel
  | n + 1, sel => refinePlan a nGroups groups n (reassign groups (planTables a nGroups groups sel))

/-- `huf_plan(S, a)`: the number of tables, the selectors and the tables (46_huffman.md R242). -/
def hufPlan (syms : List Nat) (a : Nat) : Nat × List Nat × List (List Nat) :=
  let nGroups := planGroupCount syms.length
  let nSel := groupCount syms.length
  let groups := symbolGroups nSel syms
  let sel := refinePlan a nGroups groups Config.nIters ((List.range nSel).map fun g => g * nGroups / nSel)
  (nGroups, sel, planTables a nGroups groups sel)

/-! ### The commands -/

/-- HUF_LEN (46_huffman.md R231). -/
def execHufLen (freq alphaSize dst : Word) (wr : Option Word) (s : State) : Step :=
  guarded (planHufLen freq alphaSize dst) wr (fun s =>
    let r := hufLen (s.mem.readArray freq.toNat 4 alphaSize.toNat)
    finish wr (setResults (maxOf r.1) r.2 0 0 (storeBytes dst.toNat (arrayBytes 1 r.1) s))) s

/-- HUF_CODES (46_huffman.md R234). -/
def execHufCodes (lengths alphaSize dst : Word) (wr : Option Word) (s : State) : Step :=
  guarded (planHufCodes lengths alphaSize dst) wr (fun s =>
    let lens := s.mem.readArray lengths.toNat 1 alphaSize.toNat
    match checkTable lens with
    | none => finish wr (setResults (minOf lens) (maxOf lens) 0 0
        (storeBytes dst.toNat (arrayBytes 4 (hufCodes lens)) s))
    | some e => failSpans [⟨dst.toNat, 4 * alphaSize.toNat⟩] e s) s

/-- The table set in memory: table t at `C + t × alphaSize` (46_huffman.md R237). -/
def readTableSet (m : Memory) (addr g a : Nat) : List (List Nat) :=
  (List.range g).map fun t => m.readArray (addr + t * a) 1 a

/-- The selector check of HUF_ENC and HUF_DEC: INVALID_PARAMETER 1 (46_huffman.md R238, R240). -/
def checkSelectors (g : Nat) (sel : List Nat) : Option EngineError :=
  if sel.all (· < g) then none else some (invalidParameter 1)

/-- HUF_ENC's value checks in order: tables, selectors, symbols (46_huffman.md R238). -/
def checkHufEnc (g a : Nat) (tables : List (List Nat)) (sel syms : List Nat) : Option EngineError :=
  match checkTables tables with
  | some e => some e
  | none => match checkSelectors g sel with
    | some e => some e
    | none => if syms.all (· < a) then none else some { code := .invalidSymbol }

/-- HUF_ENC's RESULT0 for `n` bits appended (46_huffman.md R238). DESIGN CHOICE, notes/assumptions/29.md: from 2^32 on the
count does not fit the register, no rule bounds it or takes it mod 2^32 (00_scope.md R9, 30_encoding.md R95), and the
register holds a free value. -/
def bitCountResult (n : Nat) : Word :=
  if n < 2 ^ 32 then BitVec.ofNat 32 n else Config.freeBitCount n

/-- HUF_ENC (46_huffman.md R238). Its value checks come before the first bit written, so their errors change nothing else
(60_exceptions.md R321, notes/assumptions/27.md). -/
def execHufEnc (g : Nat) (syms count tables selectors alphaSize : Word) (wr : Option Word) (s : State) : Step :=
  guarded (planHufEnc g syms count tables selectors alphaSize s) wr (fun s =>
    let symbols := s.mem.readArray syms.toNat 2 count.toNat
    let lens := readTableSet s.mem tables.toNat g alphaSize.toNat
    let sel := s.mem.readArray selectors.toNat 1 (groupCount count.toNat)
    match checkHufEnc g alphaSize.toNat lens sel symbols with
    | some e => errorStop e s
    | none =>
      match s.bw.sink.writeAll (hufEncBits (lens.map codeTable) sel symbols) with
      | .ok w => finish wr (setResults (bitCountResult (w.bitCount - s.bw.sink.bitCount)).toNat 0 0 0 (putSink w s))
      | .error e => failAppend s.bw.freeSpan e s) s

/-- HUF_DEC's consumer: the symbols stored so far, newest first, with their number; a symbol beyond the capacity raises
OUTPUT_BUFFER_TOO_SMALL (46_huffman.md R240). -/
def storeSymbol (cap : Nat) (st : List Nat × Nat) (sym : Nat) : Except EngineError (List Nat × Nat) :=
  if st.2 < cap then .ok (sym :: st.1, st.2 + 1) else .error outputTooSmall

/-- What HUF_DEC computes: its value checks, then the decoding (46_huffman.md R240). -/
def hufDecode (g cap eob : Nat) (lens : List (List Nat)) (sel : List Nat) (r : BitReader) :
    Except EngineError (List Nat × BitReader) :=
  match checkTables lens with
  | some e => .error e
  | none => match checkSelectors g sel with
    | some e => .error e
    | none => match hufDec (storeSymbol cap) eob (lens.map codeTable) sel ([], 0) r with
      | .error e => .error e
      | .ok (st, r) => .ok (st.1.reverse, r)

/-- HUF_DEC (46_huffman.md R240). -/
def execHufDec (g : Nat) (dst cap tables selectors alphaSize nSel : Word) (wr : Option Word) (s : State) : Step :=
  guarded (planHufDec g dst cap tables selectors alphaSize nSel s) wr (fun s =>
    match hufDecode g cap.toNat (alphaSize.toNat - 1) (readTableSet s.mem tables.toNat g alphaSize.toNat)
        (s.mem.readArray selectors.toNat 1 nSel.toNat) (registerReader s) with
    | .ok (symbols, r) => finish wr (setResults symbols.length (r.pos - s.br.pos.toNat) 0 0
        (putReaderPos r.pos (storeBytes dst.toNat (arrayBytes 2 symbols) s)))
    | .error e => failRead ⟨dst.toNat, 2 * cap.toNat⟩ e s) s

end Sys2Proof.Machine
end

