-- ==== Sys2Proof/Machine/Bwt.lean ====
section
/-! DEFINITION. The rotation sorter and the permutation generator (44_bwt.md). The sort's method is not specified
(44_bwt.md, 00_scope.md R6): only its result is. -/

namespace Sys2Proof.Machine

/-! ### Sorting -/

/-- `x` and then the merge of the lists `k` stands for with the second list, each element at its place. -/
def mergeHead {α : Type} (le : α → α → Bool) (x : α) (k : List α → List α) : List α → List α
  | [] => x :: k []
  | y :: ys => if le x y then x :: k (y :: ys) else y :: mergeHead le x k ys

/-- The merge of two sorted lists. -/
def mergeSorted {α : Type} (le : α → α → Bool) : List α → List α → List α
  | [] => id
  | x :: xs => mergeHead le x (mergeSorted le xs)

/-- The lists merged two by two. -/
def mergePairs {α : Type} (le : α → α → Bool) : List (List α) → List (List α)
  | a :: b :: rest => mergeSorted le a b :: mergePairs le rest
  | rest => rest

/-- The lists merged into one in at most `fuel` rounds. -/
def mergeRounds {α : Type} (le : α → α → Bool) : Nat → List (List α) → List α
  | 0, ls => ls.foldr (mergeSorted le) []
  | _ + 1, [] => []
  | _ + 1, [l] => l
  | fuel + 1, l :: l' :: ls => mergeRounds le fuel (mergePairs le (l :: l' :: ls))

/-- The list sorted by `le`. -/
def sortBy {α : Type} (le : α → α → Bool) (xs : List α) : List α :=
  mergeRounds le xs.length (xs.map fun x => [x])

/-! ### Rotations (44_bwt.md R190) -/

/-- Rotation `i` of a block: `B[i..n) ++ B[0..i)` (44_bwt.md R190). -/
def rotation (block : List Byte) (i : Nat) : List Byte :=
  block.drop i ++ block.take i

/-- The lexicographic order of byte sequences, bytes unsigned (44_bwt.md R190). -/
def compareBytes : List Byte → List Byte → Ordering
  | [], [] => .eq
  | [], _ :: _ => .lt
  | _ :: _, [] => .gt
  | a :: as, b :: bs => if a.toNat < b.toNat then .lt else if b.toNat < a.toNat then .gt else compareBytes as bs

/-- Two rotations with their start indices, in the order of 44_bwt.md R190: by bytes, then by start index. -/
def rotationLe (a b : List Byte × Nat) : Bool :=
  match compareBytes a.1 b.1 with
  | .lt => true
  | .gt => false
  | .eq => a.2 ≤ b.2

/-- `SA`, the sorted index array (44_bwt.md R190). -/
def sortedIndices (block : List Byte) : List Nat :=
  (sortBy rotationLe ((List.range block.length).map fun i => (rotation block i, i))).map (·.2)

/-- `L`, the last characters of the sorted rotations (44_bwt.md R191). -/
def lastColumn (block : List Byte) (sa : List Nat) : List Byte :=
  let b := block.toArray
  sa.map fun i => b.getD ((i + block.length - 1) % block.length) 0

/-- `origPtr`, the row of rotation 0 (44_bwt.md R191). -/
def originRow (sa : List Nat) : Nat := sa.idxOf 0

/-! ### The inverse (44_bwt.md R194, R195) -/

/-- Every byte value, in increasing order. -/
def allBytes : List Byte := (List.range 256).map (BitVec.ofNat 8)

/-- The positions of `c` in `l`, in increasing order, the first element being at position `i`. -/
def positionsOf (c : Byte) : Nat → List Byte → List Nat
  | _, [] => []
  | i, x :: xs => if x = c then i :: positionsOf c (i + 1) xs else positionsOf c (i + 1) xs

/-- `T`, the next-character vector: the positions of L in the order of a stable counting sort of L by byte value
(44_bwt.md R194). -/
def nextVector (l : List Byte) : List Nat :=
  allBytes.flatMap fun c => positionsOf c 0 l

/-- The walk of 44_bwt.md R195: `n` bytes from position `p` on. -/
def walk (l : Array Byte) (t : Array Nat) : Nat → Nat → List Byte
  | 0, _ => []
  | n + 1, p => l.getD p 0 :: walk l t n (t.getD p 0)

/-- The block of a last column and an origin row (44_bwt.md R195). -/
def bwtInverse (l : List Byte) (origPtr : Nat) : List Byte :=
  let t := (nextVector l).toArray
  walk l.toArray t l.length (t.getD origPtr 0)

/-! ### The commands -/

/-- An optional u32 array is stored when its address is given (44_bwt.md R191, R195). -/
def storeWords (a : Option Word) (vs : List Nat) (s : State) : State :=
  match a with
  | none => s
  | some a => storeBytes a.toNat (arrayBytes 4 vs) s

/-- BWT_FWD (44_bwt.md R191); `sa` is `some` D when SA = 1. -/
def execBwtFwd (src n dst : Word) (sa : Option Word) (wr : Option Word) (s : State) : Step :=
  guarded (planBwtFwd src n dst sa) wr (fun s =>
    let block := s.mem.readBytes src.toNat n.toNat
    let order := sortedIndices block
    finish wr (setResults (originRow order) n.toNat 0 0
      (storeWords sa order (storeBytes dst.toNat (lastColumn block order) s)))) s

/-- BWT_INV (44_bwt.md R195); `tv` is `some` E when TV = 1. INVALID_ORIGIN_POINTER comes before the first write, so it
leaves memory as it is (60_exceptions.md R321, notes/assumptions/9.md). -/
def execBwtInv (src n origPtr dst : Word) (tv : Option Word) (wr : Option Word) (s : State) : Step :=
  guarded (planBwtInv src n dst tv) wr (fun s =>
    let l := s.mem.readBytes src.toNat n.toNat
    if origPtr.toNat < n.toNat then
      finish wr (setResults n.toNat 0 0 0
        (storeWords tv (nextVector l) (storeBytes dst.toNat (bwtInverse l origPtr.toNat) s)))
    else errorStop { code := .invalidOriginPointer } s) s

end Sys2Proof.Machine
end

