-- ==== Sys2Proof/Machine/Mtf.lean ====
section
/-! DEFINITION. The MTF + RLE2 coder and decoder (45_mtf_rle2.md). -/

namespace Sys2Proof.Machine

/-! ### Alphabet and list (45_mtf_rle2.md R210, R211, R216) -/

/-- `used(X)`: the byte values that occur, in increasing order (45_mtf_rle2.md R210). -/
def usedBytes (xs : List Byte) : List Byte :=
  allBytes.filter fun c => xs.contains c

/-- `movefront(lst, j)` (45_mtf_rle2.md R211). -/
def moveFront {α : Type} (lst : List α) (j : Nat) : List α :=
  match lst[j]? with
  | some x => x :: lst.eraseIdx j
  | none => lst

/-- The byte at offset `i` of a used map: bit v mod 8 of byte v div 8 marks value v (45_mtf_rle2.md R216). -/
def usedMapByte (used : List Byte) (i : Nat) : Byte :=
  BitVec.ofNat 8 (((List.range 8).map fun j =>
    if used.contains (BitVec.ofNat 8 (8 * i + j)) then 2 ^ j else 0).sum)

/-- The 32-byte used map of a list of byte values (45_mtf_rle2.md R216). -/
def usedMap (used : List Byte) : List Byte :=
  (List.range 32).map (usedMapByte used)

/-- The byte values a used map marks, in increasing order (45_mtf_rle2.md R216). -/
def markedBytes (map : List Byte) : List Byte :=
  allBytes.filter fun v => (map.getD (v.toNat / 8) 0).getLsbD (v.toNat % 8)

/-! ### The encoder (45_mtf_rle2.md R212) -/

/-- The list position of each byte, the byte then moved to the front (45_mtf_rle2.md R212). -/
def mtfRanks : List Byte → List Byte → List Nat
  | _, [] => []
  | lst, b :: bs =>
    let j := lst.idxOf b
    j :: mtfRanks (moveFront lst j) bs

/-- The loop of `runsyms` (45_mtf_rle2.md R212); `fuel` bounds its rounds. -/
def runDigits : Nat → Nat → List Nat
  | 0, _ => []
  | fuel + 1, z => z % 2 :: (if z < 2 then [] else runDigits fuel ((z - 2) / 2))

/-- `runsyms(z)`, least significant digit first, RUNA = 0 and RUNB = 1; nothing for z = 0 (45_mtf_rle2.md R212). -/
def runSymbols (z : Nat) : List Nat :=
  if z = 0 then [] else runDigits z (z - 1)

/-- The symbols of a rank sequence after `z` ranks 0: runs by `runsyms`, rank j >= 1 as j + 1, then EOB
(45_mtf_rle2.md R212). -/
def rle2From (eob : Nat) : Nat → List Nat → List Nat
  | z, [] => runSymbols z ++ [eob]
  | z, 0 :: rs => rle2From eob (z + 1) rs
  | z, (j + 1) :: rs => runSymbols z ++ (j + 2) :: rle2From eob 0 rs

/-- `mtf_enc(L)` (45_mtf_rle2.md R212). -/
def mtfEnc (l : List Byte) : List Nat :=
  let used := usedBytes l
  rle2From (used.length + 1) 0 (mtfRanks used l)

/-! ### The decoder (45_mtf_rle2.md R214) -/

/-- The decoder's variables: `lst`, `out` newest first with its length, `es`, `N` (45_mtf_rle2.md R214). -/
structure MtfState where
  lst : List Byte
  out : List Byte
  outLen : Nat
  es : Nat
  weight : Nat
  deriving DecidableEq, Repr

/-- The decoder before its first symbol (45_mtf_rle2.md R214). -/
def mtfStart (used : List Byte) : MtfState := ⟨used, [], 0, 0, 1⟩

/-- A pending run is emitted as copies of the front of the list (45_mtf_rle2.md R214). -/
def MtfState.flushRun (d : MtfState) : MtfState :=
  { d with
    out := List.replicate d.es (d.lst.getD 0 0) ++ d.out
    outLen := d.outLen + d.es
    es := 0
    weight := 1 }

/-- One iteration of the loop of `mtf_dec` (45_mtf_rle2.md R214), with the limit and its error; after EOB the caller
stops. -/
def mtfStep (eob lim : Nat) (limitError : EngineError) (d : MtfState) (sym : Nat) : Except EngineError MtfState :=
  if eob < sym then .error { code := .invalidSymbol }
  else if sym ≤ 1 then
    let es := d.es + (sym + 1) * d.weight
    if d.outLen + es ≤ lim then .ok { d with es := es, weight := 2 * d.weight } else .error limitError
  else
    let d := d.flushRun
    if sym = eob then .ok d
    else match d.lst[sym - 1]? with
      | none => .error { code := .invalidSymbol }
      | some b =>
        if d.outLen + 1 ≤ lim then
          .ok { d with lst := moveFront d.lst (sym - 1), out := b :: d.out, outLen := d.outLen + 1 }
        else .error limitError

/-- The loop of `mtf_dec` over the symbols from number `k` on: the decoder at EOB and the number of symbols used; symbols
after EOB are not read (45_mtf_rle2.md R214). -/
def mtfDecFrom (eob lim : Nat) (limitError : EngineError) : Nat → MtfState → List Nat →
    Except EngineError (MtfState × Nat)
  | _, _, [] => .error (formatError 9)
  | k, d, sym :: syms =>
    match mtfStep eob lim limitError d sym with
    | .error e => .error e
    | .ok d => if sym = eob then .ok (d, k + 1) else mtfDecFrom eob lim limitError (k + 1) d syms

/-- `mtf_dec(S, U, lim, LE)` (45_mtf_rle2.md R214). -/
def mtfDec (syms : List Nat) (used : List Byte) (lim : Nat) (limitError : EngineError) :
    Except EngineError (List Byte × Nat) :=
  match mtfDecFrom (used.length + 1) lim limitError 0 (mtfStart used) syms with
  | .error e => .error e
  | .ok (d, k) => .ok (d.out.reverse, k)

/-! ### The commands -/

/-- MTF_ENC (45_mtf_rle2.md R213). -/
def execMtfEnc (src n dst cap map : Word) (wr : Option Word) (s : State) : Step :=
  guarded (planMtfEnc src n dst cap map) wr (fun s =>
    let x := s.mem.readBytes src.toNat n.toNat
    let syms := mtfEnc x
    let used := usedBytes x
    if syms.length ≤ cap.toNat then
      finish wr (setResults syms.length used.length (used.length + 1) 0
        (storeBytes map.toNat (usedMap used) (storeBytes dst.toNat (arrayBytes 2 syms) s)))
    else failSpans [⟨dst.toNat, 2 * cap.toNat⟩, ⟨map.toNat, 32⟩] outputTooSmall s) s

/-- What MTF_DEC computes from its inputs: an empty used map is NO_SYMBOLS, FORMAT_ERROR 3 (45_mtf_rle2.md R215). -/
def mtfDecode (syms : List Nat) (map : List Byte) (cap : Nat) : Except EngineError (List Byte × Nat) :=
  if markedBytes map = [] then .error (formatError 3) else mtfDec syms (markedBytes map) cap outputTooSmall

/-- MTF_DEC (45_mtf_rle2.md R215). -/
def execMtfDec (src count map dst cap : Word) (wr : Option Word) (s : State) : Step :=
  guarded (planMtfDec src count map dst cap) wr (fun s =>
    match mtfDecode (s.mem.readArray src.toNat 2 count.toNat) (s.mem.readBytes map.toNat 32) cap.toNat with
    | .ok (out, used) => finish wr (setResults out.length used 0 0 (storeBytes dst.toNat out s))
    | .error e => failSpans [⟨dst.toNat, cap.toNat⟩] e s) s

end Sys2Proof.Machine
end

