-- ==== Sys2Proof/Machine/Rle1.lean ====
section
/-! DEFINITION. The RLE1 run-length encoder and decoder (43_rle1.md). -/

namespace Sys2Proof.Machine

/-- A run of `r` copies of one byte value, 1 <= r <= 255 (43_rle1.md R180). -/
abbrev Chunk := Byte × Nat

/-- The chunks of `r` copies of `b` followed by the input (43_rle1.md R180). -/
def chunksFrom (b : Byte) (r : Nat) : List Byte → List Chunk
  | [] => [(b, r)]
  | x :: xs => if x = b ∧ r < Config.rle1RunMax then chunksFrom b (r + 1) xs else (b, r) :: chunksFrom x 1 xs

/-- `chunks(S)` (43_rle1.md R180). -/
def chunks : List Byte → List Chunk
  | [] => []
  | x :: xs => chunksFrom x 1 xs

/-- `enc(b, r)` (43_rle1.md R180). -/
def chunkCode (c : Chunk) : List Byte :=
  if c.2 ≤ 3 then List.replicate c.2 c.1 else List.replicate 4 c.1 ++ [BitVec.ofNat 8 (c.2 - 4)]

/-- `rle1_enc(S)` (43_rle1.md R180). -/
def rle1Enc (bytes : List Byte) : List Byte :=
  (chunks bytes).flatMap chunkCode

/-- The decoder of 43_rle1.md R182 after some bytes: the run it is in and its count, `none` after a count byte or at the
start; a count of 4 means that the next byte is a count byte. -/
def rle1DecFrom : Option Chunk → List Byte → Except EngineError (List Byte)
  | some (_, 4), [] => .error { code := .malformedRunLength }
  | _, [] => .ok []
  | some (prev, 4), x :: xs => (rle1DecFrom none xs).map (List.replicate x.toNat prev ++ ·)
  | some (prev, cnt), x :: xs =>
    (rle1DecFrom (if x = prev then some (prev, cnt + 1) else some (x, 1)) xs).map (x :: ·)
  | none, x :: xs => (rle1DecFrom (some (x, 1)) xs).map (x :: ·)

/-- `rle1_dec(E)` (43_rle1.md R182). -/
def rle1Dec (bytes : List Byte) : Except EngineError (List Byte) :=
  rle1DecFrom none bytes

/-- The end of a command whose only write is a byte string to `(dst, cap)` with its length as the result; a string that
does not fit raises OUTPUT_BUFFER_TOO_SMALL and leaves the range unspecified (43_rle1.md R181, R183). -/
def finishBytes (dst cap : Word) (out : List Byte) (wr : Option Word) (s : State) : State :=
  if out.length ≤ cap.toNat then finish wr (setResults out.length 0 0 0 (storeBytes dst.toNat out s))
  else failSpans [⟨dst.toNat, cap.toNat⟩] outputTooSmall s

/-- RLE1_ENC (43_rle1.md R181). -/
def execRle1Enc (src len dst cap : Word) (wr : Option Word) (s : State) : Step :=
  guarded (planRle1 src len dst cap) wr (fun s =>
    finishBytes dst cap (rle1Enc (s.mem.readBytes src.toNat len.toNat)) wr s) s

/-- RLE1_DEC (43_rle1.md R183): MALFORMED_RUN_LENGTH comes before the capacity check. -/
def execRle1Dec (src len dst cap : Word) (wr : Option Word) (s : State) : Step :=
  guarded (planRle1 src len dst cap) wr (fun s =>
    match rle1Dec (s.mem.readBytes src.toNat len.toNat) with
    | .ok out => finishBytes dst cap out wr s
    | .error e => failSpans [⟨dst.toNat, cap.toNat⟩] e s) s

end Sys2Proof.Machine
end

