-- ==== Sys2Proof/Machine/Block.lean ====
section
/-! DEFINITION. The block assembler and disassembler (47_block_stream.md R260 to R276), in the wire format of
30_encoding.md R112 to R117. -/

namespace Sys2Proof.Machine

/-! ### Writing (47_block_stream.md R260, R261) -/

/-- The values 16 i .. 16 i + 15 that are used, as 16 bits (30_encoding.md R113). -/
def usedRangeBits (used : List Byte) (i : Nat) : List Bool :=
  (List.range 16).map fun j => used.contains (BitVec.ofNat 8 (16 * i + j))

/-- `write_used(W, U)` (47_block_stream.md R261). -/
def usedBits (used : List Byte) : List Bool :=
  let ranges := (List.range 16).map (usedRangeBits used)
  ranges.map (fun r => r.any id) ++ (ranges.filter fun r => r.any id).flatten

/-- `write_selectors(W, sel, nGroups)` from a given list state: position j as j ones and a zero (47_block_stream.md
R261). -/
def selectorBitsFrom : List Nat → List Nat → List Bool
  | _, [] => []
  | lst, s :: sel =>
    let j := lst.idxOf s
    bitsMSB (2 ^ (j + 1) - 2) (j + 1) ++ selectorBitsFrom (moveFront lst j) sel

/-- `write_selectors(W, sel, nGroups)` (47_block_stream.md R261). -/
def selectorBits (nGroups : Nat) (sel : List Nat) : List Bool :=
  selectorBitsFrom (List.range nGroups) sel

/-- The steps from `cur` to a length, then the terminating 0: "10" is + 1, "11" is - 1 (47_block_stream.md R261). -/
def stepBits (cur len : Nat) : List Bool :=
  (List.replicate (len - cur) [true, false]).flatten ++ (List.replicate (cur - len) [true, true]).flatten ++ [false]

/-- The step sequences of a table from the current value on (47_block_stream.md R261). -/
def lengthBitsFrom : Nat → List Nat → List Bool
  | _, [] => []
  | cur, l :: ls => stepBits cur l ++ lengthBitsFrom l ls

/-- `write_lengths(W, len)` (47_block_stream.md R261). -/
def lengthBits (lens : List Nat) : List Bool :=
  bitsMSB (lens.headD 0) 5 ++ lengthBitsFrom (lens.headD 0) lens

/-- What `blk_write` writes and returns (47_block_stream.md R260). -/
structure BlockCode where
  bits : List Bool
  origPtr : Nat
  nGroups : Nat
  nSel : Nat
  deriving DecidableEq, Repr

/-- `blk_write(W, P, c)` as the bit string it writes with what it returns (47_block_stream.md R260, 30_encoding.md R112). -/
def blockCode (block : List Byte) (crc : Word) : BlockCode :=
  let order := sortedIndices block
  let l := lastColumn block order
  let syms := mtfEnc l
  let used := usedBytes l
  let plan := hufPlan syms (used.length + 2)
  { bits :=
      bitsMSB Config.blockMagic 48 ++ bitsMSB crc.toNat 32 ++ [false] ++ bitsMSB (originRow order) 24 ++
      usedBits used ++ bitsMSB plan.1 3 ++ bitsMSB plan.2.1.length 15 ++ selectorBits plan.1 plan.2.1 ++
      plan.2.2.flatMap lengthBits ++ hufEncBits (plan.2.2.map codeTable) plan.2.1 syms
    origPtr := originRow order
    nGroups := plan.1
    nSel := plan.2.1.length }

/-! ### Reading (47_block_stream.md R271, R272) -/

/-- `n` bits read one at a time, the first read first (47_block_stream.md R272). -/
def readFlags : Nat → BitReader → Except EngineError (List Bool × BitReader)
  | 0, r => .ok ([], r)
  | n + 1, r =>
    match r.readBits 1 with
    | .error e => .error e
    | .ok (b, r) =>
      match readFlags n r with
      | .error e => .error e
      | .ok (bs, r) => .ok ((b == 1) :: bs, r)

/-- The byte values of the used ranges, the level-1 bits being those of ranges `i`, `i + 1`, … (47_block_stream.md R272). -/
def readRanges : Nat → List Bool → BitReader → Except EngineError (List Byte × BitReader)
  | _, [], r => .ok ([], r)
  | i, false :: hs, r => readRanges (i + 1) hs r
  | i, true :: hs, r =>
    match readFlags 16 r with
    | .error e => .error e
    | .ok (bs, r) =>
      match readRanges (i + 1) hs r with
      | .error e => .error e
      | .ok (us, r) => .ok (((List.range 16).filter (fun j => bs.getD j false)).map
          (fun j => BitVec.ofNat 8 (16 * i + j)) ++ us, r)

/-- `read_used(Rd)` (47_block_stream.md R272). -/
def readUsed (r : BitReader) : Except EngineError (List Byte × BitReader) :=
  match readFlags 16 r with
  | .error e => .error e
  | .ok (hs, r) => readRanges 0 hs r

/-- One unary selector, `j` ones already read and at most `left` more allowed: reaching nGroups is BAD_SELECTOR
(47_block_stream.md R272). -/
def readUnary : Nat → Nat → BitReader → Except EngineError (Nat × BitReader)
  | 0, _, _ => .error (formatError 6)
  | left + 1, j, r =>
    match r.readBits 1 with
    | .error e => .error e
    | .ok (b, r) => if b = 1 then readUnary left (j + 1) r else .ok (j, r)

/-- `nSel` selectors from a given list state (47_block_stream.md R272). -/
def readSelectorsFrom (nGroups : Nat) : Nat → List Nat → BitReader → Except EngineError (List Nat × BitReader)
  | 0, _, r => .ok ([], r)
  | n + 1, lst, r =>
    match readUnary nGroups 0 r with
    | .error e => .error e
    | .ok (j, r) =>
      match readSelectorsFrom nGroups n (moveFront lst j) r with
      | .error e => .error e
      | .ok (sel, r) => .ok (lst.getD j 0 :: sel, r)

/-- `read_selectors(Rd, nSel, nGroups)` (47_block_stream.md R272). -/
def readSelectors (nSel nGroups : Nat) (r : BitReader) : Except EngineError (List Nat × BitReader) :=
  readSelectorsFrom nGroups nSel (List.range nGroups) r

/-- The step loop of `read_lengths` on the remaining bits from position `pos`: the length check runs before each bit of a
step sequence (47_block_stream.md R272). -/
def readSteps : Nat → Nat → List Bool → Except EngineError (Nat × BitReader)
  | cur, pos, [] => if lengthOk cur then .error (truncatedInput pos) else .error { code := .huffmanOverflow }
  | cur, pos, false :: rest => if lengthOk cur then .ok (cur, ⟨pos + 1, rest⟩) else .error { code := .huffmanOverflow }
  | cur, pos, [true] => if lengthOk cur then .error (truncatedInput (pos + 1)) else .error { code := .huffmanOverflow }
  | cur, pos, true :: down :: rest =>
    if lengthOk cur then readSteps (if down then cur - 1 else cur + 1) (pos + 2) rest
    else .error { code := .huffmanOverflow }

/-- The lengths of `n` symbols from the current value on (47_block_stream.md R272). -/
def readLengthsFrom : Nat → Nat → BitReader → Except EngineError (List Nat × BitReader)
  | 0, _, r => .ok ([], r)
  | n + 1, cur, r =>
    match readSteps cur r.pos r.rest with
    | .error e => .error e
    | .ok (l, r) =>
      match readLengthsFrom n l r with
      | .error e => .error e
      | .ok (ls, r) => .ok (l :: ls, r)

/-- `read_lengths(Rd, a)` (47_block_stream.md R272). -/
def readLengths (a : Nat) (r : BitReader) : Except EngineError (List Nat × BitReader) :=
  match r.readBits 5 with
  | .error e => .error e
  | .ok (cur, r) => readLengthsFrom a cur r

/-- `n` tables, each checked after it is read (47_block_stream.md R271). -/
def readTables (a : Nat) : Nat → BitReader → Except EngineError (List (List Nat) × BitReader)
  | 0, r => .ok ([], r)
  | n + 1, r =>
    match readLengths a r with
    | .error e => .error e
    | .ok (lens, r) =>
      match checkTable lens with
      | some e => .error e
      | none =>
        match readTables a n r with
        | .error e => .error e
        | .ok (ts, r) => .ok (lens :: ts, r)

/-- What `blk_read` returns (47_block_stream.md R271). -/
inductive BlockRead where
  | eos (combined : Nat)
  | block (bytes : List Byte) (crc origPtr : Nat)
  deriving DecidableEq, Repr

/-- A check of a pseudocode line (00_scope.md R13). -/
def require (ok : Bool) (e : EngineError) : Except EngineError Unit :=
  if ok then .ok () else .error e

/-- The part of `blk_read` after the block magic (47_block_stream.md R271). -/
def readBlockBody (r : BitReader) (k cap : Nat) : Except EngineError (BlockRead × BitReader) := do
  let (crc, r) ← r.readBits 32
  let (randomized, r) ← r.readBits 1
  require (randomized == 0) { code := .unsupportedLegacyFeature }
  let (origPtr, r) ← r.readBits 24
  let (used, r) ← readUsed r
  require (1 ≤ used.length) (formatError 3)
  let a := used.length + 2
  let (nGroups, r) ← r.readBits 3
  require (2 ≤ nGroups && nGroups ≤ 6) (formatError 4)
  let (nSel, r) ← r.readBits 15
  require (1 ≤ nSel) (formatError 5)
  let (sel, r) ← readSelectors nSel nGroups r
  let (lens, r) ← readTables a nGroups r
  let (d, r) ← hufDec (mtfStep (a - 1) (blockMax k) (formatError 8)) (a - 1) (lens.map codeTable) sel (mtfStart used) r
  let l := d.out.reverse
  require (origPtr < l.length) { code := .invalidOriginPointer }
  require (l.length ≤ cap) outputTooSmall
  return (.block (bwtInverse l origPtr) crc origPtr, r)

/-- `blk_read(Rd, k, cap)` (47_block_stream.md R271, errors in the order of R276). -/
def readBlock (r : BitReader) (k cap : Nat) : Except EngineError (BlockRead × BitReader) := do
  let (m, r) ← r.readBits 48
  if m = Config.eosMagic then
    let (combined, r) ← r.readBits 32
    return (.eos combined, r)
  else
    require (m == Config.blockMagic) (formatError 2)
    readBlockBody r k cap

/-! ### The commands -/

/-- BLK_ENC (47_block_stream.md R270). -/
def execBlkEnc (k : Nat) (src n blockCrc : Word) (wr : Option Word) (s : State) : Step :=
  guarded (planBlkEnc k src n s) wr (fun s =>
    let code := blockCode (s.mem.readBytes src.toNat n.toNat) blockCrc
    match s.bw.sink.writeAll code.bits with
    | .ok w => finish wr (setResults code.origPtr code.nGroups code.nSel (w.bitCount - s.bw.sink.bitCount) (putSink w s))
    | .error e => failAppend s.bw.freeSpan e s) s

/-- BLK_DEC (47_block_stream.md R275). -/
def execBlkDec (k : Nat) (dst cap : Word) (wr : Option Word) (s : State) : Step :=
  guarded (planBlkDec k dst cap s) wr (fun s =>
    match readBlock (registerReader s) k cap.toNat with
    | .ok (.eos combined, r) => finish wr (setResults 0 combined 0 0 (putReaderPos r.pos s))
    | .ok (.block bytes crc origPtr, r) =>
      finish wr (setResults bytes.length crc origPtr 1 (putReaderPos r.pos (storeBytes dst.toNat bytes s)))
    | .error e => failRead ⟨dst.toNat, cap.toNat⟩ e s) s

end Sys2Proof.Machine
end

