-- ==== Sys2Proof/Machine/Stream.lean ====
section
/-! DEFINITION. The stream encoder and decoder (47_block_stream.md R278 to R287), in the wire format of 30_encoding.md
R110, R111, R118. -/

namespace Sys2Proof.Machine

/-! ### The encoder (47_block_stream.md R278, R280) -/

/-- The raw bytes of chunks (47_block_stream.md R278). -/
def chunksRaw (cs : List Chunk) : List Byte := cs.flatMap fun c => List.replicate c.2 c.1

/-- Chunks packed in order into blocks of at most `lim` post-RLE1 bytes; `cur` is the current block, newest chunk first,
and `len` its post-RLE1 length (47_block_stream.md R278). -/
def packFrom (lim : Nat) (cur : List Chunk) (len : Nat) : List Chunk → List (List Chunk)
  | [] => [cur.reverse]
  | c :: cs =>
    let n := (chunkCode c).length
    if len + n ≤ lim then packFrom lim (c :: cur) (len + n) cs else cur.reverse :: packFrom lim [c] n cs

/-- The blocks of an input, each as its chunks; an empty input has none (47_block_stream.md R278). -/
def splitBlocks (lim : Nat) : List Chunk → List (List Chunk)
  | [] => []
  | c :: cs => packFrom lim [c] (chunkCode c).length cs

/-- The bits of the blocks with the fold of their CRCs from `comb` on (47_block_stream.md R280). -/
def blocksCode (comb : Word) : List (List Chunk) → List Bool × Word
  | [] => ([], comb)
  | b :: bs =>
    let crc := crcOf (chunksRaw b)
    let rest := blocksCode (crcFold comb crc) bs
    ((blockCode (b.flatMap chunkCode) crc).bits ++ rest.1, rest.2)

/-- The stream of an input before its pad bits, with the number of blocks and the combined CRC (47_block_stream.md R280,
30_encoding.md R110). -/
def streamCode (bytes : List Byte) (k : Nat) : List Bool × Nat × Word :=
  let blocks := splitBlocks (blockMax k) (chunks bytes)
  let body := blocksCode 0 blocks
  (bitsMSB 0x425A68 24 ++ bitsMSB (0x30 + k) 8 ++ body.1 ++ bitsMSB Config.eosMagic 48 ++ bitsMSB body.2.toNat 32,
    blocks.length, body.2)

/-- A bit string written by an internal writer over `(dst, cap)` and flushed: the bytes it stores (47_block_stream.md
R280, 10_state.md R34). -/
def packStream (cap : Nat) (bits : List Bool) : Except EngineError (List Byte) :=
  match (BitSink.mk cap 0 0 0 []).writeAll bits with
  | .error e => .error e
  | .ok w => match w.flush with
    | .error e => .error e
    | .ok w => .ok w.stored.reverse

/-- STREAM_ENC (47_block_stream.md R280). -/
def execStreamEnc (k : Nat) (src len dst cap : Word) (wr : Option Word) (s : State) : Step :=
  guarded (planStreamEnc k src len dst cap) wr (fun s =>
    let code := streamCode (s.mem.readBytes src.toNat len.toNat) k
    match packStream cap.toNat code.1 with
    | .ok out => finish wr (setResults out.length code.2.1 code.2.2.toNat 0 (storeBytes dst.toNat out s))
    | .error e => failSpans [⟨dst.toNat, cap.toNat⟩] e s) s

/-! ### The decoder (47_block_stream.md R285 to R287) -/

/-- What the decoder has done: the bytes written to C, the fold of the stored block CRCs that matched and their number. -/
structure StreamOut where
  raw : List Byte
  comb : Word
  blocks : Nat
  deriving DecidableEq, Repr

/-- How the decoder ends, with the internal reader's position: at the footer, or with an error. -/
inductive StreamEnd where
  | finished (out : StreamOut) (pos : Nat)
  | failed (e : EngineError) (out : StreamOut) (pos : Nat)
  deriving DecidableEq, Repr

/-- CHECKSUM_MISMATCH with its kind and the block index (60_exceptions.md R300, 47_block_stream.md R287). -/
abbrev checksumMismatch (sub blocks : Nat) : EngineError := { code := .checksumMismatch, info := sub, pos := blocks }

/-- The block loop (47_block_stream.md R285). Every block takes at least 48 bits, so `fuel`, one more than the number of
bits, is never used up (notes/assumptions/17.md). -/
def decodeBlocks (k cap : Nat) : Nat → StreamOut → BitReader → StreamEnd
  | 0, o, r => .failed (truncatedInput r.pos) o r.pos
  | fuel + 1, o, r =>
    match readBlock r k (blockMax k) with
    | .error e => .failed e o r.pos
    | .ok (.eos stored, r) =>
      if stored = o.comb.toNat then .finished o r.pos else .failed (checksumMismatch 1 o.blocks) o r.pos
    | .ok (.block bytes crc _, r) =>
      match rle1Dec bytes with
      | .error e => .failed e o r.pos
      | .ok raw =>
        if o.raw.length + raw.length ≤ cap then
          let o' := { o with raw := o.raw ++ raw }
          if (crcOf raw).toNat = crc then
            decodeBlocks k cap fuel { o' with comb := crcFold o.comb (crcOf raw), blocks := o.blocks + 1 } r
          else .failed (checksumMismatch 0 o.blocks) o' r.pos
        else .failed outputTooSmall o r.pos

/-- The header bytes, read and compared one at a time: the multiplier k (47_block_stream.md R285). -/
def readHeader (r : BitReader) : Except EngineError (Nat × BitReader) := do
  let (b, r) ← r.readBits 8
  require (b == 0x42) (formatError 1)
  let (z, r) ← r.readBits 8
  require (z == 0x5A) (formatError 1)
  let (h, r) ← r.readBits 8
  require (h == 0x68) (formatError 1)
  let (d, r) ← r.readBits 8
  require (0x31 ≤ d && d ≤ 0x39) (formatError 1)
  return (d - 0x30, r)

/-- STREAM_DEC's decoding of its source bytes (47_block_stream.md R285). -/
def decodeStream (bytes : List Byte) (cap : Nat) : StreamEnd :=
  let r : BitReader := ⟨0, bitsOfBytes bytes⟩
  match readHeader r with
  | .error e => .failed e ⟨[], 0, 0⟩ 0
  | .ok (k, r) => decodeBlocks k cap (r.rest.length + 1) ⟨[], 0, 0⟩ r

/-- The results of STREAM_DEC: out, blocks, the fold, and the bytes consumed (47_block_stream.md R285, R287). -/
def setStreamResults (o : StreamOut) (pos : Nat) (s : State) : State :=
  setResults o.raw.length o.blocks o.comb.toNat ((pos + 7) / 8) s

/-- The bytes of `(C, D)` beyond the defined output (47_block_stream.md R287): unspecified once the command has written,
as they were if it has written nothing (notes/assumptions/21.md). -/
def undefinedTail (dst cap : Word) (out : List Byte) : List Span :=
  if out = [] then [] else [⟨dst.toNat + out.length, cap.toNat - out.length⟩]

/-- The error stop of CHECKSUM_MISMATCH: the output so far and the results are defined (47_block_stream.md R287). -/
def failChecksum (dst cap : Word) (e : EngineError) (o : StreamOut) (pos : Nat) (s : State) : State :=
  failSpans (undefinedTail dst cap o.raw) e (setStreamResults o pos (storeBytes dst.toNat o.raw s))

/-- Any other error stop of STREAM_DEC: before the first write nothing changes, after it `(C, D)` is unspecified
(60_exceptions.md R321, notes/assumptions/9.md). -/
def failStream (dst cap : Word) (e : EngineError) (o : StreamOut) (s : State) : State :=
  failSpans (if o.raw = [] then [] else [⟨dst.toNat, cap.toNat⟩]) e s

/-- STREAM_DEC (47_block_stream.md R285 to R287). -/
def execStreamDec (src len dst cap : Word) (wr : Option Word) (s : State) : Step :=
  guarded (planStreamDec src len dst cap) wr (fun s =>
    match decodeStream (s.mem.readBytes src.toNat len.toNat) cap.toNat with
    | .finished o pos => finish wr (setStreamResults o pos (storeBytes dst.toNat o.raw s))
    | .failed e o pos =>
      if e.code = .checksumMismatch then failChecksum dst cap e o pos s else failStream dst cap e o s) s

end Sys2Proof.Machine
end

