-- ==== Sys2Proof/Machine/Dispatch.lean ====
section
/-! DEFINITION. The dispatch of every command to its meaning, one arm per row of spec/opcode_table.json. -/

namespace Sys2Proof.Machine

def exec (i : Instr) (s : State) : Host.Outcome State Fault Refusal :=
  match i with
  | .nop wr => Sys2Proof.Machine.execNop wr s
  | .endRun wr => Sys2Proof.Machine.execEndRun wr s
  | .jump target wr => Sys2Proof.Machine.execJump target wr s
  | .bwInit base cap wr => Sys2Proof.Machine.execBwInit base cap wr s
  | .bwBits n value wr => Sys2Proof.Machine.execBwBits n value wr s
  | .bwFlush wr => Sys2Proof.Machine.execBwFlush wr s
  | .brInit base len wr => Sys2Proof.Machine.execBrInit base len wr s
  | .brBits n wr => Sys2Proof.Machine.execBrBits n wr s
  | .crc32 cont src len wr => Sys2Proof.Machine.execCrc32 cont src len wr s
  | .crcCombine combined blockCrc wr => Sys2Proof.Machine.execCrcCombine combined blockCrc wr s
  | .rle1Enc src len dst cap wr => Sys2Proof.Machine.execRle1Enc src len dst cap wr s
  | .rle1Dec src len dst cap wr => Sys2Proof.Machine.execRle1Dec src len dst cap wr s
  | .bwtFwd src n dst sa wr => Sys2Proof.Machine.execBwtFwd src n dst sa wr s
  | .bwtInv src n origPtr dst tv wr => Sys2Proof.Machine.execBwtInv src n origPtr dst tv wr s
  | .mtfEnc src n dst cap map wr => Sys2Proof.Machine.execMtfEnc src n dst cap map wr s
  | .mtfDec src count map dst cap wr => Sys2Proof.Machine.execMtfDec src count map dst cap wr s
  | .hufLen freq alphaSize dst wr => Sys2Proof.Machine.execHufLen freq alphaSize dst wr s
  | .hufCodes lengths alphaSize dst wr => Sys2Proof.Machine.execHufCodes lengths alphaSize dst wr s
  | .hufEnc g syms count tables selectors alphaSize wr => Sys2Proof.Machine.execHufEnc g syms count tables selectors alphaSize wr s
  | .hufDec g dst cap tables selectors alphaSize nSel wr => Sys2Proof.Machine.execHufDec g dst cap tables selectors alphaSize nSel wr s
  | .blkEnc k src n blockCrc wr => Sys2Proof.Machine.execBlkEnc k src n blockCrc wr s
  | .blkDec k dst cap wr => Sys2Proof.Machine.execBlkDec k dst cap wr s
  | .streamEnc k src len dst cap wr => Sys2Proof.Machine.execStreamEnc k src len dst cap wr s
  | .streamDec src len dst cap wr => Sys2Proof.Machine.execStreamDec src len dst cap wr s

end Sys2Proof.Machine
end

