-- ==== Sys2Proof/Machine/Flags.lean ====
section
/-! DEFINITION. The status bits. The engine has no condition flags (10_state.md R35); this file holds the words of CTRL
and STATUS, the interrupt level and the effects of host writes on them (10_state.md R23 to R26, 60_exceptions.md R330). -/

namespace Sys2Proof.Machine

/-- The interrupt output's level, `CTRL.IE AND (STATUS.DONE OR STATUS.ERR)` (10_state.md R25, 60_exceptions.md R330). -/
def irqLevel (s : State) : Bool := s.ie && (s.done || s.err)

/-- STATUS as read: BUSY, DONE, ERR, IRQ in bits 0 to 3, the reserved bits 0 (10_state.md R20, R25). -/
def statusWord (s : State) : Word :=
  BitVec.ofNat 32 (s.busy.toNat + 2 * s.done.toNat + 4 * s.err.toNat + 8 * (irqLevel s).toNat)

/-- CTRL as read: IE in bit 1; START and SRST read 0, the reserved bits 0 (10_state.md R20, R23). -/
def ctrlWord (s : State) : Word :=
  BitVec.ofNat 32 (2 * s.ie.toNat)

/-- A host write of STATUS: DONE and ERR are cleared by a 1 in their bits; BUSY and IRQ are read-only (10_state.md R25). -/
def writeStatus (v : Word) (s : State) : State :=
  { s with done := s.done && !v.getLsbD 1, err := s.err && !v.getLsbD 2 }

/-- START: a run begins at DLIST; RESULT, BW and BR keep their values (10_state.md R24). The log of the run's memory use
begins anew (20_memory.md R77). -/
def startRun (s : State) : State :=
  { s with
    dp := s.dlist
    cmdcount := 0
    errcode := 0
    errinfo := 0
    errpos := 0
    done := false
    err := false
    busy := true
    runLog := RunLog.empty }

/-- Every register of the window takes its reset value; host memory, the platform and what is the model's own keep theirs
(10_state.md R26, 70_reset_and_hazards.md R340, R341). -/
def resetRegisters (s : State) : State :=
  { State.reset with
    mem := s.mem
    platform := s.platform
    inputs := s.inputs
    hostReg := s.hostReg
    hostBuf := s.hostBuf
    fresh := s.fresh }

end Sys2Proof.Machine
end

