-- ==== Sys2Proof/Machine/Cycle.lean ====
section
/-! DEFINITION. The engine's execution cycle: fetch, decode, one command (60_exceptions.md R310, R311, 30_encoding.md
R97), the memory a run uses (20_memory.md R77), and reset during it (70_reset_and_hazards.md R342). -/

namespace Sys2Proof.Machine

/-- The span of the descriptor at DP (30_encoding.md R90). -/
def descriptorSpan (s : State) : Span := ⟨s.dp.toNat, Config.descSize⟩

/-- The ILLEGAL_COMMAND sub-code of a decoding error (60_exceptions.md R302). -/
def illegalSub : DecodeError → Nat
  | .reservedOpcode => 1
  | .reservedBits => 2
  | .unusedOption => 3
  | .truncated => 0

/-- Fetch and decode (60_exceptions.md R310, R311): a misaligned DP, then a descriptor that wraps or is not admitted, then
the decoding errors; the bytes are latched once (20_memory.md R75). -/
def fetchCommand (s : State) : Except EngineError Instr :=
  if s.dp.toNat % 4 ≠ 0 then .error { code := .descriptorFault, info := 1 }
  else if (descriptorSpan s).wraps || !s.platform.admitsSpan (descriptorSpan s) then
    .error { code := .descriptorFault, info := 2 }
  else match decodeBytes (s.mem.readBytes s.dp.toNat Config.descSize) with
    | .ok (i, _) => .ok i
    | .error e => .error { code := .illegalCommand, info := illegalSub e }

/-! ### The memory a run uses (20_memory.md R77) -/

/-- Bytes that are used (read, written or fetched) and bytes that are written. -/
structure Footprint where
  uses : List Span
  writes : List Span
  deriving DecidableEq, Repr

/-- The ranges of the command at DP; none when its fetch or its checks would fail (20_memory.md R77). -/
def commandRanges (s : State) : Footprint :=
  match fetchCommand s with
  | .error _ => ⟨[], []⟩
  | .ok i =>
    if ((instrPlan i s).check s.platform).isSome then ⟨[], []⟩ else ⟨readSpans i s ++ writeSpans i s, writeSpans i s⟩

/-- The bytes the next command uses, its descriptor's among them (20_memory.md R77). -/
def commandFootprint (s : State) : Footprint :=
  ⟨descriptorSpan s :: (commandRanges s).uses, (commandRanges s).writes⟩

/-- Spans added to those already listed, each once. -/
def addSpans (new old : List Span) : List Span := new.filter (fun sp => !old.contains sp) ++ old

/-- The ranges of the command at DP go into the log of the run. -/
def noteCommand (s : State) : State :=
  { s with runLog := ⟨addSpans (commandRanges s).uses s.runLog.used, addSpans (commandRanges s).writes s.runLog.written⟩ }

/-- One step of the engine: nothing while idle (70_reset_and_hazards.md R340), one command while BUSY (60_exceptions.md
R310). -/
def engineStep (s : State) : Step :=
  if s.busy then
    match fetchCommand s with
    | .error e => .next (errorStop e s)
    | .ok i => exec i (noteCommand s)
  else .next s

/-- The write ranges of the command at DP; none when its fetch or its checks would fail (70_reset_and_hazards.md R342). -/
def latchedWrites (s : State) : List Span := (commandRanges s).writes

/-- SRST or the reset input: a run in progress is abandoned within the command at DP, whose write ranges become
unspecified; then every register takes its reset value (10_state.md R26, 70_reset_and_hazards.md R340, R342). -/
def resetEngine (s : State) : State :=
  resetRegisters (if s.busy then havocSpans (latchedWrites s) s else s)

end Sys2Proof.Machine
end

