-- ==== Sys2Proof/Machine/Host.lean ====
section
/-! DEFINITION. The host's actions: the register window (10_state.md R20 to R27, R37, R38), host memory under the host's
duties (20_memory.md R76, R77, 70_reset_and_hazards.md R350) and the reset input. -/

namespace Sys2Proof.Machine

/-! ### The register window -/

/-- What a read of a register returns while the rules fix it; reserved offsets read 0 (10_state.md R20). -/
def registerValue (s : State) : Nat → Word
  | 0x000 => Config.idValue
  | 0x004 => Config.versionValue
  | 0x008 => ctrlWord s
  | 0x00C => statusWord s
  | 0x010 => s.dlist
  | 0x014 => s.dp
  | 0x018 => s.errcode.setWidth 32
  | 0x01C => s.errinfo
  | 0x020 => s.errpos
  | 0x024 => s.cmdcount
  | 0x030 => s.results.r0
  | 0x034 => s.results.r1
  | 0x038 => s.results.r2
  | 0x03C => s.results.r3
  | 0x040 => s.bw.base
  | 0x044 => s.bw.cap
  | 0x048 => s.bw.count
  | 0x04C => s.bw.acc.setWidth 32
  | 0x050 => s.bw.nbits.setWidth 32
  | 0x060 => s.br.base
  | 0x064 => s.br.len
  | 0x068 => s.br.pos
  | _ => 0

/-- The offsets of DP, CMDCOUNT, RESULT0..3, BW_* and BR_*, whose reads are unspecified while BUSY (10_state.md R37). -/
def unspecifiedWhileBusy (offset : Nat) : Bool :=
  [0x014, 0x024, 0x030, 0x034, 0x038, 0x03C, 0x040, 0x044, 0x048, 0x04C, 0x050, 0x060, 0x064, 0x068].contains offset

/-- A register read: a free value where the rules leave it unspecified (10_state.md R37). -/
def readRegister (offset : Nat) (s : State) : State :=
  if s.busy && unspecifiedWhileBusy offset then { s with hostReg := Config.freeWord s.fresh, fresh := s.fresh + 1 }
  else { s with hostReg := registerValue s offset }

/-- A write of CTRL: SRST alone when its bit is set, else IE, and START when its bit is set and the engine is idle
(10_state.md R23, R24, R26). -/
def writeCtrl (v : Word) (s : State) : State :=
  if v.getLsbD 31 then resetEngine s
  else
    let s := { s with ie := v.getLsbD 1 }
    if v.getLsbD 0 && !s.busy then startRun s else s

/-- A register write: CTRL and STATUS always, DLIST while idle, every other register and offset never (10_state.md R20,
R27, R38). -/
def writeRegister (offset : Nat) (v : Word) (s : State) : State :=
  match offset with
  | 0x008 => writeCtrl v s
  | 0x00C => writeStatus v s
  | 0x010 => if s.busy then s else { s with dlist := v }
  | _ => s

/-- A register access is an aligned 32-bit word (10_state.md R20, 70_reset_and_hazards.md R350). -/
def alignedWord (offset : BitVec 12) (width : Nat) : Bool :=
  width == 4 && offset.toNat % 4 == 0

/-! ### Host memory under the host's duties -/

/-- What decides how a run goes on: the state without CMDCOUNT, which no command reads, the host's part, and the model's own
counter and log. Two states of a run that agree in it have the same commands ahead. -/
def runCore (s : State) : State :=
  { s with cmdcount := 0, inputs := [], hostReg := 0, hostBuf := [], fresh := 0, runLog := RunLog.empty }

/-- A run followed ahead: the state it has come to, the bytes its commands on the way use and write, and whether nothing new
can come, because it has ended or come back to a state it was in. -/
structure Lookout where
  state : State
  found : Footprint
  finished : Bool
  deriving DecidableEq, Repr

/-- One command of the run followed; it is over when the run ends or is back at the state `anchor` (20_memory.md R77). -/
def followCommand (anchor : State) (l : Lookout) : Lookout :=
  let found : Footprint := ⟨addSpans (commandFootprint l.state).uses l.found.uses,
    addSpans (commandFootprint l.state).writes l.found.writes⟩
  match engineStep l.state with
  | .next t => ⟨t, found, !t.busy || runCore t == anchor⟩
  | _ => ⟨l.state, found, true⟩

/-- At most `n` commands of the run followed. -/
def followCommands (anchor : State) : Nat → Lookout → Lookout
  | 0, l => l
  | n + 1, l => if l.finished then l else followCommands anchor n (followCommand anchor l)

/-- The run followed in phases, the first of `len` commands and each later one twice as long, until it is over; a phase looks
for a return to the state it begins in, and one that begins inside a loop and is as long as the loop finds it. -/
def followPhases : Nat → Nat → Lookout → Lookout
  | 0, _, l => l
  | fuel + 1, len, l =>
    if l.finished then l else followPhases fuel (2 * len) (followCommands (runCore l.state) len l)

/-- The bytes the commands ahead of the run use and write, the host doing nothing (20_memory.md R77): the descriptors of the
list still to be executed and the ranges of the commands there, to the end of the run or, in a run that never ends, once
around its loop. -/
def aheadFootprint (s : State) : Footprint := (followPhases Config.runPhases 1 ⟨s, ⟨[], []⟩, !s.busy⟩).found

/-- The bytes the host must leave alone while BUSY: those of the run's commands so far and those ahead (20_memory.md R77);
none while idle. -/
def guardedBytes (s : State) : Footprint :=
  if s.busy then
    let f := aheadFootprint s
    ⟨s.runLog.used ++ f.uses, s.runLog.written ++ f.writes⟩
  else ⟨[], []⟩

/-- A host memory write keeps the duty: it touches no byte of the list still to be executed and none that a command of the
run reads or writes (20_memory.md R77). -/
def writeKeepsDuty (sp : Span) (s : State) : Bool := (guardedBytes s).uses.all sp.disjoint

/-- A host memory read keeps the duty: it touches no byte that a command of the run writes (20_memory.md R77; that the
model takes every such read as relied on: notes/assumptions/11.md). -/
def readKeepsDuty (sp : Span) (s : State) : Bool := (guardedBytes s).writes.all sp.disjoint

/-- A host memory access: inside the address space, outside the register window, within the host's duty. -/
def hostAccess (sp : Span) (keepsDuty : Bool) (s' : State) (s : State) : Step :=
  if sp.wraps then .fault (.noSuchAddress sp.addr sp.len)
  else if !sp.disjoint s.platform.window then .refused (.hostAccessOther sp.addr sp.len)
  else if !keepsDuty then .refused (.hostDuty sp.addr sp.len)
  else .next s'

/-- One action of the host (00_scope.md R16). -/
def hostStep (a : HostAction) (s : State) : Step :=
  match a with
  | .readReg offset width =>
    if alignedWord offset width then .next (readRegister offset.toNat s)
    else .refused (.hostAccessOther offset.toNat width)
  | .writeReg offset width v =>
    if alignedWord offset width then .next (writeRegister offset.toNat v s)
    else .refused (.hostAccessOther offset.toNat width)
  | .readMem addr len =>
    hostAccess ⟨addr.toNat, len⟩ (readKeepsDuty ⟨addr.toNat, len⟩ s)
      { s with hostBuf := s.mem.readBytes addr.toNat len } s
  | .writeMem addr bytes =>
    hostAccess ⟨addr.toNat, bytes.length⟩ (writeKeepsDuty ⟨addr.toNat, bytes.length⟩ s)
      (storeBytes addr.toNat bytes s) s
  | .resetPin => .next (resetEngine s)
  | .yield => engineStep s

end Sys2Proof.Machine
end

