-- ==== Sys2Proof/Machine/Step.lean ====
section
/-! DEFINITION. One step of the machine, and the placing of an instruction where the next step fetches it. -/

namespace Sys2Proof.Machine

/-- One step: the host's next pending action, or, when it has none, one step of the engine (00_scope.md R16,
60_exceptions.md R312; notes/assumptions/1.md). -/
def step (s : State) : Host.Outcome State Fault Refusal :=
  match s.inputs with
  | [] => engineStep s
  | a :: rest => hostStep a { s with inputs := rest }

/-- The state with the instruction of the bits `w` as the descriptor at DP, a run in progress that begins there and no
host action pending, so that the next step runs it. It stands for a host that has placed the descriptor and
started a run there (notes/assumptions/5.md). -/
def State.withFetchWord (s : State) (nbits w : Nat) : State :=
  { s with
    mem := s.mem.writeBytes s.dp.toNat (tableBytes nbits w)
    busy := true
    inputs := []
    runLog := RunLog.empty }

end Sys2Proof.Machine
end

