-- ==== Sys2Proof/Safety.lean ====
section
/-! DEFINITION. What the claims are stated in: the invariant of the machine, and the conditions under which a command's
operands are in order. -/

namespace Sys2Proof.Machine

/-- The invariant: what the rules promise of every state. -/
structure Inv (s : State) : Prop where
  /-- Memory is in canonical form. -/
  memWf : s.mem.wf = true
  /-- Memory lists only addresses of the address space (20_memory.md R60). -/
  memInSpace : s.mem.inSpace = true
  /-- BW_COUNT <= BW_CAP (10_state.md R32). -/
  writerCount : s.bw.count.toNat ≤ s.bw.cap.toNat
  /-- BW_ACC < 2^BW_NBITS (10_state.md R32). -/
  writerPending : s.bw.acc.toNat < 2 ^ s.bw.nbits.toNat
  /-- The writer's buffer does not wrap (41_bitstream.md R152). -/
  writerNoWrap : (Span.mk s.bw.base.toNat s.bw.cap.toNat).wraps = false
  /-- The writer's buffer is admitted (41_bitstream.md R152, 20_memory.md R71). -/
  writerAdmitted : s.platform.admitsSpan ⟨s.bw.base.toNat, s.bw.cap.toNat⟩ = true
  /-- BR_LEN < 2^29 (10_state.md R33). -/
  readerLen : s.br.len.toNat < 2 ^ 29
  /-- BR_POS <= 8 × BR_LEN (10_state.md R33). -/
  readerPos : s.br.pos.toNat ≤ 8 * s.br.len.toNat
  /-- The reader's buffer does not wrap (41_bitstream.md R155). -/
  readerNoWrap : (Span.mk s.br.base.toNat s.br.len.toNat).wraps = false
  /-- The reader's buffer is admitted (41_bitstream.md R155, 20_memory.md R71). -/
  readerAdmitted : s.platform.admitsSpan ⟨s.br.base.toNat, s.br.len.toNat⟩ = true
  /-- At most one of DONE and ERR is set (10_state.md R25). -/
  oneStop : (s.done && s.err) = false
  /-- During a run neither is set (10_state.md R24, R25). -/
  running : s.busy = true → s.done = false ∧ s.err = false
  /-- Codes 15..255 are never reported (60_exceptions.md R300). -/
  errcodeKnown : s.errcode.toNat ≤ 14
  /-- ERR set means that a code is recorded (60_exceptions.md R300, R321). -/
  errRecorded : s.err = true → s.errcode ≠ 0
  /-- The error registers are 0 during a run and after one that stopped with DONE (10_state.md R29, R37). -/
  noRecord : s.busy = true ∨ s.done = true → s.errcode = 0 ∧ s.errinfo = 0 ∧ s.errpos = 0

/-! ### Operands in order -/

/-- The WR area as a list of spans (20_memory.md R70). -/
def wrSpans (wr : Option Word) : List Span := wr.toList.map resultSpan

/-- Every two spans of the list share no byte. -/
def apartAll : List Span → Bool
  | [] => true
  | x :: xs => xs.all x.disjoint && apartAll xs

/-- A command's ranges are in order: none passes the top of the address space, those named by descriptor words are
admitted, the write ranges are pairwise disjoint and disjoint from the read ranges (20_memory.md R64, R68, R70, R71).
`cursorReads` and `cursorWrites` are the bit reader's remainder and the bit writer's free part. -/
def operandsInOrder (s : State) (reads writes cursorReads cursorWrites : List Span) (wr : Option Word) : Bool :=
  (reads ++ writes ++ cursorReads ++ cursorWrites ++ wrSpans wr).all (fun x => !x.wraps) &&
  (reads ++ writes ++ wrSpans wr).all s.platform.admitsSpan &&
  apartAll (writes ++ cursorWrites ++ wrSpans wr) &&
  (reads ++ cursorReads).all fun x => (writes ++ cursorWrites ++ wrSpans wr).all x.disjoint

/-- The bytes `addr .. addr + len - 1` of two operand words. -/
abbrev wordSpan (addr len : Word) : Span := ⟨addr.toNat, len.toNat⟩

/-- The WR operand of a command (30_encoding.md R92). -/
def resultOperand : Instr → Option Word
  | .nop wr | .endRun wr | .jump _ wr | .bwInit _ _ wr | .bwBits _ _ wr | .bwFlush wr | .brInit _ _ wr | .brBits _ wr
  | .crc32 _ _ _ wr | .crcCombine _ _ wr | .rle1Enc _ _ _ _ wr | .rle1Dec _ _ _ _ wr | .bwtFwd _ _ _ _ wr
  | .bwtInv _ _ _ _ _ wr | .mtfEnc _ _ _ _ _ wr | .mtfDec _ _ _ _ _ wr | .hufLen _ _ _ wr | .hufCodes _ _ _ wr
  | .hufEnc _ _ _ _ _ _ wr | .hufDec _ _ _ _ _ _ _ wr | .blkEnc _ _ _ _ wr | .blkDec _ _ _ wr
  | .streamEnc _ _ _ _ _ wr | .streamDec _ _ _ _ wr => wr

/-- The operand and OPT values of a command are in their legal ranges (60_exceptions.md R301, in the numbers of the
commands' own rules: 41_bitstream.md R153, R155, R156, 44_bwt.md R191, R195, 45_mtf_rle2.md R213, 46_huffman.md R231,
R234, R238, R240, 47_block_stream.md R270, R275, R280, R285). -/
def LegalValues : Instr → Prop
  | .bwBits n _ _ | .brBits n _ => n ≤ 32
  | .brInit _ len _ => len.toNat < 536870912
  | .bwtFwd _ n _ _ _ | .mtfEnc _ n _ _ _ _ => 1 ≤ n.toNat ∧ n.toNat ≤ 900000
  | .bwtInv _ n _ _ _ _ => n.toNat ≤ 900000
  | .hufLen _ a _ _ | .hufCodes _ a _ _ => 2 ≤ a.toNat ∧ a.toNat ≤ 258
  | .hufEnc g _ _ _ _ a _ | .hufDec g _ _ _ _ a _ _ => 1 ≤ g ∧ g ≤ 6 ∧ 2 ≤ a.toNat ∧ a.toNat ≤ 258
  | .blkEnc k _ n _ _ => 1 ≤ k ∧ k ≤ 9 ∧ 1 ≤ n.toNat ∧ n.toNat ≤ 100000 * k
  | .blkDec k _ _ _ | .streamEnc k _ _ _ _ _ => 1 ≤ k ∧ k ≤ 9
  | .streamDec _ len _ _ _ => len.toNat < 536870912
  | .nop _ | .endRun _ | .jump _ _ | .bwInit _ _ _ | .bwFlush _ | .crc32 _ _ _ _ | .crcCombine _ _ _
  | .rle1Enc _ _ _ _ _ | .rle1Dec _ _ _ _ _ | .mtfDec _ _ _ _ _ _ => True

/-- The ranges of a command in the order its rule lists them, each with the descriptor word that names its address, the
WR area (word 7) last (20_memory.md R64, R70, R71); word 0 marks the bit writer's free part and the bit reader's
remainder. -/
def operandTable (i : Instr) (s : State) : List OperandRange :=
  let free : OperandRange := ⟨.write, ⟨s.bw.base.toNat + s.bw.count.toNat, s.bw.cap.toNat - s.bw.count.toNat⟩, 0⟩
  let left : OperandRange :=
    ⟨.read, ⟨s.br.base.toNat + s.br.pos.toNat / 8, s.br.len.toNat - s.br.pos.toNat / 8⟩, 0⟩
  let own : List OperandRange := match i with
    | .nop _ | .endRun _ | .jump _ _ | .crcCombine _ _ _ => []
    | .bwInit a b _ | .brInit a b _ => [⟨.probe, wordSpan a b, 1⟩]
    | .bwBits _ _ _ | .bwFlush _ => [free]
    | .brBits _ _ => [left]
    | .crc32 _ a b _ => [⟨.read, wordSpan a b, 1⟩]
    | .rle1Enc a b c d _ | .rle1Dec a b c d _ | .streamEnc _ a b c d _ | .streamDec a b c d _ =>
      [⟨.read, wordSpan a b, 1⟩, ⟨.write, wordSpan c d, 3⟩]
    | .bwtFwd a n c sa _ =>
      ⟨.read, wordSpan a n, 1⟩ :: ⟨.write, wordSpan c n, 3⟩ :: sa.toList.map fun d => ⟨.write, ⟨d.toNat, 4 * n.toNat⟩, 4⟩
    | .bwtInv a n _ d tv _ =>
      ⟨.read, wordSpan a n, 1⟩ :: ⟨.write, wordSpan d n, 4⟩ :: tv.toList.map fun e => ⟨.write, ⟨e.toNat, 4 * n.toNat⟩, 5⟩
    | .mtfEnc a n c d e _ =>
      [⟨.read, wordSpan a n, 1⟩, ⟨.write, ⟨c.toNat, 2 * d.toNat⟩, 3⟩, ⟨.write, ⟨e.toNat, 32⟩, 5⟩]
    | .mtfDec a b c d e _ =>
      [⟨.read, ⟨a.toNat, 2 * b.toNat⟩, 1⟩, ⟨.read, ⟨c.toNat, 32⟩, 3⟩, ⟨.write, wordSpan d e, 4⟩]
    | .hufLen a b c _ => [⟨.read, ⟨a.toNat, 4 * b.toNat⟩, 1⟩, ⟨.write, wordSpan c b, 3⟩]
    | .hufCodes a b c _ => [⟨.read, wordSpan a b, 1⟩, ⟨.write, ⟨c.toNat, 4 * b.toNat⟩, 3⟩]
    | .hufEnc g a m c d e _ =>
      [⟨.read, ⟨a.toNat, 2 * m.toNat⟩, 1⟩, ⟨.read, ⟨c.toNat, g * e.toNat⟩, 3⟩,
        ⟨.read, ⟨d.toNat, (m.toNat + 49) / 50⟩, 4⟩, free]
    | .hufDec g a b c d e f _ =>
      [⟨.write, ⟨a.toNat, 2 * b.toNat⟩, 1⟩, ⟨.read, ⟨c.toNat, g * e.toNat⟩, 3⟩, ⟨.read, wordSpan d f, 4⟩, left]
    | .blkEnc _ a n _ _ => [⟨.read, wordSpan a n, 1⟩, free]
    | .blkDec _ a b _ => [⟨.write, wordSpan a b, 1⟩, left]
  own ++ (resultOperand i).toList.map fun w => ⟨.write, ⟨w.toNat, 16⟩, 7⟩

/-! ### What a completed command leaves -/

/-- What every completed command does and does not do besides its own effect (60_exceptions.md R310, 10_state.md R30):
CMDCOUNT counts it, DP is `dp'`, and the registers no command writes keep their values. -/
structure Completed (s t : State) (dp' : Word) : Prop where
  cmdcount : t.cmdcount = s.cmdcount + 1
  dp : t.dp = dp'
  ie : t.ie = s.ie
  err : t.err = s.err
  errcode : t.errcode = s.errcode
  errinfo : t.errinfo = s.errinfo
  errpos : t.errpos = s.errpos
  dlist : t.dlist = s.dlist
  platform : t.platform = s.platform
  inputs : t.inputs = s.inputs
  hostReg : t.hostReg = s.hostReg
  hostBuf : t.hostBuf = s.hostBuf
  fresh : t.fresh = s.fresh
  runLog : t.runLog = s.runLog

/-- A completed command after which the run goes on in sequence (40_control.md R143). -/
structure CompletedNext (s t : State) : Prop where
  common : Completed s t (s.dp + 32)
  busy : t.busy = s.busy
  done : t.done = s.done

/-- What a completed command leaves in memory when it stores the byte strings `pieces` at their addresses: those strings,
the RESULT words in the WR area, and every other byte as it was (20_memory.md R69, R70). -/
structure Stored (s t : State) (pieces : List (Nat × List Byte)) (wr : Option Word) : Prop where
  stored : ∀ p ∈ pieces, t.mem.readBytes p.1 p.2.length = p.2
  resultArea : ∀ w, wr = some w → t.mem.readBytes w.toNat 16 = t.results.bytes
  frame : ∀ a, (∀ p ∈ pieces, ¬(p.1 ≤ a ∧ a < p.1 + p.2.length)) →
    (∀ w, wr = some w → ¬(w.toNat ≤ a ∧ a < w.toNat + 16)) → t.mem.read a = s.mem.read a

/-- The number of bytes a writer in state `s` stores when it takes `n` more bits (41_bitstream.md R150). -/
def appendedBytes (s : State) (n : Nat) : Nat := (s.bw.nbits.toNat + n) / 8

/-- There is room for `n` more bits in the bit writer's buffer (41_bitstream.md R150). -/
def hasRoom (s : State) (n : Nat) : Bool := s.bw.count.toNat + appendedBytes s n ≤ s.bw.cap.toNat

/-- The bit writer has taken a bit string (41_bitstream.md R150, 10_state.md R32): the bytes stored by the command,
followed by the pending bits, are the old pending bits followed by the string; every byte of memory but those and the WR
area is as it was. -/
structure Appended (s t : State) (bits : List Bool) (wr : Option Word) : Prop where
  base : t.bw.base = s.bw.base
  cap : t.bw.cap = s.bw.cap
  count : t.bw.count.toNat = s.bw.count.toNat + appendedBytes s bits.length
  nbits : t.bw.nbits.toNat = (s.bw.nbits.toNat + bits.length) % 8
  stream : bitsOfBytes (t.mem.readBytes (s.bw.base.toNat + s.bw.count.toNat) (appendedBytes s bits.length)) ++
      bitsMSB t.bw.acc.toNat t.bw.nbits.toNat = bitsMSB s.bw.acc.toNat s.bw.nbits.toNat ++ bits
  resultArea : ∀ w, wr = some w → t.mem.readBytes w.toNat 16 = t.results.bytes
  frame : ∀ a, ¬(s.bw.base.toNat + s.bw.count.toNat ≤ a ∧
      a < s.bw.base.toNat + s.bw.count.toNat + appendedBytes s bits.length) →
    (∀ w, wr = some w → ¬(w.toNat ≤ a ∧ a < w.toNat + 16)) → t.mem.read a = s.mem.read a

/-! ### What an error stop leaves -/

/-- The error stop of R321 in numbers: the three error registers, ERR and BUSY, and nothing else. -/
def stopRecord (code : BitVec 8) (info pos : Word) (s : State) : State :=
  { s with errcode := code, errinfo := info, errpos := pos, err := true, busy := false }

/-- The registers of an error stop, whatever it leaves in the command's write ranges (60_exceptions.md R321). -/
structure Stopped (s t : State) (code : BitVec 8) (info pos : Word) : Prop where
  errcode : t.errcode = code
  errinfo : t.errinfo = info
  errpos : t.errpos = pos
  err : t.err = true
  busy : t.busy = false
  done : t.done = s.done
  dp : t.dp = s.dp
  cmdcount : t.cmdcount = s.cmdcount

/-- The error stop of a command whose execution fails and leaves the bytes of `spans` unspecified: RESULT and the cursors
keep their values and no byte outside `spans` changes (60_exceptions.md R321). -/
structure FailedWith (s t : State) (code : BitVec 8) (info pos : Word) (spans : List Span) : Prop where
  stopped : Stopped s t code info pos
  results : t.results = s.results
  bw : t.bw = s.bw
  br : t.br = s.br
  frame : ∀ a, (∀ sp ∈ spans, ¬(sp.addr ≤ a ∧ a < sp.addr + sp.len)) → t.mem.read a = s.mem.read a

/-- The error stop of an append that does not fit: the BW registers are unspecified within the invariants of 10_state.md
R32, and so is the free part of the buffer (60_exceptions.md R321). -/
structure FailedAppend (s t : State) : Prop where
  stopped : Stopped s t 3 0 0
  results : t.results = s.results
  br : t.br = s.br
  base : t.bw.base = s.bw.base
  cap : t.bw.cap = s.bw.cap
  count : t.bw.count.toNat ≤ t.bw.cap.toNat
  pending : t.bw.acc.toNat < 2 ^ t.bw.nbits.toNat
  frame : ∀ a, ¬(s.bw.base.toNat + s.bw.count.toNat ≤ a ∧
      a < s.bw.base.toNat + s.bw.count.toNat + (s.bw.cap.toNat - s.bw.count.toNat)) → t.mem.read a = s.mem.read a

/-- The error stop of HUF_DEC or BLK_DEC in execution: BR_POS is unspecified within 0 .. 8 × BR_LEN, and so are the bytes
of the destination (60_exceptions.md R321). -/
structure FailedRead (s t : State) (code : BitVec 8) (info pos : Word) (dst : Span) : Prop where
  stopped : Stopped s t code info pos
  results : t.results = s.results
  bw : t.bw = s.bw
  base : t.br.base = s.br.base
  len : t.br.len = s.br.len
  pos : t.br.pos.toNat ≤ 8 * t.br.len.toNat
  frame : ∀ a, ¬(dst.addr ≤ a ∧ a < dst.addr + dst.len) → t.mem.read a = s.mem.read a

/-- The rows of the opcode map: OPC and the number of low OPT bits the command uses (30_encoding.md R95). -/
def opcodeRows : List (Nat × Nat) :=
  [(0x00, 0), (0x01, 0), (0x02, 0), (0x10, 0), (0x11, 6), (0x12, 0), (0x18, 0), (0x19, 6)] ++
  [(0x20, 1), (0x21, 0), (0x30, 0), (0x31, 0), (0x40, 1), (0x41, 1), (0x50, 0), (0x51, 0)] ++
  [(0x60, 0), (0x61, 0), (0x62, 3), (0x63, 3), (0x70, 4), (0x71, 4), (0x78, 4), (0x79, 0)]

/-! ### Which command writes which registers -/

/-- The commands that change the bit writer's registers (10_state.md R32). -/
def ownsWriter : Instr → Bool
  | .bwInit _ _ _ | .bwBits _ _ _ | .bwFlush _ | .hufEnc _ _ _ _ _ _ _ | .blkEnc _ _ _ _ _ => true
  | .nop _ | .endRun _ | .jump _ _ | .brInit _ _ _ | .brBits _ _ | .crc32 _ _ _ _ | .crcCombine _ _ _
  | .rle1Enc _ _ _ _ _ | .rle1Dec _ _ _ _ _ | .bwtFwd _ _ _ _ _ | .bwtInv _ _ _ _ _ _ | .mtfEnc _ _ _ _ _ _
  | .mtfDec _ _ _ _ _ _ | .hufLen _ _ _ _ | .hufCodes _ _ _ _ | .hufDec _ _ _ _ _ _ _ _ | .blkDec _ _ _ _
  | .streamEnc _ _ _ _ _ _ | .streamDec _ _ _ _ _ => false

/-- The commands that change the bit reader's registers (10_state.md R33). -/
def ownsReader : Instr → Bool
  | .brInit _ _ _ | .brBits _ _ | .hufDec _ _ _ _ _ _ _ _ | .blkDec _ _ _ _ => true
  | .nop _ | .endRun _ | .jump _ _ | .bwInit _ _ _ | .bwBits _ _ _ | .bwFlush _ | .crc32 _ _ _ _ | .crcCombine _ _ _
  | .rle1Enc _ _ _ _ _ | .rle1Dec _ _ _ _ _ | .bwtFwd _ _ _ _ _ | .bwtInv _ _ _ _ _ _ | .mtfEnc _ _ _ _ _ _
  | .mtfDec _ _ _ _ _ _ | .hufLen _ _ _ _ | .hufCodes _ _ _ _ | .hufEnc _ _ _ _ _ _ _ | .blkEnc _ _ _ _ _
  | .streamEnc _ _ _ _ _ _ | .streamDec _ _ _ _ _ => false

/-- The commands without results (10_state.md R31). -/
def withoutResults : Instr → Bool
  | .nop _ | .endRun _ | .jump _ _ | .bwInit _ _ _ | .bwBits _ _ _ | .brInit _ _ _ => true
  | .bwFlush _ | .brBits _ _ | .crc32 _ _ _ _ | .crcCombine _ _ _
  | .rle1Enc _ _ _ _ _ | .rle1Dec _ _ _ _ _ | .bwtFwd _ _ _ _ _ | .bwtInv _ _ _ _ _ _ | .mtfEnc _ _ _ _ _ _
  | .mtfDec _ _ _ _ _ _ | .hufLen _ _ _ _ | .hufCodes _ _ _ _ | .hufEnc _ _ _ _ _ _ _ | .hufDec _ _ _ _ _ _ _ _
  | .blkEnc _ _ _ _ _ | .blkDec _ _ _ _ | .streamEnc _ _ _ _ _ _ | .streamDec _ _ _ _ _ => false

/-- The next command's descriptor is at a multiple of 4, does not wrap and is admitted byte by byte (60_exceptions.md
R310). -/
def FetchInOrder (s : State) : Prop :=
  s.dp.toNat % 4 = 0 ∧ s.dp.toNat + 32 ≤ 4294967296 ∧
  ∀ a, s.dp.toNat ≤ a → a < s.dp.toNat + 32 → s.platform.admits a = true

/-! ### The host's duty during a run (20_memory.md R77, 70_reset_and_hazards.md R350) -/

/-- The address lies in one of the ranges. -/
def touches (sps : List Span) (a : Nat) : Prop := ∃ sp ∈ sps, sp.addr ≤ a ∧ a < sp.addr + sp.len

/-- The next command of the run uses the byte: it is in the descriptor at DP or in a range the command there reads or
writes; a command whose fetch or checks fail has no ranges (20_memory.md R77). -/
def UsesByte (s : State) (a : Nat) : Prop :=
  (s.dp.toNat ≤ a ∧ a < s.dp.toNat + 32) ∨
  ∃ i, fetchCommand s = .ok i ∧ (instrPlan i s).check s.platform = none ∧ touches (readSpans i s ++ writeSpans i s) a

/-- The next command of the run writes the byte (20_memory.md R77). -/
def WritesByte (s : State) (a : Nat) : Prop :=
  ∃ i, fetchCommand s = .ok i ∧ (instrPlan i s).check s.platform = none ∧ touches (writeSpans i s) a

/-- The state that `n` steps of the engine lead to, the host doing nothing. -/
def commandsAfter : Nat → State → Option State
  | 0, s => some s
  | n + 1, s => match engineStep s with
    | .next t => commandsAfter n t
    | _ => none

/-- What becomes of the run's log when the command runs: its ranges are added (notes/assumptions/11.md). -/
structure Noted (s : State) (i : Instr) (log : RunLog) : Prop where
  used : ∀ a, touches log.used a ↔ touches s.runLog.used a ∨
    ((instrPlan i s).check s.platform = none ∧ touches (readSpans i s ++ writeSpans i s) a)
  written : ∀ a, touches log.written a ↔ touches s.runLog.written a ∨
    ((instrPlan i s).check s.platform = none ∧ touches (writeSpans i s) a)

/-! ### The register window (10_state.md R20) -/

/-- The register map with what each register reads as (10_state.md R20 to R25, R27 to R33); every other offset is
reserved. -/
def registerTable (s : State) : List (BitVec 12 × Word) :=
  [(0x000, 0x42575445#32), (0x004, 0x00010000#32), (0x008, if s.ie then 2 else 0),
    (0x00C, (if s.busy then 1 else 0) + (if s.done then 2 else 0) + (if s.err then 4 else 0) +
      (if s.ie && (s.done || s.err) then 8 else 0))] ++
  [(0x010, s.dlist), (0x014, s.dp), (0x018, s.errcode.setWidth 32), (0x01C, s.errinfo), (0x020, s.errpos),
    (0x024, s.cmdcount)] ++
  [(0x030, s.results.r0), (0x034, s.results.r1), (0x038, s.results.r2), (0x03C, s.results.r3)] ++
  [(0x040, s.bw.base), (0x044, s.bw.cap), (0x048, s.bw.count), (0x04C, s.bw.acc.setWidth 32),
    (0x050, s.bw.nbits.setWidth 32)] ++
  [(0x060, s.br.base), (0x064, s.br.len), (0x068, s.br.pos)]

/-- The registers whose reads are unspecified while BUSY: DP, CMDCOUNT, RESULT0..3, BW_*, BR_* (10_state.md R37). -/
def hiddenWhileBusy : List (BitVec 12) :=
  [0x014, 0x024, 0x030, 0x034, 0x038, 0x03C, 0x040, 0x044, 0x048, 0x04C, 0x050, 0x060, 0x064, 0x068]

/-! ### Encodings -/

/-- The bits of W0 that must be 0: 31:24 and 15:9 (30_encoding.md R91). -/
abbrev reservedMask : Word := 0xFF00FE00#32

/-- The number of low OPT bits that the command with this OPC uses; none for a reserved OPC (30_encoding.md R95, R96). -/
def usedOptionBits (opc : Nat) : Option Nat := opcodeRows.lookup opc

/-- Two ranges of one command may stand together: one is an INIT buffer, both are read, or they share no byte (20_memory.md
R68, R71). -/
def MayStandTogether (x y : OperandRange) : Prop :=
  x.access = .probe ∨ y.access = .probe ∨ (x.access = .read ∧ y.access = .read) ∨
  ∀ a, ¬((x.span.addr ≤ a ∧ a < x.span.addr + x.span.len) ∧ (y.span.addr ≤ a ∧ a < y.span.addr + y.span.len))

/-- The range is a cursor's, which INIT checked, or every byte address in it is admitted (20_memory.md R64, R71). -/
def AdmittedOrCursor (p : Platform) (x : OperandRange) : Prop :=
  x.word = 0 ∨ ∀ a, x.span.addr ≤ a → a < x.span.addr + x.span.len → p.admits a = true

/-! ### Rotations (44_bwt.md R190) -/

/-- Rotation `i` precedes rotation `j`: by bytes as unsigned numbers, ties by the start index (44_bwt.md R190). -/
def RotationBefore (block : List Byte) (i j : Nat) : Prop :=
  (block.drop i ++ block.take i).map BitVec.toNat < (block.drop j ++ block.take j).map BitVec.toNat ∨
  (block.drop i ++ block.take i = block.drop j ++ block.take j ∧ i < j)

/-- `sa` is the sorted index array of the block: a permutation of the start indices in that order (44_bwt.md R190). -/
def IsRotationOrder (block : List Byte) (sa : List Nat) : Prop :=
  sa.Perm (List.range block.length) ∧ sa.Pairwise (RotationBefore block)

/-- `t` is the next-character vector of `l`, by the positions of the counting sort (44_bwt.md R194). -/
def IsNextVector (l : List Byte) (t : List Nat) : Prop :=
  t.length = l.length ∧
  ∀ i, i < l.length →
    t[l.countP (fun x => x.toNat < (l.getD i 0).toNat) + (l.take i).count (l.getD i 0)]? = some i

/-! ### Huffman tables -/

/-- A valid table (46_huffman.md R230). -/
def ValidTable (lens : List Nat) : Prop :=
  (∀ l ∈ lens, 1 ≤ l ∧ l ≤ 20) ∧ (lens.map fun l => 2 ^ (20 - l)).sum ≤ 2 ^ 20

/-- One length of the loop of `huf_codes`: the symbols of length `n` take the next codes in index order, then the value is
doubled (46_huffman.md R233). -/
def assignLength (lens : List Nat) (n : Nat) (st : Nat × List Nat) : Nat × List Nat :=
  let r := (List.range lens.length).foldl
    (fun (acc : Nat × List Nat) i => if lens.getD i 0 = n then (acc.1 + 1, acc.2.set i acc.1) else acc) st
  (2 * r.1, r.2)

/-- `huf_codes` as the loop over lengths min .. max (46_huffman.md R233). -/
def canonicalCodes (lens : List Nat) : List Nat :=
  ((List.range' (minOf lens) (maxOf lens + 1 - minOf lens)).foldl (fun st n => assignLength lens n st)
    (0, List.replicate lens.length 0)).2

/-- The code of a symbol in a table, most significant bit first (46_huffman.md R233). -/
def symbolCode (lens : List Nat) (x : Nat) : List Bool := bitsMSB ((canonicalCodes lens).getD x 0) (lens.getD x 0)

/-- The bits `huf_enc` writes, symbol by symbol: symbol k with table sel[k div 50] (46_huffman.md R236). -/
def groupCodedBits (tables : List (List Nat)) (sel syms : List Nat) : List Bool :=
  (List.range syms.length).flatMap fun k => symbolCode (tables.getD (sel.getD (k / 50) 0) []) (syms.getD k 0)

/-! ### RLE1 (43_rle1.md R180, R182) -/

/-- `cs` cuts the bytes into runs of 1 to 255 equal bytes, each as long as it can be: two runs of one value stand side by
side only when the first is cut at 255 (43_rle1.md R180). -/
structure IsChunks (bytes : List Byte) (cs : List Chunk) : Prop where
  whole : cs.flatMap (fun c => List.replicate c.2 c.1) = bytes
  bounds : ∀ c ∈ cs, 1 ≤ c.2 ∧ c.2 ≤ 255
  maximal : ∀ before c d after, cs = before ++ c :: d :: after → c.1 = d.1 → c.2 = 255

/-- A run of up to 3 copied, a longer one as four copies and the number of the others (43_rle1.md R180). -/
def runCode (c : Chunk) : List Byte :=
  if c.2 < 4 then List.replicate c.2 c.1 else [c.1, c.1, c.1, c.1, BitVec.ofNat 8 (c.2 - 4)]

/-- `out` is the RLE1 encoding of the bytes (43_rle1.md R180). -/
def IsRle1Code (bytes out : List Byte) : Prop := ∃ cs, IsChunks bytes cs ∧ out = cs.flatMap runCode

/-- The variables of `rle1_dec` (43_rle1.md R182). -/
structure Rle1Vars where
  out : List Byte
  prev : Option Byte
  cnt : Nat
  deriving DecidableEq, Repr

/-- One turn of the loop of `rle1_dec` (43_rle1.md R182). -/
def rle1Turn (v : Rle1Vars) (x : Byte) : Rle1Vars :=
  if v.cnt = 4 then ⟨v.out ++ List.replicate x.toNat (v.prev.getD 0), none, 0⟩
  else ⟨v.out ++ [x], some x, if v.prev = some x then v.cnt + 1 else 1⟩

/-- `rle1_dec` after all its bytes; it has ended inside a run marker when `cnt` is 4 (43_rle1.md R182). -/
def rle1Vars (bytes : List Byte) : Rle1Vars := bytes.foldl rle1Turn ⟨[], none, 0⟩

/-! ### MTF + RLE2 (45_mtf_rle2.md R211, R212) -/

/-- The position of each element in the list as the earlier ones have left it, every element moving to the front
(45_mtf_rle2.md R211). -/
def frontPositions {α : Type} [DecidableEq α] : List α → List α → List Nat
  | _, [] => []
  | lst, x :: xs => lst.idxOf x :: frontPositions (x :: lst.erase x) xs

/-- The number a bijective base-2 numeral stands for, least significant digit first, symbol 0 the digit 1 and symbol 1 the
digit 2 (45_mtf_rle2.md R212). -/
def numeralValue : List Nat → Nat
  | [] => 0
  | d :: ds => (d + 1) + 2 * numeralValue ds

/-- The symbols are the numeral of a run of `z` (45_mtf_rle2.md R212). -/
def IsRunCode (z : Nat) (syms : List Nat) : Prop := (∀ d ∈ syms, d ≤ 1) ∧ numeralValue syms = z

/-- `syms` is the symbol sequence of the list positions after a run of `z` zeros: runs of zeros as numerals, position
j >= 1 as j + 1, EOB last (45_mtf_rle2.md R212). -/
def IsRankCode (eob : Nat) : Nat → List Nat → List Nat → Prop
  | z, [], syms => ∃ run, IsRunCode z run ∧ syms = run ++ [eob]
  | z, 0 :: js, syms => IsRankCode eob (z + 1) js syms
  | z, (j + 1) :: js, syms => ∃ run rest, IsRunCode z run ∧ syms = run ++ (j + 2) :: rest ∧ IsRankCode eob 0 js rest

/-- `syms` is the MTF + RLE2 coding of the bytes over a list of byte values (45_mtf_rle2.md R212). -/
def IsMtfCode (used bytes : List Byte) (syms : List Nat) : Prop :=
  IsRankCode (used.length + 1) 0 (frontPositions used bytes) syms

/-- The symbols, none of them EOB, have put out the bytes, a pending run among them: with EOB after them they are the coding
of the bytes, all of listed values (45_mtf_rle2.md R212, R214). -/
def IsMtfPrefix (used bytes : List Byte) (syms : List Nat) : Prop :=
  IsMtfCode used bytes (syms ++ [used.length + 1]) ∧ ∀ b ∈ bytes, b ∈ used

/-- `mtf_dec(S, U, lim, LE)` (45_mtf_rle2.md R214): the symbols before the deciding one have put out bytes within the limit;
that symbol is EOB, is no symbol of the alphabet, or takes the bytes past the limit, or there is none. -/
inductive IsMtfDec (used : List Byte) (lim : Nat) (limitError : EngineError) (syms : List Nat) :
    Except EngineError (List Byte × Nat) → Prop where
  | done (seen more : List Nat) (bytes : List Byte) : syms = seen ++ (used.length + 1) :: more →
      IsMtfPrefix used bytes seen → bytes.length ≤ lim → IsMtfDec used lim limitError syms (.ok (bytes, seen.length + 1))
  | noSymbol (seen more : List Nat) (bytes : List Byte) (x : Nat) : syms = seen ++ x :: more →
      IsMtfPrefix used bytes seen → bytes.length ≤ lim → used.length + 1 < x →
      IsMtfDec used lim limitError syms (.error { code := .invalidSymbol })
  | limit (seen more : List Nat) (bytes bytes' : List Byte) (x : Nat) : syms = seen ++ x :: more →
      IsMtfPrefix used bytes seen → bytes.length ≤ lim → IsMtfPrefix used bytes' (seen ++ [x]) → lim < bytes'.length →
      IsMtfDec used lim limitError syms (.error limitError)
  | noEob (bytes : List Byte) : IsMtfPrefix used bytes syms → bytes.length ≤ lim →
      IsMtfDec used lim limitError syms (.error (formatError 9))

/-! ### The table builder (46_huffman.md R231) -/

/-- A node of the set Q: its weight, its seq and the (symbol, depth below it) pairs of its leaves. -/
structure WeighedNode where
  weight : Nat
  seq : Nat
  leaves : List (Nat × Nat)
  deriving DecidableEq, Repr

/-- The (weight, seq) order (46_huffman.md R231). -/
def WeighedNode.below (x y : WeighedNode) : Prop := x.weight < y.weight ∨ (x.weight = y.weight ∧ x.seq < y.seq)

/-- The merging of the set Q down to one node: the two smallest nodes become the children of a new one with the next seq
(46_huffman.md R231). -/
inductive Merges : Nat → List WeighedNode → List (Nat × Nat) → Prop where
  | root (next : Nat) (x : WeighedNode) : Merges next [x] x.leaves
  | merge (next : Nat) (q rest : List WeighedNode) (x y : WeighedNode) (depths : List (Nat × Nat)) :
      q.Perm (x :: y :: rest) → (∀ z ∈ y :: rest, x.below z) → (∀ z ∈ rest, y.below z) →
      Merges (next + 1) (⟨x.weight + y.weight, next, (x.leaves ++ y.leaves).map fun p => (p.1, p.2 + 1)⟩ :: rest) depths →
      Merges next q depths

/-- `d` is `depths(w)` (46_huffman.md R231). -/
def IsDepths (w d : List Nat) : Prop :=
  d.length = w.length ∧
  ∃ depths, Merges w.length ((List.range w.length).map fun i => ⟨w.getD i 0, i, [(i, 0)]⟩) depths ∧
    ∀ i, i < w.length → (i, d.getD i 0) ∈ depths

/-- The weights after `r` rounds (46_huffman.md R231). -/
def weightsAfter (f : List Nat) (r : Nat) : List Nat :=
  Nat.repeat (fun w => w.map fun x => 1 + x / 2) r (f.map fun x => max x 1)

/-- `(d, rounds)` is `huf_len(f)` (46_huffman.md R231): the depths of the weights after `rounds` rounds, the first that stay
within 20. -/
def IsBuilt (f d : List Nat) (rounds : Nat) : Prop :=
  IsDepths (weightsAfter f rounds) d ∧ (∀ l ∈ d, l ≤ 20) ∧
  ∀ r, r < rounds → ∃ d', IsDepths (weightsAfter f r) d' ∧ ∃ l ∈ d', 20 < l

/-! ### Table planning (46_huffman.md R242) -/

/-- Group `g` of a symbol sequence (46_huffman.md R236). -/
def symbolGroup (syms : List Nat) (g : Nat) : List Nat := (syms.drop (50 * g)).take 50

/-- `tables(sel)`: table t is built from the occurrences in the groups whose selector is t (46_huffman.md R242). -/
def IsTables (syms : List Nat) (a nGroups : Nat) (sel : List Nat) (tables : List (List Nat)) : Prop :=
  tables.length = nGroups ∧ ∀ t, t < nGroups → ∃ f rounds, f.length = a ∧
    (∀ x, x < a → f.getD x 0 =
      (((List.range sel.length).filter fun g => sel.getD g 0 == t).map fun g => (symbolGroup syms g).count x).sum) ∧
    IsBuilt f (tables.getD t []) rounds

/-- The bits of a group's symbols with table t (46_huffman.md R242). -/
def groupBits (syms : List Nat) (tables : List (List Nat)) (g t : Nat) : Nat :=
  ((symbolGroup syms g).map fun x => (tables.getD t []).getD x 0).sum

/-- Every group's selector is the table of fewest bits, the lowest of several (46_huffman.md R242). -/
def IsAssignment (syms : List Nat) (nGroups : Nat) (tables : List (List Nat)) (sel : List Nat) : Prop :=
  sel.length = (syms.length + 49) / 50 ∧ ∀ g, g < sel.length → sel.getD g 0 < nGroups ∧
    (∀ u, u < nGroups → groupBits syms tables g (sel.getD g 0) ≤ groupBits syms tables g u) ∧
    ∀ u, u < sel.getD g 0 → groupBits syms tables g (sel.getD g 0) < groupBits syms tables g u

/-- `n` passes of rebuilding the tables and reassigning the groups (46_huffman.md R242). -/
def IsRefined (syms : List Nat) (a nGroups : Nat) : Nat → List Nat → List Nat → Prop
  | 0, sel, sel' => sel = sel'
  | n + 1, sel, sel' => ∃ tables mid, IsTables syms a nGroups sel tables ∧ IsAssignment syms nGroups tables mid ∧
      IsRefined syms a nGroups n mid sel'

/-- `(nGroups, sel, tables)` is `huf_plan(S, a)` (46_huffman.md R242). -/
def IsPlan (syms : List Nat) (a nGroups : Nat) (sel : List Nat) (tables : List (List Nat)) : Prop :=
  (nGroups = if syms.length < 200 then 2 else if syms.length < 600 then 3 else if syms.length < 1200 then 4
    else if syms.length < 2400 then 5 else 6) ∧
  IsRefined syms a nGroups 4
    ((List.range ((syms.length + 49) / 50)).map fun g => g * nGroups / ((syms.length + 49) / 50)) sel ∧
  IsTables syms a nGroups sel tables

/-! ### Decoding symbols (46_huffman.md R235, R236) -/

/-- The bits of the bit reader's buffer from BR_POS on (10_state.md R33). -/
def bitsAhead (s : State) : List Bool :=
  (List.range (8 * s.br.len.toNat - s.br.pos.toNat)).map fun j =>
    (s.mem.read (s.br.base.toNat + (s.br.pos.toNat + j) / 8)).getLsbD (7 - (s.br.pos.toNat + j) % 8)

/-- What a reading of bits can come to: a value with the position and the bits after it, or an error. -/
abbrev BitsRead (α : Type) := Except EngineError (α × Nat × List Bool)

/-- `check_table` over the tables in order gives the error of the first bad one (46_huffman.md R230). -/
def IsTableError (lens : List (List Nat)) (e : EngineError) : Prop :=
  ∃ good bad more, lens = good ++ bad :: more ∧ (∀ t ∈ good, ValidTable t) ∧
    (((∃ l ∈ bad, ¬(1 ≤ l ∧ l ≤ 20)) ∧ e = { code := .huffmanOverflow }) ∨
      ((∀ l ∈ bad, 1 ≤ l ∧ l ≤ 20) ∧ 2 ^ 20 < (bad.map fun l => 2 ^ (20 - l)).sum ∧ e = { code := .invalidHuffmanCode }))

/-- `huf_dec` over valid tables (46_huffman.md R235, R236): the symbols before the deciding one are coded by the first bits
and taken by the consumer, and none is EOB. Then comes EOB, or a symbol the consumer does not take; or the selectors are
used up; or no code of the group's table stands there, within its longest length or because the bits run out. `takes` says
which symbol sequences the consumer takes, `refusal` is its error for the others. -/
inductive IsHufDec (lens : List (List Nat)) (sel : List Nat) (eob : Nat) (takes : List Nat → Prop)
    (refusal : EngineError) (pos : Nat) (bits : List Bool) : BitsRead (List Nat) → Prop where
  | done (body : List Nat) (rest : List Bool) : bits = groupCodedBits lens sel (body ++ [eob]) ++ rest →
      (∀ x ∈ body, x < eob) → body.length < 50 * sel.length → takes body → takes (body ++ [eob]) →
      IsHufDec lens sel eob takes refusal pos bits
        (.ok (body ++ [eob], pos + (groupCodedBits lens sel (body ++ [eob])).length, rest))
  | refused (body : List Nat) (x : Nat) (rest : List Bool) : bits = groupCodedBits lens sel (body ++ [x]) ++ rest →
      (∀ y ∈ body, y < eob) → x ≤ eob → body.length < 50 * sel.length → takes body → ¬ takes (body ++ [x]) →
      IsHufDec lens sel eob takes refusal pos bits (.error refusal)
  | exhausted (body : List Nat) (rest : List Bool) : bits = groupCodedBits lens sel body ++ rest →
      (∀ x ∈ body, x < eob) → body.length = 50 * sel.length → takes body →
      IsHufDec lens sel eob takes refusal pos bits (.error (formatError 7))
  | noCode (body : List Nat) (rest : List Bool) (table : List Nat) : bits = groupCodedBits lens sel body ++ rest →
      (∀ x ∈ body, x < eob) → body.length < 50 * sel.length → takes body →
      table = lens.getD (sel.getD (body.length / 50) 0) [] → (∀ x, x ≤ eob → ¬ symbolCode table x <+: rest) →
      (∃ l ∈ table, (∀ l' ∈ table, l' ≤ l) ∧ l ≤ rest.length) →
      IsHufDec lens sel eob takes refusal pos bits (.error { code := .invalidHuffmanCode })
  | short (body : List Nat) (rest : List Bool) (table : List Nat) : bits = groupCodedBits lens sel body ++ rest →
      (∀ x ∈ body, x < eob) → body.length < 50 * sel.length → takes body →
      table = lens.getD (sel.getD (body.length / 50) 0) [] → (∀ x, x ≤ eob → ¬ symbolCode table x <+: rest) →
      (∃ l ∈ table, rest.length < l) →
      IsHufDec lens sel eob takes refusal pos bits (.error (truncatedInput (pos + bits.length)))

/-! ### Blocks and streams (30_encoding.md R110 to R118) -/

/-- `last` is the last column of the sorted rotations (44_bwt.md R191). -/
def IsLastColumn (block : List Byte) (order : List Nat) (last : List Byte) : Prop :=
  last.length = block.length ∧
  ∀ k, k < block.length → last[k]? = block[(order.getD k 0 + block.length - 1) % block.length]?

/-- Field 5 of a block, one bit for each range of 16 byte values (30_encoding.md R113). -/
def usedRanges (block : List Byte) : List Bool := (List.range 16).map fun i => block.any fun b => b.toNat / 16 == i

/-- Field 6 of a block, 16 bits for each range with a byte of the block (30_encoding.md R113). -/
def usedValues (block : List Byte) : List Bool :=
  ((List.range 16).filter fun i => block.any fun b => b.toNat / 16 == i).flatMap fun i =>
    (List.range 16).map fun j => block.any fun b => b.toNat == 16 * i + j

/-- Field 9 of a block: each selector's list position in unary (30_encoding.md R114). -/
def selectorField (nGroups : Nat) (sel : List Nat) : List Bool :=
  (frontPositions (List.range nGroups) sel).flatMap fun j => List.replicate j true ++ [false]

/-- The coding of one table: the first length in 5 bits, then for each symbol the steps from the length before it, "10"
up and "11" down, and a 0 (30_encoding.md R115). -/
def lengthField (lens : List Nat) : List Bool :=
  bitsMSB (lens.headD 0) 5 ++
  ((lens.headD 0 :: lens).zip lens).flatMap fun p =>
    (List.replicate (p.2 - p.1) [true, false]).flatten ++ (List.replicate (p.1 - p.2) [true, true]).flatten ++ [false]

/-- `bits` are the fields of the block in the order and widths of the wire format, with what BLK_ENC reports
(30_encoding.md R112 to R116, 47_block_stream.md R260, R270). -/
def IsBlockBits (block : List Byte) (crc : Word) (bits : List Bool) (origPtr nGroups nSel : Nat) : Prop :=
  ∃ (order : List Nat) (last : List Byte) (syms sel : List Nat) (tables : List (List Nat)),
    IsRotationOrder block order ∧ IsLastColumn block order last ∧ order[origPtr]? = some 0 ∧
    IsMtfCode (usedBytes block) last syms ∧ IsPlan syms ((usedBytes block).length + 2) nGroups sel tables ∧
    nSel = sel.length ∧
    bits = bitsMSB 0x314159265359 48 ++ bitsMSB crc.toNat 32 ++ [false] ++ bitsMSB origPtr 24 ++ usedRanges block ++
      usedValues block ++ bitsMSB nGroups 3 ++ bitsMSB nSel 15 ++ selectorField nGroups sel ++
      tables.flatMap lengthField ++ groupCodedBits tables sel syms

/-! ### Decoding blocks and streams (47_block_stream.md R271, R272, R276, R285) -/

/-- A way of reading bits: from a position and the bits from there on. -/
abbrev Reading (α : Type) := Nat → List Bool → BitsRead α → Prop

/-- One reading and then another that depends on its value; the first error ends it (47_block_stream.md R271). -/
def Reading.andThen {α β : Type} (first : Reading α) (next : α → Reading β) : Reading β := fun pos bits out =>
  (∃ e, first pos bits (.error e) ∧ out = .error e) ∨
  ∃ x pos' rest, first pos bits (.ok (x, pos', rest)) ∧ next x pos' rest out

/-- A check between two readings. -/
def checked (ok : Prop) (e : EngineError) : Reading Unit := fun pos bits out =>
  (ok ∧ out = .ok ((), pos, bits)) ∨ (¬ ok ∧ out = .error e)

/-- The end of the readings, with their value. -/
def result {α : Type} (x : α) : Reading α := fun pos bits out => out = .ok (x, pos, bits)

/-- A field of `n` bits, read at once: TRUNCATED_INPUT at its first bit when fewer are left (41_bitstream.md R151). -/
def fieldOf (n : Nat) : Reading Nat := fun pos bits out =>
  (∃ v rest, v < 2 ^ n ∧ bits = bitsMSB v n ++ rest ∧ out = .ok (v, pos + n, rest)) ∨
  (bits.length < n ∧ out = .error (truncatedInput pos))

/-- A part read bit by bit, `full` saying which bits stand for which value and `bad` which bits raise which error: when the
bits run out before either, TRUNCATED_INPUT at their end (41_bitstream.md R151). -/
def bitwise {α : Type} (full : α → List Bool → Prop) (bad : EngineError → List Bool → Prop) : Reading α :=
  fun pos bits out =>
    (∃ x read rest, full x read ∧ bits = read ++ rest ∧ out = .ok (x, pos + read.length, rest)) ∨
    (∃ e read rest, bad e read ∧ bits = read ++ rest ∧ out = .error e) ∨
    ((∀ read rest, bits = read ++ rest → (∀ x, ¬ full x read) ∧ ∀ e, ¬ bad e read) ∧
      out = .error (truncatedInput (pos + bits.length)))

/-- The used map of a stream: 16 bits for the ranges, then 16 bits for each range marked; the used values are those marked,
in increasing order (47_block_stream.md R272, 30_encoding.md R113). -/
def IsUsedMap (used : List Byte) (bits : List Bool) : Prop :=
  ∃ (ranges : List Bool) (values : List (List Bool)), ranges.length = 16 ∧ values.length = ranges.count true ∧
    (∀ v ∈ values, v.length = 16) ∧ bits = ranges ++ values.flatten ∧ used.Pairwise (fun u v => u.toNat < v.toNat) ∧
    ∀ v : Byte, v ∈ used ↔ ranges[v.toNat / 16]? = some true ∧
      (values.getD ((ranges.take (v.toNat / 16)).count true) [])[v.toNat % 16]? = some true

/-- The selectors of a block (47_block_stream.md R272, 30_encoding.md R114). -/
def IsSelectors (nSel nGroups : Nat) (sel : List Nat) (bits : List Bool) : Prop :=
  sel.length = nSel ∧ (∀ x ∈ sel, x < nGroups) ∧ bits = selectorField nGroups sel

/-- Selectors of which one reaches nGroups: BAD_SELECTOR (47_block_stream.md R272). -/
def IsBadSelector (nSel nGroups : Nat) (e : EngineError) (bits : List Bool) : Prop :=
  ∃ sel, sel.length < nSel ∧ (∀ x ∈ sel, x < nGroups) ∧
    bits = selectorField nGroups sel ++ List.replicate nGroups true ∧ e = formatError 6

/-- `bits` are steps from a length to another, "10" up and "11" down, each taken at a length within 1 .. 20
(47_block_stream.md R272, 30_encoding.md R115). -/
inductive IsSteps : Nat → Nat → List Bool → Prop where
  | stay (l : Nat) : IsSteps l l []
  | up (l l' : Nat) (bits : List Bool) : 1 ≤ l → l ≤ 20 → IsSteps (l + 1) l' bits → IsSteps l l' (true :: false :: bits)
  | down (l l' : Nat) (bits : List Bool) : 1 ≤ l → l ≤ 20 → IsSteps (l - 1) l' bits → IsSteps l l' (true :: true :: bits)

/-- The lengths of a table from a start value on: for each symbol the steps to its length, within 1 .. 20, and a 0
(47_block_stream.md R272). -/
inductive IsLengths : Nat → List Nat → List Bool → Prop where
  | none (l : Nat) : IsLengths l [] []
  | next (l l' : Nat) (lens : List Nat) (steps bits : List Bool) : IsSteps l l' steps → 1 ≤ l' → l' ≤ 20 →
      IsLengths l' lens bits → IsLengths l (l' :: lens) (steps ++ false :: bits)

/-- Fewer than `a` lengths and then steps that leave 1 .. 20: HUFFMAN_OVERFLOW, at the check before the next bit
(47_block_stream.md R272). -/
def IsBadLength (a start : Nat) (e : EngineError) (bits : List Bool) : Prop :=
  ∃ lens before steps l, lens.length < a ∧ IsLengths start lens before ∧ IsSteps ((start :: lens).getLastD 0) l steps ∧
    ¬(1 ≤ l ∧ l ≤ 20) ∧ bits = before ++ steps ∧ e = { code := .huffmanOverflow }

/-- `read_lengths(Rd, a)` (47_block_stream.md R272). -/
def lengthsOf (a : Nat) : Reading (List Nat) :=
  (fieldOf 5).andThen fun start =>
    bitwise (fun lens bits => lens.length = a ∧ IsLengths start lens bits) (IsBadLength a start)

/-- The tables of a block, each checked once it is read (47_block_stream.md R271). -/
def tablesOf (a : Nat) : Nat → Reading (List (List Nat))
  | 0 => result []
  | n + 1 => (lengthsOf a).andThen fun lens =>
      (checked ((lens.map fun l => 2 ^ (20 - l)).sum ≤ 2 ^ 20) { code := .invalidHuffmanCode }).andThen fun _ =>
        (tablesOf a n).andThen fun more => result (lens :: more)

/-- The symbols of a block's consumer: those whose bytes stay within the limit, and any with EOB last (45_mtf_rle2.md R214,
47_block_stream.md R271). -/
def TakesWithin (used : List Byte) (lim : Nat) (syms : List Nat) : Prop :=
  syms.getLast? = some (used.length + 1) ∨ ∃ bytes, IsMtfPrefix used bytes syms ∧ bytes.length ≤ lim

/-- `out` is the block of the last column `l` and the origin row: the bytes of the walk of the next-character vector
(44_bwt.md R194, R195). -/
def IsInverse (l : List Byte) (origPtr : Nat) (out : List Byte) : Prop :=
  ∃ (v : List Nat) (p : Nat → Nat), IsNextVector l v ∧ out.length = l.length ∧ v[origPtr]? = some (p 0) ∧
    ∀ k, k < l.length → out[k]? = l[p k]? ∧ v[p k]? = some (p (k + 1))

/-- `blk_read` after the block magic (47_block_stream.md R271, the errors in the order of R276). -/
def blockOf (k cap : Nat) : Reading BlockRead :=
  (fieldOf 32).andThen fun crc =>
  (fieldOf 1).andThen fun randomized =>
  (checked (randomized = 0) { code := .unsupportedLegacyFeature }).andThen fun _ =>
  (fieldOf 24).andThen fun origPtr =>
  (bitwise IsUsedMap fun _ _ => False).andThen fun used =>
  (checked (used ≠ []) (formatError 3)).andThen fun _ =>
  (fieldOf 3).andThen fun nGroups =>
  (checked (2 ≤ nGroups ∧ nGroups ≤ 6) (formatError 4)).andThen fun _ =>
  (fieldOf 15).andThen fun nSel =>
  (checked (1 ≤ nSel) (formatError 5)).andThen fun _ =>
  (bitwise (IsSelectors nSel nGroups) (IsBadSelector nSel nGroups)).andThen fun sel =>
  (tablesOf (used.length + 2) nGroups).andThen fun lens =>
  Reading.andThen (IsHufDec lens sel (used.length + 1) (TakesWithin used (100000 * k)) (formatError 8)) fun syms =>
  fun pos rest out => ∃ last, IsMtfCode used last syms ∧ (∀ b ∈ last, b ∈ used) ∧
    ((checked (origPtr < last.length) { code := .invalidOriginPointer }).andThen fun _ =>
      (checked (last.length ≤ cap) outputTooSmall).andThen fun _ =>
      fun pos rest out => ∃ block, IsInverse last origPtr block ∧ out = .ok (.block block crc origPtr, pos, rest))
      pos rest out

/-- `blk_read(Rd, k, cap)` (47_block_stream.md R271). -/
def blockOrFooter (k cap : Nat) : Reading BlockRead :=
  (fieldOf 48).andThen fun magic pos rest out =>
    (magic = 0x177245385090 ∧ ((fieldOf 32).andThen fun combined => result (.eos combined)) pos rest out) ∨
    (magic ≠ 0x177245385090 ∧
      ((checked (magic = 0x314159265359) (formatError 2)).andThen fun _ => blockOf k cap) pos rest out)

/-- The header of a stream, byte by byte: the multiplier k (47_block_stream.md R285). -/
def headerOf : Reading Nat :=
  (fieldOf 8).andThen fun b => (checked (b = 0x42) (formatError 1)).andThen fun _ =>
  (fieldOf 8).andThen fun z => (checked (z = 0x5A) (formatError 1)).andThen fun _ =>
  (fieldOf 8).andThen fun h => (checked (h = 0x68) (formatError 1)).andThen fun _ =>
  (fieldOf 8).andThen fun d => (checked (0x31 ≤ d ∧ d ≤ 0x39) (formatError 1)).andThen fun _ => result (d - 0x30)

/-- The block loop of STREAM_DEC from what it has put out so far (47_block_stream.md R285): it ends at the footer, by an
error of the block reader or of RLE1, for want of room, or at a checksum that differs, with the output of the failing block
kept there (R287). -/
inductive IsBlockLoop (k cap : Nat) : StreamOut → Nat → List Bool → StreamEnd → Prop where
  | readError (o : StreamOut) (pos : Nat) (bits : List Bool) (e : EngineError) :
      blockOrFooter k (100000 * k) pos bits (.error e) → IsBlockLoop k cap o pos bits (.failed e o pos)
  | footer (o : StreamOut) (pos pos' stored : Nat) (bits rest : List Bool) :
      blockOrFooter k (100000 * k) pos bits (.ok (.eos stored, pos', rest)) → stored = o.comb.toNat →
      IsBlockLoop k cap o pos bits (.finished o pos')
  | footerMismatch (o : StreamOut) (pos pos' stored : Nat) (bits rest : List Bool) :
      blockOrFooter k (100000 * k) pos bits (.ok (.eos stored, pos', rest)) → stored ≠ o.comb.toNat →
      IsBlockLoop k cap o pos bits (.failed { code := .checksumMismatch, info := 1, pos := o.blocks } o pos')
  | runError (o : StreamOut) (pos pos' crc origPtr : Nat) (bits rest : List Bool) (block : List Byte) :
      blockOrFooter k (100000 * k) pos bits (.ok (.block block crc origPtr, pos', rest)) → (rle1Vars block).cnt = 4 →
      IsBlockLoop k cap o pos bits (.failed { code := .malformedRunLength } o pos')
  | noRoom (o : StreamOut) (pos pos' crc origPtr : Nat) (bits rest : List Bool) (block : List Byte) :
      blockOrFooter k (100000 * k) pos bits (.ok (.block block crc origPtr, pos', rest)) → (rle1Vars block).cnt ≠ 4 →
      cap < o.raw.length + (rle1Vars block).out.length → IsBlockLoop k cap o pos bits (.failed outputTooSmall o pos')
  | crcMismatch (o : StreamOut) (pos pos' crc origPtr : Nat) (bits rest : List Bool) (block : List Byte) :
      blockOrFooter k (100000 * k) pos bits (.ok (.block block crc origPtr, pos', rest)) → (rle1Vars block).cnt ≠ 4 →
      o.raw.length + (rle1Vars block).out.length ≤ cap →
      crc ≠ (crcUpdate 0xFFFFFFFF#32 (rle1Vars block).out ^^^ 0xFFFFFFFF#32).toNat →
      IsBlockLoop k cap o pos bits (.failed { code := .checksumMismatch, info := 0, pos := o.blocks }
        { o with raw := o.raw ++ (rle1Vars block).out } pos')
  | block (o : StreamOut) (pos pos' crc origPtr : Nat) (bits rest : List Bool) (block : List Byte) (out : StreamEnd) :
      blockOrFooter k (100000 * k) pos bits (.ok (.block block crc origPtr, pos', rest)) → (rle1Vars block).cnt ≠ 4 →
      o.raw.length + (rle1Vars block).out.length ≤ cap →
      crc = (crcUpdate 0xFFFFFFFF#32 (rle1Vars block).out ^^^ 0xFFFFFFFF#32).toNat →
      IsBlockLoop k cap ⟨o.raw ++ (rle1Vars block).out, ((o.comb <<< 1) ||| (o.comb >>> 31)) ^^^ BitVec.ofNat 32 crc,
        o.blocks + 1⟩ pos' rest out →
      IsBlockLoop k cap o pos bits out

/-- The decoding of a stream (47_block_stream.md R285): the header, then the block loop. -/
def IsStreamRead (bytes : List Byte) (cap : Nat) (out : StreamEnd) : Prop :=
  (∃ e, headerOf 0 (bitsOfBytes bytes) (.error e) ∧ out = .failed e ⟨[], 0, 0⟩ 0) ∨
  ∃ k pos rest, headerOf 0 (bitsOfBytes bytes) (.ok (k, pos, rest)) ∧ IsBlockLoop k cap ⟨[], 0, 0⟩ pos rest out

/-! ### Splitting into blocks, and the stream (47_block_stream.md R278, R280) -/

/-- `groups` packs the chunks in order into blocks of at most `lim` encoded bytes, a new one only when the next chunk does
not fit (47_block_stream.md R278). -/
structure IsBlockSplit (lim : Nat) (cs : List Chunk) (groups : List (List Chunk)) : Prop where
  whole : groups.flatten = cs
  bounds : ∀ g ∈ groups, g ≠ [] ∧ (g.flatMap runCode).length ≤ lim
  greedy : ∀ before g c more after, groups = before ++ g :: (c :: more) :: after →
    lim < (g.flatMap runCode).length + (runCode c).length

/-- The block CRC of a block's chunks: the CRC32 of their raw bytes (42_crc32.md R170, 47_block_stream.md R278). -/
def chunksCrc (g : List Chunk) : Word :=
  crcUpdate 0xFFFFFFFF#32 (g.flatMap fun c => List.replicate c.2 c.1) ^^^ 0xFFFFFFFF#32

/-- `bits` is the stream of the bytes at multiplier k before its pad bits: the header, the blocks with nothing between
them, the footer with the combined CRC (30_encoding.md R110, R111, R118, 47_block_stream.md R278, R280). -/
def IsStreamBits (bytes : List Byte) (k : Nat) (bits : List Bool) (blocks : Nat) (combined : Word) : Prop :=
  ∃ (cs : List Chunk) (groups : List (List Chunk)) (pieces : List (List Bool)),
    IsChunks bytes cs ∧ IsBlockSplit (100000 * k) cs groups ∧ blocks = groups.length ∧ pieces.length = groups.length ∧
    (∀ j, j < blocks → ∃ origPtr nGroups nSel,
      IsBlockBits ((groups.getD j []).flatMap runCode) (chunksCrc (groups.getD j [])) (pieces.getD j [])
        origPtr nGroups nSel) ∧
    combined = groups.foldl (fun (c : Word) g => ((c <<< 1) ||| (c >>> 31)) ^^^ chunksCrc g) 0 ∧
    bits = bitsMSB 0x42 8 ++ bitsMSB 0x5A 8 ++ bitsMSB 0x68 8 ++ bitsMSB (0x30 + k) 8 ++ pieces.flatten ++
      bitsMSB 0x177245385090 48 ++ bitsMSB combined.toNat 32

end Sys2Proof.Machine
end

