-- ==== Sys2Proof/Certificates/Slice0/Obligations.lean ====
section
/-! DEFINITION. The statements for the provers, in the order of the spec: encoding, execution cycle and errors, registers
and reset, memory, then the commands family by family. -/

open Sys2Proof Sys2Proof.Machine

/-! ### Encoding -/

/-- Decoding the bytes of a well-formed command gives it back with all its operands, whatever bytes follow
(30_encoding.md R90 to R95). -/
def Obligations.DecodeOfEncodeIsIdentity : Prop :=
  ∀ (i : Instr) (rest : List Byte), i.wellFormed = true → decodeBytes (encodeBytes i ++ rest) = .ok (i, rest)

/-- A descriptor of every opcode with its OPT bits and WR written out, whatever its operand words, decodes to the command it
stands for with the operands in the order of the opcode map (30_encoding.md R91, R92, R93, R95). -/
def Obligations.OpcodeWordsDecode : Prop :=
  ∀ a b c d e f r : Word,
    decodeDescriptor ⟨0x00000100, a, b, c, d, e, f, r⟩ = .ok (.nop (some r)) ∧
    decodeDescriptor ⟨0x00000001, a, b, c, d, e, f, r⟩ = .ok (.endRun none) ∧
    decodeDescriptor ⟨0x00000102, a, b, c, d, e, f, r⟩ = .ok (.jump a (some r)) ∧
    decodeDescriptor ⟨0x00000010, a, b, c, d, e, f, r⟩ = .ok (.bwInit a b none) ∧
    decodeDescriptor ⟨0x00200111, a, b, c, d, e, f, r⟩ = .ok (.bwBits 32 a (some r)) ∧
    decodeDescriptor ⟨0x00000112, a, b, c, d, e, f, r⟩ = .ok (.bwFlush (some r)) ∧
    decodeDescriptor ⟨0x00000118, a, b, c, d, e, f, r⟩ = .ok (.brInit a b (some r)) ∧
    decodeDescriptor ⟨0x00010019, a, b, c, d, e, f, r⟩ = .ok (.brBits 1 none) ∧
    decodeDescriptor ⟨0x00000120, a, b, c, d, e, f, r⟩ = .ok (.crc32 none a b (some r)) ∧
    decodeDescriptor ⟨0x00010020, a, b, c, d, e, f, r⟩ = .ok (.crc32 (some c) a b none) ∧
    decodeDescriptor ⟨0x00000121, a, b, c, d, e, f, r⟩ = .ok (.crcCombine a b (some r)) ∧
    decodeDescriptor ⟨0x00000030, a, b, c, d, e, f, r⟩ = .ok (.rle1Enc a b c d none) ∧
    decodeDescriptor ⟨0x00000131, a, b, c, d, e, f, r⟩ = .ok (.rle1Dec a b c d (some r)) ∧
    decodeDescriptor ⟨0x00000140, a, b, c, d, e, f, r⟩ = .ok (.bwtFwd a b c none (some r)) ∧
    decodeDescriptor ⟨0x00010040, a, b, c, d, e, f, r⟩ = .ok (.bwtFwd a b c (some d) none) ∧
    decodeDescriptor ⟨0x00000041, a, b, c, d, e, f, r⟩ = .ok (.bwtInv a b c d none none) ∧
    decodeDescriptor ⟨0x00010141, a, b, c, d, e, f, r⟩ = .ok (.bwtInv a b c d (some e) (some r)) ∧
    decodeDescriptor ⟨0x00000150, a, b, c, d, e, f, r⟩ = .ok (.mtfEnc a b c d e (some r)) ∧
    decodeDescriptor ⟨0x00000051, a, b, c, d, e, f, r⟩ = .ok (.mtfDec a b c d e none) ∧
    decodeDescriptor ⟨0x00000160, a, b, c, d, e, f, r⟩ = .ok (.hufLen a b c (some r)) ∧
    decodeDescriptor ⟨0x00000061, a, b, c, d, e, f, r⟩ = .ok (.hufCodes a b c none) ∧
    decodeDescriptor ⟨0x00060162, a, b, c, d, e, f, r⟩ = .ok (.hufEnc 6 a b c d e (some r)) ∧
    decodeDescriptor ⟨0x00010063, a, b, c, d, e, f, r⟩ = .ok (.hufDec 1 a b c d e f none) ∧
    decodeDescriptor ⟨0x00090170, a, b, c, d, e, f, r⟩ = .ok (.blkEnc 9 a b c (some r)) ∧
    decodeDescriptor ⟨0x00010071, a, b, c, d, e, f, r⟩ = .ok (.blkDec 1 a b none) ∧
    decodeDescriptor ⟨0x00010178, a, b, c, d, e, f, r⟩ = .ok (.streamEnc 1 a b c d (some r)) ∧
    decodeDescriptor ⟨0x00000079, a, b, c, d, e, f, r⟩ = .ok (.streamDec a b c d none)

/-- The decoding errors of every descriptor in the order OPC, reserved bits, OPT bits, and a well-formed command
otherwise (30_encoding.md R91, R93, R95, R96, R97). -/
def Obligations.DecodeErrorsInOrder : Prop :=
  ∀ d : Descriptor,
    match usedOptionBits (d.w0.toNat % 256) with
    | none => decodeDescriptor d = .error .reservedOpcode
    | some used =>
      (d.w0 &&& reservedMask ≠ 0 → decodeDescriptor d = .error .reservedBits) ∧
      (d.w0 &&& reservedMask = 0 → 2 ^ used ≤ d.w0.toNat / 65536 % 256 →
        decodeDescriptor d = .error .unusedOption) ∧
      (d.w0 &&& reservedMask = 0 → d.w0.toNat / 65536 % 256 < 2 ^ used →
        ∃ i, decodeDescriptor d = .ok i ∧ i.wellFormed = true ∧
          resultOperand i = if d.w0.getLsbD 8 then some d.w7 else none)

/-! ### The execution cycle and its errors -/

/-- While BUSY, a fetched descriptor that decodes to a command makes the step that command's execution; with no host
action pending, or when the host yields (60_exceptions.md R310; the host's turn: notes/assumptions/1.md). The run's log takes
the command's ranges (notes/assumptions/11.md). -/
def Obligations.StepRunsTheDecodedCommand : Prop :=
  ∀ (s : State) (i : Instr) (rest : List Byte), s.busy = true → FetchInOrder s →
    decodeBytes (s.mem.readBytes s.dp.toNat 32) = .ok (i, rest) →
    ∃ log, Noted s i log ∧
      (s.inputs = [] → step s = exec i { s with runLog := log }) ∧
      (∀ more, s.inputs = .yield :: more → step s = exec i { s with inputs := more, runLog := log })

/-- DESCRIPTOR_FAULT at fetch: ERRINFO 1 for a misaligned DP, 2 for a descriptor that wraps or is not wholly admitted, and
nothing but the error stop (60_exceptions.md R311). -/
def Obligations.DescriptorFaults : Prop :=
  ∀ s : State, s.busy = true → s.inputs = [] →
    (s.dp.toNat % 4 ≠ 0 → step s = .next (stopRecord 14 1 0 s)) ∧
    (s.dp.toNat % 4 = 0 →
      (4294967296 < s.dp.toNat + 32 ∨
        ∃ a, s.dp.toNat ≤ a ∧ a < s.dp.toNat + 32 ∧ s.platform.admits a = false) →
      step s = .next (stopRecord 14 2 0 s))

/-- ILLEGAL_COMMAND: 1 a reserved OPC, else 2 a reserved bit of W0 set, else 3 an OPT bit the opcode does not use, and
nothing but the error stop (60_exceptions.md R302, 30_encoding.md R97). -/
def Obligations.IllegalCommandStops : Prop :=
  ∀ (s : State) (w0 : Word), s.busy = true → s.inputs = [] → FetchInOrder s →
    w0.toNat = s.mem.readNat s.dp.toNat 4 →
    match usedOptionBits (w0.toNat % 256) with
    | none => step s = .next (stopRecord 1 1 0 s)
    | some used =>
      (w0 &&& reservedMask ≠ 0 → step s = .next (stopRecord 1 2 0 s)) ∧
      (w0 &&& reservedMask = 0 → 2 ^ used ≤ w0.toNat / 65536 % 256 → step s = .next (stopRecord 1 3 0 s))

/-- Every command answers a next state: a completed command, counted in CMDCOUNT, or an error stop. The error that a
failing check of steps 2 to 5 names, INVALID_PARAMETER 1, 2, 3 or BUS_ERROR 1 to 7, is the one recorded, and nothing else
changes (60_exceptions.md R310, R320, R321). -/
def Obligations.CommandCompletesOrStops : Prop :=
  ∀ (i : Instr) (s : State),
    (∀ e, (instrPlan i s).check s.platform = some e →
      exec i s = .next (stopRecord e.code.number (BitVec.ofNat 32 e.info) 0 s) ∧
      ((e.code = .invalidParameter ∧ 1 ≤ e.info ∧ e.info ≤ 3) ∨ (e.code = .busError ∧ 1 ≤ e.info ∧ e.info ≤ 7))) ∧
    ((instrPlan i s).check s.platform = none →
      (∃ t dp', exec i s = .next t ∧ Completed s t dp') ∨
      (∃ t code info pos, exec i s = .next t ∧ Stopped s t code info pos ∧ 2 ≤ code.toNat ∧ code.toNat ≤ 12))

/-- The order of the checks: operand values, then wrap, then overlap, then admission range by range, and none when all
hold; and the same of every command with the legal values and the ranges of its own rule, each failing check stopping it
with its code, its sub-code or descriptor word, and nothing else (60_exceptions.md R301, R320 steps 2 to 5, 20_memory.md
R64, R68, R70). The model's readings: this order wins over a command's own list (notes/assumptions/8.md), a cursor's range
is not looked at for admission (notes/assumptions/6.md), and an INIT buffer may overlap the WR area
(notes/assumptions/7.md). -/
def Obligations.ChecksInOrder : Prop :=
  (∀ (p : Plan) (platform : Platform),
    (p.values = false → p.check platform = some (invalidParameter 1)) ∧
    (p.values = true → (∃ r ∈ p.ranges, 4294967296 < r.span.addr + r.span.len) →
      p.check platform = some (invalidParameter 2)) ∧
    (p.values = true → (∀ r ∈ p.ranges, r.span.addr + r.span.len ≤ 4294967296) →
      ¬ p.ranges.Pairwise MayStandTogether → p.check platform = some (invalidParameter 3)) ∧
    (p.values = true → (∀ r ∈ p.ranges, r.span.addr + r.span.len ≤ 4294967296) → p.ranges.Pairwise MayStandTogether →
      (∀ before r after, p.ranges = before ++ r :: after → (∀ x ∈ before, AdmittedOrCursor platform x) →
        ¬ AdmittedOrCursor platform r → p.check platform = some { code := .busError, info := r.word }) ∧
      ((∀ x ∈ p.ranges, AdmittedOrCursor platform x) → p.check platform = none))) ∧
  ∀ (i : Instr) (s : State),
    (¬ LegalValues i → exec i s = .next (stopRecord 2 1 0 s)) ∧
    (LegalValues i → (∃ r ∈ operandTable i s, 4294967296 < r.span.addr + r.span.len) →
      exec i s = .next (stopRecord 2 2 0 s)) ∧
    (LegalValues i → (∀ r ∈ operandTable i s, r.span.addr + r.span.len ≤ 4294967296) →
      ¬ (operandTable i s).Pairwise MayStandTogether → exec i s = .next (stopRecord 2 3 0 s)) ∧
    (LegalValues i → (∀ r ∈ operandTable i s, r.span.addr + r.span.len ≤ 4294967296) →
      (operandTable i s).Pairwise MayStandTogether →
      (∀ before r after, operandTable i s = before ++ r :: after → (∀ x ∈ before, AdmittedOrCursor s.platform x) →
        ¬ AdmittedOrCursor s.platform r → exec i s = .next (stopRecord 13 (BitVec.ofNat 32 r.word) 0 s)) ∧
      ((∀ x ∈ operandTable i s, AdmittedOrCursor s.platform x) → (instrPlan i s).check s.platform = none))

/-- A failing command keeps CMDCOUNT, DP, the bases and bounds of the cursors and its WR area, and its RESULT words except
for CHECKSUM_MISMATCH (60_exceptions.md R321, 10_state.md R31, 20_memory.md R70; that the WR area is among what stays is
the model's reading, notes/assumptions/10.md). -/
def Obligations.FailureLeavesResults : Prop :=
  ∀ (i : Instr) (s t : State), exec i s = .next t → s.err = false → t.err = true →
    t.busy = false ∧ t.done = s.done ∧ t.cmdcount = s.cmdcount ∧ t.dp = s.dp ∧
    (t.errcode ≠ 11 → t.results = s.results) ∧
    t.bw.base = s.bw.base ∧ t.bw.cap = s.bw.cap ∧ t.br.base = s.br.base ∧ t.br.len = s.br.len ∧
    (∀ w, resultOperand i = some w → ∀ a, w.toNat ≤ a → a < w.toNat + 16 → t.mem.read a = s.mem.read a)

/-- A run stops by itself only at END or by an error, and no host action but SRST, reset or letting the engine run ends
it; an idle engine does nothing (60_exceptions.md R310, R331, 70_reset_and_hazards.md R340; that it still has a step is the
model's choice, notes/assumptions/19.md). -/
def Obligations.OnlyEndOrErrorStopsRun : Prop :=
  (∀ s : State, s.inputs = [] → s.busy = false → step s = .next s) ∧
  (∀ s : State, s.inputs = [] → s.busy = true →
    ∃ t, step s = .next t ∧ (t.busy = false → t.err = true ∨ ∃ wr, fetchCommand s = .ok (.endRun wr) ∧ t.done = true)) ∧
  (∀ (s t : State) (a : HostAction) (more : List HostAction), s.inputs = a :: more → s.busy = true → step s = .next t →
    t.busy = false → a = .yield ∨ a = .resetPin ∨ ∃ v : Word, a = .writeReg 0x008 4 v ∧ v.getLsbD 31 = true)

/-- A JUMP to its own address never stops: every number of steps leaves the run in progress at the same DP with the same
memory, each step counted (40_control.md R142). -/
def Obligations.JumpToItselfNeverStops : Prop :=
  ∀ (s : State) (rest : List Byte), s.busy = true → s.inputs = [] → FetchInOrder s →
    decodeBytes (s.mem.readBytes s.dp.toNat 32) = .ok (.jump s.dp none, rest) →
    ∀ n : Nat, ∃ t : State, Host.Core.run Sys2Proof.core n s = .next t ∧
      t = { s with cmdcount := s.cmdcount + BitVec.ofNat 32 n }

/-! ### The invariant -/

/-- The invariant holds at reset. -/
def Obligations.InvHoldsAtReset : Prop := Inv State.reset

/-- Every step, of the engine or of the host, keeps the invariant: canonical memory inside the address space, the bit
writer's and the bit reader's invariants and buffers (10_state.md R32, R33, 20_memory.md R71), and what STATUS and the
error registers may hold together (10_state.md R25, R29, R37, 60_exceptions.md R300). -/
def Obligations.StepKeepsInv : Prop :=
  ∀ s t : State, Inv s → step s = .next t → Inv t

/-! ### The register window, runs and reset -/

/-- START begins a run at DLIST while idle, clears the run's registers and keeps RESULT, BW and BR; while BUSY it is
ignored (10_state.md R24). The same write sets IE, and a write without START and SRST sets IE and changes nothing else,
idle or BUSY (R23). The run's log of memory use begins empty (notes/assumptions/11.md). -/
def Obligations.StartBeginsRun : Prop :=
  ∀ (s : State) (v : Word) (more : List HostAction), s.inputs = .writeReg 0x008 4 v :: more → v.getLsbD 31 = false →
    (v.getLsbD 0 = true → s.busy = false → step s = .next { s with
      inputs := more, ie := v.getLsbD 1, dp := s.dlist, cmdcount := 0, errcode := 0, errinfo := 0, errpos := 0,
      done := false, err := false, busy := true, runLog := ⟨[], []⟩ }) ∧
    (v.getLsbD 0 = true → s.busy = true → step s = .next { s with inputs := more, ie := v.getLsbD 1 }) ∧
    (v.getLsbD 0 = false → step s = .next { s with inputs := more, ie := v.getLsbD 1 })

/-- The reset input, an SRST write (START in it or not) and `State.reset` leave every register of the window at the value
of the table, the interrupt output low and the engine idle; while idle they change nothing else, memory included
(10_state.md R20, R23, R26, 70_reset_and_hazards.md R340, R342; that IE of an SRST write is lost:
notes/assumptions/14.md). -/
def Obligations.ResetReadsItsTable : Prop :=
  (∀ o, registerValue State.reset o = if o = 0 then 0x42575445#32 else if o = 4 then 0x00010000#32 else 0#32) ∧
  ∀ (s : State) (v : Word) (more : List HostAction),
    (s.inputs = .resetPin :: more ∨ (s.inputs = .writeReg 0x008 4 v :: more ∧ v.getLsbD 31 = true)) →
    (∃ t, step s = .next t ∧
      (∀ o, registerValue t o = if o = 0 then 0x42575445#32 else if o = 4 then 0x00010000#32 else 0#32) ∧
      irqLevel t = false ∧ t.busy = false ∧ t.platform = s.platform ∧ t.inputs = more) ∧
    (s.busy = false → step s = .next { State.reset with
      mem := s.mem, platform := s.platform, inputs := more, hostReg := s.hostReg, hostBuf := s.hostBuf,
      fresh := s.fresh })

/-- Reset or SRST during a run: only the write ranges of the command at DP may change, and no byte when its fetch or its
checks would fail; DONE and ERR are clear (70_reset_and_hazards.md R342). -/
def Obligations.ResetAbandonsRun : Prop :=
  ∀ (s : State) (v : Word) (more : List HostAction), s.busy = true →
    (s.inputs = .resetPin :: more ∨ (s.inputs = .writeReg 0x008 4 v :: more ∧ v.getLsbD 31 = true)) →
    ∃ t, step s = .next t ∧ t.busy = false ∧ t.done = false ∧ t.err = false ∧
      (∀ o, registerValue t o = registerValue State.reset o) ∧
      (∀ i, fetchCommand s = .ok i → (instrPlan i s).check s.platform = none →
        ∀ a, (∀ sp ∈ writeSpans i s, ¬(sp.addr ≤ a ∧ a < sp.addr + sp.len)) → t.mem.read a = s.mem.read a) ∧
      ((∀ i, fetchCommand s = .ok i → (instrPlan i s).check s.platform ≠ none) → t.mem = s.mem)

/-- STATUS and CTRL as read, bit by bit, the interrupt level, and the write-1-to-clear bits (10_state.md R20, R23, R25,
60_exceptions.md R330). -/
def Obligations.StatusBits : Prop :=
  (∀ s : State, (registerValue s 0x00C).getLsbD 0 = s.busy ∧ (registerValue s 0x00C).getLsbD 1 = s.done ∧
    (registerValue s 0x00C).getLsbD 2 = s.err ∧
    (registerValue s 0x00C).getLsbD 3 = (s.ie && (s.done || s.err)) ∧
    irqLevel s = (s.ie && (s.done || s.err)) ∧
    (∀ j, 4 ≤ j → (registerValue s 0x00C).getLsbD j = false) ∧
    (registerValue s 0x008).getLsbD 1 = s.ie ∧
    (∀ j, j ≠ 1 → (registerValue s 0x008).getLsbD j = false)) ∧
  ∀ (s : State) (v : Word) (more : List HostAction), s.inputs = .writeReg 0x00C 4 v :: more →
    step s = .next { s with
      inputs := more, done := s.done && !v.getLsbD 1, err := s.err && !v.getLsbD 2 }

/-- Host writes of any register but CTRL and STATUS are ignored while BUSY, writes of read-only registers and reserved
offsets always; DLIST stores all 32 bits while idle (10_state.md R20, R27, R38). -/
def Obligations.WritesIgnoredWhileBusy : Prop :=
  ∀ (s : State) (o : BitVec 12) (v : Word) (more : List HostAction), s.inputs = .writeReg o 4 v :: more →
    o.toNat % 4 = 0 → o ≠ 0x008 → o ≠ 0x00C →
    (s.busy = true ∨ o ≠ 0x010 → step s = .next { s with inputs := more }) ∧
    (s.busy = false → o = 0x010 → step s = .next { s with inputs := more, dlist := v })

/-- The register map: a read gives what the table of R20 lists at its offset and 0 at a reserved one, while idle and, but for
DP, CMDCOUNT, RESULT, BW and BR, while BUSY, when the error registers are 0; a read of those while BUSY gives some value.
No read changes a register (10_state.md R20, R21, R22, R37). -/
def Obligations.RegisterReads : Prop :=
  ∀ (s : State) (o : BitVec 12) (more : List HostAction), s.inputs = .readReg o 4 :: more → o.toNat % 4 = 0 →
    (∀ v, ((o, v) ∈ registerTable s ∨ ((∀ w, (o, w) ∉ registerTable s) ∧ v = 0)) →
      (s.busy = false ∨ o ∉ hiddenWhileBusy) → step s = .next { s with inputs := more, hostReg := v }) ∧
    (s.busy = true → Inv s → o ∈ [0x018#12, 0x01C#12, 0x020#12] →
      step s = .next { s with inputs := more, hostReg := 0 }) ∧
    (s.busy = true → ∃ v f, step s = .next { s with inputs := more, hostReg := v, fresh := f })

/-! ### Host memory -/

/-- While a run is in progress a host write has no step when it touches a descriptor still to be executed or a range a
command of the run reads or writes, before or after it, however far ahead; a host read has none when it touches a range a
command of the run writes. Every other access inside the address space and outside the register window is done, during a
run and while idle (20_memory.md R77, 70_reset_and_hazards.md R350). The model's choices (notes/assumptions/11.md, 12.md,
13.md): the commands of the run are those so far and those the engine comes to with the host doing nothing, and every read
of a written range counts as relied on. -/
def Obligations.HostDutyWhileBusy : Prop :=
  (∀ (s : State) (addr : Word) (bytes : List Byte) (more : List HostAction) (a : Nat), Inv s →
    s.inputs = .writeMem addr bytes :: more → s.busy = true → addr.toNat ≤ a → a < addr.toNat + bytes.length →
    (touches s.runLog.used a ∨
      ∃ n s', commandsAfter n { s with inputs := more } = some s' ∧ s'.busy = true ∧ UsesByte s' a) →
    ∀ t, step s ≠ .next t) ∧
  (∀ (s : State) (addr : Word) (len : Nat) (more : List HostAction) (a : Nat), Inv s →
    s.inputs = .readMem addr len :: more → s.busy = true → addr.toNat ≤ a → a < addr.toNat + len →
    (touches s.runLog.written a ∨
      ∃ n s', commandsAfter n { s with inputs := more } = some s' ∧ s'.busy = true ∧ WritesByte s' a) →
    ∀ t, step s ≠ .next t) ∧
  (∀ (s : State) (addr : Word) (bytes : List Byte) (more : List HostAction),
    s.inputs = .writeMem addr bytes :: more → addr.toNat + bytes.length ≤ 4294967296 →
    (∀ a, addr.toNat ≤ a → a < addr.toNat + bytes.length → s.platform.window.contains a = false ∧
      (s.busy = true → ¬ touches s.runLog.used a ∧
        ∀ n s', commandsAfter n { s with inputs := more } = some s' → s'.busy = true → ¬ UsesByte s' a)) →
    step s = .next { s with inputs := more, mem := s.mem.writeBytes addr.toNat bytes }) ∧
  (∀ (s : State) (addr : Word) (len : Nat) (more : List HostAction),
    s.inputs = .readMem addr len :: more → addr.toNat + len ≤ 4294967296 →
    (∀ a, addr.toNat ≤ a → a < addr.toNat + len → s.platform.window.contains a = false ∧
      (s.busy = true → ¬ touches s.runLog.written a ∧
        ∀ n s', commandsAfter n { s with inputs := more } = some s' → s'.busy = true → ¬ WritesByte s' a)) →
    step s = .next { s with inputs := more, hostBuf := s.mem.readBytes addr.toNat len })

/-- A range is admitted exactly when MemAdmits holds for every byte address in it (20_memory.md R64). -/
def Obligations.AdmissionIsPerByte : Prop :=
  ∀ (p : Platform) (sp : Span),
    p.admitsSpan sp = true ↔ ∀ a, sp.addr ≤ a → a < sp.addr + sp.len → p.admits a = true

/-- No command changes a byte outside its write ranges, whether it completes or fails (20_memory.md R69). -/
def Obligations.CommandsWriteOnlyTheirRanges : Prop :=
  ∀ (i : Instr) (s t : State) (a : Nat), exec i s = .next t →
    (∀ sp ∈ writeSpans i s, ¬(sp.addr ≤ a ∧ a < sp.addr + sp.len)) → t.mem.read a = s.mem.read a

/-- No command changes a byte of the register window through host memory (20_memory.md R61). -/
def Obligations.RegisterWindowUntouched : Prop :=
  ∀ (i : Instr) (s t : State) (a : Nat), Inv s → exec i s = .next t →
    s.platform.regBase.toNat ≤ a → a < s.platform.regBase.toNat + 4096 → t.mem.read a = s.mem.read a

/-! ### Who writes which registers -/

/-- Only BW_INIT, BW_BITS, BW_FLUSH, HUF_ENC and BLK_ENC change the BW registers, only BR_INIT, BR_BITS, HUF_DEC and
BLK_DEC the BR registers (10_state.md R32, R33, R34). -/
def Obligations.CursorOwnership : Prop :=
  ∀ (i : Instr) (s t : State), exec i s = .next t →
    (ownsWriter i = false → t.bw = s.bw) ∧ (ownsReader i = false → t.br = s.br)

/-- No command changes CTRL.IE, DLIST, the platform or the host's own state; commands without results keep RESULT; only
END sets DONE, and DONE is never cleared by a command (10_state.md R23, R25, R27, R31, 40_control.md R141). -/
def Obligations.EngineKeepsHostRegisters : Prop :=
  ∀ (i : Instr) (s t : State), exec i s = .next t →
    t.ie = s.ie ∧ t.dlist = s.dlist ∧ t.platform = s.platform ∧ t.inputs = s.inputs ∧ t.hostReg = s.hostReg ∧
    t.hostBuf = s.hostBuf ∧ t.runLog = s.runLog ∧ (withoutResults i = true → t.results = s.results) ∧
    (t.done ≠ s.done → (∃ wr, i = .endRun wr) ∧ t.done = true)

/-! ### Control commands -/

/-- NOP, END and JUMP complete whenever their WR area is in order: NOP only advances DP, END sets DONE and clears BUSY
with DP kept, JUMP sets DP to its target whatever it is (40_control.md R140, R141, R142). -/
def Obligations.ControlCommandsComplete : Prop :=
  ∀ (s : State) (wr : Option Word) (target : Word), operandsInOrder s [] [] [] [] wr = true →
    (∃ t, exec (.nop wr) s = .next t ∧ CompletedNext s t ∧ Stored s t [] wr ∧ t.results = s.results ∧
      t.bw = s.bw ∧ t.br = s.br) ∧
    (∃ t, exec (.endRun wr) s = .next t ∧ Completed s t s.dp ∧ t.busy = false ∧ t.done = true ∧ Stored s t [] wr ∧
      t.results = s.results ∧ t.bw = s.bw ∧ t.br = s.br) ∧
    (∃ t, exec (.jump target wr) s = .next t ∧ Completed s t target ∧ t.busy = s.busy ∧ t.done = s.done ∧
      Stored s t [] wr ∧ t.results = s.results ∧ t.bw = s.bw ∧ t.br = s.br)

/-! ### Bit stream commands -/

/-- BW_INIT and BR_INIT complete on a buffer that does not wrap and is admitted, BR_INIT also below 2^29 bytes, and set
their cursor's registers and nothing else (41_bitstream.md R152, R155; that the buffer may overlap the WR area is the
model's reading, notes/assumptions/7.md). -/
def Obligations.InitCommandsSetCursors : Prop :=
  ∀ (s : State) (base len : Word) (wr : Option Word), operandsInOrder s [] [] [] [] wr = true →
    base.toNat + len.toNat ≤ 4294967296 →
    (∀ a, base.toNat ≤ a → a < base.toNat + len.toNat → s.platform.admits a = true) →
    (∃ t, exec (.bwInit base len wr) s = .next t ∧ CompletedNext s t ∧ Stored s t [] wr ∧ t.results = s.results ∧
      t.bw = ⟨base, len, 0, 0, 0⟩ ∧ t.br = s.br) ∧
    (len.toNat < 2 ^ 29 →
      ∃ t, exec (.brInit base len wr) s = .next t ∧ CompletedNext s t ∧ Stored s t [] wr ∧ t.results = s.results ∧
        t.bw = s.bw ∧ t.br = ⟨base, len, 0⟩)

/-- BW_BITS appends the low n bits of its value when there is room, and otherwise stops with OUTPUT_BUFFER_TOO_SMALL
(41_bitstream.md R150, R153, 10_state.md R32). -/
def Obligations.BwBitsAppends : Prop :=
  ∀ (s : State) (n : Nat) (value : Word) (wr : Option Word), n ≤ 32 → s.bw.count.toNat ≤ s.bw.cap.toNat →
    operandsInOrder s [] [] [] [s.bw.freeSpan] wr = true →
    (hasRoom s n = true → ∃ t, exec (.bwBits n value wr) s = .next t ∧ CompletedNext s t ∧
      Appended s t ((List.range n).map fun j => value.getLsbD (n - 1 - j)) wr ∧ t.results = s.results ∧ t.br = s.br) ∧
    (hasRoom s n = false → ∃ t, exec (.bwBits n value wr) s = .next t ∧ FailedAppend s t)

/-- BW_FLUSH pads the pending bits with zeros to a byte, stores it and reports BW_COUNT; without room it stops with
OUTPUT_BUFFER_TOO_SMALL (41_bitstream.md R150, R154). -/
def Obligations.BwFlushPads : Prop :=
  ∀ (s : State) (wr : Option Word), s.bw.count.toNat ≤ s.bw.cap.toNat →
    operandsInOrder s [] [] [] [s.bw.freeSpan] wr = true →
    (hasRoom s ((8 - s.bw.nbits.toNat) % 8) = true → ∃ t, exec (.bwFlush wr) s = .next t ∧ CompletedNext s t ∧
      Appended s t (List.replicate ((8 - s.bw.nbits.toNat) % 8) false) wr ∧ t.bw.nbits = 0 ∧
      (s.bw.acc.toNat < 2 ^ s.bw.nbits.toNat → t.bw.acc = 0) ∧
      t.results = ⟨t.bw.count, 0, 0, 0⟩ ∧ t.br = s.br) ∧
    (hasRoom s ((8 - s.bw.nbits.toNat) % 8) = false → ∃ t, exec (.bwFlush wr) s = .next t ∧ FailedAppend s t)

/-- BR_BITS returns the next n bits of the buffer, the first one most significant, and moves BR_POS past them; with fewer
left it stops with TRUNCATED_INPUT at BR_POS and changes nothing else (41_bitstream.md R151, R156, 10_state.md R33). -/
def Obligations.BrBitsReads : Prop :=
  ∀ (s : State) (n : Nat) (wr : Option Word), n ≤ 32 → operandsInOrder s [] [] [s.br.remainder] [] wr = true →
    (s.br.pos.toNat + n ≤ 8 * s.br.len.toNat →
      ∃ t, exec (.brBits n wr) s = .next t ∧ CompletedNext s t ∧ Stored s t [] wr ∧ t.bw = s.bw ∧
        t.br = { s.br with pos := s.br.pos + BitVec.ofNat 32 n } ∧
        t.results = ⟨t.results.r0, s.br.pos + BitVec.ofNat 32 n, 0, 0⟩ ∧
        (∀ j, j < n → t.results.r0.getLsbD (n - 1 - j) =
          (s.mem.read (s.br.base.toNat + (s.br.pos.toNat + j) / 8)).getLsbD (7 - (s.br.pos.toNat + j) % 8)) ∧
        t.results.r0.toNat < 2 ^ n) ∧
    (8 * s.br.len.toNat < s.br.pos.toNat + n → exec (.brBits n wr) s = .next (stopRecord 4 0 s.br.pos s))

/-! ### Checksum commands -/

/-- CRC32 reports the register after its bytes and its complement; the register takes the bits one at a time, most
significant first, and chains; CRC_COMBINE rotates the combined value left by one and adds the block CRC (42_crc32.md
R170, R171, R172). -/
def Obligations.ChecksumCommandsReport : Prop :=
  (∀ (s : State) (cont : Option Word) (src len : Word) (wr : Option Word),
    operandsInOrder s [wordSpan src len] [] [] [] wr = true →
    ∃ t, exec (.crc32 cont src len wr) s = .next t ∧ CompletedNext s t ∧ Stored s t [] wr ∧ t.bw = s.bw ∧ t.br = s.br ∧
      t.results = ⟨crcUpdate (cont.getD 0xFFFFFFFF#32) (s.mem.readBytes src.toNat len.toNat) ^^^ 0xFFFFFFFF#32,
        crcUpdate (cont.getD 0xFFFFFFFF#32) (s.mem.readBytes src.toNat len.toNat), 0, 0⟩) ∧
  (∀ (st : Word) (xs ys : List Byte), crcUpdate st (xs ++ ys) = crcUpdate (crcUpdate st xs) ys) ∧
  (∀ (st : Word) (xs : List Byte), crcUpdate st xs =
    (bitsOfBytes xs).foldl (fun (r : Word) b =>
      if (r.getLsbD 31 != b) then (r <<< 1) ^^^ 0x04C11DB7#32 else r <<< 1) st) ∧
  (∀ (s : State) (combined blockCrc : Word) (wr : Option Word), operandsInOrder s [] [] [] [] wr = true →
    ∃ t, exec (.crcCombine combined blockCrc wr) s = .next t ∧ CompletedNext s t ∧ Stored s t [] wr ∧ t.bw = s.bw ∧
      t.br = s.br ∧ t.results = ⟨((combined <<< 1) ||| (combined >>> 31)) ^^^ blockCrc, 0, 0, 0⟩)

/-! ### RLE1 -/

/-- RLE1_ENC writes the encoding of its source, runs of up to 3 copied, runs of 4 to 255 as four copies and a count, longer
runs cut at 255, and reports its length; an encoding longer than the capacity stops with OUTPUT_BUFFER_TOO_SMALL
(43_rle1.md R180, R181). -/
def Obligations.Rle1EncWrites : Prop :=
  ∀ (s : State) (src len dst cap : Word) (wr : Option Word),
    operandsInOrder s [wordSpan src len] [wordSpan dst cap] [] [] wr = true →
    ∃ out : List Byte, IsRle1Code (s.mem.readBytes src.toNat len.toNat) out ∧
      (out.length ≤ cap.toNat → ∃ t, exec (.rle1Enc src len dst cap wr) s = .next t ∧ CompletedNext s t ∧
        Stored s t [(dst.toNat, out)] wr ∧ t.results = ⟨BitVec.ofNat 32 out.length, 0, 0, 0⟩ ∧ t.bw = s.bw ∧
        t.br = s.br) ∧
      (cap.toNat < out.length → ∃ t, exec (.rle1Enc src len dst cap wr) s = .next t ∧
        FailedWith s t 3 0 0 [wordSpan dst cap])

/-- RLE1_DEC writes what the decoder's loop puts out; a source that ends inside a run marker stops with
MALFORMED_RUN_LENGTH, before the capacity is looked at (43_rle1.md R182, R183). -/
def Obligations.Rle1DecWrites : Prop :=
  ∀ (s : State) (src len dst cap : Word) (wr : Option Word) (v : Rle1Vars),
    operandsInOrder s [wordSpan src len] [wordSpan dst cap] [] [] wr = true →
    v = rle1Vars (s.mem.readBytes src.toNat len.toNat) →
    (v.cnt ≠ 4 → v.out.length ≤ cap.toNat →
      ∃ t, exec (.rle1Dec src len dst cap wr) s = .next t ∧ CompletedNext s t ∧ Stored s t [(dst.toNat, v.out)] wr ∧
        t.results = ⟨BitVec.ofNat 32 v.out.length, 0, 0, 0⟩ ∧ t.bw = s.bw ∧ t.br = s.br) ∧
    (v.cnt ≠ 4 → cap.toNat < v.out.length →
      ∃ t, exec (.rle1Dec src len dst cap wr) s = .next t ∧ FailedWith s t 3 0 0 [wordSpan dst cap]) ∧
    (v.cnt = 4 → ∃ t, exec (.rle1Dec src len dst cap wr) s = .next t ∧ FailedWith s t 5 0 0 [wordSpan dst cap])

/-- Decoding the RLE1 encoding of any byte sequence gives it back, without an error (43_rle1.md R184). The two functions are
those of R180 and R182: the encoding is the sequence's only one, and the decoding is the loop's output. -/
def Obligations.Rle1RoundTrip : Prop :=
  ∀ bytes : List Byte, rle1Dec (rle1Enc bytes) = .ok bytes ∧ (∀ out, IsRle1Code bytes out ↔ out = rle1Enc bytes) ∧
    (∀ out, rle1Dec bytes = .ok out ↔ (rle1Vars bytes).cnt ≠ 4 ∧ out = (rle1Vars bytes).out)

/-! ### Rotation sorter and permutation generator -/

/-- The sorted index array lists the start indices in the rotation order, and is the only list that does (44_bwt.md
R190). -/
def Obligations.SortedIndexArray : Prop :=
  ∀ block : List Byte, IsRotationOrder block (sortedIndices block) ∧
    ∀ sa, IsRotationOrder block sa → sa = sortedIndices block

/-- BWT_FWD writes the last column of the sorted rotations and, with SA = 1, the sorted index array, and reports the row
of rotation 0 (44_bwt.md R190, R191). -/
def Obligations.BwtFwdWrites : Prop :=
  ∀ (s : State) (src n dst : Word) (sa wr : Option Word) (block : List Byte), 1 ≤ n.toNat → n.toNat ≤ 900000 →
    operandsInOrder s [wordSpan src n] (wordSpan dst n :: sa.toList.map fun d => ⟨d.toNat, 4 * n.toNat⟩) [] [] wr = true →
    block = s.mem.readBytes src.toNat n.toNat →
    ∃ (t : State) (order : List Nat) (last : List Byte), exec (.bwtFwd src n dst sa wr) s = .next t ∧ CompletedNext s t ∧
      IsRotationOrder block order ∧ last.length = n.toNat ∧
      (∀ k, k < n.toNat → last[k]? = block[(order.getD k 0 + n.toNat - 1) % n.toNat]?) ∧
      Stored s t ((dst.toNat, last) :: sa.toList.map fun d => (d.toNat, arrayBytes 4 order)) wr ∧
      order[t.results.r0.toNat]? = some 0 ∧ t.results = ⟨t.results.r0, n, 0, 0⟩ ∧ t.bw = s.bw ∧ t.br = s.br

/-- The last column holds the block's bytes in some order, so also its used set, and the origin row is below the block's
length (44_bwt.md R192). -/
def Obligations.LastColumnPermutes : Prop :=
  ∀ block : List Byte, (lastColumn block (sortedIndices block)).Perm block ∧
    usedBytes (lastColumn block (sortedIndices block)) = usedBytes block ∧
    (block ≠ [] → originRow (sortedIndices block) < block.length)

/-- BWT_INV writes the bytes of the walk of the next-character vector from T[origPtr] and, with TV = 1, the vector; an
origin pointer not below n stops with INVALID_ORIGIN_POINTER and changes nothing else (44_bwt.md R194, R195; that
memory stays as it was: notes/assumptions/9.md). -/
def Obligations.BwtInvWrites : Prop :=
  ∀ (s : State) (src n origPtr dst : Word) (tv wr : Option Word) (l : List Byte), n.toNat ≤ 900000 →
    operandsInOrder s [wordSpan src n] (wordSpan dst n :: tv.toList.map fun e => ⟨e.toNat, 4 * n.toNat⟩) [] [] wr = true →
    l = s.mem.readBytes src.toNat n.toNat →
    (origPtr.toNat < n.toNat →
      ∃ (t : State) (v : List Nat) (out : List Byte) (p : Nat → Nat), exec (.bwtInv src n origPtr dst tv wr) s = .next t ∧
        CompletedNext s t ∧ IsNextVector l v ∧ out.length = n.toNat ∧ v[origPtr.toNat]? = some (p 0) ∧
        (∀ k, k < n.toNat → out[k]? = l[p k]? ∧ v[p k]? = some (p (k + 1))) ∧
        Stored s t ((dst.toNat, out) :: tv.toList.map fun e => (e.toNat, arrayBytes 4 v)) wr ∧
        t.results = ⟨n, 0, 0, 0⟩ ∧ t.bw = s.bw ∧ t.br = s.br) ∧
    (n.toNat ≤ origPtr.toNat → exec (.bwtInv src n origPtr dst tv wr) s = .next (stopRecord 6 0 0 s))

/-- The inverse transform of a block's last column and origin row is the block, periodic blocks included (44_bwt.md
R196). -/
def Obligations.BwtRoundTrip : Prop :=
  ∀ block : List Byte, block ≠ [] →
    bwtInverse (lastColumn block (sortedIndices block)) (originRow (sortedIndices block)) = block

/-! ### MTF + RLE2 -/

/-- MTF_ENC writes the symbols, list positions from 1 on as the next number, runs of position 0 as bijective base-2
numerals, EOB last, as u16 words, and the 32-byte used map, bit v mod 8 of byte v div 8 marking value v, and reports the
symbol count, nInUse and EOB; more symbols than the capacity stop with OUTPUT_BUFFER_TOO_SMALL (45_mtf_rle2.md R210, R211,
R212, R213, R216). -/
def Obligations.MtfEncWrites : Prop :=
  ∀ (s : State) (src n dst cap map : Word) (wr : Option Word) (x used : List Byte), 1 ≤ n.toNat → n.toNat ≤ 900000 →
    operandsInOrder s [wordSpan src n] [⟨dst.toNat, 2 * cap.toNat⟩, ⟨map.toNat, 32⟩] [] [] wr = true →
    x = s.mem.readBytes src.toNat n.toNat → (∀ v, v ∈ used ↔ v ∈ x) →
    used.Pairwise (fun u v => u.toNat < v.toNat) →
    ∃ syms : List Nat, IsMtfCode used x syms ∧
      (syms.length ≤ cap.toNat →
        ∃ (t : State) (marks : List Byte), exec (.mtfEnc src n dst cap map wr) s = .next t ∧ CompletedNext s t ∧
          marks.length = 32 ∧
          (∀ v : Byte, (marks.getD (v.toNat / 8) 0).getLsbD (v.toNat % 8) = x.contains v) ∧
          Stored s t [(dst.toNat, arrayBytes 2 syms), (map.toNat, marks)] wr ∧
          t.results = ⟨BitVec.ofNat 32 syms.length, BitVec.ofNat 32 used.length, BitVec.ofNat 32 (used.length + 1), 0⟩ ∧
          t.bw = s.bw ∧ t.br = s.br) ∧
      (cap.toNat < syms.length → ∃ t, exec (.mtfEnc src n dst cap map wr) s = .next t ∧
        FailedWith s t 3 0 0 [⟨dst.toNat, 2 * cap.toNat⟩, ⟨map.toNat, 32⟩])

/-- MTF_DEC writes the decoded bytes and reports their number and the symbols used; an empty used map stops with
FORMAT_ERROR 3. Otherwise the first symbol that decides says how it ends: EOB completes it, a symbol above EOB stops with
INVALID_SYMBOL, one that takes the bytes, a pending run among them, past the capacity with OUTPUT_BUFFER_TOO_SMALL, and
symbols without EOB with FORMAT_ERROR 9; one of these always holds (45_mtf_rle2.md R214, R215). -/
def Obligations.MtfDecWrites : Prop :=
  ∀ (s : State) (src count map dst cap : Word) (wr : Option Word) (used : List Byte) (syms : List Nat),
    operandsInOrder s [⟨src.toNat, 2 * count.toNat⟩, ⟨map.toNat, 32⟩] [wordSpan dst cap] [] [] wr = true →
    used = allBytes.filter (fun v => (s.mem.read (map.toNat + v.toNat / 8)).getLsbD (v.toNat % 8)) →
    syms = (List.range count.toNat).map (fun k => s.mem.readNat (src.toNat + 2 * k) 2) →
    (used = [] → ∃ t, exec (.mtfDec src count map dst cap wr) s = .next t ∧
      FailedWith s t 12 3 0 [wordSpan dst cap]) ∧
    (used ≠ [] → ∃ out, IsMtfDec used cap.toNat outputTooSmall syms out) ∧
    (∀ out k, used ≠ [] → IsMtfDec used cap.toNat outputTooSmall syms (.ok (out, k)) →
      ∃ t, exec (.mtfDec src count map dst cap wr) s = .next t ∧ CompletedNext s t ∧ Stored s t [(dst.toNat, out)] wr ∧
        t.results = ⟨BitVec.ofNat 32 out.length, BitVec.ofNat 32 k, 0, 0⟩ ∧ t.bw = s.bw ∧ t.br = s.br) ∧
    (∀ e, used ≠ [] → IsMtfDec used cap.toNat outputTooSmall syms (.error e) →
      ∃ t, exec (.mtfDec src count map dst cap wr) s = .next t ∧
        FailedWith s t e.code.number (BitVec.ofNat 32 e.info) 0 [wordSpan dst cap])

/-- Decoding the symbols of a non-empty byte sequence over its used list with its length as the limit gives the sequence
and uses every symbol, whatever the limit error: the limit is never met (45_mtf_rle2.md R217). The two functions are those
of R212 and R214: the coding is the sequence's only one over its used list, and a decoding ends as the first symbol that
decides says. -/
def Obligations.MtfRoundTrip : Prop :=
  (∀ (l : List Byte) (limitError : EngineError), l ≠ [] →
    mtfDec (mtfEnc l) (usedBytes l) l.length limitError = .ok (l, (mtfEnc l).length)) ∧
  (∀ (l : List Byte) (syms : List Nat), IsMtfCode (usedBytes l) l syms ↔ syms = mtfEnc l) ∧
  (∀ (l : List Byte), (∀ v, v ∈ usedBytes l ↔ v ∈ l) ∧ (usedBytes l).Pairwise fun u v => u.toNat < v.toNat) ∧
  ∀ (syms : List Nat) (used : List Byte) (lim : Nat) (limitError : EngineError) (out : Except EngineError (List Byte × Nat)),
    used ≠ [] → used.Nodup → (mtfDec syms used lim limitError = out ↔ IsMtfDec used lim limitError syms out)

/-! ### Huffman -/

/-- The table builder gives every symbol a length of 1 to 20 bits and a full tree, the Kraft sum exactly 2^20, and, when it
took no round, a symbol of larger weight no longer code than one of smaller; its lengths are the depths of the merging of
R231 after its rounds (46_huffman.md R231, R232). -/
def Obligations.BuiltTablesAreFull : Prop :=
  ∀ f : List Nat, 2 ≤ f.length → f.length ≤ 258 →
    (hufLen f).1.length = f.length ∧ (∀ l ∈ (hufLen f).1, 1 ≤ l ∧ l ≤ 20) ∧
    ((hufLen f).1.map fun l => 2 ^ (20 - l)).sum = 2 ^ 20 ∧
    ((hufLen f).2 = 0 → ∀ i j, i < f.length → j < f.length → max (f.getD i 0) 1 < max (f.getD j 0) 1 →
      (hufLen f).1.getD j 0 ≤ (hufLen f).1.getD i 0) ∧
    IsBuilt f (hufLen f).1 (hufLen f).2

/-- HUF_LEN writes the lengths built from its frequencies by merging the two smallest nodes, equal weights in order of
creation, with the weights halved as often as it takes to stay within 20, one byte each, and reports the longest and the
rounds (46_huffman.md R231). -/
def Obligations.HufLenWrites : Prop :=
  ∀ (s : State) (freq alphaSize dst : Word) (wr : Option Word) (f : List Nat),
    2 ≤ alphaSize.toNat → alphaSize.toNat ≤ 258 →
    operandsInOrder s [⟨freq.toNat, 4 * alphaSize.toNat⟩] [wordSpan dst alphaSize] [] [] wr = true →
    f = (List.range alphaSize.toNat).map (fun i => s.mem.readNat (freq.toNat + 4 * i) 4) →
    ∃ (t : State) (d : List Nat) (rounds : Nat), IsBuilt f d rounds ∧
      exec (.hufLen freq alphaSize dst wr) s = .next t ∧ CompletedNext s t ∧
      Stored s t [(dst.toNat, d.map (BitVec.ofNat 8))] wr ∧
      t.results = ⟨BitVec.ofNat 32 (d.foldl max 0), BitVec.ofNat 32 rounds, 0, 0⟩ ∧ t.bw = s.bw ∧ t.br = s.br

/-- HUF_CODES writes the canonical codes of a valid table as u32 words and reports the shortest and the longest length; a
length outside 1..20 stops with HUFFMAN_OVERFLOW, else a Kraft sum above 2^20 with INVALID_HUFFMAN_CODE (46_huffman.md
R230, R233, R234). -/
def Obligations.HufCodesWrites : Prop :=
  ∀ (s : State) (lengths alphaSize dst : Word) (wr : Option Word) (lens : List Nat),
    2 ≤ alphaSize.toNat → alphaSize.toNat ≤ 258 →
    operandsInOrder s [wordSpan lengths alphaSize] [⟨dst.toNat, 4 * alphaSize.toNat⟩] [] [] wr = true →
    lens = (s.mem.readBytes lengths.toNat alphaSize.toNat).map BitVec.toNat →
    (ValidTable lens → ∃ t, exec (.hufCodes lengths alphaSize dst wr) s = .next t ∧ CompletedNext s t ∧
      Stored s t [(dst.toNat, arrayBytes 4 (canonicalCodes lens))] wr ∧
      t.results = ⟨BitVec.ofNat 32 (minOf lens), BitVec.ofNat 32 (maxOf lens), 0, 0⟩ ∧ t.bw = s.bw ∧ t.br = s.br) ∧
    ((∃ l ∈ lens, ¬(1 ≤ l ∧ l ≤ 20)) → ∃ t, exec (.hufCodes lengths alphaSize dst wr) s = .next t ∧
      FailedWith s t 8 0 0 [⟨dst.toNat, 4 * alphaSize.toNat⟩]) ∧
    ((∀ l ∈ lens, 1 ≤ l ∧ l ≤ 20) → 2 ^ 20 < (lens.map fun l => 2 ^ (20 - l)).sum →
      ∃ t, exec (.hufCodes lengths alphaSize dst wr) s = .next t ∧
        FailedWith s t 9 0 0 [⟨dst.toNat, 4 * alphaSize.toNat⟩])

/-- On a valid table the codes are those of the loop over lengths, each code fits its length, no code starts another, and
codes grow with (length, symbol index) (46_huffman.md R233). -/
def Obligations.CanonicalCodes : Prop :=
  ∀ lens : List Nat, ValidTable lens →
    hufCodes lens = canonicalCodes lens ∧
    (∀ i, i < lens.length → (canonicalCodes lens).getD i 0 < 2 ^ lens.getD i 0) ∧
    (∀ i j, i < lens.length → j < lens.length → i ≠ j →
      ¬ bitsMSB ((canonicalCodes lens).getD i 0) (lens.getD i 0) <+:
        bitsMSB ((canonicalCodes lens).getD j 0) (lens.getD j 0)) ∧
    (∀ i j, i < lens.length → j < lens.length →
      (lens.getD i 0 < lens.getD j 0 ∨ (lens.getD i 0 = lens.getD j 0 ∧ i < j)) →
      (canonicalCodes lens).getD i 0 * 2 ^ (20 - lens.getD i 0) <
        (canonicalCodes lens).getD j 0 * 2 ^ (20 - lens.getD j 0))

/-- HUF_ENC appends the symbols' codes group by group and reports the number of bits when its tables, selectors and
symbols are in order and there is room, and stops with OUTPUT_BUFFER_TOO_SMALL without room (46_huffman.md R236, R237,
R238). A number of bits that does not fit RESULT0 leaves some value there (notes/assumptions/29.md). -/
def Obligations.HufEncAppends : Prop :=
  ∀ (s : State) (g : Nat) (syms count tables selectors alphaSize : Word) (wr : Option Word)
    (lens : List (List Nat)) (sel symbols : List Nat) (bits : List Bool),
    1 ≤ g → g ≤ 6 → 2 ≤ alphaSize.toNat → alphaSize.toNat ≤ 258 → s.bw.count.toNat ≤ s.bw.cap.toNat →
    operandsInOrder s [⟨syms.toNat, 2 * count.toNat⟩, ⟨tables.toNat, g * alphaSize.toNat⟩,
      ⟨selectors.toNat, (count.toNat + 49) / 50⟩] [] [] [s.bw.freeSpan] wr = true →
    lens = (List.range g).map (fun t =>
      (s.mem.readBytes (tables.toNat + t * alphaSize.toNat) alphaSize.toNat).map BitVec.toNat) →
    sel = (s.mem.readBytes selectors.toNat ((count.toNat + 49) / 50)).map BitVec.toNat →
    symbols = (List.range count.toNat).map (fun k => s.mem.readNat (syms.toNat + 2 * k) 2) →
    (∀ t ∈ lens, ValidTable t) → (∀ x ∈ sel, x < g) → (∀ x ∈ symbols, x < alphaSize.toNat) →
    bits = groupCodedBits lens sel symbols →
    (hasRoom s bits.length = true →
      ∃ t, exec (.hufEnc g syms count tables selectors alphaSize wr) s = .next t ∧ CompletedNext s t ∧
        Appended s t bits wr ∧ t.results = ⟨t.results.r0, 0, 0, 0⟩ ∧
        (bits.length < 4294967296 → t.results.r0 = BitVec.ofNat 32 bits.length) ∧ t.br = s.br) ∧
    (hasRoom s bits.length = false →
      ∃ t, exec (.hufEnc g syms count tables selectors alphaSize wr) s = .next t ∧ FailedAppend s t)

/-- HUF_ENC's value checks in order, before any bit: the first bad table, then a selector out of range, then a symbol out
of the alphabet; each error changes nothing else (46_huffman.md R230, R238; that nothing else changes:
notes/assumptions/27.md). -/
def Obligations.HufEncRejects : Prop :=
  ∀ (s : State) (g : Nat) (syms count tables selectors alphaSize : Word) (wr : Option Word)
    (lens : List (List Nat)) (sel symbols : List Nat),
    1 ≤ g → g ≤ 6 → 2 ≤ alphaSize.toNat → alphaSize.toNat ≤ 258 →
    operandsInOrder s [⟨syms.toNat, 2 * count.toNat⟩, ⟨tables.toNat, g * alphaSize.toNat⟩,
      ⟨selectors.toNat, (count.toNat + 49) / 50⟩] [] [] [s.bw.freeSpan] wr = true →
    lens = (List.range g).map (fun t =>
      (s.mem.readBytes (tables.toNat + t * alphaSize.toNat) alphaSize.toNat).map BitVec.toNat) →
    sel = (s.mem.readBytes selectors.toNat ((count.toNat + 49) / 50)).map BitVec.toNat →
    symbols = (List.range count.toNat).map (fun k => s.mem.readNat (syms.toNat + 2 * k) 2) →
    (∀ good bad more, lens = good ++ bad :: more → (∀ t ∈ good, ValidTable t) → (∃ l ∈ bad, ¬(1 ≤ l ∧ l ≤ 20)) →
      exec (.hufEnc g syms count tables selectors alphaSize wr) s = .next (stopRecord 8 0 0 s)) ∧
    (∀ good bad more, lens = good ++ bad :: more → (∀ t ∈ good, ValidTable t) → (∀ l ∈ bad, 1 ≤ l ∧ l ≤ 20) →
      2 ^ 20 < (bad.map fun l => 2 ^ (20 - l)).sum →
      exec (.hufEnc g syms count tables selectors alphaSize wr) s = .next (stopRecord 9 0 0 s)) ∧
    ((∀ t ∈ lens, ValidTable t) → (∃ x ∈ sel, g ≤ x) →
      exec (.hufEnc g syms count tables selectors alphaSize wr) s = .next (stopRecord 2 1 0 s)) ∧
    ((∀ t ∈ lens, ValidTable t) → (∀ x ∈ sel, x < g) → (∃ x ∈ symbols, alphaSize.toNat ≤ x) →
      exec (.hufEnc g syms count tables selectors alphaSize wr) s = .next (stopRecord 7 0 0 s))

/-- HUF_DEC checks its tables in order, then its selectors, then decodes. It writes the decoded symbols, EOB included, as u16
words and reports their number and the bits read. The decoding ends at the first EOB, and its errors are those of the first
symbol that cannot be had: no room (OUTPUT_BUFFER_TOO_SMALL), no selector left (FORMAT_ERROR 7), no code of the table there
(INVALID_HUFFMAN_CODE), the bits run out (TRUNCATED_INPUT at their end); one of these ends always comes (46_huffman.md R230,
R235, R236, R240). -/
def Obligations.HufDecWrites : Prop :=
  ∀ (s : State) (g : Nat) (dst cap tables selectors alphaSize nSel : Word) (wr : Option Word)
    (lens : List (List Nat)) (sel : List Nat),
    1 ≤ g → g ≤ 6 → 2 ≤ alphaSize.toNat → alphaSize.toNat ≤ 258 → s.br.len.toNat < 2 ^ 29 →
    operandsInOrder s [⟨tables.toNat, g * alphaSize.toNat⟩, wordSpan selectors nSel] [⟨dst.toNat, 2 * cap.toNat⟩]
      [s.br.remainder] [] wr = true →
    lens = (List.range g).map (fun t =>
      (s.mem.readBytes (tables.toNat + t * alphaSize.toNat) alphaSize.toNat).map BitVec.toNat) →
    sel = (s.mem.readBytes selectors.toNat nSel.toNat).map BitVec.toNat →
    (∀ e, IsTableError lens e → ∃ t, exec (.hufDec g dst cap tables selectors alphaSize nSel wr) s = .next t ∧
      FailedRead s t e.code.number 0 0 ⟨dst.toNat, 2 * cap.toNat⟩) ∧
    ((∀ t ∈ lens, ValidTable t) → (∃ x ∈ sel, g ≤ x) →
      ∃ t, exec (.hufDec g dst cap tables selectors alphaSize nSel wr) s = .next t ∧
        FailedRead s t 2 1 0 ⟨dst.toNat, 2 * cap.toNat⟩) ∧
    ((∀ t ∈ lens, ValidTable t) → (∀ x ∈ sel, x < g) →
      (∃ out, IsHufDec lens sel (alphaSize.toNat - 1) (fun syms => syms.length ≤ cap.toNat) outputTooSmall s.br.pos.toNat
        (bitsAhead s) out) ∧
      (∀ symbols pos rest, IsHufDec lens sel (alphaSize.toNat - 1) (fun syms => syms.length ≤ cap.toNat) outputTooSmall
          s.br.pos.toNat (bitsAhead s) (.ok (symbols, pos, rest)) →
        ∃ t, exec (.hufDec g dst cap tables selectors alphaSize nSel wr) s = .next t ∧ CompletedNext s t ∧
          Stored s t [(dst.toNat, arrayBytes 2 symbols)] wr ∧
          t.results = ⟨BitVec.ofNat 32 symbols.length, BitVec.ofNat 32 (pos - s.br.pos.toNat), 0, 0⟩ ∧
          t.bw = s.bw ∧ t.br = { s.br with pos := BitVec.ofNat 32 pos }) ∧
      (∀ e, IsHufDec lens sel (alphaSize.toNat - 1) (fun syms => syms.length ≤ cap.toNat) outputTooSmall s.br.pos.toNat
          (bitsAhead s) (.error e) →
        ∃ t, exec (.hufDec g dst cap tables selectors alphaSize nSel wr) s = .next t ∧
          FailedRead s t e.code.number (BitVec.ofNat 32 e.info) (BitVec.ofNat 32 e.pos) ⟨dst.toNat, 2 * cap.toNat⟩))

/-- Decoding the bits of a symbol sequence that ends with its only EOB, under the same valid tables and selectors, gives
the sequence and stops right after it, whatever bits and selectors follow (46_huffman.md R236, R241). -/
def Obligations.HuffmanRoundTrip : Prop :=
  ∀ (lens : List (List Nat)) (a : Nat) (sel body rest' : List Nat) (pos : Nat) (rest : List Bool),
    (∀ t ∈ lens, ValidTable t ∧ t.length = a) → (∀ x ∈ sel, x < lens.length) → 2 ≤ a →
    (∀ x ∈ body, x < a - 1) → sel.length = (body.length + 1 + 49) / 50 →
    hufDec (fun (st : List Nat) x => .ok (st ++ [x])) (a - 1) (lens.map codeTable) (sel ++ rest') []
      ⟨pos, groupCodedBits lens sel (body ++ [a - 1]) ++ rest⟩ =
    .ok (body ++ [a - 1], ⟨pos + (groupCodedBits lens sel (body ++ [a - 1])).length, rest⟩)

/-! ### Blocks -/

/-- BLK_ENC appends the block's fields, block magic, block CRC, a 0, origPtr in 24 bits, used map, numbers of tables and
selectors, selectors, code lengths and symbol codes, without flush, and reports origPtr, nGroups, nSel and the number of
bits; without room it stops with OUTPUT_BUFFER_TOO_SMALL (47_block_stream.md R260, R270, 30_encoding.md R112 to R116,
46_huffman.md R242). -/
def Obligations.BlkEncAppends : Prop :=
  ∀ (s : State) (k : Nat) (src n blockCrc : Word) (wr : Option Word),
    1 ≤ k → k ≤ 9 → 1 ≤ n.toNat → n.toNat ≤ 100000 * k → s.bw.count.toNat ≤ s.bw.cap.toNat →
    operandsInOrder s [wordSpan src n] [] [] [s.bw.freeSpan] wr = true →
    ∃ (bits : List Bool) (origPtr nGroups nSel : Nat),
      IsBlockBits (s.mem.readBytes src.toNat n.toNat) blockCrc bits origPtr nGroups nSel ∧
      (hasRoom s bits.length = true →
        ∃ t, exec (.blkEnc k src n blockCrc wr) s = .next t ∧ CompletedNext s t ∧ Appended s t bits wr ∧
          t.results = ⟨BitVec.ofNat 32 origPtr, BitVec.ofNat 32 nGroups, BitVec.ofNat 32 nSel,
            BitVec.ofNat 32 bits.length⟩ ∧ t.br = s.br) ∧
      (hasRoom s bits.length = false →
        ∃ t, exec (.blkEnc k src n blockCrc wr) s = .next t ∧ FailedAppend s t)

/-- BLK_DEC reads a block or the footer from BR_POS on, field by field: it writes a block's post-RLE1 bytes and reports n, the
stored CRC, origPtr and kind 1, or at the footer reports the combined CRC and kind 0 and writes nothing; the first failing
read or check is the error it stops with, TRUNCATED_INPUT with the position of the failing read; one of these ends always
comes (47_block_stream.md R271, R272, R275, R276). -/
def Obligations.BlkDecWrites : Prop :=
  ∀ (s : State) (k : Nat) (dst cap : Word) (wr : Option Word), 1 ≤ k → k ≤ 9 → s.br.len.toNat < 2 ^ 29 →
    operandsInOrder s [] [wordSpan dst cap] [s.br.remainder] [] wr = true →
    (∃ out, blockOrFooter k cap.toNat s.br.pos.toNat (bitsAhead s) out) ∧
    (∀ combined pos rest, blockOrFooter k cap.toNat s.br.pos.toNat (bitsAhead s) (.ok (.eos combined, pos, rest)) →
      ∃ t, exec (.blkDec k dst cap wr) s = .next t ∧ CompletedNext s t ∧ Stored s t [] wr ∧
        t.results = ⟨0, BitVec.ofNat 32 combined, 0, 0⟩ ∧ t.bw = s.bw ∧
        t.br = { s.br with pos := BitVec.ofNat 32 pos }) ∧
    (∀ bytes crc origPtr pos rest,
      blockOrFooter k cap.toNat s.br.pos.toNat (bitsAhead s) (.ok (.block bytes crc origPtr, pos, rest)) →
      ∃ t, exec (.blkDec k dst cap wr) s = .next t ∧ CompletedNext s t ∧ Stored s t [(dst.toNat, bytes)] wr ∧
        t.results = ⟨BitVec.ofNat 32 bytes.length, BitVec.ofNat 32 crc, BitVec.ofNat 32 origPtr, 1⟩ ∧ t.bw = s.bw ∧
        t.br = { s.br with pos := BitVec.ofNat 32 pos }) ∧
    (∀ e, blockOrFooter k cap.toNat s.br.pos.toNat (bitsAhead s) (.error e) →
      ∃ t, exec (.blkDec k dst cap wr) s = .next t ∧
        FailedRead s t e.code.number (BitVec.ofNat 32 e.info) (BitVec.ofNat 32 e.pos) (wordSpan dst cap))

/-- The three metadata readers invert the three metadata writers: used map, selectors, code lengths (47_block_stream.md
R261, R272). -/
def Obligations.MetadataReadersInvertWriters : Prop :=
  (∀ (bytes : List Byte) (pos : Nat) (rest : List Bool),
    readUsed ⟨pos, usedBits (usedBytes bytes) ++ rest⟩ =
      .ok (usedBytes bytes, ⟨pos + (usedBits (usedBytes bytes)).length, rest⟩)) ∧
  (∀ (g : Nat) (sel : List Nat) (pos : Nat) (rest : List Bool), (∀ x ∈ sel, x < g) →
    readSelectors sel.length g ⟨pos, selectorBits g sel ++ rest⟩ =
      .ok (sel, ⟨pos + (selectorBits g sel).length, rest⟩)) ∧
  (∀ (lens : List Nat) (pos : Nat) (rest : List Bool), (∀ l ∈ lens, 1 ≤ l ∧ l ≤ 20) →
    readLengths lens.length ⟨pos, lengthBits lens ++ rest⟩ = .ok (lens, ⟨pos + (lengthBits lens).length, rest⟩))

/-- Reading the bits that the block assembler writes gives the block, its CRC and its origin row, and consumes exactly
those bits (47_block_stream.md R277); the bits are the fields of R112, and the reader is that of R271, with its errors. -/
def Obligations.BlockRoundTrip : Prop :=
  (∀ (r : BitReader) (k cap : Nat) (out : BitsRead BlockRead),
    (readBlock r k cap).map (fun x => (x.1, x.2.pos, x.2.rest)) = out ↔ blockOrFooter k cap r.pos r.rest out) ∧
  ∀ (k : Nat) (block : List Byte) (crc : Word) (cap pos : Nat) (rest : List Bool), 1 ≤ k → k ≤ 9 →
    1 ≤ block.length → block.length ≤ 100000 * k → block.length ≤ cap →
    readBlock ⟨pos, (blockCode block crc).bits ++ rest⟩ k cap =
      .ok (.block block crc.toNat (originRow (sortedIndices block)),
        ⟨pos + (blockCode block crc).bits.length, rest⟩) ∧
    IsBlockBits block crc (blockCode block crc).bits (originRow (sortedIndices block)) (blockCode block crc).nGroups
      (blockCode block crc).nSel

/-- UNSUPPORTED_LEGACY_FEATURE is raised exactly when a block's randomized bit is 1, whatever follows that bit
(60_exceptions.md R305). -/
def Obligations.RandomizedBlockRefused : Prop :=
  ∀ (r : BitReader) (k cap : Nat),
    (∃ e, readBlock r k cap = .error e ∧ e.code = .unsupportedLegacyFeature) ↔
    ∃ crc more : List Bool, crc.length = 32 ∧
      r.rest = (List.range 48).map (fun j => (0x314159265359 : Nat).testBit (47 - j)) ++ crc ++ true :: more

/-- The block and stream decoders never raise INVALID_SYMBOL (60_exceptions.md R306). -/
def Obligations.NoInvalidSymbolInBlocks : Prop :=
  (∀ (r : BitReader) (k cap : Nat) (e : EngineError), readBlock r k cap = .error e → e.code ≠ .invalidSymbol) ∧
  (∀ (bytes : List Byte) (cap : Nat) (e : EngineError) (o : StreamOut) (pos : Nat),
    decodeStream bytes cap = .failed e o pos → e.code ≠ .invalidSymbol)

/-! ### Streams -/

/-- STREAM_ENC writes the stream, 'B' 'Z' 'h' and the digit of k, the blocks of its chunks each with its CRC, the footer
magic and the combined CRC, padded with zeros to a byte, and reports its length, the number of blocks and the combined CRC;
a stream that does not fit stops with OUTPUT_BUFFER_TOO_SMALL (47_block_stream.md R278, R280, 30_encoding.md R110, R111,
R118). -/
def Obligations.StreamEncWrites : Prop :=
  ∀ (s : State) (k : Nat) (src len dst cap : Word) (wr : Option Word),
    1 ≤ k → k ≤ 9 → operandsInOrder s [wordSpan src len] [wordSpan dst cap] [] [] wr = true →
    ∃ (bits : List Bool) (blocks : Nat) (comb : Word),
      IsStreamBits (s.mem.readBytes src.toNat len.toNat) k bits blocks comb ∧
      ((bits.length + 7) / 8 ≤ cap.toNat →
        ∃ (t : State) (out : List Byte), exec (.streamEnc k src len dst cap wr) s = .next t ∧ CompletedNext s t ∧
          out.length = (bits.length + 7) / 8 ∧
          bitsOfBytes out = bits ++ List.replicate (8 * out.length - bits.length) false ∧
          Stored s t [(dst.toNat, out)] wr ∧
          t.results = ⟨BitVec.ofNat 32 out.length, BitVec.ofNat 32 blocks, comb, 0⟩ ∧ t.bw = s.bw ∧ t.br = s.br) ∧
      (cap.toNat < (bits.length + 7) / 8 → ∃ t, exec (.streamEnc k src len dst cap wr) s = .next t ∧
        FailedWith s t 3 0 0 [wordSpan dst cap])

/-- STREAM_DEC reads the header, then blocks until the footer. It writes the decoded bytes and reports their number, the
blocks, the fold of the block CRCs and the bytes consumed; the first failing read or check is the error it stops with,
FORMAT_ERROR 1 in the header, those of the block reader, MALFORMED_RUN_LENGTH, OUTPUT_BUFFER_TOO_SMALL, CHECKSUM_MISMATCH,
and every error but the last leaves RESULT as it was; one of these ends always comes (47_block_stream.md R285, R286). -/
def Obligations.StreamDecWrites : Prop :=
  ∀ (s : State) (src len dst cap : Word) (wr : Option Word), len.toNat < 2 ^ 29 →
    operandsInOrder s [wordSpan src len] [wordSpan dst cap] [] [] wr = true →
    (∃ out, IsStreamRead (s.mem.readBytes src.toNat len.toNat) cap.toNat out) ∧
    (∀ out pos, IsStreamRead (s.mem.readBytes src.toNat len.toNat) cap.toNat (.finished out pos) →
      ∃ t, exec (.streamDec src len dst cap wr) s = .next t ∧ CompletedNext s t ∧ Stored s t [(dst.toNat, out.raw)] wr ∧
        t.results = ⟨BitVec.ofNat 32 out.raw.length, BitVec.ofNat 32 out.blocks, out.comb,
          BitVec.ofNat 32 ((pos + 7) / 8)⟩ ∧ t.bw = s.bw ∧ t.br = s.br) ∧
    (∀ e out pos, IsStreamRead (s.mem.readBytes src.toNat len.toNat) cap.toNat (.failed e out pos) →
      e.code ≠ .checksumMismatch →
      ∃ t, exec (.streamDec src len dst cap wr) s = .next t ∧
        FailedWith s t e.code.number (BitVec.ofNat 32 e.info) (BitVec.ofNat 32 e.pos) [wordSpan dst cap])

/-- CHECKSUM_MISMATCH stops STREAM_DEC with code 11, 0 for a block CRC and 1 for the combined CRC, the block index, the
output so far in memory and the RESULT words written; no byte outside the destination changes (47_block_stream.md R287).
-/
def Obligations.ChecksumMismatchKeepsOutput : Prop :=
  ∀ (s : State) (src len dst cap : Word) (wr : Option Word) (e : EngineError) (out : StreamOut) (pos : Nat),
    len.toNat < 2 ^ 29 → operandsInOrder s [wordSpan src len] [wordSpan dst cap] [] [] wr = true →
    IsStreamRead (s.mem.readBytes src.toNat len.toNat) cap.toNat (.failed e out pos) → e.code = .checksumMismatch →
    ∃ t, exec (.streamDec src len dst cap wr) s = .next t ∧
      Stopped s t 11 (BitVec.ofNat 32 e.info) (BitVec.ofNat 32 out.blocks) ∧ (e.info = 0 ∨ e.info = 1) ∧
      t.results = ⟨BitVec.ofNat 32 out.raw.length, BitVec.ofNat 32 out.blocks, out.comb,
        BitVec.ofNat 32 ((pos + 7) / 8)⟩ ∧
      t.mem.readBytes dst.toNat out.raw.length = out.raw ∧ t.bw = s.bw ∧ t.br = s.br ∧
      ∀ a, ¬(dst.toNat ≤ a ∧ a < dst.toNat + cap.toNat) → t.mem.read a = s.mem.read a

/-- Decoding a stream the encoder made, with room for the input, gives the input back, with the encoder's block count and
combined CRC and every byte of the stream consumed (47_block_stream.md R288); the stream has the fields of 30_encoding.md
R110, and the decoder is that of R285, with its errors. -/
def Obligations.StreamRoundTrip : Prop :=
  (∀ (bytes : List Byte) (cap : Nat) (out : StreamEnd), decodeStream bytes cap = out ↔ IsStreamRead bytes cap out) ∧
  ∀ (k : Nat) (bytes out : List Byte) (cap cap' : Nat), 1 ≤ k → k ≤ 9 → bytes.length ≤ cap →
    packStream cap' (streamCode bytes k).1 = .ok out →
    IsStreamBits bytes k (streamCode bytes k).1 (streamCode bytes k).2.1 (streamCode bytes k).2.2 ∧
    ∃ pos, decodeStream out cap = .finished ⟨bytes, (streamCode bytes k).2.2, (streamCode bytes k).2.1⟩ pos ∧
      (pos + 7) / 8 = out.length
end

