-- ==== Sys2Proof/Laws/Memory.lean ====
section
/-! SUPPORT. The laws of host memory: a read after a write, the bytes a write leaves alone, and the canonical form. -/

namespace Sys2Proof.Machine

/-! ### Reading one byte -/

@[simp] theorem read_nil (a : Nat) : Memory.read [] a = unlistedByte := rfl

theorem read_eq_unlisted {m : Memory} {a : Nat} (h : ∀ c ∈ m, c.1 ≠ a) : m.read a = unlistedByte := by
  induction m with
  | nil => rfl
  | cons c m ih =>
    obtain ⟨k, v⟩ := c
    have hk : k ≠ a := h (k, v) (by simp)
    simp [Memory.read, hk, ih fun c hc => h c (by simp [hc])]

theorem read_append {m m' : Memory} {a : Nat} :
    Memory.read (m ++ m') a = if ∃ c ∈ m, c.1 = a then Memory.read m a else Memory.read m' a := by
  induction m with
  | nil => simp
  | cons c m ih =>
    obtain ⟨k, v⟩ := c
    by_cases hk : k = a
    · simp [Memory.read, hk]
    · simp [Memory.read, hk, ih]

theorem read_filter {m : Memory} {a : Nat} {p : Nat → Bool} (h : p a = true) :
    Memory.read (m.filter fun c => p c.1) a = m.read a := by
  induction m with
  | nil => rfl
  | cons c m ih =>
    obtain ⟨k, v⟩ := c
    by_cases hk : k = a
    · subst hk; simp [h, Memory.read]
    · by_cases hp : p k = true
      · simp [hp, Memory.read, hk, ih]
      · simp [hp, Memory.read, hk, ih]

theorem mem_cellsFrom {a : Nat} {bs : List Byte} {c : Host.Cell} (h : c ∈ cellsFrom a bs) :
    a ≤ c.1 ∧ c.1 < a + bs.length ∧ c.2 ≠ unlistedByte := by
  induction bs generalizing a with
  | nil => simp [cellsFrom] at h
  | cons b bs ih =>
    simp only [cellsFrom] at h
    split at h
    · have := ih h; simp only [List.length_cons]; exact ⟨by omega, by omega, this.2.2⟩
    · rcases List.mem_cons.mp h with rfl | h
      · simp_all
      · have := ih h; simp only [List.length_cons]; exact ⟨by omega, by omega, this.2.2⟩

theorem read_cellsFrom {a : Nat} {bs : List Byte} {k : Nat} (h : a ≤ k) (h' : k < a + bs.length) :
    Memory.read (cellsFrom a bs) k = bs.getD (k - a) 0 := by
  induction bs generalizing a with
  | nil => simp at h'; omega
  | cons b bs ih =>
    by_cases hk : k = a
    · subst hk
      simp only [cellsFrom]
      split
      · rename_i hb
        rw [read_eq_unlisted fun c hc => by have := mem_cellsFrom hc; omega]
        simp [hb]
      · simp [Memory.read]
    · have ih' := ih (a := a + 1) (by omega) (by simp at h'; omega)
      have hsub : k - a = (k - (a + 1)) + 1 := by omega
      simp only [cellsFrom, hsub, List.getD_cons_succ]
      split
      · exact ih'
      · rw [Memory.read, if_neg fun h : a = k => hk h.symm]; exact ih'

/-- What a byte reads as after a write: the written byte inside the range, the old one outside it. -/
theorem read_writeBytes (m : Memory) (a : Nat) (bs : List Byte) (k : Nat) :
    (m.writeBytes a bs).read k = if a ≤ k ∧ k < a + bs.length then bs.getD (k - a) 0 else m.read k := by
  have hlow : ∀ c ∈ m.filter (fun c => decide (c.1 < a)), c.1 < a := fun c hc => by
    simpa using (List.mem_filter.mp hc).2
  have hhigh : ∀ c ∈ m.filter (fun c => decide (a + bs.length ≤ c.1)), a + bs.length ≤ c.1 := fun c hc => by
    simpa using (List.mem_filter.mp hc).2
  unfold Memory.writeBytes
  rw [List.append_assoc, read_append, read_append]
  rcases Nat.lt_or_ge k a with hk | hk
  · have hno : ¬∃ c ∈ cellsFrom a bs, c.1 = k := by
      rintro ⟨c, hc, rfl⟩
      have := mem_cellsFrom hc
      omega
    rw [if_neg (c := a ≤ k ∧ _) (by omega), if_neg hno]
    rw [read_eq_unlisted (m := m.filter fun c => decide (a + bs.length ≤ c.1)) fun c hc => by
      have := hhigh c hc; omega]
    have hr : Memory.read (m.filter fun c => decide (c.1 < a)) k = m.read k :=
      read_filter (p := fun x => decide (x < a)) (by simpa using hk)
    split
    · exact hr
    · rename_i hno
      rw [← hr, read_eq_unlisted fun c hc hck => hno ⟨c, hc, hck⟩]
  · have hno : ¬∃ c ∈ m.filter (fun c => decide (c.1 < a)), c.1 = k := by
      rintro ⟨c, hc, rfl⟩
      have := hlow c hc
      omega
    rw [if_neg hno]
    rcases Nat.lt_or_ge k (a + bs.length) with hk' | hk'
    · rw [if_pos (c := a ≤ k ∧ _) ⟨hk, hk'⟩, ← read_cellsFrom hk hk']
      split
      · rfl
      · rename_i hno
        rw [read_eq_unlisted (m := cellsFrom a bs) fun c hc hck => hno ⟨c, hc, hck⟩,
          read_eq_unlisted fun c hc => by have := hhigh c hc; omega]
    · have hno : ¬∃ c ∈ cellsFrom a bs, c.1 = k := by
        rintro ⟨c, hc, rfl⟩
        have := mem_cellsFrom hc
        omega
      rw [if_neg hno, if_neg (c := a ≤ k ∧ _) (by omega)]
      exact read_filter (p := fun x => decide (a + bs.length ≤ x)) (by simpa using hk')

theorem read_writeBytes_outside {m : Memory} {a : Nat} {bs : List Byte} {k : Nat}
    (h : k < a ∨ a + bs.length ≤ k) : (m.writeBytes a bs).read k = m.read k := by
  rw [read_writeBytes, if_neg (by omega)]

/-! ### Reading many bytes -/

@[simp] theorem readBytes_length (m : Memory) (a n : Nat) : (m.readBytes a n).length = n := by
  simp [Memory.readBytes]

theorem readBytes_getD (m : Memory) (a n i : Nat) (h : i < n) : (m.readBytes a n).getD i 0 = m.read (a + i) := by
  simp [Memory.readBytes, List.getD, h]

theorem readBytes_congr {m m' : Memory} {a n : Nat} (h : ∀ i, i < n → m.read (a + i) = m'.read (a + i)) :
    m.readBytes a n = m'.readBytes a n := by
  unfold Memory.readBytes
  exact List.map_congr_left fun i hi => h i (List.mem_range.mp hi)

/-- The bytes written are the bytes read back. -/
theorem readBytes_writeBytes_same (m : Memory) (a : Nat) (bs : List Byte) :
    (m.writeBytes a bs).readBytes a bs.length = bs := by
  apply List.ext_getElem
  · simp
  · intro i h₁ h₂
    have hi : i < bs.length := h₂
    simp [Memory.readBytes, read_writeBytes, hi, List.getD]

/-- A write leaves every range it does not touch as it was. -/
theorem readBytes_writeBytes_apart {m : Memory} {a b n : Nat} {bs : List Byte}
    (h : n = 0 ∨ b + n ≤ a ∨ a + bs.length ≤ b) : (m.writeBytes a bs).readBytes b n = m.readBytes b n :=
  readBytes_congr fun i hi => read_writeBytes_outside (by omega)

/-- A range inside the written one reads as that part of the bytes written. -/
theorem readBytes_writeBytes_inside {m : Memory} {a k n : Nat} {bs : List Byte} (h : k + n ≤ bs.length) :
    (m.writeBytes a bs).readBytes (a + k) n = (bs.drop k).take n := by
  apply List.ext_getElem
  · simp; omega
  · intro i h₁ h₂
    have hi : i < n := by simpa using h₁
    have hlt : k + i < bs.length := by omega
    have hc : a ≤ a + k + i ∧ a + k + i < a + bs.length := by omega
    have hs : a + k + i - a = k + i := by omega
    simp [Memory.readBytes, read_writeBytes, hc, hs, List.getD, hlt]

/-! ### The canonical form -/

theorem wf_iff {m : Memory} :
    m.wf = true ↔ m.Pairwise (fun c d => c.1 < d.1) ∧ ∀ c ∈ m, c.2 ≠ unlistedByte := by
  induction m with
  | nil => simp [Memory.wf]
  | cons c m ih =>
    obtain ⟨a, b⟩ := c
    simp [Memory.wf, List.pairwise_cons, ih]
    tauto

theorem cellsFrom_sorted (a : Nat) (bs : List Byte) : (cellsFrom a bs).Pairwise fun c d => c.1 < d.1 := by
  induction bs generalizing a with
  | nil => simp [cellsFrom]
  | cons b bs ih =>
    simp only [cellsFrom]
    split
    · exact ih _
    · exact List.pairwise_cons.mpr ⟨fun c hc => by have := mem_cellsFrom hc; show a < c.1; omega, ih _⟩

/-- Every write keeps the canonical form. -/
theorem writeBytes_wf {m : Memory} (h : m.wf = true) (a : Nat) (bs : List Byte) : (m.writeBytes a bs).wf = true := by
  rw [wf_iff] at h ⊢
  obtain ⟨hs, hv⟩ := h
  refine ⟨?_, ?_⟩
  · unfold Memory.writeBytes
    rw [List.pairwise_append, List.pairwise_append]
    refine ⟨⟨hs.filter _, cellsFrom_sorted _ _, ?_⟩, hs.filter _, ?_⟩
    · intro c hc d hd
      have := (List.mem_filter.mp hc).2
      have := mem_cellsFrom hd
      simp at *; omega
    · intro c hc d hd
      have hd := (List.mem_filter.mp hd).2
      rcases List.mem_append.mp hc with hc | hc
      · have := (List.mem_filter.mp hc).2
        simp at *; omega
      · have := mem_cellsFrom hc
        simp at *; omega
  · intro c hc
    unfold Memory.writeBytes at hc
    rcases List.mem_append.mp hc with hc | hc
    · rcases List.mem_append.mp hc with hc | hc
      · exact hv c (List.mem_filter.mp hc).1
      · exact (mem_cellsFrom hc).2.2
    · exact hv c (List.mem_filter.mp hc).1

/-- A write inside the address space keeps every listed address inside it. -/
theorem writeBytes_inSpace {m : Memory} (h : m.inSpace = true) {a : Nat} {bs : List Byte}
    (hb : bs = [] ∨ a + bs.length ≤ addressCount) : (m.writeBytes a bs).inSpace = true := by
  simp only [Memory.inSpace, List.all_eq_true, decide_eq_true_eq] at h ⊢
  intro c hc
  unfold Memory.writeBytes at hc
  rcases List.mem_append.mp hc with hc | hc
  · rcases List.mem_append.mp hc with hc | hc
    · exact h c (List.mem_filter.mp hc).1
    · have := mem_cellsFrom hc
      rcases hb with rfl | hb
      · simp [cellsFrom] at hc
      · omega
  · exact h c (List.mem_filter.mp hc).1

/-- Two canonical memories that read the same everywhere are the same list. -/
theorem wf_ext {m m' : Memory} (h : m.wf = true) (h' : m'.wf = true) (hr : ∀ a, m.read a = m'.read a) : m = m' := by
  have listed : ∀ {m : Memory}, m.wf = true → ∀ a b, (a, b) ∈ m ↔ Memory.read m a = b ∧ b ≠ unlistedByte := by
    intro m hm a b
    induction m with
    | nil =>
      simp
      intro h
      exact h.symm
    | cons c m ih =>
      obtain ⟨k, v⟩ := c
      have hw := (wf_iff.mp hm)
      have htail : Memory.wf m = true := wf_iff.mpr ⟨(List.pairwise_cons.mp hw.1).2, fun c hc => hw.2 c (by simp [hc])⟩
      have hlt := (List.pairwise_cons.mp hw.1).1
      by_cases hk : k = a
      · subst hk
        have hv : v ≠ unlistedByte := hw.2 (k, v) (by simp)
        have hnot : (k, b) ∉ m := fun hc => by have := hlt _ hc; simp at this
        simp [Memory.read, hnot]
        constructor
        · rintro rfl; exact ⟨rfl, hv⟩
        · rintro ⟨rfl, -⟩; rfl
      · have : (a, b) ≠ (k, v) := fun e => hk (by simp_all)
        rw [List.mem_cons, Memory.read, if_neg hk, ih htail]
        simp [this]
  have hmem : ∀ c, c ∈ m ↔ c ∈ m' := fun ⟨a, b⟩ => by rw [listed h, listed h', hr]
  have hp : m.Perm m' := (List.perm_ext_iff_of_nodup
    ((wf_iff.mp h).1.imp fun hlt e => by subst e; exact Nat.lt_irrefl _ hlt)
    ((wf_iff.mp h').1.imp fun hlt e => by subst e; exact Nat.lt_irrefl _ hlt)).mpr hmem
  exact hp.eq_of_pairwise (le := fun c d => c.1 < d.1) (fun c d _ _ h1 h2 => by omega) (wf_iff.mp h).1 (wf_iff.mp h').1

theorem reset_memory_wf : Memory.wf State.reset.mem = true := rfl

/-! ### Spans -/

theorem span_disjoint_iff {x y : Span} :
    x.disjoint y = true ↔ ∀ a, ¬(x.contains a = true ∧ y.contains a = true) := by
  obtain ⟨xa, xl⟩ := x
  obtain ⟨ya, yl⟩ := y
  simp only [Span.disjoint, Span.contains, Span.limit, Bool.or_eq_true, beq_iff_eq, decide_eq_true_eq,
    Bool.and_eq_true]
  constructor
  · intro h a; omega
  · intro h
    have := h (max xa ya)
    omega

theorem span_disjoint_comm (x y : Span) : x.disjoint y = y.disjoint x := by
  rw [Bool.eq_iff_iff, span_disjoint_iff, span_disjoint_iff]
  constructor <;> intro h a <;> have := h a <;> tauto

/-! ### Byte sequences -/

@[simp] theorem leBytes_length (n v : Nat) : (leBytes n v).length = n := by
  induction n generalizing v with
  | zero => rfl
  | succ n ih => simp [leBytes, ih]

/-- A number stored in `n` bytes reads back modulo 256^n (20_memory.md R63). -/
theorem leNat_leBytes (n v : Nat) : leNat (leBytes n v) = v % 256 ^ n := by
  induction n generalizing v with
  | zero => simp [leBytes, leNat, Nat.mod_one]
  | succ n ih =>
    simp only [leBytes, leNat, ih, BitVec.toNat_ofNat]
    rw [show 256 ^ (n + 1) = 256 * 256 ^ n by ring, Nat.mod_mul]

@[simp] theorem arrayBytes_length (w : Nat) (vs : List Nat) : (arrayBytes w vs).length = w * vs.length := by
  induction vs with
  | nil => simp [arrayBytes]
  | cons v vs ih =>
    simp only [arrayBytes, List.flatMap_cons, List.length_append, leBytes_length, List.length_cons] at ih ⊢
    rw [ih, Nat.mul_add]
    omega

@[simp] theorem freeBytes_length (f n : Nat) : (freeBytes f n).length = n := by simp [freeBytes]

@[simp] theorem results_bytes_length (r : Results) : r.bytes.length = 16 := by simp [Results.bytes]

end Sys2Proof.Machine
end

