-- ==== Sys2Proof/Laws/State.lean ====
section
/-! SUPPORT. What each shared update of the state leaves in each field, so that no proof unfolds a record update. -/

namespace Sys2Proof.Machine

/-! ### errorStop -/

@[simp] theorem errorStop_ie (e : EngineError) (s : State) : (errorStop e s).ie = s.ie := rfl
@[simp] theorem errorStop_busy (e : EngineError) (s : State) : (errorStop e s).busy = false := rfl
@[simp] theorem errorStop_done (e : EngineError) (s : State) : (errorStop e s).done = s.done := rfl
@[simp] theorem errorStop_err (e : EngineError) (s : State) : (errorStop e s).err = true := rfl
@[simp] theorem errorStop_dlist (e : EngineError) (s : State) : (errorStop e s).dlist = s.dlist := rfl
@[simp] theorem errorStop_dp (e : EngineError) (s : State) : (errorStop e s).dp = s.dp := rfl
@[simp] theorem errorStop_errcode (e : EngineError) (s : State) : (errorStop e s).errcode = e.code.number := rfl
@[simp] theorem errorStop_errinfo (e : EngineError) (s : State) : (errorStop e s).errinfo = BitVec.ofNat 32 e.info := rfl
@[simp] theorem errorStop_errpos (e : EngineError) (s : State) : (errorStop e s).errpos = BitVec.ofNat 32 e.pos := rfl
@[simp] theorem errorStop_cmdcount (e : EngineError) (s : State) : (errorStop e s).cmdcount = s.cmdcount := rfl
@[simp] theorem errorStop_results (e : EngineError) (s : State) : (errorStop e s).results = s.results := rfl
@[simp] theorem errorStop_bw (e : EngineError) (s : State) : (errorStop e s).bw = s.bw := rfl
@[simp] theorem errorStop_br (e : EngineError) (s : State) : (errorStop e s).br = s.br := rfl
@[simp] theorem errorStop_mem (e : EngineError) (s : State) : (errorStop e s).mem = s.mem := rfl
@[simp] theorem errorStop_platform (e : EngineError) (s : State) : (errorStop e s).platform = s.platform := rfl
@[simp] theorem errorStop_inputs (e : EngineError) (s : State) : (errorStop e s).inputs = s.inputs := rfl
@[simp] theorem errorStop_hostReg (e : EngineError) (s : State) : (errorStop e s).hostReg = s.hostReg := rfl
@[simp] theorem errorStop_hostBuf (e : EngineError) (s : State) : (errorStop e s).hostBuf = s.hostBuf := rfl
@[simp] theorem errorStop_fresh (e : EngineError) (s : State) : (errorStop e s).fresh = s.fresh := rfl
@[simp] theorem errorStop_runLog (e : EngineError) (s : State) : (errorStop e s).runLog = s.runLog := rfl

/-! ### havocSpan -/

@[simp] theorem havocSpan_ie (sp : Span) (s : State) : (havocSpan sp s).ie = s.ie := rfl
@[simp] theorem havocSpan_busy (sp : Span) (s : State) : (havocSpan sp s).busy = s.busy := rfl
@[simp] theorem havocSpan_done (sp : Span) (s : State) : (havocSpan sp s).done = s.done := rfl
@[simp] theorem havocSpan_err (sp : Span) (s : State) : (havocSpan sp s).err = s.err := rfl
@[simp] theorem havocSpan_dlist (sp : Span) (s : State) : (havocSpan sp s).dlist = s.dlist := rfl
@[simp] theorem havocSpan_dp (sp : Span) (s : State) : (havocSpan sp s).dp = s.dp := rfl
@[simp] theorem havocSpan_errcode (sp : Span) (s : State) : (havocSpan sp s).errcode = s.errcode := rfl
@[simp] theorem havocSpan_errinfo (sp : Span) (s : State) : (havocSpan sp s).errinfo = s.errinfo := rfl
@[simp] theorem havocSpan_errpos (sp : Span) (s : State) : (havocSpan sp s).errpos = s.errpos := rfl
@[simp] theorem havocSpan_cmdcount (sp : Span) (s : State) : (havocSpan sp s).cmdcount = s.cmdcount := rfl
@[simp] theorem havocSpan_results (sp : Span) (s : State) : (havocSpan sp s).results = s.results := rfl
@[simp] theorem havocSpan_bw (sp : Span) (s : State) : (havocSpan sp s).bw = s.bw := rfl
@[simp] theorem havocSpan_br (sp : Span) (s : State) : (havocSpan sp s).br = s.br := rfl
@[simp] theorem havocSpan_mem (sp : Span) (s : State) : (havocSpan sp s).mem = s.mem.writeBytes sp.addr (freeBytes s.fresh sp.len) := rfl
@[simp] theorem havocSpan_platform (sp : Span) (s : State) : (havocSpan sp s).platform = s.platform := rfl
@[simp] theorem havocSpan_inputs (sp : Span) (s : State) : (havocSpan sp s).inputs = s.inputs := rfl
@[simp] theorem havocSpan_hostReg (sp : Span) (s : State) : (havocSpan sp s).hostReg = s.hostReg := rfl
@[simp] theorem havocSpan_hostBuf (sp : Span) (s : State) : (havocSpan sp s).hostBuf = s.hostBuf := rfl
@[simp] theorem havocSpan_fresh (sp : Span) (s : State) : (havocSpan sp s).fresh = s.fresh + sp.len := rfl
@[simp] theorem havocSpan_runLog (sp : Span) (s : State) : (havocSpan sp s).runLog = s.runLog := rfl

/-! ### havocWriter -/

@[simp] theorem havocWriter_ie (s : State) : (havocWriter s).ie = s.ie := rfl
@[simp] theorem havocWriter_busy (s : State) : (havocWriter s).busy = s.busy := rfl
@[simp] theorem havocWriter_done (s : State) : (havocWriter s).done = s.done := rfl
@[simp] theorem havocWriter_err (s : State) : (havocWriter s).err = s.err := rfl
@[simp] theorem havocWriter_dlist (s : State) : (havocWriter s).dlist = s.dlist := rfl
@[simp] theorem havocWriter_dp (s : State) : (havocWriter s).dp = s.dp := rfl
@[simp] theorem havocWriter_errcode (s : State) : (havocWriter s).errcode = s.errcode := rfl
@[simp] theorem havocWriter_errinfo (s : State) : (havocWriter s).errinfo = s.errinfo := rfl
@[simp] theorem havocWriter_errpos (s : State) : (havocWriter s).errpos = s.errpos := rfl
@[simp] theorem havocWriter_cmdcount (s : State) : (havocWriter s).cmdcount = s.cmdcount := rfl
@[simp] theorem havocWriter_results (s : State) : (havocWriter s).results = s.results := rfl
@[simp] theorem havocWriter_br (s : State) : (havocWriter s).br = s.br := rfl
@[simp] theorem havocWriter_mem (s : State) : (havocWriter s).mem = s.mem := rfl
@[simp] theorem havocWriter_platform (s : State) : (havocWriter s).platform = s.platform := rfl
@[simp] theorem havocWriter_inputs (s : State) : (havocWriter s).inputs = s.inputs := rfl
@[simp] theorem havocWriter_hostReg (s : State) : (havocWriter s).hostReg = s.hostReg := rfl
@[simp] theorem havocWriter_hostBuf (s : State) : (havocWriter s).hostBuf = s.hostBuf := rfl
@[simp] theorem havocWriter_fresh (s : State) : (havocWriter s).fresh = s.fresh + 3 := rfl
@[simp] theorem havocWriter_runLog (s : State) : (havocWriter s).runLog = s.runLog := rfl

/-! ### havocReader -/

@[simp] theorem havocReader_ie (s : State) : (havocReader s).ie = s.ie := rfl
@[simp] theorem havocReader_busy (s : State) : (havocReader s).busy = s.busy := rfl
@[simp] theorem havocReader_done (s : State) : (havocReader s).done = s.done := rfl
@[simp] theorem havocReader_err (s : State) : (havocReader s).err = s.err := rfl
@[simp] theorem havocReader_dlist (s : State) : (havocReader s).dlist = s.dlist := rfl
@[simp] theorem havocReader_dp (s : State) : (havocReader s).dp = s.dp := rfl
@[simp] theorem havocReader_errcode (s : State) : (havocReader s).errcode = s.errcode := rfl
@[simp] theorem havocReader_errinfo (s : State) : (havocReader s).errinfo = s.errinfo := rfl
@[simp] theorem havocReader_errpos (s : State) : (havocReader s).errpos = s.errpos := rfl
@[simp] theorem havocReader_cmdcount (s : State) : (havocReader s).cmdcount = s.cmdcount := rfl
@[simp] theorem havocReader_results (s : State) : (havocReader s).results = s.results := rfl
@[simp] theorem havocReader_bw (s : State) : (havocReader s).bw = s.bw := rfl
@[simp] theorem havocReader_mem (s : State) : (havocReader s).mem = s.mem := rfl
@[simp] theorem havocReader_platform (s : State) : (havocReader s).platform = s.platform := rfl
@[simp] theorem havocReader_inputs (s : State) : (havocReader s).inputs = s.inputs := rfl
@[simp] theorem havocReader_hostReg (s : State) : (havocReader s).hostReg = s.hostReg := rfl
@[simp] theorem havocReader_hostBuf (s : State) : (havocReader s).hostBuf = s.hostBuf := rfl
@[simp] theorem havocReader_fresh (s : State) : (havocReader s).fresh = s.fresh + 1 := rfl
@[simp] theorem havocReader_runLog (s : State) : (havocReader s).runLog = s.runLog := rfl

/-! ### setResults -/

@[simp] theorem setResults_ie (a b c d : Nat) (s : State) : (setResults a b c d s).ie = s.ie := rfl
@[simp] theorem setResults_busy (a b c d : Nat) (s : State) : (setResults a b c d s).busy = s.busy := rfl
@[simp] theorem setResults_done (a b c d : Nat) (s : State) : (setResults a b c d s).done = s.done := rfl
@[simp] theorem setResults_err (a b c d : Nat) (s : State) : (setResults a b c d s).err = s.err := rfl
@[simp] theorem setResults_dlist (a b c d : Nat) (s : State) : (setResults a b c d s).dlist = s.dlist := rfl
@[simp] theorem setResults_dp (a b c d : Nat) (s : State) : (setResults a b c d s).dp = s.dp := rfl
@[simp] theorem setResults_errcode (a b c d : Nat) (s : State) : (setResults a b c d s).errcode = s.errcode := rfl
@[simp] theorem setResults_errinfo (a b c d : Nat) (s : State) : (setResults a b c d s).errinfo = s.errinfo := rfl
@[simp] theorem setResults_errpos (a b c d : Nat) (s : State) : (setResults a b c d s).errpos = s.errpos := rfl
@[simp] theorem setResults_cmdcount (a b c d : Nat) (s : State) : (setResults a b c d s).cmdcount = s.cmdcount := rfl
@[simp] theorem setResults_results (a b c d : Nat) (s : State) : (setResults a b c d s).results = ⟨BitVec.ofNat 32 a, BitVec.ofNat 32 b, BitVec.ofNat 32 c, BitVec.ofNat 32 d⟩ := rfl
@[simp] theorem setResults_bw (a b c d : Nat) (s : State) : (setResults a b c d s).bw = s.bw := rfl
@[simp] theorem setResults_br (a b c d : Nat) (s : State) : (setResults a b c d s).br = s.br := rfl
@[simp] theorem setResults_mem (a b c d : Nat) (s : State) : (setResults a b c d s).mem = s.mem := rfl
@[simp] theorem setResults_platform (a b c d : Nat) (s : State) : (setResults a b c d s).platform = s.platform := rfl
@[simp] theorem setResults_inputs (a b c d : Nat) (s : State) : (setResults a b c d s).inputs = s.inputs := rfl
@[simp] theorem setResults_hostReg (a b c d : Nat) (s : State) : (setResults a b c d s).hostReg = s.hostReg := rfl
@[simp] theorem setResults_hostBuf (a b c d : Nat) (s : State) : (setResults a b c d s).hostBuf = s.hostBuf := rfl
@[simp] theorem setResults_fresh (a b c d : Nat) (s : State) : (setResults a b c d s).fresh = s.fresh := rfl
@[simp] theorem setResults_runLog (a b c d : Nat) (s : State) : (setResults a b c d s).runLog = s.runLog := rfl

/-! ### storeBytes -/

@[simp] theorem storeBytes_ie (a : Nat) (bs : List Byte) (s : State) : (storeBytes a bs s).ie = s.ie := rfl
@[simp] theorem storeBytes_busy (a : Nat) (bs : List Byte) (s : State) : (storeBytes a bs s).busy = s.busy := rfl
@[simp] theorem storeBytes_done (a : Nat) (bs : List Byte) (s : State) : (storeBytes a bs s).done = s.done := rfl
@[simp] theorem storeBytes_err (a : Nat) (bs : List Byte) (s : State) : (storeBytes a bs s).err = s.err := rfl
@[simp] theorem storeBytes_dlist (a : Nat) (bs : List Byte) (s : State) : (storeBytes a bs s).dlist = s.dlist := rfl
@[simp] theorem storeBytes_dp (a : Nat) (bs : List Byte) (s : State) : (storeBytes a bs s).dp = s.dp := rfl
@[simp] theorem storeBytes_errcode (a : Nat) (bs : List Byte) (s : State) : (storeBytes a bs s).errcode = s.errcode := rfl
@[simp] theorem storeBytes_errinfo (a : Nat) (bs : List Byte) (s : State) : (storeBytes a bs s).errinfo = s.errinfo := rfl
@[simp] theorem storeBytes_errpos (a : Nat) (bs : List Byte) (s : State) : (storeBytes a bs s).errpos = s.errpos := rfl
@[simp] theorem storeBytes_cmdcount (a : Nat) (bs : List Byte) (s : State) : (storeBytes a bs s).cmdcount = s.cmdcount := rfl
@[simp] theorem storeBytes_results (a : Nat) (bs : List Byte) (s : State) : (storeBytes a bs s).results = s.results := rfl
@[simp] theorem storeBytes_bw (a : Nat) (bs : List Byte) (s : State) : (storeBytes a bs s).bw = s.bw := rfl
@[simp] theorem storeBytes_br (a : Nat) (bs : List Byte) (s : State) : (storeBytes a bs s).br = s.br := rfl
@[simp] theorem storeBytes_mem (a : Nat) (bs : List Byte) (s : State) : (storeBytes a bs s).mem = s.mem.writeBytes a bs := rfl
@[simp] theorem storeBytes_platform (a : Nat) (bs : List Byte) (s : State) : (storeBytes a bs s).platform = s.platform := rfl
@[simp] theorem storeBytes_inputs (a : Nat) (bs : List Byte) (s : State) : (storeBytes a bs s).inputs = s.inputs := rfl
@[simp] theorem storeBytes_hostReg (a : Nat) (bs : List Byte) (s : State) : (storeBytes a bs s).hostReg = s.hostReg := rfl
@[simp] theorem storeBytes_hostBuf (a : Nat) (bs : List Byte) (s : State) : (storeBytes a bs s).hostBuf = s.hostBuf := rfl
@[simp] theorem storeBytes_fresh (a : Nat) (bs : List Byte) (s : State) : (storeBytes a bs s).fresh = s.fresh := rfl
@[simp] theorem storeBytes_runLog (a : Nat) (bs : List Byte) (s : State) : (storeBytes a bs s).runLog = s.runLog := rfl

/-! ### storeWords -/

@[simp] theorem storeWords_ie (a : Option Word) (vs : List Nat) (s : State) : (storeWords a vs s).ie = s.ie := by cases a <;> rfl
@[simp] theorem storeWords_busy (a : Option Word) (vs : List Nat) (s : State) : (storeWords a vs s).busy = s.busy := by cases a <;> rfl
@[simp] theorem storeWords_done (a : Option Word) (vs : List Nat) (s : State) : (storeWords a vs s).done = s.done := by cases a <;> rfl
@[simp] theorem storeWords_err (a : Option Word) (vs : List Nat) (s : State) : (storeWords a vs s).err = s.err := by cases a <;> rfl
@[simp] theorem storeWords_dlist (a : Option Word) (vs : List Nat) (s : State) : (storeWords a vs s).dlist = s.dlist := by cases a <;> rfl
@[simp] theorem storeWords_dp (a : Option Word) (vs : List Nat) (s : State) : (storeWords a vs s).dp = s.dp := by cases a <;> rfl
@[simp] theorem storeWords_errcode (a : Option Word) (vs : List Nat) (s : State) : (storeWords a vs s).errcode = s.errcode := by cases a <;> rfl
@[simp] theorem storeWords_errinfo (a : Option Word) (vs : List Nat) (s : State) : (storeWords a vs s).errinfo = s.errinfo := by cases a <;> rfl
@[simp] theorem storeWords_errpos (a : Option Word) (vs : List Nat) (s : State) : (storeWords a vs s).errpos = s.errpos := by cases a <;> rfl
@[simp] theorem storeWords_cmdcount (a : Option Word) (vs : List Nat) (s : State) : (storeWords a vs s).cmdcount = s.cmdcount := by cases a <;> rfl
@[simp] theorem storeWords_results (a : Option Word) (vs : List Nat) (s : State) : (storeWords a vs s).results = s.results := by cases a <;> rfl
@[simp] theorem storeWords_bw (a : Option Word) (vs : List Nat) (s : State) : (storeWords a vs s).bw = s.bw := by cases a <;> rfl
@[simp] theorem storeWords_br (a : Option Word) (vs : List Nat) (s : State) : (storeWords a vs s).br = s.br := by cases a <;> rfl
@[simp] theorem storeWords_platform (a : Option Word) (vs : List Nat) (s : State) : (storeWords a vs s).platform = s.platform := by cases a <;> rfl
@[simp] theorem storeWords_inputs (a : Option Word) (vs : List Nat) (s : State) : (storeWords a vs s).inputs = s.inputs := by cases a <;> rfl
@[simp] theorem storeWords_hostReg (a : Option Word) (vs : List Nat) (s : State) : (storeWords a vs s).hostReg = s.hostReg := by cases a <;> rfl
@[simp] theorem storeWords_hostBuf (a : Option Word) (vs : List Nat) (s : State) : (storeWords a vs s).hostBuf = s.hostBuf := by cases a <;> rfl
@[simp] theorem storeWords_fresh (a : Option Word) (vs : List Nat) (s : State) : (storeWords a vs s).fresh = s.fresh := by cases a <;> rfl
@[simp] theorem storeWords_runLog (a : Option Word) (vs : List Nat) (s : State) : (storeWords a vs s).runLog = s.runLog := by cases a <;> rfl

/-! ### complete -/

@[simp] theorem complete_ie (wr : Option Word) (s : State) : (complete wr s).ie = s.ie := by cases wr <;> rfl
@[simp] theorem complete_busy (wr : Option Word) (s : State) : (complete wr s).busy = s.busy := by cases wr <;> rfl
@[simp] theorem complete_done (wr : Option Word) (s : State) : (complete wr s).done = s.done := by cases wr <;> rfl
@[simp] theorem complete_err (wr : Option Word) (s : State) : (complete wr s).err = s.err := by cases wr <;> rfl
@[simp] theorem complete_dlist (wr : Option Word) (s : State) : (complete wr s).dlist = s.dlist := by cases wr <;> rfl
@[simp] theorem complete_dp (wr : Option Word) (s : State) : (complete wr s).dp = s.dp := by cases wr <;> rfl
@[simp] theorem complete_errcode (wr : Option Word) (s : State) : (complete wr s).errcode = s.errcode := by cases wr <;> rfl
@[simp] theorem complete_errinfo (wr : Option Word) (s : State) : (complete wr s).errinfo = s.errinfo := by cases wr <;> rfl
@[simp] theorem complete_errpos (wr : Option Word) (s : State) : (complete wr s).errpos = s.errpos := by cases wr <;> rfl
@[simp] theorem complete_cmdcount (wr : Option Word) (s : State) : (complete wr s).cmdcount = s.cmdcount + 1 := by cases wr <;> rfl
@[simp] theorem complete_results (wr : Option Word) (s : State) : (complete wr s).results = s.results := by cases wr <;> rfl
@[simp] theorem complete_bw (wr : Option Word) (s : State) : (complete wr s).bw = s.bw := by cases wr <;> rfl
@[simp] theorem complete_br (wr : Option Word) (s : State) : (complete wr s).br = s.br := by cases wr <;> rfl
@[simp] theorem complete_platform (wr : Option Word) (s : State) : (complete wr s).platform = s.platform := by cases wr <;> rfl
@[simp] theorem complete_inputs (wr : Option Word) (s : State) : (complete wr s).inputs = s.inputs := by cases wr <;> rfl
@[simp] theorem complete_hostReg (wr : Option Word) (s : State) : (complete wr s).hostReg = s.hostReg := by cases wr <;> rfl
@[simp] theorem complete_hostBuf (wr : Option Word) (s : State) : (complete wr s).hostBuf = s.hostBuf := by cases wr <;> rfl
@[simp] theorem complete_fresh (wr : Option Word) (s : State) : (complete wr s).fresh = s.fresh := by cases wr <;> rfl
@[simp] theorem complete_runLog (wr : Option Word) (s : State) : (complete wr s).runLog = s.runLog := by cases wr <;> rfl

/-! ### advance -/

@[simp] theorem advance_ie (s : State) : (advance s).ie = s.ie := rfl
@[simp] theorem advance_busy (s : State) : (advance s).busy = s.busy := rfl
@[simp] theorem advance_done (s : State) : (advance s).done = s.done := rfl
@[simp] theorem advance_err (s : State) : (advance s).err = s.err := rfl
@[simp] theorem advance_dlist (s : State) : (advance s).dlist = s.dlist := rfl
@[simp] theorem advance_dp (s : State) : (advance s).dp = s.dp + 32 := rfl
@[simp] theorem advance_errcode (s : State) : (advance s).errcode = s.errcode := rfl
@[simp] theorem advance_errinfo (s : State) : (advance s).errinfo = s.errinfo := rfl
@[simp] theorem advance_errpos (s : State) : (advance s).errpos = s.errpos := rfl
@[simp] theorem advance_cmdcount (s : State) : (advance s).cmdcount = s.cmdcount := rfl
@[simp] theorem advance_results (s : State) : (advance s).results = s.results := rfl
@[simp] theorem advance_bw (s : State) : (advance s).bw = s.bw := rfl
@[simp] theorem advance_br (s : State) : (advance s).br = s.br := rfl
@[simp] theorem advance_mem (s : State) : (advance s).mem = s.mem := rfl
@[simp] theorem advance_platform (s : State) : (advance s).platform = s.platform := rfl
@[simp] theorem advance_inputs (s : State) : (advance s).inputs = s.inputs := rfl
@[simp] theorem advance_hostReg (s : State) : (advance s).hostReg = s.hostReg := rfl
@[simp] theorem advance_hostBuf (s : State) : (advance s).hostBuf = s.hostBuf := rfl
@[simp] theorem advance_fresh (s : State) : (advance s).fresh = s.fresh := rfl
@[simp] theorem advance_runLog (s : State) : (advance s).runLog = s.runLog := rfl

/-! ### jumpTo -/

@[simp] theorem jumpTo_ie (target : Word) (s : State) : (jumpTo target s).ie = s.ie := rfl
@[simp] theorem jumpTo_busy (target : Word) (s : State) : (jumpTo target s).busy = s.busy := rfl
@[simp] theorem jumpTo_done (target : Word) (s : State) : (jumpTo target s).done = s.done := rfl
@[simp] theorem jumpTo_err (target : Word) (s : State) : (jumpTo target s).err = s.err := rfl
@[simp] theorem jumpTo_dlist (target : Word) (s : State) : (jumpTo target s).dlist = s.dlist := rfl
@[simp] theorem jumpTo_dp (target : Word) (s : State) : (jumpTo target s).dp = target := rfl
@[simp] theorem jumpTo_errcode (target : Word) (s : State) : (jumpTo target s).errcode = s.errcode := rfl
@[simp] theorem jumpTo_errinfo (target : Word) (s : State) : (jumpTo target s).errinfo = s.errinfo := rfl
@[simp] theorem jumpTo_errpos (target : Word) (s : State) : (jumpTo target s).errpos = s.errpos := rfl
@[simp] theorem jumpTo_cmdcount (target : Word) (s : State) : (jumpTo target s).cmdcount = s.cmdcount := rfl
@[simp] theorem jumpTo_results (target : Word) (s : State) : (jumpTo target s).results = s.results := rfl
@[simp] theorem jumpTo_bw (target : Word) (s : State) : (jumpTo target s).bw = s.bw := rfl
@[simp] theorem jumpTo_br (target : Word) (s : State) : (jumpTo target s).br = s.br := rfl
@[simp] theorem jumpTo_mem (target : Word) (s : State) : (jumpTo target s).mem = s.mem := rfl
@[simp] theorem jumpTo_platform (target : Word) (s : State) : (jumpTo target s).platform = s.platform := rfl
@[simp] theorem jumpTo_inputs (target : Word) (s : State) : (jumpTo target s).inputs = s.inputs := rfl
@[simp] theorem jumpTo_hostReg (target : Word) (s : State) : (jumpTo target s).hostReg = s.hostReg := rfl
@[simp] theorem jumpTo_hostBuf (target : Word) (s : State) : (jumpTo target s).hostBuf = s.hostBuf := rfl
@[simp] theorem jumpTo_fresh (target : Word) (s : State) : (jumpTo target s).fresh = s.fresh := rfl
@[simp] theorem jumpTo_runLog (target : Word) (s : State) : (jumpTo target s).runLog = s.runLog := rfl

/-! ### stopDone -/

@[simp] theorem stopDone_ie (s : State) : (stopDone s).ie = s.ie := rfl
@[simp] theorem stopDone_busy (s : State) : (stopDone s).busy = false := rfl
@[simp] theorem stopDone_done (s : State) : (stopDone s).done = true := rfl
@[simp] theorem stopDone_err (s : State) : (stopDone s).err = s.err := rfl
@[simp] theorem stopDone_dlist (s : State) : (stopDone s).dlist = s.dlist := rfl
@[simp] theorem stopDone_dp (s : State) : (stopDone s).dp = s.dp := rfl
@[simp] theorem stopDone_errcode (s : State) : (stopDone s).errcode = s.errcode := rfl
@[simp] theorem stopDone_errinfo (s : State) : (stopDone s).errinfo = s.errinfo := rfl
@[simp] theorem stopDone_errpos (s : State) : (stopDone s).errpos = s.errpos := rfl
@[simp] theorem stopDone_cmdcount (s : State) : (stopDone s).cmdcount = s.cmdcount := rfl
@[simp] theorem stopDone_results (s : State) : (stopDone s).results = s.results := rfl
@[simp] theorem stopDone_bw (s : State) : (stopDone s).bw = s.bw := rfl
@[simp] theorem stopDone_br (s : State) : (stopDone s).br = s.br := rfl
@[simp] theorem stopDone_mem (s : State) : (stopDone s).mem = s.mem := rfl
@[simp] theorem stopDone_platform (s : State) : (stopDone s).platform = s.platform := rfl
@[simp] theorem stopDone_inputs (s : State) : (stopDone s).inputs = s.inputs := rfl
@[simp] theorem stopDone_hostReg (s : State) : (stopDone s).hostReg = s.hostReg := rfl
@[simp] theorem stopDone_hostBuf (s : State) : (stopDone s).hostBuf = s.hostBuf := rfl
@[simp] theorem stopDone_fresh (s : State) : (stopDone s).fresh = s.fresh := rfl
@[simp] theorem stopDone_runLog (s : State) : (stopDone s).runLog = s.runLog := rfl

/-! ### finish -/

@[simp] theorem finish_ie (wr : Option Word) (s : State) : (finish wr s).ie = s.ie := by cases wr <;> rfl
@[simp] theorem finish_busy (wr : Option Word) (s : State) : (finish wr s).busy = s.busy := by cases wr <;> rfl
@[simp] theorem finish_done (wr : Option Word) (s : State) : (finish wr s).done = s.done := by cases wr <;> rfl
@[simp] theorem finish_err (wr : Option Word) (s : State) : (finish wr s).err = s.err := by cases wr <;> rfl
@[simp] theorem finish_dlist (wr : Option Word) (s : State) : (finish wr s).dlist = s.dlist := by cases wr <;> rfl
@[simp] theorem finish_dp (wr : Option Word) (s : State) : (finish wr s).dp = s.dp + 32 := by cases wr <;> rfl
@[simp] theorem finish_errcode (wr : Option Word) (s : State) : (finish wr s).errcode = s.errcode := by cases wr <;> rfl
@[simp] theorem finish_errinfo (wr : Option Word) (s : State) : (finish wr s).errinfo = s.errinfo := by cases wr <;> rfl
@[simp] theorem finish_errpos (wr : Option Word) (s : State) : (finish wr s).errpos = s.errpos := by cases wr <;> rfl
@[simp] theorem finish_cmdcount (wr : Option Word) (s : State) : (finish wr s).cmdcount = s.cmdcount + 1 := by cases wr <;> rfl
@[simp] theorem finish_results (wr : Option Word) (s : State) : (finish wr s).results = s.results := by cases wr <;> rfl
@[simp] theorem finish_bw (wr : Option Word) (s : State) : (finish wr s).bw = s.bw := by cases wr <;> rfl
@[simp] theorem finish_br (wr : Option Word) (s : State) : (finish wr s).br = s.br := by cases wr <;> rfl
@[simp] theorem finish_platform (wr : Option Word) (s : State) : (finish wr s).platform = s.platform := by cases wr <;> rfl
@[simp] theorem finish_inputs (wr : Option Word) (s : State) : (finish wr s).inputs = s.inputs := by cases wr <;> rfl
@[simp] theorem finish_hostReg (wr : Option Word) (s : State) : (finish wr s).hostReg = s.hostReg := by cases wr <;> rfl
@[simp] theorem finish_hostBuf (wr : Option Word) (s : State) : (finish wr s).hostBuf = s.hostBuf := by cases wr <;> rfl
@[simp] theorem finish_fresh (wr : Option Word) (s : State) : (finish wr s).fresh = s.fresh := by cases wr <;> rfl
@[simp] theorem finish_runLog (wr : Option Word) (s : State) : (finish wr s).runLog = s.runLog := by cases wr <;> rfl

/-! ### putSink -/

@[simp] theorem putSink_ie (w : BitSink) (s : State) : (putSink w s).ie = s.ie := rfl
@[simp] theorem putSink_busy (w : BitSink) (s : State) : (putSink w s).busy = s.busy := rfl
@[simp] theorem putSink_done (w : BitSink) (s : State) : (putSink w s).done = s.done := rfl
@[simp] theorem putSink_err (w : BitSink) (s : State) : (putSink w s).err = s.err := rfl
@[simp] theorem putSink_dlist (w : BitSink) (s : State) : (putSink w s).dlist = s.dlist := rfl
@[simp] theorem putSink_dp (w : BitSink) (s : State) : (putSink w s).dp = s.dp := rfl
@[simp] theorem putSink_errcode (w : BitSink) (s : State) : (putSink w s).errcode = s.errcode := rfl
@[simp] theorem putSink_errinfo (w : BitSink) (s : State) : (putSink w s).errinfo = s.errinfo := rfl
@[simp] theorem putSink_errpos (w : BitSink) (s : State) : (putSink w s).errpos = s.errpos := rfl
@[simp] theorem putSink_cmdcount (w : BitSink) (s : State) : (putSink w s).cmdcount = s.cmdcount := rfl
@[simp] theorem putSink_results (w : BitSink) (s : State) : (putSink w s).results = s.results := rfl
@[simp] theorem putSink_br (w : BitSink) (s : State) : (putSink w s).br = s.br := rfl
@[simp] theorem putSink_mem (w : BitSink) (s : State) : (putSink w s).mem = s.mem.writeBytes (s.bw.base.toNat + s.bw.count.toNat) w.stored.reverse := rfl
@[simp] theorem putSink_platform (w : BitSink) (s : State) : (putSink w s).platform = s.platform := rfl
@[simp] theorem putSink_inputs (w : BitSink) (s : State) : (putSink w s).inputs = s.inputs := rfl
@[simp] theorem putSink_hostReg (w : BitSink) (s : State) : (putSink w s).hostReg = s.hostReg := rfl
@[simp] theorem putSink_hostBuf (w : BitSink) (s : State) : (putSink w s).hostBuf = s.hostBuf := rfl
@[simp] theorem putSink_fresh (w : BitSink) (s : State) : (putSink w s).fresh = s.fresh := rfl
@[simp] theorem putSink_runLog (w : BitSink) (s : State) : (putSink w s).runLog = s.runLog := rfl

/-! ### putReaderPos -/

@[simp] theorem putReaderPos_ie (pos : Nat) (s : State) : (putReaderPos pos s).ie = s.ie := rfl
@[simp] theorem putReaderPos_busy (pos : Nat) (s : State) : (putReaderPos pos s).busy = s.busy := rfl
@[simp] theorem putReaderPos_done (pos : Nat) (s : State) : (putReaderPos pos s).done = s.done := rfl
@[simp] theorem putReaderPos_err (pos : Nat) (s : State) : (putReaderPos pos s).err = s.err := rfl
@[simp] theorem putReaderPos_dlist (pos : Nat) (s : State) : (putReaderPos pos s).dlist = s.dlist := rfl
@[simp] theorem putReaderPos_dp (pos : Nat) (s : State) : (putReaderPos pos s).dp = s.dp := rfl
@[simp] theorem putReaderPos_errcode (pos : Nat) (s : State) : (putReaderPos pos s).errcode = s.errcode := rfl
@[simp] theorem putReaderPos_errinfo (pos : Nat) (s : State) : (putReaderPos pos s).errinfo = s.errinfo := rfl
@[simp] theorem putReaderPos_errpos (pos : Nat) (s : State) : (putReaderPos pos s).errpos = s.errpos := rfl
@[simp] theorem putReaderPos_cmdcount (pos : Nat) (s : State) : (putReaderPos pos s).cmdcount = s.cmdcount := rfl
@[simp] theorem putReaderPos_results (pos : Nat) (s : State) : (putReaderPos pos s).results = s.results := rfl
@[simp] theorem putReaderPos_bw (pos : Nat) (s : State) : (putReaderPos pos s).bw = s.bw := rfl
@[simp] theorem putReaderPos_mem (pos : Nat) (s : State) : (putReaderPos pos s).mem = s.mem := rfl
@[simp] theorem putReaderPos_platform (pos : Nat) (s : State) : (putReaderPos pos s).platform = s.platform := rfl
@[simp] theorem putReaderPos_inputs (pos : Nat) (s : State) : (putReaderPos pos s).inputs = s.inputs := rfl
@[simp] theorem putReaderPos_hostReg (pos : Nat) (s : State) : (putReaderPos pos s).hostReg = s.hostReg := rfl
@[simp] theorem putReaderPos_hostBuf (pos : Nat) (s : State) : (putReaderPos pos s).hostBuf = s.hostBuf := rfl
@[simp] theorem putReaderPos_fresh (pos : Nat) (s : State) : (putReaderPos pos s).fresh = s.fresh := rfl
@[simp] theorem putReaderPos_runLog (pos : Nat) (s : State) : (putReaderPos pos s).runLog = s.runLog := rfl

/-! ### setStreamResults -/

@[simp] theorem setStreamResults_ie (o : StreamOut) (pos : Nat) (s : State) : (setStreamResults o pos s).ie = s.ie := rfl
@[simp] theorem setStreamResults_busy (o : StreamOut) (pos : Nat) (s : State) : (setStreamResults o pos s).busy = s.busy := rfl
@[simp] theorem setStreamResults_done (o : StreamOut) (pos : Nat) (s : State) : (setStreamResults o pos s).done = s.done := rfl
@[simp] theorem setStreamResults_err (o : StreamOut) (pos : Nat) (s : State) : (setStreamResults o pos s).err = s.err := rfl
@[simp] theorem setStreamResults_dlist (o : StreamOut) (pos : Nat) (s : State) : (setStreamResults o pos s).dlist = s.dlist := rfl
@[simp] theorem setStreamResults_dp (o : StreamOut) (pos : Nat) (s : State) : (setStreamResults o pos s).dp = s.dp := rfl
@[simp] theorem setStreamResults_errcode (o : StreamOut) (pos : Nat) (s : State) : (setStreamResults o pos s).errcode = s.errcode := rfl
@[simp] theorem setStreamResults_errinfo (o : StreamOut) (pos : Nat) (s : State) : (setStreamResults o pos s).errinfo = s.errinfo := rfl
@[simp] theorem setStreamResults_errpos (o : StreamOut) (pos : Nat) (s : State) : (setStreamResults o pos s).errpos = s.errpos := rfl
@[simp] theorem setStreamResults_cmdcount (o : StreamOut) (pos : Nat) (s : State) : (setStreamResults o pos s).cmdcount = s.cmdcount := rfl
@[simp] theorem setStreamResults_bw (o : StreamOut) (pos : Nat) (s : State) : (setStreamResults o pos s).bw = s.bw := rfl
@[simp] theorem setStreamResults_br (o : StreamOut) (pos : Nat) (s : State) : (setStreamResults o pos s).br = s.br := rfl
@[simp] theorem setStreamResults_mem (o : StreamOut) (pos : Nat) (s : State) : (setStreamResults o pos s).mem = s.mem := rfl
@[simp] theorem setStreamResults_platform (o : StreamOut) (pos : Nat) (s : State) : (setStreamResults o pos s).platform = s.platform := rfl
@[simp] theorem setStreamResults_inputs (o : StreamOut) (pos : Nat) (s : State) : (setStreamResults o pos s).inputs = s.inputs := rfl
@[simp] theorem setStreamResults_hostReg (o : StreamOut) (pos : Nat) (s : State) : (setStreamResults o pos s).hostReg = s.hostReg := rfl
@[simp] theorem setStreamResults_hostBuf (o : StreamOut) (pos : Nat) (s : State) : (setStreamResults o pos s).hostBuf = s.hostBuf := rfl
@[simp] theorem setStreamResults_fresh (o : StreamOut) (pos : Nat) (s : State) : (setStreamResults o pos s).fresh = s.fresh := rfl
@[simp] theorem setStreamResults_runLog (o : StreamOut) (pos : Nat) (s : State) : (setStreamResults o pos s).runLog = s.runLog := rfl

/-! ### writeStatus -/

@[simp] theorem writeStatus_ie (v : Word) (s : State) : (writeStatus v s).ie = s.ie := rfl
@[simp] theorem writeStatus_busy (v : Word) (s : State) : (writeStatus v s).busy = s.busy := rfl
@[simp] theorem writeStatus_done (v : Word) (s : State) : (writeStatus v s).done = (s.done && !v.getLsbD 1) := rfl
@[simp] theorem writeStatus_err (v : Word) (s : State) : (writeStatus v s).err = (s.err && !v.getLsbD 2) := rfl
@[simp] theorem writeStatus_dlist (v : Word) (s : State) : (writeStatus v s).dlist = s.dlist := rfl
@[simp] theorem writeStatus_dp (v : Word) (s : State) : (writeStatus v s).dp = s.dp := rfl
@[simp] theorem writeStatus_errcode (v : Word) (s : State) : (writeStatus v s).errcode = s.errcode := rfl
@[simp] theorem writeStatus_errinfo (v : Word) (s : State) : (writeStatus v s).errinfo = s.errinfo := rfl
@[simp] theorem writeStatus_errpos (v : Word) (s : State) : (writeStatus v s).errpos = s.errpos := rfl
@[simp] theorem writeStatus_cmdcount (v : Word) (s : State) : (writeStatus v s).cmdcount = s.cmdcount := rfl
@[simp] theorem writeStatus_results (v : Word) (s : State) : (writeStatus v s).results = s.results := rfl
@[simp] theorem writeStatus_bw (v : Word) (s : State) : (writeStatus v s).bw = s.bw := rfl
@[simp] theorem writeStatus_br (v : Word) (s : State) : (writeStatus v s).br = s.br := rfl
@[simp] theorem writeStatus_mem (v : Word) (s : State) : (writeStatus v s).mem = s.mem := rfl
@[simp] theorem writeStatus_platform (v : Word) (s : State) : (writeStatus v s).platform = s.platform := rfl
@[simp] theorem writeStatus_inputs (v : Word) (s : State) : (writeStatus v s).inputs = s.inputs := rfl
@[simp] theorem writeStatus_hostReg (v : Word) (s : State) : (writeStatus v s).hostReg = s.hostReg := rfl
@[simp] theorem writeStatus_hostBuf (v : Word) (s : State) : (writeStatus v s).hostBuf = s.hostBuf := rfl
@[simp] theorem writeStatus_fresh (v : Word) (s : State) : (writeStatus v s).fresh = s.fresh := rfl
@[simp] theorem writeStatus_runLog (v : Word) (s : State) : (writeStatus v s).runLog = s.runLog := rfl

/-! ### startRun -/

@[simp] theorem startRun_ie (s : State) : (startRun s).ie = s.ie := rfl
@[simp] theorem startRun_busy (s : State) : (startRun s).busy = true := rfl
@[simp] theorem startRun_done (s : State) : (startRun s).done = false := rfl
@[simp] theorem startRun_err (s : State) : (startRun s).err = false := rfl
@[simp] theorem startRun_dlist (s : State) : (startRun s).dlist = s.dlist := rfl
@[simp] theorem startRun_dp (s : State) : (startRun s).dp = s.dlist := rfl
@[simp] theorem startRun_errcode (s : State) : (startRun s).errcode = 0 := rfl
@[simp] theorem startRun_errinfo (s : State) : (startRun s).errinfo = 0 := rfl
@[simp] theorem startRun_errpos (s : State) : (startRun s).errpos = 0 := rfl
@[simp] theorem startRun_cmdcount (s : State) : (startRun s).cmdcount = 0 := rfl
@[simp] theorem startRun_results (s : State) : (startRun s).results = s.results := rfl
@[simp] theorem startRun_bw (s : State) : (startRun s).bw = s.bw := rfl
@[simp] theorem startRun_br (s : State) : (startRun s).br = s.br := rfl
@[simp] theorem startRun_mem (s : State) : (startRun s).mem = s.mem := rfl
@[simp] theorem startRun_platform (s : State) : (startRun s).platform = s.platform := rfl
@[simp] theorem startRun_inputs (s : State) : (startRun s).inputs = s.inputs := rfl
@[simp] theorem startRun_hostReg (s : State) : (startRun s).hostReg = s.hostReg := rfl
@[simp] theorem startRun_hostBuf (s : State) : (startRun s).hostBuf = s.hostBuf := rfl
@[simp] theorem startRun_fresh (s : State) : (startRun s).fresh = s.fresh := rfl
@[simp] theorem startRun_runLog (s : State) : (startRun s).runLog = RunLog.empty := rfl

/-! ### noteCommand -/

@[simp] theorem noteCommand_ie (s : State) : (noteCommand s).ie = s.ie := rfl
@[simp] theorem noteCommand_busy (s : State) : (noteCommand s).busy = s.busy := rfl
@[simp] theorem noteCommand_done (s : State) : (noteCommand s).done = s.done := rfl
@[simp] theorem noteCommand_err (s : State) : (noteCommand s).err = s.err := rfl
@[simp] theorem noteCommand_dlist (s : State) : (noteCommand s).dlist = s.dlist := rfl
@[simp] theorem noteCommand_dp (s : State) : (noteCommand s).dp = s.dp := rfl
@[simp] theorem noteCommand_errcode (s : State) : (noteCommand s).errcode = s.errcode := rfl
@[simp] theorem noteCommand_errinfo (s : State) : (noteCommand s).errinfo = s.errinfo := rfl
@[simp] theorem noteCommand_errpos (s : State) : (noteCommand s).errpos = s.errpos := rfl
@[simp] theorem noteCommand_cmdcount (s : State) : (noteCommand s).cmdcount = s.cmdcount := rfl
@[simp] theorem noteCommand_results (s : State) : (noteCommand s).results = s.results := rfl
@[simp] theorem noteCommand_bw (s : State) : (noteCommand s).bw = s.bw := rfl
@[simp] theorem noteCommand_br (s : State) : (noteCommand s).br = s.br := rfl
@[simp] theorem noteCommand_mem (s : State) : (noteCommand s).mem = s.mem := rfl
@[simp] theorem noteCommand_platform (s : State) : (noteCommand s).platform = s.platform := rfl
@[simp] theorem noteCommand_inputs (s : State) : (noteCommand s).inputs = s.inputs := rfl
@[simp] theorem noteCommand_hostReg (s : State) : (noteCommand s).hostReg = s.hostReg := rfl
@[simp] theorem noteCommand_hostBuf (s : State) : (noteCommand s).hostBuf = s.hostBuf := rfl
@[simp] theorem noteCommand_fresh (s : State) : (noteCommand s).fresh = s.fresh := rfl

/-! ### runCore -/

@[simp] theorem runCore_ie (s : State) : (runCore s).ie = s.ie := rfl
@[simp] theorem runCore_busy (s : State) : (runCore s).busy = s.busy := rfl
@[simp] theorem runCore_done (s : State) : (runCore s).done = s.done := rfl
@[simp] theorem runCore_err (s : State) : (runCore s).err = s.err := rfl
@[simp] theorem runCore_dlist (s : State) : (runCore s).dlist = s.dlist := rfl
@[simp] theorem runCore_dp (s : State) : (runCore s).dp = s.dp := rfl
@[simp] theorem runCore_errcode (s : State) : (runCore s).errcode = s.errcode := rfl
@[simp] theorem runCore_errinfo (s : State) : (runCore s).errinfo = s.errinfo := rfl
@[simp] theorem runCore_errpos (s : State) : (runCore s).errpos = s.errpos := rfl
@[simp] theorem runCore_cmdcount (s : State) : (runCore s).cmdcount = 0 := rfl
@[simp] theorem runCore_results (s : State) : (runCore s).results = s.results := rfl
@[simp] theorem runCore_bw (s : State) : (runCore s).bw = s.bw := rfl
@[simp] theorem runCore_br (s : State) : (runCore s).br = s.br := rfl
@[simp] theorem runCore_mem (s : State) : (runCore s).mem = s.mem := rfl
@[simp] theorem runCore_platform (s : State) : (runCore s).platform = s.platform := rfl
@[simp] theorem runCore_inputs (s : State) : (runCore s).inputs = [] := rfl
@[simp] theorem runCore_hostReg (s : State) : (runCore s).hostReg = 0 := rfl
@[simp] theorem runCore_hostBuf (s : State) : (runCore s).hostBuf = [] := rfl
@[simp] theorem runCore_fresh (s : State) : (runCore s).fresh = 0 := rfl
@[simp] theorem runCore_runLog (s : State) : (runCore s).runLog = RunLog.empty := rfl

/-! ### resetRegisters -/

@[simp] theorem resetRegisters_ie (s : State) : (resetRegisters s).ie = State.reset.ie := rfl
@[simp] theorem resetRegisters_busy (s : State) : (resetRegisters s).busy = State.reset.busy := rfl
@[simp] theorem resetRegisters_done (s : State) : (resetRegisters s).done = State.reset.done := rfl
@[simp] theorem resetRegisters_err (s : State) : (resetRegisters s).err = State.reset.err := rfl
@[simp] theorem resetRegisters_dlist (s : State) : (resetRegisters s).dlist = State.reset.dlist := rfl
@[simp] theorem resetRegisters_dp (s : State) : (resetRegisters s).dp = State.reset.dp := rfl
@[simp] theorem resetRegisters_errcode (s : State) : (resetRegisters s).errcode = State.reset.errcode := rfl
@[simp] theorem resetRegisters_errinfo (s : State) : (resetRegisters s).errinfo = State.reset.errinfo := rfl
@[simp] theorem resetRegisters_errpos (s : State) : (resetRegisters s).errpos = State.reset.errpos := rfl
@[simp] theorem resetRegisters_cmdcount (s : State) : (resetRegisters s).cmdcount = State.reset.cmdcount := rfl
@[simp] theorem resetRegisters_results (s : State) : (resetRegisters s).results = State.reset.results := rfl
@[simp] theorem resetRegisters_bw (s : State) : (resetRegisters s).bw = State.reset.bw := rfl
@[simp] theorem resetRegisters_br (s : State) : (resetRegisters s).br = State.reset.br := rfl
@[simp] theorem resetRegisters_mem (s : State) : (resetRegisters s).mem = s.mem := rfl
@[simp] theorem resetRegisters_platform (s : State) : (resetRegisters s).platform = s.platform := rfl
@[simp] theorem resetRegisters_inputs (s : State) : (resetRegisters s).inputs = s.inputs := rfl
@[simp] theorem resetRegisters_hostReg (s : State) : (resetRegisters s).hostReg = s.hostReg := rfl
@[simp] theorem resetRegisters_hostBuf (s : State) : (resetRegisters s).hostBuf = s.hostBuf := rfl
@[simp] theorem resetRegisters_fresh (s : State) : (resetRegisters s).fresh = s.fresh := rfl
@[simp] theorem resetRegisters_runLog (s : State) : (resetRegisters s).runLog = State.reset.runLog := rfl

/-! ### The registers of the bit writer and the bit reader -/

@[simp] theorem havocWriter_bw_base (s : State) : (havocWriter s).bw.base = s.bw.base := rfl
@[simp] theorem havocWriter_bw_cap (s : State) : (havocWriter s).bw.cap = s.bw.cap := rfl
@[simp] theorem havocReader_br_base (s : State) : (havocReader s).br.base = s.br.base := rfl
@[simp] theorem havocReader_br_len (s : State) : (havocReader s).br.len = s.br.len := rfl
@[simp] theorem putSink_bw_base (w : BitSink) (s : State) : (putSink w s).bw.base = s.bw.base := rfl
@[simp] theorem putSink_bw_cap (w : BitSink) (s : State) : (putSink w s).bw.cap = s.bw.cap := rfl
@[simp] theorem putSink_bw_count (w : BitSink) (s : State) : (putSink w s).bw.count = BitVec.ofNat 32 w.count := rfl
@[simp] theorem putSink_bw_acc (w : BitSink) (s : State) : (putSink w s).bw.acc = BitVec.ofNat 7 w.acc := rfl
@[simp] theorem putSink_bw_nbits (w : BitSink) (s : State) : (putSink w s).bw.nbits = BitVec.ofNat 3 w.nbits := rfl
@[simp] theorem putReaderPos_br_base (pos : Nat) (s : State) : (putReaderPos pos s).br.base = s.br.base := rfl
@[simp] theorem putReaderPos_br_len (pos : Nat) (s : State) : (putReaderPos pos s).br.len = s.br.len := rfl
@[simp] theorem putReaderPos_br_pos (pos : Nat) (s : State) : (putReaderPos pos s).br.pos = BitVec.ofNat 32 pos := rfl

/-! ### Memory after completion and optional stores -/

@[simp] theorem complete_none_mem (s : State) : (complete none s).mem = s.mem := rfl
@[simp] theorem complete_some_mem (a : Word) (s : State) :
    (complete (some a) s).mem = s.mem.writeBytes a.toNat s.results.bytes := rfl
@[simp] theorem finish_none_mem (s : State) : (finish none s).mem = s.mem := rfl
@[simp] theorem finish_some_mem (a : Word) (s : State) :
    (finish (some a) s).mem = s.mem.writeBytes a.toNat s.results.bytes := rfl
@[simp] theorem storeWords_none (vs : List Nat) (s : State) : storeWords none vs s = s := rfl
@[simp] theorem storeWords_some (a : Word) (vs : List Nat) (s : State) :
    storeWords (some a) vs s = storeBytes a.toNat (arrayBytes 4 vs) s := rfl

/-! ### havocSpans: only memory and the counter change -/

@[simp] theorem havocSpans_ie (sps : List Span) (s : State) : (havocSpans sps s).ie = s.ie := by
  induction sps generalizing s with
  | nil => rfl
  | cons sp sps ih => simp [havocSpans, ih]
@[simp] theorem havocSpans_busy (sps : List Span) (s : State) : (havocSpans sps s).busy = s.busy := by
  induction sps generalizing s with
  | nil => rfl
  | cons sp sps ih => simp [havocSpans, ih]
@[simp] theorem havocSpans_done (sps : List Span) (s : State) : (havocSpans sps s).done = s.done := by
  induction sps generalizing s with
  | nil => rfl
  | cons sp sps ih => simp [havocSpans, ih]
@[simp] theorem havocSpans_err (sps : List Span) (s : State) : (havocSpans sps s).err = s.err := by
  induction sps generalizing s with
  | nil => rfl
  | cons sp sps ih => simp [havocSpans, ih]
@[simp] theorem havocSpans_dlist (sps : List Span) (s : State) : (havocSpans sps s).dlist = s.dlist := by
  induction sps generalizing s with
  | nil => rfl
  | cons sp sps ih => simp [havocSpans, ih]
@[simp] theorem havocSpans_dp (sps : List Span) (s : State) : (havocSpans sps s).dp = s.dp := by
  induction sps generalizing s with
  | nil => rfl
  | cons sp sps ih => simp [havocSpans, ih]
@[simp] theorem havocSpans_errcode (sps : List Span) (s : State) : (havocSpans sps s).errcode = s.errcode := by
  induction sps generalizing s with
  | nil => rfl
  | cons sp sps ih => simp [havocSpans, ih]
@[simp] theorem havocSpans_errinfo (sps : List Span) (s : State) : (havocSpans sps s).errinfo = s.errinfo := by
  induction sps generalizing s with
  | nil => rfl
  | cons sp sps ih => simp [havocSpans, ih]
@[simp] theorem havocSpans_errpos (sps : List Span) (s : State) : (havocSpans sps s).errpos = s.errpos := by
  induction sps generalizing s with
  | nil => rfl
  | cons sp sps ih => simp [havocSpans, ih]
@[simp] theorem havocSpans_cmdcount (sps : List Span) (s : State) : (havocSpans sps s).cmdcount = s.cmdcount := by
  induction sps generalizing s with
  | nil => rfl
  | cons sp sps ih => simp [havocSpans, ih]
@[simp] theorem havocSpans_results (sps : List Span) (s : State) : (havocSpans sps s).results = s.results := by
  induction sps generalizing s with
  | nil => rfl
  | cons sp sps ih => simp [havocSpans, ih]
@[simp] theorem havocSpans_bw (sps : List Span) (s : State) : (havocSpans sps s).bw = s.bw := by
  induction sps generalizing s with
  | nil => rfl
  | cons sp sps ih => simp [havocSpans, ih]
@[simp] theorem havocSpans_br (sps : List Span) (s : State) : (havocSpans sps s).br = s.br := by
  induction sps generalizing s with
  | nil => rfl
  | cons sp sps ih => simp [havocSpans, ih]
@[simp] theorem havocSpans_platform (sps : List Span) (s : State) : (havocSpans sps s).platform = s.platform := by
  induction sps generalizing s with
  | nil => rfl
  | cons sp sps ih => simp [havocSpans, ih]
@[simp] theorem havocSpans_inputs (sps : List Span) (s : State) : (havocSpans sps s).inputs = s.inputs := by
  induction sps generalizing s with
  | nil => rfl
  | cons sp sps ih => simp [havocSpans, ih]
@[simp] theorem havocSpans_hostReg (sps : List Span) (s : State) : (havocSpans sps s).hostReg = s.hostReg := by
  induction sps generalizing s with
  | nil => rfl
  | cons sp sps ih => simp [havocSpans, ih]
@[simp] theorem havocSpans_hostBuf (sps : List Span) (s : State) : (havocSpans sps s).hostBuf = s.hostBuf := by
  induction sps generalizing s with
  | nil => rfl
  | cons sp sps ih => simp [havocSpans, ih]
@[simp] theorem havocSpans_runLog (sps : List Span) (s : State) : (havocSpans sps s).runLog = s.runLog := by
  induction sps generalizing s with
  | nil => rfl
  | cons sp sps ih => simp [havocSpans, ih]

/-! ### The run's log -/

@[simp] theorem noteCommand_runLog_used (s : State) :
    (noteCommand s).runLog.used = addSpans (commandRanges s).uses s.runLog.used := rfl
@[simp] theorem noteCommand_runLog_written (s : State) :
    (noteCommand s).runLog.written = addSpans (commandRanges s).writes s.runLog.written := rfl

/-! ### The failing ends -/

@[simp] theorem failSpans_ie (sps : List Span) (e : EngineError) (s : State) : (failSpans sps e s).ie = s.ie := by
  simp [failSpans]
@[simp] theorem failSpans_busy (sps : List Span) (e : EngineError) (s : State) : (failSpans sps e s).busy = false := by
  simp [failSpans]
@[simp] theorem failSpans_done (sps : List Span) (e : EngineError) (s : State) : (failSpans sps e s).done = s.done := by
  simp [failSpans]
@[simp] theorem failSpans_err (sps : List Span) (e : EngineError) (s : State) : (failSpans sps e s).err = true := by
  simp [failSpans]
@[simp] theorem failSpans_dlist (sps : List Span) (e : EngineError) (s : State) : (failSpans sps e s).dlist = s.dlist := by
  simp [failSpans]
@[simp] theorem failSpans_dp (sps : List Span) (e : EngineError) (s : State) : (failSpans sps e s).dp = s.dp := by
  simp [failSpans]
@[simp] theorem failSpans_errcode (sps : List Span) (e : EngineError) (s : State) : (failSpans sps e s).errcode = e.code.number := by
  simp [failSpans]
@[simp] theorem failSpans_errinfo (sps : List Span) (e : EngineError) (s : State) : (failSpans sps e s).errinfo = BitVec.ofNat 32 e.info := by
  simp [failSpans]
@[simp] theorem failSpans_errpos (sps : List Span) (e : EngineError) (s : State) : (failSpans sps e s).errpos = BitVec.ofNat 32 e.pos := by
  simp [failSpans]
@[simp] theorem failSpans_cmdcount (sps : List Span) (e : EngineError) (s : State) : (failSpans sps e s).cmdcount = s.cmdcount := by
  simp [failSpans]
@[simp] theorem failSpans_results (sps : List Span) (e : EngineError) (s : State) : (failSpans sps e s).results = s.results := by
  simp [failSpans]
@[simp] theorem failSpans_bw (sps : List Span) (e : EngineError) (s : State) : (failSpans sps e s).bw = s.bw := by
  simp [failSpans]
@[simp] theorem failSpans_br (sps : List Span) (e : EngineError) (s : State) : (failSpans sps e s).br = s.br := by
  simp [failSpans]
@[simp] theorem failSpans_platform (sps : List Span) (e : EngineError) (s : State) : (failSpans sps e s).platform = s.platform := by
  simp [failSpans]
@[simp] theorem failSpans_inputs (sps : List Span) (e : EngineError) (s : State) : (failSpans sps e s).inputs = s.inputs := by
  simp [failSpans]
@[simp] theorem failSpans_hostReg (sps : List Span) (e : EngineError) (s : State) : (failSpans sps e s).hostReg = s.hostReg := by
  simp [failSpans]
@[simp] theorem failSpans_hostBuf (sps : List Span) (e : EngineError) (s : State) : (failSpans sps e s).hostBuf = s.hostBuf := by
  simp [failSpans]
@[simp] theorem failSpans_runLog (sps : List Span) (e : EngineError) (s : State) : (failSpans sps e s).runLog = s.runLog := by
  simp [failSpans]
@[simp] theorem failAppend_ie (sp : Span) (e : EngineError) (s : State) : (failAppend sp e s).ie = s.ie := by
  simp [failAppend]
@[simp] theorem failAppend_busy (sp : Span) (e : EngineError) (s : State) : (failAppend sp e s).busy = false := by
  simp [failAppend]
@[simp] theorem failAppend_done (sp : Span) (e : EngineError) (s : State) : (failAppend sp e s).done = s.done := by
  simp [failAppend]
@[simp] theorem failAppend_err (sp : Span) (e : EngineError) (s : State) : (failAppend sp e s).err = true := by
  simp [failAppend]
@[simp] theorem failAppend_dlist (sp : Span) (e : EngineError) (s : State) : (failAppend sp e s).dlist = s.dlist := by
  simp [failAppend]
@[simp] theorem failAppend_dp (sp : Span) (e : EngineError) (s : State) : (failAppend sp e s).dp = s.dp := by
  simp [failAppend]
@[simp] theorem failAppend_errcode (sp : Span) (e : EngineError) (s : State) : (failAppend sp e s).errcode = e.code.number := by
  simp [failAppend]
@[simp] theorem failAppend_errinfo (sp : Span) (e : EngineError) (s : State) : (failAppend sp e s).errinfo = BitVec.ofNat 32 e.info := by
  simp [failAppend]
@[simp] theorem failAppend_errpos (sp : Span) (e : EngineError) (s : State) : (failAppend sp e s).errpos = BitVec.ofNat 32 e.pos := by
  simp [failAppend]
@[simp] theorem failAppend_cmdcount (sp : Span) (e : EngineError) (s : State) : (failAppend sp e s).cmdcount = s.cmdcount := by
  simp [failAppend]
@[simp] theorem failAppend_results (sp : Span) (e : EngineError) (s : State) : (failAppend sp e s).results = s.results := by
  simp [failAppend]
@[simp] theorem failAppend_br (sp : Span) (e : EngineError) (s : State) : (failAppend sp e s).br = s.br := by
  simp [failAppend]
@[simp] theorem failAppend_platform (sp : Span) (e : EngineError) (s : State) : (failAppend sp e s).platform = s.platform := by
  simp [failAppend]
@[simp] theorem failAppend_inputs (sp : Span) (e : EngineError) (s : State) : (failAppend sp e s).inputs = s.inputs := by
  simp [failAppend]
@[simp] theorem failAppend_hostReg (sp : Span) (e : EngineError) (s : State) : (failAppend sp e s).hostReg = s.hostReg := by
  simp [failAppend]
@[simp] theorem failAppend_hostBuf (sp : Span) (e : EngineError) (s : State) : (failAppend sp e s).hostBuf = s.hostBuf := by
  simp [failAppend]
@[simp] theorem failAppend_runLog (sp : Span) (e : EngineError) (s : State) : (failAppend sp e s).runLog = s.runLog := by
  simp [failAppend]
@[simp] theorem failRead_ie (sp : Span) (e : EngineError) (s : State) : (failRead sp e s).ie = s.ie := by
  simp [failRead]
@[simp] theorem failRead_busy (sp : Span) (e : EngineError) (s : State) : (failRead sp e s).busy = false := by
  simp [failRead]
@[simp] theorem failRead_done (sp : Span) (e : EngineError) (s : State) : (failRead sp e s).done = s.done := by
  simp [failRead]
@[simp] theorem failRead_err (sp : Span) (e : EngineError) (s : State) : (failRead sp e s).err = true := by
  simp [failRead]
@[simp] theorem failRead_dlist (sp : Span) (e : EngineError) (s : State) : (failRead sp e s).dlist = s.dlist := by
  simp [failRead]
@[simp] theorem failRead_dp (sp : Span) (e : EngineError) (s : State) : (failRead sp e s).dp = s.dp := by
  simp [failRead]
@[simp] theorem failRead_errcode (sp : Span) (e : EngineError) (s : State) : (failRead sp e s).errcode = e.code.number := by
  simp [failRead]
@[simp] theorem failRead_errinfo (sp : Span) (e : EngineError) (s : State) : (failRead sp e s).errinfo = BitVec.ofNat 32 e.info := by
  simp [failRead]
@[simp] theorem failRead_errpos (sp : Span) (e : EngineError) (s : State) : (failRead sp e s).errpos = BitVec.ofNat 32 e.pos := by
  simp [failRead]
@[simp] theorem failRead_cmdcount (sp : Span) (e : EngineError) (s : State) : (failRead sp e s).cmdcount = s.cmdcount := by
  simp [failRead]
@[simp] theorem failRead_results (sp : Span) (e : EngineError) (s : State) : (failRead sp e s).results = s.results := by
  simp [failRead]
@[simp] theorem failRead_bw (sp : Span) (e : EngineError) (s : State) : (failRead sp e s).bw = s.bw := by
  simp [failRead]
@[simp] theorem failRead_platform (sp : Span) (e : EngineError) (s : State) : (failRead sp e s).platform = s.platform := by
  simp [failRead]
@[simp] theorem failRead_inputs (sp : Span) (e : EngineError) (s : State) : (failRead sp e s).inputs = s.inputs := by
  simp [failRead]
@[simp] theorem failRead_hostReg (sp : Span) (e : EngineError) (s : State) : (failRead sp e s).hostReg = s.hostReg := by
  simp [failRead]
@[simp] theorem failRead_hostBuf (sp : Span) (e : EngineError) (s : State) : (failRead sp e s).hostBuf = s.hostBuf := by
  simp [failRead]
@[simp] theorem failRead_runLog (sp : Span) (e : EngineError) (s : State) : (failRead sp e s).runLog = s.runLog := by
  simp [failRead]

end Sys2Proof.Machine
end

