-- ==== Sys2Proof/Laws/Ops.lean ====
section
/-! SUPPORT. One lemma per shared operation that says everything it can do: the checks, completion, free values, the bit
primitives and the sort. -/

namespace Sys2Proof.Machine

/-! ### Checks (60_exceptions.md R320) -/

theorem firstUnadmitted_none {p : Platform} {rs : List OperandRange} :
    firstUnadmitted p rs = none ↔ ∀ r ∈ rs, r.word ≠ 0 → p.admitsSpan r.span = true := by
  induction rs with
  | nil => simp [firstUnadmitted]
  | cons r rs ih =>
    simp only [firstUnadmitted]
    split
    · rename_i h
      simp at h
      simp [h]
    · rename_i h
      simp at h
      simp only [ih, List.mem_cons, forall_eq_or_imp]
      tauto

/-- When every check of a plan holds. -/
theorem check_none_iff {p : Plan} {platform : Platform} :
    p.check platform = none ↔ p.values = true ∧ (∀ r ∈ p.ranges, r.span.wraps = false) ∧
      pairwiseCompatible p.ranges = true ∧ ∀ r ∈ p.ranges, r.word ≠ 0 → platform.admitsSpan r.span = true := by
  rw [← firstUnadmitted_none]
  unfold Plan.check
  by_cases hv : p.values = true
  · by_cases hw : p.ranges.any (fun r => r.span.wraps) = true
    · simp only [List.any_eq_true] at hw
      obtain ⟨r, hr, hw⟩ := hw
      simp only [hv, Bool.not_true, Bool.false_eq_true, if_false]
      rw [if_pos (List.any_eq_true.mpr ⟨r, hr, hw⟩)]
      simp only [reduceCtorEq, true_and, false_iff, not_and]
      intro h
      simp [h r hr] at hw
    · have hw' : ∀ r ∈ p.ranges, r.span.wraps = false := by simpa using hw
      rw [if_neg (by simp [hv]), if_neg hw]
      by_cases hc : pairwiseCompatible p.ranges = true
      · cases hf : firstUnadmitted platform p.ranges
        · simpa [hv, hc] using hw'
        · simp [hc]
      · simp [hc]
  · simp [hv]

/-- The plan's ranges with the WR area: the plan's own, then the area. -/
theorem withResults_ranges (p : Plan) (wr : Option Word) :
    (p.withResults wr).ranges = p.ranges ++ wr.toList.map fun a => ⟨.write, resultSpan a, 7⟩ := by
  cases wr <;> simp [Plan.withResults]

@[simp] theorem withResults_values (p : Plan) (wr : Option Word) : (p.withResults wr).values = p.values := by
  cases wr <;> rfl

/-- A command whose checks fail is an error stop and nothing else. -/
theorem guarded_of_some {p : Plan} {wr : Option Word} {body : State → State} {s : State} {e : EngineError}
    (h : (p.withResults wr).check s.platform = some e) : guarded p wr body s = .next (errorStop e s) := by
  simp [guarded, h]

/-- A command whose checks hold runs its body. -/
theorem guarded_of_none {p : Plan} {wr : Option Word} {body : State → State} {s : State}
    (h : (p.withResults wr).check s.platform = none) : guarded p wr body s = .next (body s) := by
  simp [guarded, h]

/-- Everything a guarded command can do. -/
theorem guarded_cases {p : Plan} {wr : Option Word} {body : State → State} {s t : State}
    (h : guarded p wr body s = .next t) :
    (∃ e, (p.withResults wr).check s.platform = some e ∧ t = errorStop e s) ∨
    ((p.withResults wr).check s.platform = none ∧ t = body s) := by
  unfold guarded at h
  split at h
  · rename_i e he
    exact .inl ⟨e, he, (Host.Outcome.next.inj h).symm⟩
  · rename_i he
    exact .inr ⟨he, (Host.Outcome.next.inj h).symm⟩

/-! ### Free values -/

theorem havocSpan_read_outside {sp : Span} {s : State} {a : Nat} (h : sp.contains a = false) :
    (havocSpan sp s).mem.read a = s.mem.read a := by
  simp only [Span.contains, Span.limit, Bool.and_eq_false_iff, decide_eq_false_iff_not] at h
  rw [havocSpan_mem, read_writeBytes_outside]
  simp
  omega

/-- Only the bytes of the spans become unspecified. -/
theorem havocSpans_read_outside {sps : List Span} {s : State} {a : Nat} (h : ∀ sp ∈ sps, sp.contains a = false) :
    (havocSpans sps s).mem.read a = s.mem.read a := by
  induction sps generalizing s with
  | nil => rfl
  | cons sp sps ih =>
    rw [havocSpans, ih fun x hx => h x (by simp [hx]), havocSpan_read_outside (h sp (by simp))]

theorem havocSpans_wf {sps : List Span} {s : State} (h : s.mem.wf = true) : (havocSpans sps s).mem.wf = true := by
  induction sps generalizing s with
  | nil => exact h
  | cons sp sps ih => exact ih (writeBytes_wf h _ _)

theorem havocSpans_inSpace {sps : List Span} {s : State} (h : s.mem.inSpace = true)
    (hs : ∀ sp ∈ sps, sp.wraps = false) : (havocSpans sps s).mem.inSpace = true := by
  induction sps generalizing s with
  | nil => exact h
  | cons sp sps ih =>
    refine ih (writeBytes_inSpace h (.inr ?_)) fun x hx => hs x (by simp [hx])
    have := hs sp (by simp)
    simp [Span.wraps, Span.limit] at this
    simpa using this

/-! ### Completion -/

/-- Completion writes the WR area and no other byte (20_memory.md R70). -/
theorem complete_read_outside {wr : Option Word} {s : State} {a : Nat}
    (h : ∀ w, wr = some w → (resultSpan w).contains a = false) : (complete wr s).mem.read a = s.mem.read a := by
  cases wr with
  | none => rfl
  | some w =>
    have : ¬(w.toNat ≤ a ∧ a < w.toNat + 16) := fun hc => by
      have := h w rfl
      simp [resultSpan, Span.contains, Span.limit, hc.1, hc.2] at this
    rw [complete_some_mem, read_writeBytes_outside]
    rw [results_bytes_length]
    omega

@[simp] theorem finish_mem (wr : Option Word) (s : State) : (finish wr s).mem = (complete wr s).mem := rfl

/-! ### Bit strings -/

@[simp] theorem bitsMSB_length (v n : Nat) : (bitsMSB v n).length = n := by
  induction n with
  | zero => rfl
  | succ n ih => simp [bitsMSB, ih]

@[simp] theorem bitsOfBytes_length (bs : List Byte) : (bitsOfBytes bs).length = 8 * bs.length := by
  induction bs with
  | nil => rfl
  | cons b bs ih => simp [bitsOfBytes, ih]; omega

theorem bitsOfBytes_append (xs ys : List Byte) : bitsOfBytes (xs ++ ys) = bitsOfBytes xs ++ bitsOfBytes ys := by
  induction xs with
  | nil => rfl
  | cons x xs ih => simp [bitsOfBytes, ih, List.append_assoc]

/-- A split gives the first `n` bits and the rest, exactly when there are `n`. -/
theorem splitBits_some_iff {n : Nat} {bs hd tl : List Bool} :
    splitBits n bs = some (hd, tl) ↔ bs = hd ++ tl ∧ hd.length = n := by
  induction n generalizing bs hd tl with
  | zero =>
    simp [splitBits]
    constructor
    · rintro ⟨rfl, rfl⟩; simp
    · rintro ⟨rfl, rfl⟩; simp
  | succ n ih =>
    cases bs with
    | nil =>
      simp [splitBits]
      rintro rfl - 
      simp
    | cons b bs =>
      simp only [splitBits]
      cases hs : splitBits n bs with
      | none =>
        simp only [reduceCtorEq, false_iff, not_and]
        intro h
        cases hd with
        | nil => simp
        | cons c hd =>
          intro hl
          simp only [List.cons_append, List.cons.injEq] at h
          have := (ih (hd := hd) (tl := tl)).mpr ⟨h.2, by simpa using hl⟩
          rw [hs] at this
          cases this
      | some p =>
        obtain ⟨hd', tl'⟩ := p
        have := ih.mp hs
        simp only [Option.some.injEq, Prod.mk.injEq]
        constructor
        · rintro ⟨rfl, rfl⟩
          simp [this]
        · rintro ⟨h, hl⟩
          cases hd with
          | nil => simp at hl
          | cons c hd =>
            simp only [List.cons_append, List.cons.injEq] at h
            have h2 := (ih (hd := hd) (tl := tl)).mpr ⟨h.2, by simpa using hl⟩
            rw [hs] at h2
            simp only [Option.some.injEq, Prod.mk.injEq] at h2
            simp [h.1, h2]

theorem splitBits_none_iff {n : Nat} {bs : List Bool} : splitBits n bs = none ↔ bs.length < n := by
  constructor
  · intro h
    by_contra hl
    have := splitBits_some_iff (n := n) (bs := bs) (hd := bs.take n) (tl := bs.drop n)
    rw [h] at this
    simp at this
    omega
  · intro h
    cases hs : splitBits n bs with
    | none => rfl
    | some p =>
      have := splitBits_some_iff.mp (hs.trans (by rfl : some p = some (p.1, p.2)))
      have hlen := congrArg List.length this.1
      simp at hlen
      omega

/-- A read of a string that begins with `n` given bits (41_bitstream.md R151). -/
theorem readBits_append (pos : Nat) (hd tl : List Bool) :
    (BitReader.mk pos (hd ++ tl)).readBits hd.length = .ok (bitsValue 0 hd, ⟨pos + hd.length, tl⟩) := by
  simp [BitReader.readBits, splitBits_some_iff.mpr ⟨rfl, rfl⟩]

/-- Everything a read can do: give the next `n` bits, or fail at its own position with nothing consumed
(41_bitstream.md R151). -/
theorem readBits_cases (r : BitReader) (n : Nat) :
    (∃ hd tl, r.rest = hd ++ tl ∧ hd.length = n ∧ r.readBits n = .ok (bitsValue 0 hd, ⟨r.pos + n, tl⟩)) ∨
    (r.rest.length < n ∧ r.readBits n = .error (truncatedInput r.pos)) := by
  unfold BitReader.readBits
  cases hs : splitBits n r.rest with
  | none => exact .inr ⟨splitBits_none_iff.mp hs, rfl⟩
  | some p =>
    obtain ⟨hd, tl⟩ := p
    have := splitBits_some_iff.mp hs
    exact .inl ⟨hd, tl, this.1, this.2, rfl⟩

/-- A string written in two parts. -/
theorem writeAll_append (w : BitSink) (xs ys : List Bool) :
    w.writeAll (xs ++ ys) = (w.writeAll xs).bind fun w' => w'.writeAll ys := by
  induction xs generalizing w with
  | nil => rfl
  | cons x xs ih =>
    simp only [List.cons_append, BitSink.writeAll]
    cases w.writeBit x with
    | error e => rfl
    | ok w' => exact ih w'

/-- Everything one written bit can do (41_bitstream.md R150). -/
theorem writeBit_cases {w w' : BitSink} {b : Bool} (h : w.writeBit b = .ok w') :
    (w.nbits + 1 ≠ 8 ∧ w' = { w with acc := 2 * w.acc + b.toNat, nbits := w.nbits + 1 }) ∨
    (w.nbits + 1 = 8 ∧ w.count < w.cap ∧ w' = { w with
      count := w.count + 1, acc := 0, nbits := 0, stored := BitVec.ofNat 8 (2 * w.acc + b.toNat) :: w.stored }) := by
  unfold BitSink.writeBit at h
  split at h
  · split at h
    · cases h; right; refine ⟨?_, ?_, rfl⟩ <;> assumption
    · cases h
  · cases h; left; exact ⟨by assumption, rfl⟩

/-! ### The sort -/

section Sorting
variable {α : Type} {le : α → α → Bool}

theorem mergeHead_perm {x : α} {k : List α → List α} {xs : List α} (hk : ∀ zs, (k zs).Perm (xs ++ zs)) (ys : List α) :
    (mergeHead le x k ys).Perm (x :: (xs ++ ys)) := by
  induction ys with
  | nil => exact (hk []).cons x
  | cons y ys ih =>
    simp only [mergeHead]
    split
    · exact (hk _).cons x
    · refine (ih.cons y).trans ?_
      refine (List.Perm.swap x y _).trans (List.Perm.cons x ?_)
      exact (List.perm_middle (l₁ := xs)).symm

theorem mergeSorted_perm (xs ys : List α) : (mergeSorted le xs ys).Perm (xs ++ ys) := by
  induction xs generalizing ys with
  | nil => exact .refl _
  | cons x xs ih => exact mergeHead_perm ih ys

theorem mergeSorted_pairwise (htot : ∀ a b, le a b = true ∨ le b a = true)
    (htrans : ∀ a b c, le a b = true → le b c = true → le a c = true) (xs ys : List α)
    (hx : xs.Pairwise fun a b => le a b = true) (hy : ys.Pairwise fun a b => le a b = true) :
    (mergeSorted le xs ys).Pairwise fun a b => le a b = true := by
  induction xs generalizing ys with
  | nil => exact hy
  | cons x xs ih =>
    rw [List.pairwise_cons] at hx
    show (mergeHead le x (mergeSorted le xs) ys).Pairwise _
    induction ys with
    | nil =>
      refine List.pairwise_cons.mpr ⟨fun z hz => hx.1 z ?_, ih [] hx.2 .nil⟩
      simpa using (mergeSorted_perm xs []).subset hz
    | cons y ys ihy =>
      have hy' := List.pairwise_cons.mp hy
      simp only [mergeHead]
      split
      · rename_i hle
        refine List.pairwise_cons.mpr ⟨fun z hz => ?_, ih _ hx.2 hy⟩
        rcases List.mem_append.mp ((mergeSorted_perm xs (y :: ys)).subset hz) with h | h
        · exact hx.1 z h
        · rcases List.mem_cons.mp h with rfl | h
          · exact hle
          · exact htrans _ _ _ hle (hy'.1 z h)
      · rename_i hle
        have hyx : le y x = true := (htot x y).resolve_left hle
        refine List.pairwise_cons.mpr ⟨fun z hz => ?_, ihy hy'.2⟩
        rcases List.mem_cons.mp ((mergeHead_perm (le := le) (mergeSorted_perm (le := le) xs) ys).subset hz) with rfl | h
        · exact hyx
        · rcases List.mem_append.mp h with h | h
          · exact htrans _ _ _ hyx (hx.1 z h)
          · exact hy'.1 z h

theorem mergePairs_perm (ls : List (List α)) : (mergePairs le ls).flatten.Perm ls.flatten := by
  induction ls using mergePairs.induct with
  | case1 a b rest ih =>
    simp only [mergePairs, List.flatten_cons, ← List.append_assoc]
    exact (mergeSorted_perm a b).append ih
  | case2 rest h =>
    unfold mergePairs
    split
    · exact absurd rfl (h _ _ _)
    · exact .refl _

theorem mergePairs_pairwise (htot : ∀ a b, le a b = true ∨ le b a = true)
    (htrans : ∀ a b c, le a b = true → le b c = true → le a c = true) (ls : List (List α))
    (h : ∀ l ∈ ls, l.Pairwise fun a b => le a b = true) :
    ∀ l ∈ mergePairs le ls, l.Pairwise fun a b => le a b = true := by
  induction ls using mergePairs.induct with
  | case1 a b rest ih =>
    intro l hl
    rcases List.mem_cons.mp hl with rfl | hl
    · exact mergeSorted_pairwise htot htrans _ _ (h _ (by simp)) (h _ (by simp))
    · exact ih (fun l hl => h l (by simp [hl])) l hl
  | case2 rest hne =>
    unfold mergePairs
    split
    · exact absurd rfl (hne _ _ _)
    · exact h

theorem mergeRounds_perm (fuel : Nat) (ls : List (List α)) : (mergeRounds le fuel ls).Perm ls.flatten := by
  induction fuel generalizing ls with
  | zero =>
    show (ls.foldr (mergeSorted le) []).Perm ls.flatten
    induction ls with
    | nil => exact .refl _
    | cons l ls ih => exact (mergeSorted_perm _ _).trans (ih.append_left l)
  | succ fuel ih =>
    match ls with
    | [] => exact .refl _
    | [l] => simp [mergeRounds]
    | l :: l' :: ls => exact (ih _).trans (mergePairs_perm _)

theorem mergeRounds_pairwise (htot : ∀ a b, le a b = true ∨ le b a = true)
    (htrans : ∀ a b c, le a b = true → le b c = true → le a c = true) (fuel : Nat) (ls : List (List α))
    (h : ∀ l ∈ ls, l.Pairwise fun a b => le a b = true) :
    (mergeRounds le fuel ls).Pairwise fun a b => le a b = true := by
  induction fuel generalizing ls with
  | zero =>
    show (ls.foldr (mergeSorted le) []).Pairwise _
    induction ls with
    | nil => exact .nil
    | cons l ls ih =>
      exact mergeSorted_pairwise htot htrans _ _ (h _ (by simp)) (ih fun l hl => h l (by simp [hl]))
  | succ fuel ih =>
    match ls with
    | [] => exact .nil
    | [l] => exact h l (by simp)
    | l :: l' :: ls => exact ih _ (mergePairs_pairwise htot htrans _ h)

/-- The sort only reorders. -/
theorem sortBy_perm (xs : List α) : (sortBy le xs).Perm xs := by
  refine (mergeRounds_perm _ _).trans ?_
  rw [show (xs.map fun x => [x]).flatten = xs by induction xs <;> simp_all]

/-- The sort's result is in order. -/
theorem sortBy_pairwise (htot : ∀ a b, le a b = true ∨ le b a = true)
    (htrans : ∀ a b c, le a b = true → le b c = true → le a c = true) (xs : List α) :
    (sortBy le xs).Pairwise fun a b => le a b = true :=
  mergeRounds_pairwise htot htrans _ _ (by simp)

end Sorting

@[simp] theorem sortedIndices_length (block : List Byte) : (sortedIndices block).length = block.length := by
  simp [sortedIndices, (sortBy_perm _).length_eq]

@[simp] theorem lastColumn_length (block : List Byte) (sa : List Nat) : (lastColumn block sa).length = sa.length := by
  simp [lastColumn]

theorem walk_length (l : Array Byte) (t : Array Nat) (n p : Nat) : (walk l t n p).length = n := by
  induction n generalizing p with
  | zero => rfl
  | succ n ih => simp [walk, ih]

@[simp] theorem bwtInverse_length (l : List Byte) (origPtr : Nat) : (bwtInverse l origPtr).length = l.length := by
  simp [bwtInverse, walk_length]

end Sys2Proof.Machine
end

