-- ==== Sys2Proof/Laws/Run.lean ====
section
/-! SUPPORT. One lemma per operation of the execution cycle and of the host's duty that says everything it can do, and the
commands' checks as the tables of Safety.lean give them. -/

namespace Sys2Proof.Machine

/-! ### The checks of every command (60_exceptions.md R320) -/

/-- The value checks of a command are the legal values of its rule (60_exceptions.md R301). -/
theorem instrPlan_values_iff (i : Instr) (s : State) : (instrPlan i s).values = true ↔ LegalValues i := by
  cases i with
  | blkEnc k src n crc wr =>
    show ((planBlkEnc k src n s).withResults wr).values = true ↔ _
    rw [withResults_values]
    simp only [planBlkEnc, multiplierOk, Bool.and_eq_true, decide_eq_true_iff, and_assoc, LegalValues]
    rfl
  | _ =>
    simp [instrPlan, LegalValues, planNone, planBwInit, planBwBits, planBwFlush, planBrInit, planBrBits, planCrc32,
      planRle1, planBwtFwd, planBwtInv, planMtfEnc, planMtfDec, planHufLen, planHufCodes, planHufEnc, planHufDec,
      planBlkDec, planStreamEnc, planStreamDec, alphaSizeOk, groupsOk, multiplierOk, Config.alphaMax, and_assoc]

/-- The ranges of a command are those of its rule (20_memory.md R64, R70, R71). -/
theorem instrPlan_ranges (i : Instr) (s : State) : (instrPlan i s).ranges = operandTable i s := by
  cases i with
  | bwtFwd src n dst sa wr => cases sa <;> cases wr <;> rfl
  | bwtInv src n origPtr dst tv wr => cases tv <;> cases wr <;> rfl
  | _ => rename_i wr; cases wr <;> rfl

/-! ### Spans -/

/-- Two spans share no byte exactly when no address lies in both (20_memory.md R64). -/
theorem disjoint_iff (x y : Span) :
    x.disjoint y = true ↔ ∀ a, ¬((x.addr ≤ a ∧ a < x.addr + x.len) ∧ (y.addr ≤ a ∧ a < y.addr + y.len)) := by
  simp only [Span.disjoint, Span.limit, Bool.or_eq_true, beq_iff_eq, decide_eq_true_eq]
  constructor
  · intro h a ha
    omega
  · intro h
    by_contra hc
    exact h (max x.addr y.addr) (by omega)

/-- A span shares no byte with any of a list exactly when none of its addresses lies in one. -/
theorem all_disjoint_iff (sps : List Span) (x : Span) :
    sps.all x.disjoint = true ↔ ∀ a, x.addr ≤ a → a < x.addr + x.len → ¬ touches sps a := by
  simp only [List.all_eq_true, disjoint_iff, touches]
  constructor
  · rintro h a h1 h2 ⟨sp, hsp, h3⟩
    exact h sp hsp a ⟨⟨h1, h2⟩, h3⟩
  · rintro h sp hsp a ⟨h1, h2⟩
    exact h a h1.1 h1.2 ⟨sp, hsp, h2⟩

theorem touches_append (xs ys : List Span) (a : Nat) : touches (xs ++ ys) a ↔ touches xs a ∨ touches ys a := by
  simp only [touches, List.mem_append]
  constructor
  · rintro ⟨sp, h | h, ha⟩
    · exact .inl ⟨sp, h, ha⟩
    · exact .inr ⟨sp, h, ha⟩
  · rintro (⟨sp, h, ha⟩ | ⟨sp, h, ha⟩)
    · exact ⟨sp, .inl h, ha⟩
    · exact ⟨sp, .inr h, ha⟩

theorem touches_addSpans (new old : List Span) (a : Nat) :
    touches (addSpans new old) a ↔ touches old a ∨ touches new a := by
  rw [addSpans, touches_append]
  constructor
  · rintro (⟨sp, h, ha⟩ | h)
    · exact .inr ⟨sp, (List.mem_filter.mp h).1, ha⟩
    · exact .inl h
  · rintro (h | ⟨sp, h, ha⟩)
    · exact .inr h
    · by_cases hold : sp ∈ old
      · exact .inr ⟨sp, hold, ha⟩
      · exact .inl ⟨sp, List.mem_filter.mpr ⟨h, by simpa using hold⟩, ha⟩

@[simp] theorem not_touches_nil (a : Nat) : ¬ touches [] a := by
  simp [touches]

/-! ### The execution cycle and the duty (60_exceptions.md R310, 20_memory.md R77) -/

/-- The ranges of the command at DP that a fetch in order gives. -/
theorem commandRanges_of_fetch {s : State} {i : Instr} (h : fetchCommand s = .ok i) :
    commandRanges s = if (instrPlan i s).check s.platform = none then ⟨readSpans i s ++ writeSpans i s, writeSpans i s⟩
      else ⟨[], []⟩ := by
  simp only [commandRanges, h]
  cases (instrPlan i s).check s.platform <;> simp

theorem commandRanges_of_error {s : State} {e : EngineError} (h : fetchCommand s = .error e) :
    commandRanges s = ⟨[], []⟩ := by
  simp [commandRanges, h]

/-- The bytes the next command writes. -/
theorem touches_writes_iff (s : State) (a : Nat) : touches (commandFootprint s).writes a ↔ WritesByte s a := by
  cases h : fetchCommand s with
  | error e => simp [commandFootprint, commandRanges_of_error h, WritesByte, h]
  | ok i =>
    simp only [commandFootprint, commandRanges_of_fetch h, WritesByte, h, Except.ok.injEq, exists_eq_left']
    split <;> simp [*]

/-- The bytes the next command uses. -/
theorem touches_uses_iff (s : State) (a : Nat) : touches (commandFootprint s).uses a ↔ UsesByte s a := by
  have hd : touches (commandFootprint s).uses a ↔
      (s.dp.toNat ≤ a ∧ a < s.dp.toNat + 32) ∨ touches (commandRanges s).uses a := by
    rw [show (commandFootprint s).uses = [descriptorSpan s] ++ (commandRanges s).uses from rfl, touches_append]
    simp [touches, descriptorSpan, Config.descSize]
  rw [hd, UsesByte]
  cases h : fetchCommand s with
  | error e => simp [commandRanges_of_error h]
  | ok i =>
    simp only [commandRanges_of_fetch h, Except.ok.injEq, exists_eq_left']
    split <;> simp [*]

/-- A command always answers a next state (60_exceptions.md R310, R321). -/
theorem exec_next (i : Instr) (s : State) : ∃ t, exec i s = .next t := by
  have hg : ∀ (p : Plan) (wr : Option Word) (body : State → State), ∃ t, guarded p wr body s = .next t := by
    intro p wr body
    unfold guarded
    split <;> exact ⟨_, rfl⟩
  cases i <;> simp only [exec, execNop, execEndRun, execJump, execBwInit, execBwBits, execBwFlush, execBrInit, execBrBits,
    execCrc32, execCrcCombine, execRle1Enc, execRle1Dec, execBwtFwd, execBwtInv, execMtfEnc, execMtfDec, execHufLen,
    execHufCodes, execHufEnc, execHufDec, execBlkEnc, execBlkDec, execStreamEnc, execStreamDec] <;> exact hg _ _ _

/-- Everything an engine step can do: nothing while idle, the error stop of a failing fetch, the command. -/
theorem engineStep_cases (s : State) :
    (s.busy = false ∧ engineStep s = .next s) ∨
    (s.busy = true ∧ ∃ e, fetchCommand s = .error e ∧ engineStep s = .next (errorStop e s)) ∨
    (s.busy = true ∧ ∃ i, fetchCommand s = .ok i ∧ engineStep s = exec i (noteCommand s)) := by
  unfold engineStep
  cases hb : s.busy with
  | false => simp
  | true => cases hf : fetchCommand s <;> simp

/-- The engine always has a step. -/
theorem engineStep_next (s : State) : ∃ t, engineStep s = .next t := by
  rcases engineStep_cases s with ⟨-, h⟩ | ⟨-, e, -, h⟩ | ⟨-, i, -, h⟩
  · exact ⟨_, h⟩
  · exact ⟨_, h⟩
  · rw [h]; exact exec_next i _

/-- The log after a command's ranges are added. -/
theorem noteCommand_noted {s : State} {i : Instr} (h : fetchCommand s = .ok i) : Noted s i (noteCommand s).runLog := by
  refine ⟨fun a => ?_, fun a => ?_⟩ <;>
    simp only [noteCommand, touches_addSpans, commandRanges_of_fetch h] <;> split <;> simp [*]

/-- Everything a host memory access can do. -/
theorem hostAccess_cases (sp : Span) (keepsDuty : Bool) (s' s : State) :
    (sp.wraps = false ∧ sp.disjoint s.platform.window = true ∧ keepsDuty = true ∧
      hostAccess sp keepsDuty s' s = .next s') ∨
    (sp.wraps = true ∧ hostAccess sp keepsDuty s' s = .fault (.noSuchAddress sp.addr sp.len)) ∨
    (sp.disjoint s.platform.window = false ∧
      hostAccess sp keepsDuty s' s = .refused (.hostAccessOther sp.addr sp.len)) ∨
    (keepsDuty = false ∧ hostAccess sp keepsDuty s' s = .refused (.hostDuty sp.addr sp.len)) := by
  unfold hostAccess
  cases sp.wraps <;> cases sp.disjoint s.platform.window <;> cases keepsDuty <;> simp

/-! ### The register window (10_state.md R20) -/

/-- A register reads as the table says. -/
theorem registerValue_of_table {s : State} {o : BitVec 12} {v : Word} (h : (o, v) ∈ registerTable s) :
    registerValue s o.toNat = v := by
  simp only [registerTable, List.cons_append, List.nil_append, List.mem_cons, List.not_mem_nil, or_false,
    Prod.mk.injEq] at h
  rcases h with h | h | h | h | h | h | h | h | h | h | h | h | h | h | h | h | h | h | h | h | h | h <;>
    obtain ⟨rfl, rfl⟩ := h <;>
    first
    | rfl
    | (simp only [registerValue, ctrlWord]; cases s.ie <;> rfl)
    | (show statusWord s = _
       simp only [statusWord, irqLevel]
       cases s.ie <;> cases s.busy <;> cases s.done <;> cases s.err <;> rfl)

end Sys2Proof.Machine
end

