-- ==== Sys2Proof/Laws/Keeps.lean ====
section
/-! SUPPORT. What each command puts out fits the range it is written to, and so a command keeps memory canonical and inside
the address space. -/

namespace Sys2Proof.Machine

/-! ### What commands put out fits its range -/

/-- Everything a written string can do: the stored bytes and the count grow together, within the capacity. -/
theorem writeAll_bounds {w w' : BitSink} {bs : List Bool} (h : w.writeAll bs = .ok w') :
    w'.cap = w.cap ∧ w.count ≤ w'.count ∧ w'.stored.length + w.count = w.stored.length + w'.count ∧
    (w'.count = w.count ∨ w'.count ≤ w.cap) := by
  induction bs generalizing w with
  | nil => cases h; simp
  | cons b bs ih =>
    simp only [BitSink.writeAll] at h
    split at h
    · rename_i w₁ hw
      obtain ⟨h1, h2, h3, h4⟩ := ih h
      rcases writeBit_cases hw with ⟨-, rfl⟩ | ⟨-, hlt, rfl⟩
      · exact ⟨h1, h2, h3, h4⟩
      · simp only [List.length_cons] at h1 h2 h3 h4
        refine ⟨h1, by omega, by omega, ?_⟩
        rcases h4 with h4 | h4
        · right; omega
        · right; exact h4
    · cases h

theorem flush_bounds {w w' : BitSink} (h : w.flush = .ok w') :
    w'.cap = w.cap ∧ w.count ≤ w'.count ∧ w'.stored.length + w.count = w.stored.length + w'.count ∧
    (w'.count = w.count ∨ w'.count ≤ w.cap) := writeAll_bounds h

theorem packStream_length {cap : Nat} {bits : List Bool} {out : List Byte} (h : packStream cap bits = .ok out) :
    out.length ≤ cap := by
  unfold packStream at h
  split at h
  · cases h
  · rename_i w hw
    split at h
    · cases h
    · rename_i w' hw'
      cases h
      obtain ⟨h1, h2, h3, h4⟩ := writeAll_bounds hw
      obtain ⟨h5, h6, h7, h8⟩ := flush_bounds hw'
      simp only [List.length_nil, List.length_reverse] at *
      omega

theorem positionsOf_length_sum (l : List Byte) (i : Nat) :
    (allBytes.flatMap fun c => positionsOf c i l).length = l.length := by
  induction l generalizing i with
  | nil => simp [positionsOf, List.flatMap]
  | cons x xs ih =>
    have hcons : ∀ cs : List Byte, (cs.flatMap fun c => positionsOf c i (x :: xs)).length =
        cs.count x + (cs.flatMap fun c => positionsOf c (i + 1) xs).length := by
      intro cs
      induction cs with
      | nil => rfl
      | cons c cs ihc =>
        have hc : (positionsOf c i (x :: xs)).length = (if c = x then 1 else 0) + (positionsOf c (i + 1) xs).length := by
          by_cases h : c = x
          · subst h; simp [positionsOf]; omega
          · simp [positionsOf, h, show ¬ x = c from fun h' => h h'.symm]
        rw [List.flatMap_cons, List.flatMap_cons, List.length_append, List.length_append, ihc, hc, List.count_cons]
        simp only [beq_iff_eq]
        omega
    have hone : ∀ x : Byte, allBytes.count x = 1 := by decide +kernel
    rw [hcons, ih, List.length_cons, hone]
    omega

@[simp] theorem nextVector_length (l : List Byte) : (nextVector l).length = l.length := positionsOf_length_sum l 0

/-- The decoder's output stays within the limit, a pending run counted (45_mtf_rle2.md R214). -/
def MtfState.Within (lim : Nat) (d : MtfState) : Prop := d.out.length = d.outLen ∧ d.outLen + d.es ≤ lim

theorem mtfStep_within {eob lim : Nat} {le : EngineError} {d d' : MtfState} {sym : Nat} (hd : d.Within lim)
    (h : mtfStep eob lim le d sym = .ok d') : d'.Within lim := by
  obtain ⟨h1, h2⟩ := hd
  unfold mtfStep at h
  split at h
  · cases h
  split at h
  · dsimp only at h
    split at h
    · cases h
      exact ⟨h1, by assumption⟩
    · cases h
  · have hf : d.flushRun.out.length = d.flushRun.outLen ∧ d.flushRun.outLen + d.flushRun.es ≤ lim := by
      simp [MtfState.flushRun, h1]; omega
    dsimp only at h
    split at h
    · cases h; exact hf
    · split at h
      · cases h
      · split at h
        · cases h
          refine ⟨?_, ?_⟩
          · simp [hf.1]
          · have hes : d.flushRun.es = 0 := rfl
            simp only [hes]
            assumption
        · cases h

theorem mtfDecFrom_within {eob lim : Nat} {le : EngineError} {k k' : Nat} {d d' : MtfState} {syms : List Nat}
    (hd : d.Within lim) (h : mtfDecFrom eob lim le k d syms = .ok (d', k')) : d'.Within lim := by
  induction syms generalizing k d with
  | nil => cases h
  | cons sym syms ih =>
    simp only [mtfDecFrom] at h
    split at h
    · cases h
    · rename_i d₁ hs
      have := mtfStep_within hd hs
      split at h
      · cases h; exact this
      · exact ih this h

theorem mtfDec_length {syms : List Nat} {used out : List Byte} {lim k : Nat} {le : EngineError}
    (h : mtfDec syms used lim le = .ok (out, k)) : out.length ≤ lim := by
  unfold mtfDec at h
  split at h
  · cases h
  · rename_i d k hd
    cases h
    have := mtfDecFrom_within (lim := lim) ⟨rfl, Nat.zero_le _⟩ hd
    rw [List.length_reverse, this.1]
    have := this.2
    omega

theorem mtfDecode_length {syms : List Nat} {map out : List Byte} {cap k : Nat} (h : mtfDecode syms map cap = .ok (out, k)) :
    out.length ≤ cap := by
  unfold mtfDecode at h
  split at h
  · cases h
  · exact mtfDec_length h

theorem hufDepths_length_le (w : List Nat) : (hufDepths w).length ≤ w.length := by
  unfold hufDepths
  split <;> simp

theorem hufLen_length_le (f : List Nat) : (hufLen f).1.length ≤ f.length := by
  have hloop : ∀ (fuel rounds : Nat) (w : List Nat), (hufLenLoop fuel rounds w).1.length ≤ w.length := by
    intro fuel
    induction fuel with
    | zero => intro rounds w; exact hufDepths_length_le w
    | succ fuel ih =>
      intro rounds w
      simp only [hufLenLoop]
      split
      · exact hufDepths_length_le w
      · exact (ih _ _).trans (by simp)
  exact (hloop _ _ _).trans (by simp)

@[simp] theorem hufCodes_length (lens : List Nat) : (hufCodes lens).length = lens.length := by simp [hufCodes]

/-- What a consumer keeps, decoding keeps (46_huffman.md R236). -/
theorem hufGroup_keeps {σ : Type} {emit : σ → Nat → Except EngineError σ} {P : σ → Prop}
    (hemit : ∀ st x st', P st → emit st x = .ok st' → P st') {eob : Nat} {t : CodeTable} {n : Nat} {st st' : σ}
    {r r' : BitReader} {b : Bool} (hp : P st) (h : hufGroup emit eob t n st r = .ok (b, st', r')) : P st' := by
  induction n generalizing st r with
  | zero => cases h; exact hp
  | succ n ih =>
    simp only [hufGroup] at h
    split at h
    · cases h
    · split at h
      · cases h
      · rename_i st₁ he
        have := hemit _ _ _ hp he
        split at h
        · cases h; exact this
        · exact ih this h

theorem hufDec_keeps {σ : Type} {emit : σ → Nat → Except EngineError σ} {P : σ → Prop}
    (hemit : ∀ st x st', P st → emit st x = .ok st' → P st') {eob : Nat} {tables : List CodeTable} {sel : List Nat}
    {st st' : σ} {r r' : BitReader} (hp : P st) (h : hufDec emit eob tables sel st r = .ok (st', r')) : P st' := by
  induction sel generalizing st r with
  | nil => cases h
  | cons t sel ih =>
    simp only [hufDec] at h
    split at h
    · cases h
    · rename_i hg
      cases h
      exact hufGroup_keeps hemit hp hg
    · rename_i hg
      exact ih (hufGroup_keeps hemit hp hg) h

theorem hufDecode_length {g cap eob : Nat} {lens : List (List Nat)} {sel symbols : List Nat} {r r' : BitReader}
    (h : hufDecode g cap eob lens sel r = .ok (symbols, r')) : symbols.length ≤ cap := by
  unfold hufDecode at h
  split at h
  · cases h
  split at h
  · cases h
  split at h
  · cases h
  rename_i st r₁ hd
  cases h
  have := hufDec_keeps (P := fun st : List Nat × Nat => st.1.length = st.2 ∧ st.2 ≤ cap) (by
    rintro ⟨xs, n⟩ x ⟨xs', n'⟩ ⟨h1, h2⟩ he
    simp only [storeSymbol] at he
    split at he
    · cases he
      exact ⟨by simpa using h1, by simpa using by omega⟩
    · cases he) ⟨rfl, Nat.zero_le _⟩ hd
  rw [List.length_reverse, this.1]
  exact this.2

theorem require_ok {ok : Bool} {e : EngineError} {u : Unit} (h : require ok e = .ok u) : ok = true := by
  unfold require at h
  split at h
  · assumption
  · cases h

theorem bind_ok {α β : Type} {x : Except EngineError α} {f : α → Except EngineError β} {y : β}
    (h : (x >>= f) = .ok y) : ∃ a, x = .ok a ∧ f a = .ok y := by
  cases x with
  | error e => cases h
  | ok a => exact ⟨a, rfl, h⟩

theorem readBlock_length {r r' : BitReader} {k cap crc origPtr : Nat} {bytes : List Byte}
    (h : readBlock r k cap = .ok (.block bytes crc origPtr, r')) : bytes.length ≤ cap := by
  unfold readBlock at h
  obtain ⟨⟨m, r₁⟩, -, h⟩ := bind_ok h
  dsimp only at h
  split at h
  · obtain ⟨⟨c, r₂⟩, -, h⟩ := bind_ok h
    cases h
  · obtain ⟨_, -, h⟩ := bind_ok h
    unfold readBlockBody at h
    obtain ⟨⟨x1, r1⟩, -, h⟩ := bind_ok h
    obtain ⟨⟨x2, r2⟩, -, h⟩ := bind_ok h
    obtain ⟨_, -, h⟩ := bind_ok h
    obtain ⟨⟨x3, r3⟩, -, h⟩ := bind_ok h
    obtain ⟨⟨x4, r4⟩, -, h⟩ := bind_ok h
    obtain ⟨_, -, h⟩ := bind_ok h
    obtain ⟨⟨x5, r5⟩, -, h⟩ := bind_ok h
    obtain ⟨_, -, h⟩ := bind_ok h
    obtain ⟨⟨x6, r6⟩, -, h⟩ := bind_ok h
    obtain ⟨_, -, h⟩ := bind_ok h
    obtain ⟨⟨x7, r7⟩, -, h⟩ := bind_ok h
    obtain ⟨⟨x8, r8⟩, -, h⟩ := bind_ok h
    obtain ⟨⟨x9, r9⟩, -, h⟩ := bind_ok h
    obtain ⟨_, -, h⟩ := bind_ok h
    obtain ⟨_, hl, h⟩ := bind_ok h
    have := require_ok hl
    cases h
    simpa using this

theorem decodeBlocks_length {k cap : Nat} (fuel : Nat) {o o' : StreamOut} {r : BitReader} {pos : Nat}
    (ho : o.raw.length ≤ cap) (h : decodeBlocks k cap fuel o r = .finished o' pos) : o'.raw.length ≤ cap := by
  induction fuel generalizing o r with
  | zero => cases h
  | succ fuel ih =>
    simp only [decodeBlocks] at h
    split at h
    · cases h
    · split at h
      · cases h; exact ho
      · cases h
    · split at h
      · cases h
      · split at h
        · rename_i hl
          split at h
          · exact ih (by simpa using hl) h
          · cases h
        · cases h

theorem decodeStream_length {bytes : List Byte} {cap : Nat} {o : StreamOut} {pos : Nat}
    (h : decodeStream bytes cap = .finished o pos) : o.raw.length ≤ cap := by
  simp only [decodeStream] at h
  split at h
  · cases h
  · exact decodeBlocks_length _ (Nat.zero_le _) h

/-! ### A command keeps memory canonical and inside the address space -/

/-- Memory is canonical and inside the address space (20_memory.md R60). -/
def MemInOrder (s : State) : Prop := s.mem.wf = true ∧ s.mem.inSpace = true

/-- Memory is in order on the platform `p`. -/
def InOrderOn (p : Platform) (s : State) : Prop := MemInOrder s ∧ s.platform = p

section InOrder
variable {p : Platform} {s : State}

theorem InOrderOn.store (h : InOrderOn p s) {a len : Nat} {bs : List Byte} (hw : (Span.mk a len).wraps = false)
    (hl : bs.length ≤ len) : InOrderOn p (storeBytes a bs s) := by
  refine ⟨⟨writeBytes_wf h.1.1 _ _, writeBytes_inSpace h.1.2 (.inr ?_)⟩, h.2⟩
  simp only [Span.wraps, Span.limit, decide_eq_false_iff_not] at hw
  omega

theorem InOrderOn.results (h : InOrderOn p s) (a b c d : Nat) : InOrderOn p (setResults a b c d s) := h

theorem InOrderOn.readerPos (h : InOrderOn p s) (pos : Nat) : InOrderOn p (putReaderPos pos s) := h

theorem InOrderOn.sink (h : InOrderOn p s) {w : BitSink} (hw : s.bw.freeSpan.wraps = false)
    (hb : w.stored.length + s.bw.count.toNat = w.count ∧ (w.count = s.bw.count.toNat ∨ w.count ≤ s.bw.cap.toNat)) :
    InOrderOn p (putSink w s) := by
  refine ⟨⟨writeBytes_wf h.1.1 _ _, writeBytes_inSpace h.1.2 ?_⟩, h.2⟩
  have hspan : ¬ addressCount < s.bw.base.toNat + s.bw.count.toNat + (s.bw.cap.toNat - s.bw.count.toNat) :=
    of_decide_eq_false hw
  rcases hb.2 with hc | hc
  · left
    rw [List.reverse_eq_nil_iff]
    exact List.eq_nil_of_length_eq_zero (by omega)
  · right
    rw [List.length_reverse]
    simp only [addressCount] at hspan ⊢
    omega

theorem InOrderOn.complete (h : InOrderOn p s) {wr : Option Word} (hw : ∀ a, wr = some a → (resultSpan a).wraps = false) :
    InOrderOn p (complete wr s) := by
  cases wr with
  | none => exact h
  | some a => exact h.store (bs := s.results.bytes) (hw a rfl) (by simp)

theorem InOrderOn.finish (h : InOrderOn p s) {wr : Option Word} (hw : ∀ a, wr = some a → (resultSpan a).wraps = false) :
    InOrderOn p (finish wr s) := h.complete hw

theorem InOrderOn.words (h : InOrderOn p s) {a : Option Word} {vs : List Nat}
    (hw : ∀ x, a = some x → (Span.mk x.toNat (4 * vs.length)).wraps = false) : InOrderOn p (storeWords a vs s) := by
  cases a with
  | none => exact h
  | some a => exact h.store (hw a rfl) (by simp)

end InOrder

/-- Every range of a command whose checks hold, its WR area included, lies inside the address space. -/
theorem ranges_in_space {pl : Plan} {wr : Option Word} {platform : Platform}
    (h : (pl.withResults wr).check platform = none) :
    (∀ r ∈ pl.ranges, r.span.wraps = false) ∧ ∀ a, wr = some a → (resultSpan a).wraps = false := by
  have := (check_none_iff.mp h).2.1
  rw [withResults_ranges] at this
  refine ⟨fun r hr => this r (by simp [hr]), fun a ha => ?_⟩
  exact this ⟨.write, resultSpan a, 7⟩ (by simp [ha])

/-- A guarded command that goes on keeps memory in order when its body does. -/
theorem guarded_inOrder {pl : Plan} {wr : Option Word} {body : State → State} {s t : State} {p : Platform}
    (h : guarded pl wr body s = .next t) (hb : t.busy = true)
    (hbody : (∀ r ∈ pl.ranges, r.span.wraps = false) → (∀ a, wr = some a → (resultSpan a).wraps = false) →
      (body s).busy = true → InOrderOn p (body s)) : InOrderOn p t := by
  rcases guarded_cases h with ⟨e, -, rfl⟩ | ⟨hc, rfl⟩
  · cases hb
  · exact hbody (ranges_in_space hc).1 (ranges_in_space hc).2 hb

theorem finishBytes_inOrder {dst cap : Word} {out : List Byte} {wr : Option Word} {s : State} {p : Platform}
    (h : InOrderOn p s) (hd : (Span.mk dst.toNat cap.toNat).wraps = false)
    (hw : ∀ a, wr = some a → (resultSpan a).wraps = false) :
    (finishBytes dst cap out wr s).busy = true → InOrderOn p (finishBytes dst cap out wr s) := by
  unfold finishBytes
  split
  · exact fun _ => ((h.store hd (by assumption)).results _ _ _ _).finish hw
  · intro hb; simp at hb

theorem sink_bounds {s : State} {bs : List Bool} {w : BitSink} (h : s.bw.sink.writeAll bs = .ok w) :
    w.stored.length + s.bw.count.toNat = w.count ∧ (w.count = s.bw.count.toNat ∨ w.count ≤ s.bw.cap.toNat) := by
  obtain ⟨-, -, h3, h4⟩ := writeAll_bounds h
  simp only [WriterRegs.sink, List.length_nil, Nat.zero_add] at h3 h4
  exact ⟨h3, h4⟩

/-- A command after which the run goes on keeps memory canonical and inside the address space, and the platform. -/
theorem exec_inOrder {i : Instr} {s t : State} {p : Platform} (hs : InOrderOn p s) (h : exec i s = .next t)
    (hb : t.busy = true) : InOrderOn p t := by
  cases i <;> simp only [exec] at h
  case nop wr => exact guarded_inOrder h hb fun _ hw _ => hs.finish hw
  case endRun wr => exact guarded_inOrder h hb fun _ _ hc => by cases hc
  case jump target wr => exact guarded_inOrder h hb fun _ hw _ => hs.complete hw
  case bwInit base cap wr =>
    exact guarded_inOrder h hb fun _ hw _ => InOrderOn.finish (s := { s with bw := ⟨base, cap, 0, 0, 0⟩ }) hs hw
  case bwBits n value wr =>
    refine guarded_inOrder h hb fun hr hw => ?_
    try dsimp only
    split
    · rename_i w hwr
      exact fun _ => (hs.sink (hr (appendRange s) (by simp [planBwBits])) (sink_bounds hwr)).finish hw
    · intro hc; simp at hc
  case bwFlush wr =>
    refine guarded_inOrder h hb fun hr hw => ?_
    try dsimp only
    split
    · rename_i w hwr
      exact fun _ => ((hs.sink (hr (appendRange s) (by simp [planBwFlush])) (sink_bounds hwr)).results _ _ _ _).finish hw
    · intro hc; simp at hc
  case brInit base len wr =>
    exact guarded_inOrder h hb fun _ hw _ => InOrderOn.finish (s := { s with br := ⟨base, len, 0⟩ }) hs hw
  case brBits n wr =>
    refine guarded_inOrder h hb fun _ hw => ?_
    try dsimp only
    split
    · exact fun _ => ((hs.readerPos _).results _ _ _ _).finish hw
    · intro hc; cases hc
  case crc32 cont src len wr => exact guarded_inOrder h hb fun _ hw _ => (hs.results _ _ _ _).finish hw
  case crcCombine c b wr => exact guarded_inOrder h hb fun _ hw _ => (hs.results _ _ _ _).finish hw
  case rle1Enc src len dst cap wr =>
    exact guarded_inOrder h hb fun hr hw hc =>
      finishBytes_inOrder hs (hr (writeRange 3 dst cap.toNat) (by simp [planRle1])) hw hc
  case rle1Dec src len dst cap wr =>
    refine guarded_inOrder h hb fun hr hw => ?_
    try dsimp only
    split
    · exact finishBytes_inOrder hs (hr (writeRange 3 dst cap.toNat) (by simp [planRle1])) hw
    · intro hc; simp at hc
  case bwtFwd src n dst sa wr =>
    refine guarded_inOrder h hb fun hr hw _ => (InOrderOn.results (InOrderOn.words (hs.store
      (hr (writeRange 3 dst n.toNat) (by simp [planBwtFwd])) (by simp)) fun x hx => ?_) _ _ _ _).finish hw
    refine (by simpa using hr (writeRange 4 x (4 * n.toNat)) (by simp [planBwtFwd, optionalArray, hx]))
  case bwtInv src n origPtr dst tv wr =>
    refine guarded_inOrder h hb fun hr hw => ?_
    try dsimp only
    split
    · refine fun _ => (InOrderOn.results (InOrderOn.words (hs.store
        (hr (writeRange 4 dst n.toNat) (by simp [planBwtInv])) (by simp)) fun x hx => ?_) _ _ _ _).finish hw
      refine (by simpa using hr (writeRange 5 x (4 * n.toNat)) (by simp [planBwtInv, optionalArray, hx]))
    · intro hc; cases hc
  case mtfEnc src n dst cap map wr =>
    refine guarded_inOrder h hb fun hr hw => ?_
    try dsimp only
    split
    · rename_i hl
      exact fun _ => (((hs.store (hr (writeRange 3 dst (2 * cap.toNat)) (by simp [planMtfEnc])) (by simpa using hl)).store
        (hr (writeRange 5 map 32) (by simp [planMtfEnc])) (by simp [usedMap])).results _ _ _ _).finish hw
    · intro hc; simp at hc
  case mtfDec src count map dst cap wr =>
    refine guarded_inOrder h hb fun hr hw => ?_
    try dsimp only
    split
    · rename_i hd
      exact fun _ => ((hs.store (hr (writeRange 4 dst cap.toNat) (by simp [planMtfDec])) (mtfDecode_length hd)).results _ _ _ _).finish hw
    · intro hc; simp at hc
  case hufLen freq a dst wr =>
    refine guarded_inOrder h hb fun hr hw _ =>
      ((hs.store (hr (writeRange 3 dst a.toNat) (by simp [planHufLen])) ?_).results _ _ _ _).finish hw
    rw [arrayBytes_length, Nat.one_mul]
    exact (hufLen_length_le _).trans (by simp [Memory.readArray])
  case hufCodes lengths a dst wr =>
    refine guarded_inOrder h hb fun hr hw => ?_
    try dsimp only
    split
    · exact fun _ => ((hs.store (hr (writeRange 3 dst (4 * a.toNat)) (by simp [planHufCodes]))
        (by simp [Memory.readArray])).results _ _ _ _).finish hw
    · intro hc; simp at hc
  case hufEnc g syms count tables selectors a wr =>
    refine guarded_inOrder h hb fun hr hw => ?_
    try dsimp only
    split
    · intro hc; cases hc
    · split
      · rename_i w hwr
        exact fun _ => ((hs.sink (hr (appendRange s) (by simp [planHufEnc])) (sink_bounds hwr)).results _ _ _ _).finish hw
      · intro hc; simp at hc
  case hufDec g dst cap tables selectors a nSel wr =>
    refine guarded_inOrder h hb fun hr hw => ?_
    try dsimp only
    split
    · rename_i hd
      exact fun _ => (((hs.store (hr (writeRange 1 dst (2 * cap.toNat)) (by simp [planHufDec]))
        (by simpa using hufDecode_length hd)).readerPos _).results _ _ _ _).finish hw
    · intro hc; simp at hc
  case blkEnc k src n crc wr =>
    refine guarded_inOrder h hb fun hr hw => ?_
    try dsimp only
    split
    · rename_i w hwr
      exact fun _ => ((hs.sink (hr (appendRange s) (by simp [planBlkEnc])) (sink_bounds hwr)).results _ _ _ _).finish hw
    · intro hc; simp at hc
  case blkDec k dst cap wr =>
    refine guarded_inOrder h hb fun hr hw => ?_
    try dsimp only
    split
    · exact fun _ => ((hs.readerPos _).results _ _ _ _).finish hw
    · rename_i hd
      exact fun _ => (((hs.store (hr (writeRange 1 dst cap.toNat) (by simp [planBlkDec])) (readBlock_length hd)).readerPos
        _).results _ _ _ _).finish hw
    · intro hc; simp at hc
  case streamEnc k src len dst cap wr =>
    refine guarded_inOrder h hb fun hr hw => ?_
    try dsimp only
    split
    · rename_i hd
      exact fun _ => ((hs.store (hr (writeRange 3 dst cap.toNat) (by simp [planStreamEnc])) (packStream_length hd)).results
        _ _ _ _).finish hw
    · intro hc; simp at hc
  case streamDec src len dst cap wr =>
    refine guarded_inOrder h hb fun hr hw => ?_
    try dsimp only
    split
    · rename_i hd
      exact fun _ => InOrderOn.finish ((hs.store (hr (writeRange 3 dst cap.toNat) (by simp [planStreamDec]))
        (decodeStream_length hd)).results _ _ _ _) hw
    · split
      · intro hc; simp [failChecksum] at hc
      · intro hc; simp [failStream] at hc

end Sys2Proof.Machine
end

