-- ==== Sys2Proof/Laws/Ahead.lean ====
section
/-! SUPPORT. The look-ahead of the host's duty is exact: it finds the bytes of every command the run comes to. What decides
how a run goes on is `runCore`; a run has finitely many cores, so one that does not end comes back to one it had; the phases
of `followPhases` are long enough to see that. -/

namespace Sys2Proof.Machine

/-! ### What a run depends on -/

/-- Two states agree in what decides how a run goes on exactly when they agree in these fields. -/
theorem runCore_eq_iff (s t : State) : runCore s = runCore t ↔
    s.ie = t.ie ∧ s.busy = t.busy ∧ s.done = t.done ∧ s.err = t.err ∧ s.dlist = t.dlist ∧ s.dp = t.dp ∧
    s.errcode = t.errcode ∧ s.errinfo = t.errinfo ∧ s.errpos = t.errpos ∧ s.results = t.results ∧ s.bw = t.bw ∧
    s.br = t.br ∧ s.mem = t.mem ∧ s.platform = t.platform := by
  simp [runCore]

/-- Two outcomes go on alike: both have ended the run, or both are in it with the same core. -/
def GoOnAlike (t t' : State) : Prop := (t.busy = false ∧ t'.busy = false) ∨ runCore t = runCore t'

section Alike
variable {s s' : State} (h : runCore s = runCore s')
include h

theorem storeBytes_core (a : Nat) (bs : List Byte) : runCore (storeBytes a bs s) = runCore (storeBytes a bs s') := by
  simp only [runCore_eq_iff] at h ⊢; simp_all

theorem setResults_core (a b c d : Nat) : runCore (setResults a b c d s) = runCore (setResults a b c d s') := by
  simp only [runCore_eq_iff] at h ⊢; simp_all

theorem finish_core (wr : Option Word) : runCore (finish wr s) = runCore (finish wr s') := by
  simp only [runCore_eq_iff] at h ⊢; cases wr <;> simp_all

theorem jump_core (target : Word) (wr : Option Word) :
    runCore (jumpTo target (complete wr s)) = runCore (jumpTo target (complete wr s')) := by
  simp only [runCore_eq_iff] at h ⊢; cases wr <;> simp_all

theorem storeWords_core (a : Option Word) (vs : List Nat) : runCore (storeWords a vs s) = runCore (storeWords a vs s') := by
  cases a with
  | none => exact h
  | some a => exact storeBytes_core h _ _

theorem putSink_core (w : BitSink) : runCore (putSink w s) = runCore (putSink w s') := by
  simp only [runCore_eq_iff] at h ⊢; simp_all [putSink]

theorem putReaderPos_core (pos : Nat) : runCore (putReaderPos pos s) = runCore (putReaderPos pos s') := by
  simp only [runCore_eq_iff] at h ⊢; simp_all [putReaderPos]

theorem setStreamResults_core (o : StreamOut) (pos : Nat) :
    runCore (setStreamResults o pos s) = runCore (setStreamResults o pos s') := setResults_core h _ _ _ _

theorem finishBytes_alike (dst cap : Word) (out : List Byte) (wr : Option Word) :
    GoOnAlike (finishBytes dst cap out wr s) (finishBytes dst cap out wr s') := by
  unfold finishBytes
  split
  · exact .inr (finish_core (setResults_core (storeBytes_core h _ _) _ _ _ _) _)
  · exact .inl ⟨failSpans_busy .., failSpans_busy ..⟩

theorem guarded_alike (p : Plan) (wr : Option Word) {body body' : State → State}
    (hb : GoOnAlike (body s) (body' s')) :
    ∃ t t', guarded p wr body s = .next t ∧ guarded p wr body' s' = .next t' ∧ GoOnAlike t t' := by
  have hp : s.platform = s'.platform := ((runCore_eq_iff s s').mp h).2.2.2.2.2.2.2.2.2.2.2.2.2
  unfold guarded
  rw [← hp]
  split
  · exact ⟨_, _, rfl, rfl, .inl ⟨rfl, rfl⟩⟩
  · exact ⟨_, _, rfl, rfl, hb⟩

end Alike

/-- A command in two states with the same core goes on alike. -/
theorem exec_alike (i : Instr) {s s' : State} (h : runCore s = runCore s') :
    ∃ t t', exec i s = .next t ∧ exec i s' = .next t' ∧ GoOnAlike t t' := by
  obtain ⟨-, -, -, -, -, -, -, -, -, -, hbw, hbr, hmem, -⟩ := (runCore_eq_iff s s').mp h
  have hrr : registerReader s' = registerReader s := by simp [registerReader, hbr, hmem]
  cases i <;> simp only [exec]
  case nop wr => exact guarded_alike h _ _ (.inr (finish_core h _))
  case endRun wr => exact guarded_alike h _ _ (.inl ⟨rfl, rfl⟩)
  case jump target wr => exact guarded_alike h _ _ (.inr (jump_core h _ _))
  case bwInit base cap wr =>
    refine guarded_alike h _ _ (.inr (finish_core ?_ _))
    simp only [runCore_eq_iff] at h ⊢; simp_all
  case bwBits n value wr =>
    rw [execBwBits, execBwBits, show planBwBits n s' = planBwBits n s by simp [planBwBits, appendRange, hbw]]
    refine guarded_alike h _ _ ?_
    rw [← hbw]
    split
    · exact .inr (finish_core (putSink_core h _) _)
    · exact .inl ⟨failAppend_busy .., failAppend_busy ..⟩
  case bwFlush wr =>
    rw [execBwFlush, execBwFlush, show planBwFlush s' = planBwFlush s by simp [planBwFlush, appendRange, hbw]]
    refine guarded_alike h _ _ ?_
    rw [← hbw]
    split
    · exact .inr (finish_core (setResults_core (putSink_core h _) _ _ _ _) _)
    · exact .inl ⟨failAppend_busy .., failAppend_busy ..⟩
  case brInit base len wr =>
    refine guarded_alike h _ _ (.inr (finish_core ?_ _))
    simp only [runCore_eq_iff] at h ⊢; simp_all
  case brBits n wr =>
    rw [execBrBits, execBrBits, show planBrBits n s' = planBrBits n s by simp [planBrBits, cursorRange, hbr]]
    refine guarded_alike h _ _ ?_
    simp only [← hbr, ← hmem]
    split
    · exact .inr (finish_core (setResults_core (putReaderPos_core h _) _ _ _ _) _)
    · exact .inl ⟨rfl, rfl⟩
  case crc32 cont src len wr =>
    refine guarded_alike h _ _ ?_
    rw [← hmem]
    exact .inr (finish_core (setResults_core h _ _ _ _) _)
  case crcCombine c b wr => exact guarded_alike h _ _ (.inr (finish_core (setResults_core h _ _ _ _) _))
  case rle1Enc src len dst cap wr =>
    refine guarded_alike h _ _ ?_
    rw [← hmem]
    exact finishBytes_alike h _ _ _ _
  case rle1Dec src len dst cap wr =>
    refine guarded_alike h _ _ ?_
    rw [← hmem]
    split
    · exact finishBytes_alike h _ _ _ _
    · exact .inl ⟨failSpans_busy .., failSpans_busy ..⟩
  case bwtFwd src n dst sa wr =>
    refine guarded_alike h _ _ ?_
    rw [← hmem]
    exact .inr (finish_core (setResults_core (storeWords_core (storeBytes_core h _ _) _ _) _ _ _ _) _)
  case bwtInv src n origPtr dst tv wr =>
    refine guarded_alike h _ _ ?_
    rw [← hmem]
    dsimp only
    split
    · exact .inr (finish_core (setResults_core (storeWords_core (storeBytes_core h _ _) _ _) _ _ _ _) _)
    · exact .inl ⟨rfl, rfl⟩
  case mtfEnc src n dst cap map wr =>
    refine guarded_alike h _ _ ?_
    rw [← hmem]
    dsimp only
    split
    · exact .inr (finish_core (setResults_core (storeBytes_core (storeBytes_core h _ _) _ _) _ _ _ _) _)
    · exact .inl ⟨failSpans_busy .., failSpans_busy ..⟩
  case mtfDec src count map dst cap wr =>
    refine guarded_alike h _ _ ?_
    rw [← hmem]
    split
    · exact .inr (finish_core (setResults_core (storeBytes_core h _ _) _ _ _ _) _)
    · exact .inl ⟨failSpans_busy .., failSpans_busy ..⟩
  case hufLen freq a dst wr =>
    refine guarded_alike h _ _ ?_
    rw [← hmem]
    exact .inr (finish_core (setResults_core (storeBytes_core h _ _) _ _ _ _) _)
  case hufCodes lengths a dst wr =>
    refine guarded_alike h _ _ ?_
    rw [← hmem]
    dsimp only
    split
    · exact .inr (finish_core (setResults_core (storeBytes_core h _ _) _ _ _ _) _)
    · exact .inl ⟨failSpans_busy .., failSpans_busy ..⟩
  case hufEnc g syms count tables selectors a wr =>
    rw [execHufEnc, execHufEnc, show planHufEnc g syms count tables selectors a s' =
      planHufEnc g syms count tables selectors a s by simp [planHufEnc, appendRange, hbw]]
    refine guarded_alike h _ _ ?_
    rw [← hmem, ← hbw]
    dsimp only
    split
    · exact .inl ⟨rfl, rfl⟩
    · split
      · exact .inr (finish_core (setResults_core (putSink_core h _) _ _ _ _) _)
      · exact .inl ⟨failAppend_busy .., failAppend_busy ..⟩
  case hufDec g dst cap tables selectors a nSel wr =>
    rw [execHufDec, execHufDec, show planHufDec g dst cap tables selectors a nSel s' =
      planHufDec g dst cap tables selectors a nSel s by simp [planHufDec, cursorRange, hbr]]
    refine guarded_alike h _ _ ?_
    rw [hrr, ← hmem, ← hbr]
    split
    · exact .inr (finish_core (setResults_core (putReaderPos_core (storeBytes_core h _ _) _) _ _ _ _) _)
    · exact .inl ⟨failRead_busy .., failRead_busy ..⟩
  case blkEnc k src n crc wr =>
    rw [execBlkEnc, execBlkEnc, show planBlkEnc k src n s' = planBlkEnc k src n s by simp [planBlkEnc, appendRange, hbw]]
    refine guarded_alike h _ _ ?_
    rw [← hmem, ← hbw]
    dsimp only
    split
    · exact .inr (finish_core (setResults_core (putSink_core h _) _ _ _ _) _)
    · exact .inl ⟨failAppend_busy .., failAppend_busy ..⟩
  case blkDec k dst cap wr =>
    rw [execBlkDec, execBlkDec, show planBlkDec k dst cap s' = planBlkDec k dst cap s by simp [planBlkDec, cursorRange, hbr]]
    refine guarded_alike h _ _ ?_
    rw [hrr]
    split
    · exact .inr (finish_core (setResults_core (putReaderPos_core h _) _ _ _ _) _)
    · exact .inr (finish_core (setResults_core (putReaderPos_core (storeBytes_core h _ _) _) _ _ _ _) _)
    · exact .inl ⟨failRead_busy .., failRead_busy ..⟩
  case streamEnc k src len dst cap wr =>
    refine guarded_alike h _ _ ?_
    rw [← hmem]
    dsimp only
    split
    · exact .inr (finish_core (setResults_core (storeBytes_core h _ _) _ _ _ _) _)
    · exact .inl ⟨failSpans_busy .., failSpans_busy ..⟩
  case streamDec src len dst cap wr =>
    refine guarded_alike h _ _ ?_
    rw [← hmem]
    split
    · exact .inr (finish_core (setStreamResults_core (storeBytes_core h _ _) _ _) _)
    · split <;> exact .inl ⟨failSpans_busy .., failSpans_busy ..⟩

/-! ### The engine's steps one after another -/

/-- The state after the engine's next step. -/
def engineNext (s : State) : State :=
  match engineStep s with
  | .next t => t
  | _ => s

theorem engineStep_eq (s : State) : engineStep s = .next (engineNext s) := by
  obtain ⟨t, h⟩ := engineStep_next s
  rw [engineNext, h]

theorem commandsAfter_eq (n : Nat) (s : State) : commandsAfter n s = some (engineNext^[n] s) := by
  induction n generalizing s with
  | zero => rfl
  | succ n ih => rw [commandsAfter, engineStep_eq, Function.iterate_succ_apply]; exact ih _

/-- An idle engine stays as it is. -/
theorem engineNext_idle {s : State} (h : s.busy = false) : engineNext s = s := by
  rw [engineNext, engineStep, if_neg (by simp [h])]

theorem engineNext_iterate_idle {s : State} (h : s.busy = false) (n : Nat) : engineNext^[n] s = s := by
  induction n with
  | zero => rfl
  | succ n ih => rw [Function.iterate_succ_apply, engineNext_idle h, ih]

/-- The fetch depends on the core of the state alone. -/
theorem fetchCommand_core {s s' : State} (h : runCore s = runCore s') : fetchCommand s = fetchCommand s' := by
  obtain ⟨-, -, -, -, -, hdp, -, -, -, -, -, -, hmem, hpl⟩ := (runCore_eq_iff s s').mp h
  simp [fetchCommand, descriptorSpan, hdp, hmem, hpl]

/-- So do a command's plan and with it the bytes it uses. -/
theorem instrPlan_core (i : Instr) {s s' : State} (h : runCore s = runCore s') : instrPlan i s = instrPlan i s' := by
  obtain ⟨-, -, -, -, -, -, -, -, -, -, hbw, hbr, -, -⟩ := (runCore_eq_iff s s').mp h
  cases i <;> simp [instrPlan, planBwBits, planBwFlush, planBrBits, planHufEnc, planHufDec, planBlkEnc, planBlkDec,
    appendRange, cursorRange, hbw, hbr]

theorem commandFootprint_core {s s' : State} (h : runCore s = runCore s') : commandFootprint s = commandFootprint s' := by
  obtain ⟨-, -, -, -, -, hdp, -, -, -, -, -, -, -, hpl⟩ := (runCore_eq_iff s s').mp h
  simp [commandFootprint, commandRanges, fetchCommand_core h, descriptorSpan, hdp, readSpans, writeSpans,
    instrPlan_core _ h, hpl]

/-- The engine goes on alike in two states with the same core. -/
theorem engineNext_alike {s s' : State} (h : runCore s = runCore s') : GoOnAlike (engineNext s) (engineNext s') := by
  have hb : s.busy = s'.busy := ((runCore_eq_iff s s').mp h).2.1
  rcases engineStep_cases s with ⟨hs, -⟩ | ⟨hs, e, hf, hs2⟩ | ⟨hs, i, hf, hs2⟩
  · rw [engineNext_idle hs, engineNext_idle (hb ▸ hs)]
    exact .inr h
  · have hs2' : engineStep s' = .next (errorStop e s') := by
      rw [engineStep, if_pos (hb ▸ hs), ← fetchCommand_core h, hf]
    simp only [engineNext, hs2, hs2']
    exact .inl ⟨rfl, rfl⟩
  · have hs2' : engineStep s' = exec i (noteCommand s') := by
      rw [engineStep, if_pos (hb ▸ hs), ← fetchCommand_core h, hf]
    obtain ⟨t, t', ht, ht', hg⟩ := exec_alike i (s := noteCommand s) (s' := noteCommand s') (by
      rw [runCore_eq_iff] at h ⊢; simpa using h)
    simp only [engineNext, hs2, hs2', ht, ht']
    exact hg

/-! ### Following a run -/

/-- The follower has come to the run's state number `n`, and has found the bytes of the commands on the way. -/
structure Followed (s : State) (n : Nat) (l : Lookout) : Prop where
  state : l.state = engineNext^[n] s
  uses : ∀ a, touches l.found.uses a ↔ ∃ m, m < n ∧ UsesByte (engineNext^[m] s) a
  writes : ∀ a, touches l.found.writes a ↔ ∃ m, m < n ∧ WritesByte (engineNext^[m] s) a
  busy : ∀ m, m < n → (engineNext^[m] s).busy = true

/-- At state number `n` the run has ended or is back at a state it was in. -/
def RunOver (s : State) (n : Nat) : Prop :=
  (engineNext^[n] s).busy = false ∨ ∃ m, m < n ∧ runCore (engineNext^[n] s) = runCore (engineNext^[m] s)

theorem followCommand_eq (anchor : State) (l : Lookout) : followCommand anchor l =
    ⟨engineNext l.state, ⟨addSpans (commandFootprint l.state).uses l.found.uses,
      addSpans (commandFootprint l.state).writes l.found.writes⟩,
      !(engineNext l.state).busy || runCore (engineNext l.state) == anchor⟩ := by
  rw [followCommand, engineStep_eq]

theorem exists_lt_succ {n : Nat} {P : Nat → Prop} : (∃ m, m < n + 1 ∧ P m) ↔ (∃ m, m < n ∧ P m) ∨ P n := by
  constructor
  · rintro ⟨m, hm, hp⟩
    rcases Nat.lt_succ_iff_lt_or_eq.mp hm with h | rfl
    · exact .inl ⟨m, h, hp⟩
    · exact .inr hp
  · rintro (⟨m, hm, hp⟩ | hp)
    · exact ⟨m, by omega, hp⟩
    · exact ⟨n, by omega, hp⟩

theorem followCommand_followed {s : State} {n : Nat} {l : Lookout} (h : Followed s n l) (hb : l.state.busy = true)
    (anchor : State) : Followed s (n + 1) (followCommand anchor l) := by
  rw [followCommand_eq]
  refine ⟨?_, fun a => ?_, fun a => ?_, fun m hm => ?_⟩
  · rw [Function.iterate_succ_apply', ← h.state]
  · rw [touches_addSpans, exists_lt_succ, h.uses, touches_uses_iff, h.state]
  · rw [touches_addSpans, exists_lt_succ, h.writes, touches_writes_iff, h.state]
  · rcases Nat.lt_succ_iff_lt_or_eq.mp hm with h' | rfl
    · exact h.busy m h'
    · rw [← h.state]; exact hb

/-- What a follower that is not over has seen, and why one that is over is. -/
structure FollowedSound (s : State) (n : Nat) (l : Lookout) : Prop extends Followed s n l where
  finished : l.finished = true → RunOver s n
  goesOn : l.finished = false → l.state.busy = true

theorem followCommands_sound {s : State} (anchor : State) (k : Nat) {n n₀ : Nat} {l : Lookout} (h : FollowedSound s n l)
    (hn : n₀ ≤ n) (ha : anchor = runCore (engineNext^[n₀] s)) :
    ∃ n', FollowedSound s n' (followCommands anchor k l) ∧
      ((followCommands anchor k l).finished = false →
        n' = n + k ∧ ∀ i, n < i → i ≤ n + k → runCore (engineNext^[i] s) ≠ anchor) := by
  induction k generalizing n l with
  | zero => exact ⟨n, h, fun _ => ⟨rfl, fun i h1 h2 => by omega⟩⟩
  | succ k ih =>
    rw [followCommands]
    cases ho : l.finished with
    | true =>
      rw [if_pos rfl]
      exact ⟨n, h, fun hc => by rw [ho] at hc; cases hc⟩
    | false =>
      rw [if_neg (by decide)]
      have hf := followCommand_followed h.toFollowed (h.goesOn ho) anchor
      have hst : (followCommand anchor l).state = engineNext^[n + 1] s := hf.state
      have hov : (followCommand anchor l).finished =
          (!(engineNext^[n + 1] s).busy || runCore (engineNext^[n + 1] s) == anchor) := by
        rw [← hst, followCommand_eq]
      have hs : FollowedSound s (n + 1) (followCommand anchor l) := by
        refine ⟨hf, fun hc => ?_, fun hc => ?_⟩
        · rw [hov, Bool.or_eq_true, Bool.not_eq_true', beq_iff_eq] at hc
          rcases hc with hc | hc
          · exact .inl hc
          · exact .inr ⟨n₀, by omega, hc.trans ha⟩
        · rw [hov, Bool.or_eq_false_iff, Bool.not_eq_false'] at hc
          rw [hst]; exact hc.1
      obtain ⟨n', h1, h2⟩ := ih hs (by omega)
      refine ⟨n', h1, fun hc => ?_⟩
      obtain ⟨h3, h4⟩ := h2 hc
      refine ⟨by omega, fun i hi1 hi2 => ?_⟩
      by_cases hi : i = n + 1
      · subst hi
        intro heq
        have hov' : (followCommand anchor l).finished = true := by rw [hov, heq]; simp
        have : followCommands anchor k (followCommand anchor l) = followCommand anchor l := by
          cases k with
          | zero => rfl
          | succ k => rw [followCommands, if_pos hov']
        rw [this, hov'] at hc
        cases hc
      · exact h4 i (by omega) (by omega)

theorem followPhases_sound {s : State} (fuel len : Nat) {n : Nat} {l : Lookout} (h : FollowedSound s n l) :
    ∃ n', FollowedSound s n' (followPhases fuel len l) ∧
      ((followPhases fuel len l).finished = false → ∀ j, j < fuel →
        (∀ i, i ≤ n + (2 ^ (j + 1) - 1) * len → (engineNext^[i] s).busy = true) ∧
        ∀ i, n + (2 ^ j - 1) * len < i → i ≤ n + (2 ^ (j + 1) - 1) * len →
          runCore (engineNext^[i] s) ≠ runCore (engineNext^[n + (2 ^ j - 1) * len] s)) := by
  induction fuel generalizing len n l with
  | zero => exact ⟨n, h, fun _ j hj => by omega⟩
  | succ fuel ih =>
    rw [followPhases]
    cases ho : l.finished with
    | true =>
      rw [if_pos rfl]
      exact ⟨n, h, fun hc => by rw [ho] at hc; cases hc⟩
    | false =>
      rw [if_neg (by decide)]
      obtain ⟨n₁, h1, h2⟩ := followCommands_sound (runCore l.state) len h (Nat.le_refl n) (by rw [h.state])
      obtain ⟨n₂, h3, h4⟩ := ih (2 * len) h1
      refine ⟨n₂, h3, fun hc j hj => ?_⟩
      have hnot : (followCommands (runCore l.state) len l).finished = false := by
        cases hov : (followCommands (runCore l.state) len l).finished with
        | false => rfl
        | true =>
          have : followPhases fuel (2 * len) (followCommands (runCore l.state) len l) =
              followCommands (runCore l.state) len l := by
            cases fuel with
            | zero => rfl
            | succ fuel => rw [followPhases, if_pos hov]
          rw [this, hov] at hc
          cases hc
      obtain ⟨rfl, h5⟩ := h2 hnot
      have hpow : ∀ j, (2 ^ (j + 1) - 1) * len = len + (2 ^ j - 1) * (2 * len) := by
        intro j
        have : 1 ≤ 2 ^ j := Nat.one_le_two_pow
        obtain ⟨x, hx⟩ := Nat.exists_eq_add_of_le this
        rw [pow_succ, hx, show (1 + x) * 2 - 1 = 1 + 2 * x by omega, show 1 + x - 1 = x by omega]
        ring
      cases j with
      | zero =>
        have hz : ∀ x : Nat, n + (2 ^ 0 - 1) * x = n := by intro x; simp
        have hone : n + (2 ^ (0 + 1) - 1) * len = n + len := by simp
        rw [hz, hone]
        refine ⟨fun i hi => ?_, fun i h6 h7 => ?_⟩
        · rcases Nat.lt_or_eq_of_le hi with hlt | rfl
          · exact h1.busy i hlt
          · rw [← h1.state]; exact h1.goesOn hnot
        · rw [← h.state]; exact h5 i h6 h7
      | succ j =>
        obtain ⟨h6, h7⟩ := h4 hc j (by omega)
        rw [hpow (j + 1), hpow j, ← Nat.add_assoc, ← Nat.add_assoc]
        exact ⟨h6, h7⟩

/-! ### A run that is over brings nothing new -/

theorem busy_of_later {s : State} {m n : Nat} (hm : m ≤ n) (h : (engineNext^[n] s).busy = true) :
    (engineNext^[m] s).busy = true := by
  by_contra hb
  rw [Bool.not_eq_true] at hb
  rw [show n = (n - m) + m by omega, Function.iterate_add_apply, engineNext_iterate_idle hb, hb] at h
  cases h

/-- From two states of a run with the same core on, the run goes the same way as long as it goes. -/
theorem core_shift {s : State} {p q : Nat} (hpq : runCore (engineNext^[p] s) = runCore (engineNext^[q] s)) (i : Nat)
    (hb : (engineNext^[p + i] s).busy = true) : runCore (engineNext^[p + i] s) = runCore (engineNext^[q + i] s) := by
  induction i with
  | zero => exact hpq
  | succ i ih =>
    have hi := ih (busy_of_later (by omega) hb)
    rw [← Nat.add_assoc, ← Nat.add_assoc, Function.iterate_succ_apply', Function.iterate_succ_apply'] at *
    rcases engineNext_alike hi with h | h
    · rw [h.1] at hb; cases hb
    · exact h

/-- Every state of a run that is over at number `n` has the core of one before. -/
theorem earlier_of_over {s : State} {n : Nat} (ho : RunOver s n) (m : Nat) (hb : (engineNext^[m] s).busy = true) :
    ∃ m', m' < n ∧ runCore (engineNext^[m] s) = runCore (engineNext^[m'] s) := by
  by_cases hm : m < n
  · exact ⟨m, hm, rfl⟩
  rcases ho with h | ⟨m₀, hm₀, h⟩
  · have := busy_of_later (show n ≤ m by omega) hb
    rw [h] at this; cases this
  · obtain ⟨i, rfl⟩ := Nat.exists_eq_add_of_le (show n ≤ m by omega)
    induction i using Nat.strong_induction_on with
    | _ i ih =>
      have hs := core_shift h i hb
      by_cases hlt : m₀ + i < n
      · exact ⟨m₀ + i, hlt, hs⟩
      · obtain ⟨j, hj⟩ := Nat.exists_eq_add_of_le (show n ≤ m₀ + i by omega)
        rw [hj] at hs
        have hb' : (engineNext^[n + j] s).busy = true := by
          have := ((runCore_eq_iff _ _).mp hs).2.1
          rw [← this]; exact hb
        obtain ⟨m', h1, h2⟩ := ih j (by omega) hb' (by omega)
        exact ⟨m', h1, hs.trans h2⟩

/-- Two states with the same core use and write the same bytes. -/
theorem usesByte_core {s s' : State} (h : runCore s = runCore s') (a : Nat) :
    (UsesByte s a ↔ UsesByte s' a) ∧ (WritesByte s a ↔ WritesByte s' a) := by
  rw [← touches_uses_iff, ← touches_uses_iff, ← touches_writes_iff, ← touches_writes_iff, commandFootprint_core h]
  exact ⟨Iff.rfl, Iff.rfl⟩

/-! ### A run comes to a state it was in -/

/-- The core of a run as an element of a finite type. -/
abbrev CoreCode (addresses : Nat) :=
  (Fin addresses → Fin (2 ^ 8)) × (Bool × Bool × Bool × Bool) × (Fin (2 ^ 32) × Fin (2 ^ 32) × Fin (2 ^ 8) × Fin (2 ^ 32) × Fin (2 ^ 32)) ×
  (Fin (2 ^ 32) × Fin (2 ^ 32) × Fin (2 ^ 32) × Fin (2 ^ 32)) ×
  (Fin (2 ^ 32) × Fin (2 ^ 32) × Fin (2 ^ 32) × Fin (2 ^ 7) × Fin (2 ^ 3)) × (Fin (2 ^ 32) × Fin (2 ^ 32) × Fin (2 ^ 32))

/-- The core of a state, but for the platform, which no step changes. -/
def coreCode (s : State) : CoreCode 4294967296 :=
  (fun a => (s.mem.read a.1).toFin, (s.ie, s.busy, s.done, s.err),
    (s.dlist.toFin, s.dp.toFin, s.errcode.toFin, s.errinfo.toFin, s.errpos.toFin),
    (s.results.r0.toFin, s.results.r1.toFin, s.results.r2.toFin, s.results.r3.toFin),
    (s.bw.base.toFin, s.bw.cap.toFin, s.bw.count.toFin, s.bw.acc.toFin, s.bw.nbits.toFin),
    (s.br.base.toFin, s.br.len.toFin, s.br.pos.toFin))

theorem read_outside_space {m : Memory} (h : m.inSpace = true) {a : Nat} (ha : addressCount ≤ a) :
    m.read a = unlistedByte := by
  refine read_eq_unlisted fun c hc => ?_
  have := List.all_eq_true.mp h c hc
  simp at this
  omega

theorem runCore_of_code {s t : State} (hs : MemInOrder s) (ht : MemInOrder t) (hp : s.platform = t.platform)
    (h : coreCode s = coreCode t) : runCore s = runCore t := by
  have hfin : ∀ {n : Nat} {x y : BitVec n}, x.toFin = y.toFin → x = y := fun h => BitVec.eq_of_toFin_eq h
  simp only [coreCode, Prod.mk.injEq] at h
  obtain ⟨hm, ⟨h1, h2, h3, h4⟩, ⟨h5, h6, h7, h8, h9⟩, ⟨r0, r1, r2, r3⟩, ⟨w1, w2, w3, w4, w5⟩, b1, b2, b3⟩ := h
  have hmem : s.mem = t.mem := by
    refine wf_ext hs.1 ht.1 fun a => ?_
    by_cases ha : a < 4294967296
    · exact hfin (congrFun hm ⟨a, ha⟩)
    · rw [read_outside_space hs.2 (by simpa using ha), read_outside_space ht.2 (by simpa using ha)]
  have hres : s.results = t.results := by
    cases hr : s.results; cases hr' : t.results
    simp only [hr, hr'] at r0 r1 r2 r3
    simp [hfin r0, hfin r1, hfin r2, hfin r3]
  have hbw : s.bw = t.bw := by
    cases hr : s.bw; cases hr' : t.bw
    simp only [hr, hr'] at w1 w2 w3 w4 w5
    simp [hfin w1, hfin w2, hfin w3, hfin w4, hfin w5]
  have hbr : s.br = t.br := by
    cases hr : s.br; cases hr' : t.br
    simp only [hr, hr'] at b1 b2 b3
    simp [hfin b1, hfin b2, hfin b3]
  rw [runCore_eq_iff]
  exact ⟨h1, h2, h3, h4, hfin h5, hfin h6, hfin h7, hfin h8, hfin h9, hres, hbw, hbr, hmem, hp⟩

theorem coreCode_card {n E : Nat} (hE : 8 * n + 1000 ≤ E) : Fintype.card (CoreCode n) ≤ 2 ^ E := by
  have h : Fintype.card (CoreCode n) = 2 ^ (8 * n) * (2 ^ 4 * (2 ^ 136 * (2 ^ 128 * (2 ^ 106 * 2 ^ 96)))) := by
    simp only [CoreCode, Fintype.card_prod, Fintype.card_fun, Fintype.card_fin, Fintype.card_bool, ← pow_mul]
    norm_num
  rw [h, ← pow_add, ← pow_add, ← pow_add, ← pow_add, ← pow_add]
  exact Nat.pow_le_pow_right (by decide) (by omega)

/-- A run that goes on long enough comes to a core it had before. -/
theorem core_repeats {s : State} {n : Nat} (hn : Fintype.card (CoreCode 4294967296) ≤ n)
    (hok : ∀ m, m ≤ n → MemInOrder (engineNext^[m] s) ∧ (engineNext^[m] s).platform = s.platform) :
    ∃ p q, p < q ∧ q ≤ n ∧ runCore (engineNext^[p] s) = runCore (engineNext^[q] s) := by
  have hcard : Fintype.card (CoreCode 4294967296) < Fintype.card (Fin (n + 1)) := by
    rw [Fintype.card_fin]
    exact Nat.lt_succ_of_le hn
  obtain ⟨x, y, hne, hxy⟩ := Fintype.exists_ne_map_eq_of_card_lt (fun i : Fin (n + 1) => coreCode (engineNext^[i.1] s)) hcard
  have hcore : ∀ x y : Fin (n + 1), coreCode (engineNext^[x.1] s) = coreCode (engineNext^[y.1] s) →
      runCore (engineNext^[x.1] s) = runCore (engineNext^[y.1] s) := fun x y h =>
    runCore_of_code (hok x.1 (by omega)).1 (hok y.1 (by omega)).1
      ((hok x.1 (by omega)).2.trans (hok y.1 (by omega)).2.symm) h
  rcases Nat.lt_or_gt_of_ne (fun h => hne (Fin.ext h)) with h | h
  · exact ⟨x.1, y.1, h, by omega, hcore x y hxy⟩
  · exact ⟨y.1, x.1, h, by omega, hcore y x hxy.symm⟩

/-- The phases reach the end of the run or a return to a state it was in. -/
theorem followPhases_over {s : State} {fuel E : Nat} {l : Lookout} (hE : 8 * 4294967296 + 1000 ≤ E) (hfuel : E + 2 ≤ fuel)
    (hok : ∀ m, (engineNext^[m] s).busy = true → MemInOrder (engineNext^[m] s) ∧ (engineNext^[m] s).platform = s.platform)
    (h : (followPhases fuel 1 l).finished = false → ∀ j, j < fuel →
        (∀ i, i ≤ 0 + (2 ^ (j + 1) - 1) * 1 → (engineNext^[i] s).busy = true) ∧
        ∀ i, 0 + (2 ^ j - 1) * 1 < i → i ≤ 0 + (2 ^ (j + 1) - 1) * 1 →
          runCore (engineNext^[i] s) ≠ runCore (engineNext^[0 + (2 ^ j - 1) * 1] s)) :
    (followPhases fuel 1 l).finished = true := by
  by_contra hc
  rw [Bool.not_eq_true] at hc
  obtain ⟨k, rfl⟩ := Nat.exists_eq_add_of_le hfuel
  obtain ⟨h1, h2⟩ := h hc (E + 1 + k) (by omega)
  simp only [Nat.zero_add, Nat.mul_one] at h1 h2
  have hpow : 2 ^ (E + 1 + k + 1) = 2 * 2 ^ (E + 1 + k) := by rw [pow_succ]; ring
  have hle : 2 ^ E + 2 ^ E ≤ 2 ^ (E + 1 + k) := by
    rw [show 2 ^ E + 2 ^ E = 2 ^ (E + 1) by rw [pow_succ]; ring]
    exact Nat.pow_le_pow_right (by decide) (by omega)
  have hpos : 1 ≤ 2 ^ E := Nat.one_le_two_pow
  rw [hpow] at h1 h2
  generalize hA : 2 ^ (E + 1 + k) = A at h1 h2 hle
  obtain ⟨p, q, hpq, hq, hcore⟩ := core_repeats (s := s) (n := 2 ^ E) (coreCode_card hE) fun m hm => hok m (h1 m (by omega))
  have hq' : A - 1 = p + (A - 1 - p) := by omega
  have hshift := core_shift hcore (A - 1 - p) (h1 _ (by omega))
  rw [← hq'] at hshift
  exact h2 (q + (A - 1 - p)) (by omega) (by omega) hshift.symm

/-- The bytes of the commands ahead are those of all the states the run comes to (20_memory.md R77). -/
theorem aheadFootprint_iff_of {s : State} (hb : s.busy = true)
    (hok : ∀ m, (engineNext^[m] s).busy = true → MemInOrder (engineNext^[m] s) ∧ (engineNext^[m] s).platform = s.platform)
    (a : Nat) :
    (touches (aheadFootprint s).uses a ↔ ∃ m t, commandsAfter m s = some t ∧ t.busy = true ∧ UsesByte t a) ∧
    (touches (aheadFootprint s).writes a ↔ ∃ m t, commandsAfter m s = some t ∧ t.busy = true ∧ WritesByte t a) := by
  have hstart : FollowedSound s 0 ⟨s, ⟨[], []⟩, !s.busy⟩ := by
    refine ⟨⟨rfl, ?_, ?_, ?_⟩, ?_, ?_⟩ <;> simp [hb]
  obtain ⟨n, hn, hphases⟩ := followPhases_sound Config.runPhases 1 hstart
  have hover := hn.finished (followPhases_over (E := 34359739368) (by decide) (by decide) hok hphases)
  have hall : ∀ P : State → Prop, (∀ t t', runCore t = runCore t' → (P t ↔ P t')) →
      ((∃ m, m < n ∧ P (engineNext^[m] s)) ↔ ∃ m t, commandsAfter m s = some t ∧ t.busy = true ∧ P t) := by
    intro P hP
    simp only [commandsAfter_eq, Option.some.injEq]
    constructor
    · rintro ⟨m, hm, hp⟩
      exact ⟨m, _, rfl, hn.busy m hm, hp⟩
    · rintro ⟨m, t, rfl, hbt, hp⟩
      obtain ⟨m', hm', hcore⟩ := earlier_of_over hover m hbt
      exact ⟨m', hm', (hP _ _ hcore).mp hp⟩
  exact ⟨(hn.uses a).trans (hall _ fun _ _ h => (usesByte_core h a).1),
    (hn.writes a).trans (hall _ fun _ _ h => (usesByte_core h a).2)⟩

/-- The engine keeps memory in order as long as the run goes on. -/
theorem engineNext_inOrder {s : State} {p : Platform} (h : InOrderOn p s) (hb : (engineNext s).busy = true) :
    InOrderOn p (engineNext s) := by
  rcases engineStep_cases s with ⟨hs, -⟩ | ⟨hs, e, hf, hs2⟩ | ⟨hs, i, hf, hs2⟩
  · rw [engineNext_idle hs]; exact h
  · simp only [engineNext, hs2] at hb; cases hb
  · obtain ⟨t, ht⟩ := exec_next i (noteCommand s)
    simp only [engineNext, hs2, ht] at hb ⊢
    exact exec_inOrder (s := noteCommand s) h ht hb

/-- The bytes of the commands ahead are those of all the states the run comes to (20_memory.md R77). -/
theorem aheadFootprint_iff {s : State} (hb : s.busy = true) (hm : MemInOrder s) (a : Nat) :
    (touches (aheadFootprint s).uses a ↔ ∃ m t, commandsAfter m s = some t ∧ t.busy = true ∧ UsesByte t a) ∧
    (touches (aheadFootprint s).writes a ↔ ∃ m t, commandsAfter m s = some t ∧ t.busy = true ∧ WritesByte t a) := by
  refine aheadFootprint_iff_of hb (fun m => ?_) a
  induction m with
  | zero => exact fun _ => ⟨hm, rfl⟩
  | succ m ih =>
    intro hbm
    rw [Function.iterate_succ_apply'] at hbm ⊢
    have hprev := ih (by
      by_contra hc
      rw [Bool.not_eq_true] at hc
      rw [engineNext_idle hc, hc] at hbm
      cases hbm)
    exact engineNext_inOrder hprev hbm

/-- The look-ahead finds only bytes of commands the run comes to, whatever the state. -/
theorem aheadFootprint_sound {s : State} (hb : s.busy = true) (a : Nat) :
    (touches (aheadFootprint s).uses a → ∃ m t, commandsAfter m s = some t ∧ t.busy = true ∧ UsesByte t a) ∧
    (touches (aheadFootprint s).writes a → ∃ m t, commandsAfter m s = some t ∧ t.busy = true ∧ WritesByte t a) := by
  have hstart : FollowedSound s 0 ⟨s, ⟨[], []⟩, !s.busy⟩ := by
    refine ⟨⟨rfl, ?_, ?_, ?_⟩, ?_, ?_⟩ <;> simp [hb]
  obtain ⟨n, hn, -⟩ := followPhases_sound Config.runPhases 1 hstart
  constructor <;> intro h
  · obtain ⟨m, hm, hu⟩ := (hn.uses a).mp h
    exact ⟨m, _, commandsAfter_eq m s, hn.busy m hm, hu⟩
  · obtain ⟨m, hm, hu⟩ := (hn.writes a).mp h
    exact ⟨m, _, commandsAfter_eq m s, hn.busy m hm, hu⟩

end Sys2Proof.Machine
end

