-- ==== Sys2Proof/Laws/Decoders.lean ====
section
/-! SUPPORT. The decoders' readers beside the readings of Safety.lean: each field, the used map, the selectors, the code
lengths and the tables are read as their reading says, with its errors (41_bitstream.md R151, 47_block_stream.md R271, R272).
-/

namespace Sys2Proof.Machine

/-! ### Readings -/

/-- What a reader comes to, as a reading's outcome. -/
def outcome {α : Type} (x : Except EngineError (α × BitReader)) : BitsRead α := x.map fun y => (y.1, y.2.pos, y.2.rest)

@[simp] theorem outcome_ok {α : Type} (x : α) (r : BitReader) : outcome (.ok (x, r)) = .ok (x, r.pos, r.rest) := rfl
@[simp] theorem outcome_error {α : Type} (e : EngineError) :
    outcome (.error e : Except EngineError (α × BitReader)) = .error e := rfl

/-- A reader gives a value exactly when its outcome is that value. -/
theorem outcome_eq_ok {α : Type} {x : Except EngineError (α × BitReader)} {y : α} {pos : Nat} {rest : List Bool} :
    outcome x = .ok (y, pos, rest) ↔ x = .ok (y, ⟨pos, rest⟩) := by
  cases x with
  | error e => simp [outcome, Except.map]
  | ok p =>
    obtain ⟨z, pos', rest'⟩ := p
    simp [outcome, Except.map]

/-- A reader gives an error exactly when its outcome is that error. -/
theorem outcome_eq_error {α : Type} {x : Except EngineError (α × BitReader)} {e : EngineError} :
    outcome x = .error e ↔ x = .error e := by
  cases x <;> simp [outcome, Except.map]

/-- A reader does what the reading says, always, and nothing else. -/
def Agrees {α : Type} (p : BitReader → Except EngineError (α × BitReader)) (R : Reading α) : Prop :=
  ∀ r out, outcome (p r) = out ↔ R r.pos r.rest out

/-- One reader and then another, the second for the values of which `Q` holds, as it does of those the first gives. -/
theorem Agrees.bindOn {α β : Type} {p : BitReader → Except EngineError (α × BitReader)} {R : Reading α}
    {q : α × BitReader → Except EngineError (β × BitReader)} {S : α → Reading β} (hp : Agrees p R) {Q : α → Prop}
    (hQ : ∀ pos bits x pos' rest, R pos bits (.ok (x, pos', rest)) → Q x)
    (hq : ∀ x, Q x → Agrees (fun r => q (x, r)) (S x)) : Agrees (fun r => p r >>= q) (R.andThen S) := by
  intro r out
  show outcome (p r >>= q) = out ↔ _
  unfold Reading.andThen
  cases h : p r with
  | error e =>
    have he : R r.pos r.rest (.error e) := (hp r _).mp (by rw [h]; rfl)
    have hl : outcome (Except.error e >>= q) = .error e := rfl
    rw [hl]
    constructor
    · rintro rfl; exact .inl ⟨e, he, rfl⟩
    · rintro (⟨e', h1, rfl⟩ | ⟨x, pos, rest, h1, -⟩)
      · have := (hp r _).mpr h1
        rw [h] at this
        cases this
        rfl
      · have := (hp r _).mpr h1
        rw [h] at this
        cases this
  | ok y =>
    obtain ⟨x, r'⟩ := y
    have hok : R r.pos r.rest (.ok (x, r'.pos, r'.rest)) := (hp r _).mp (by rw [h]; rfl)
    have hbind : (Except.ok (x, r') >>= q) = q (x, r') := rfl
    have hx := hQ _ _ _ _ _ hok
    rw [hbind]
    constructor
    · intro ho; exact .inr ⟨x, _, _, hok, (hq x hx r' out).mp ho⟩
    · rintro (⟨e', h1, rfl⟩ | ⟨x', pos, rest, h1, h2⟩)
      · have := (hp r _).mpr h1
        rw [h] at this
        cases this
      · have := (hp r _).mpr h1
        rw [h] at this
        cases this
        exact (hq x hx r' out).mpr h2

/-- One reader and then another, the second for every value the first can give. -/
theorem Agrees.bind {α β : Type} {p : BitReader → Except EngineError (α × BitReader)} {R : Reading α}
    {q : α × BitReader → Except EngineError (β × BitReader)} {S : α → Reading β} (hp : Agrees p R)
    (hq : ∀ x, Agrees (fun r => q (x, r)) (S x)) : Agrees (fun r => p r >>= q) (R.andThen S) :=
  hp.bindOn (Q := fun _ => True) (fun _ _ _ _ _ _ => trivial) fun x _ => hq x

/-- A check and then a reader, for when the check holds. -/
theorem Agrees.check {β : Type} {ok : Bool} {P : Prop} {e : EngineError}
    {q : BitReader → Unit → Except EngineError (β × BitReader)} {S : Unit → Reading β} (hok : ok = true ↔ P)
    (hq : P → Agrees (fun r => q r ()) (S ())) :
    Agrees (fun r => require ok e >>= q r) ((checked P e).andThen S) := by
  intro r out
  show outcome (require ok e >>= q r) = out ↔ _
  unfold Reading.andThen checked
  cases ok with
  | false =>
    have hP : ¬ P := fun h => by simpa using hok.mpr h
    have hl : (require false e >>= q r) = .error e := rfl
    rw [hl, outcome_error]
    constructor
    · rintro rfl; exact .inl ⟨e, .inr ⟨hP, rfl⟩, rfl⟩
    · rintro (⟨e', h1 | h1, rfl⟩ | ⟨x, pos, rest, h1 | h1, -⟩)
      · exact absurd h1.1 hP
      · cases h1.2; rfl
      · exact absurd h1.1 hP
      · cases h1.2
  | true =>
    have hP : P := hok.mp rfl
    have hl : (require true e >>= q r) = q r () := rfl
    rw [hl, hq hP r out]
    constructor
    · intro h; exact .inr ⟨(), _, _, .inl ⟨hP, rfl⟩, h⟩
    · rintro (⟨e', h1 | h1, rfl⟩ | ⟨x, pos, rest, h1 | h1, h2⟩)
      · cases h1.2
      · exact absurd hP h1.1
      · cases h1.2; exact h2
      · cases h1.2

/-- A reader that reads nothing. -/
theorem Agrees.pure {α : Type} (x : α) : Agrees (fun r => .ok (x, r)) (result x) := by
  intro r out
  simp [Machine.result, eq_comm]

/-- Equal readers agree with the same readings. -/
theorem Agrees.congr {α : Type} {p p' : BitReader → Except EngineError (α × BitReader)} {R : Reading α}
    (h : Agrees p R) (hp : ∀ r, p' r = p r) : Agrees p' R := fun r out => by rw [hp]; exact h r out

/-! ### Fields -/

/-- The number of a bit string fits its length. -/
theorem bitsValue_lt (v : Nat) (bs : List Bool) : bitsValue v bs < (v + 1) * 2 ^ bs.length := by
  induction bs generalizing v with
  | nil => simp [bitsValue]
  | cons b bs ih =>
    refine (ih _).trans_le ?_
    rw [List.length_cons, pow_succ']
    calc (2 * v + b.toNat + 1) * 2 ^ bs.length ≤ (2 * (v + 1)) * 2 ^ bs.length :=
          Nat.mul_le_mul_right _ (by cases b <;> simp; omega)
      _ = (v + 1) * (2 * 2 ^ bs.length) := by ring

/-- A bit string is the bits of its number. -/
theorem bitsMSB_bitsValue (bs : List Bool) (v : Nat) : bitsMSB (bitsValue v bs) bs.length = bs := by
  induction bs generalizing v with
  | nil => rfl
  | cons b bs ih =>
    rw [bitsValue, List.length_cons, bitsMSB, ih]
    congr 1
    have hlow : ∀ (w : Nat) (cs : List Bool), bitsValue w cs = w * 2 ^ cs.length + bitsValue 0 cs := by
      intro w cs
      induction cs generalizing w with
      | nil => simp [bitsValue]
      | cons c cs ihc =>
        rw [bitsValue, bitsValue, ihc, ihc (2 * 0 + c.toNat), List.length_cons, pow_succ]
        ring
    have hlt : bitsValue 0 bs < 2 ^ bs.length := by simpa using bitsValue_lt 0 bs
    rw [hlow, Nat.mul_comm, Nat.testBit_two_pow_mul_add _ hlt, if_neg (by omega), Nat.sub_self, Nat.testBit_zero]
    cases b <;> simp

/-- The number of the bits of a number that fits. -/
theorem bitsValue_bitsMSB {v n : Nat} (h : v < 2 ^ n) : bitsValue 0 (bitsMSB v n) = v := by
  have hlt : bitsValue 0 (bitsMSB v n) < 2 ^ n := by simpa using bitsValue_lt 0 (bitsMSB v n)
  have heq := bitsMSB_bitsValue (bitsMSB v n) 0
  rw [bitsMSB_length] at heq
  have hbits : ∀ (n a b : Nat), bitsMSB a n = bitsMSB b n → ∀ i, i < n → a.testBit i = b.testBit i := by
    intro n a b hab i hi
    induction n with
    | zero => omega
    | succ n ih =>
      rw [bitsMSB, bitsMSB, List.cons.injEq] at hab
      by_cases hin : i = n
      · subst hin; exact hab.1
      · exact ih hab.2 (by omega)
  have hinj : ∀ (n : Nat) {a b : Nat}, a < 2 ^ n → b < 2 ^ n → bitsMSB a n = bitsMSB b n → a = b := by
    intro n a b ha hb hab
    apply Nat.eq_of_testBit_eq
    intro i
    by_cases hi : i < n
    · exact hbits n a b hab i hi
    · rw [Nat.testBit_lt_two_pow (ha.trans_le (Nat.pow_le_pow_right (by decide) (by omega))),
        Nat.testBit_lt_two_pow (hb.trans_le (Nat.pow_le_pow_right (by decide) (by omega)))]
  exact hinj n hlt h heq

/-- `readBits` reads a field (41_bitstream.md R151). -/
theorem agrees_field (n : Nat) : Agrees (fun r => r.readBits n) (fieldOf n) := by
  intro r out
  show outcome (r.readBits n) = out ↔ _
  unfold fieldOf
  rcases readBits_cases r n with ⟨hd, tl, hr, hlen, h⟩ | ⟨hlt, h⟩
  · rw [h]
    constructor
    · rintro rfl
      left
      refine ⟨bitsValue 0 hd, tl, ?_, ?_, rfl⟩
      · have := bitsValue_lt 0 hd
        rw [hlen] at this
        simpa using this
      · rw [hr, ← hlen, bitsMSB_bitsValue]
    · rintro (⟨v, rest, hv, hb, rfl⟩ | ⟨hlt, -⟩)
      · rw [hr] at hb
        obtain ⟨h1, h2⟩ := List.append_inj hb (by simp [hlen])
        subst h1 h2
        simp [bitsValue_bitsMSB hv]
      · rw [hr] at hlt; simp at hlt; omega
  · rw [h]
    constructor
    · rintro rfl; exact .inr ⟨hlt, rfl⟩
    · rintro (⟨v, rest, hv, hb, rfl⟩ | ⟨-, rfl⟩)
      · rw [hb] at hlt; simp at hlt
      · rfl

/-- A reader that reads bit by bit agrees with its reading when it stops at the bits the reading names, and runs out
otherwise. -/
theorem agrees_bitwise {α : Type} {p : BitReader → Except EngineError (α × BitReader)}
    {full : α → List Bool → Prop} {bad : EngineError → List Bool → Prop}
    (hok : ∀ r x r', p r = .ok (x, r') → ∃ read, full x read ∧ r.rest = read ++ r'.rest ∧ r'.pos = r.pos + read.length)
    (herr : ∀ r e, p r = .error e → e = truncatedInput (r.pos + r.rest.length) ∨
      ∃ read rest, bad e read ∧ r.rest = read ++ rest)
    (hfull : ∀ x read pos rest, full x read → p ⟨pos, read ++ rest⟩ = .ok (x, ⟨pos + read.length, rest⟩))
    (hbad : ∀ e read pos rest, bad e read → p ⟨pos, read ++ rest⟩ = .error e ∧ e.code ≠ .truncatedInput) :
    Agrees p (bitwise full bad) := by
  rintro ⟨pos, bits⟩ out
  unfold bitwise
  constructor
  · rintro rfl
    cases h : p ⟨pos, bits⟩ with
    | ok y =>
      obtain ⟨x, r'⟩ := y
      obtain ⟨read, h1, h2, h3⟩ := hok _ _ _ h
      exact .inl ⟨x, read, r'.rest, h1, h2, by rw [outcome_ok, h3]⟩
    | error e =>
      rcases herr _ _ h with rfl | ⟨read, rest, h1, h2⟩
      · refine .inr (.inr ⟨?_, rfl⟩)
        intro read rest hb
        subst hb
        refine ⟨fun x hx => ?_, fun e he => ?_⟩
        · rw [hfull _ _ _ _ hx] at h; cases h
        · obtain ⟨h1, h2⟩ := hbad _ _ pos rest he
          rw [h1] at h
          cases h
          exact h2 rfl
      · exact .inr (.inl ⟨e, read, rest, h1, h2, rfl⟩)
  · rintro (⟨x, read, rest, h1, h2, rfl⟩ | ⟨e, read, rest, h1, h2, rfl⟩ | ⟨h1, rfl⟩)
    · simp only at h2
      subst h2
      rw [hfull _ _ _ _ h1]; rfl
    · simp only at h2
      subst h2
      rw [(hbad _ _ _ _ h1).1]; rfl
    · cases h : p ⟨pos, bits⟩ with
      | ok y =>
        obtain ⟨x, r'⟩ := y
        obtain ⟨read, h3, h4, -⟩ := hok _ _ _ h
        exact absurd h3 ((h1 _ _ h4).1 x)
      | error e =>
        rcases herr _ _ h with rfl | ⟨read, rest, h3, h4⟩
        · rfl
        · exact absurd h3 ((h1 _ _ h4).2 e)

/-! ### The used map (47_block_stream.md R272) -/

/-- One bit, as a case on the bits left. -/
theorem readBits_one (r : BitReader) : r.readBits 1 = match r.rest with
    | [] => .error (truncatedInput r.pos)
    | b :: bs => .ok (b.toNat, ⟨r.pos + 1, bs⟩) := by
  unfold BitReader.readBits
  cases r.rest with
  | nil => rfl
  | cons b bs => simp [splitBits, bitsValue]

/-- Bits that stand there are read as they are. -/
theorem readFlags_append (bs : List Bool) (pos : Nat) (rest : List Bool) :
    readFlags bs.length ⟨pos, bs ++ rest⟩ = .ok (bs, ⟨pos + bs.length, rest⟩) := by
  induction bs generalizing pos with
  | nil => rfl
  | cons b bs ih =>
    simp only [List.length_cons, readFlags, readBits_one, List.cons_append, ih]
    cases b <;> simp <;> omega

/-- Everything a reading of single bits can do: give `n` bits, or run out of them. -/
theorem readFlags_cases (n : Nat) (r : BitReader) :
    (∃ bs rest, bs.length = n ∧ r.rest = bs ++ rest ∧ readFlags n r = .ok (bs, ⟨r.pos + n, rest⟩)) ∨
    (r.rest.length < n ∧ readFlags n r = .error (truncatedInput (r.pos + r.rest.length))) := by
  by_cases h : n ≤ r.rest.length
  · left
    refine ⟨r.rest.take n, r.rest.drop n, by simp [h], by simp, ?_⟩
    have := readFlags_append (r.rest.take n) r.pos (r.rest.drop n)
    simpa [List.length_take, Nat.min_eq_left h] using this
  · right
    refine ⟨by omega, ?_⟩
    induction n generalizing r with
    | zero => omega
    | succ n ih =>
      rw [readFlags, readBits_one]
      cases hr : r.rest with
      | nil => rfl
      | cons b bs =>
        simp only
        rw [ih ⟨r.pos + 1, bs⟩ (by simp only [hr, List.length_cons] at h; simp only; omega)]
        simp [List.length_cons]; omega

/-- The values of the marked ranges from range `i` on. -/
def rangeValues : Nat → List Bool → List (List Bool) → List Byte
  | _, [], _ => []
  | i, false :: hs, vs => rangeValues (i + 1) hs vs
  | i, true :: hs, v :: vs =>
    ((List.range 16).filter (fun j => v.getD j false)).map (fun j => BitVec.ofNat 8 (16 * i + j)) ++
      rangeValues (i + 1) hs vs
  | _, true :: _, [] => []

/-- The values of the marked ranges that stand there are read as they are. -/
theorem readRanges_append (hs : List Bool) (i pos : Nat) (vs : List (List Bool)) (rest : List Bool)
    (hl : vs.length = hs.count true) (h16 : ∀ v ∈ vs, v.length = 16) :
    readRanges i hs ⟨pos, vs.flatten ++ rest⟩ = .ok (rangeValues i hs vs, ⟨pos + vs.flatten.length, rest⟩) := by
  induction hs generalizing i pos vs with
  | nil =>
    simp at hl
    subst hl
    rfl
  | cons b hs ih =>
    cases b with
    | false => exact ih (i + 1) pos vs (by simpa using hl) h16
    | true =>
      cases vs with
      | nil => simp at hl
      | cons v vs =>
        have hv := h16 v (by simp)
        have hf := readFlags_append v pos (vs.flatten ++ rest)
        rw [hv] at hf
        simp only [readRanges, List.flatten_cons, List.append_assoc, hf, rangeValues,
          ih (i + 1) (pos + 16) vs (by simpa using hl) (fun w hw => h16 w (by simp [hw]))]
        simp [hv]; omega

/-- Everything a reading of the marked ranges can do. -/
theorem readRanges_cases (hs : List Bool) (i : Nat) (r : BitReader) :
    (∃ vs rest, vs.length = hs.count true ∧ (∀ v ∈ vs, v.length = 16) ∧ r.rest = vs.flatten ++ rest ∧
      readRanges i hs r = .ok (rangeValues i hs vs, ⟨r.pos + vs.flatten.length, rest⟩)) ∨
    readRanges i hs r = .error (truncatedInput (r.pos + r.rest.length)) := by
  induction hs generalizing i r with
  | nil => exact .inl ⟨[], r.rest, rfl, by simp, by simp, rfl⟩
  | cons b hs ih =>
    cases b with
    | false => simpa [readRanges, rangeValues] using ih (i + 1) r
    | true =>
      rcases readFlags_cases 16 r with ⟨v, rest, hv, hr, hf⟩ | ⟨hlt, hf⟩
      · rcases ih (i + 1) ⟨r.pos + 16, rest⟩ with ⟨vs, rest', h1, h2, h3, h4⟩ | h
        · left
          refine ⟨v :: vs, rest', by simp [h1], by simpa [hv] using h2, by rw [hr]; simp at h3; simp [h3], ?_⟩
          simp only [readRanges, hf, h4, rangeValues]
          simp [hv]; omega
        · right
          simp only [readRanges, hf, h]
          rw [hr]; simp [hv]; omega
      · right
        simp only [readRanges, hf]

/-- The byte values read are those marked. -/
theorem mem_rangeValues {i : Nat} {hs : List Bool} {vs : List (List Bool)} (hi : i + hs.length ≤ 16)
    (hl : vs.length = hs.count true) (h16 : ∀ v ∈ vs, v.length = 16) (x : Byte) :
    x ∈ rangeValues i hs vs ↔ i ≤ x.toNat / 16 ∧ hs[x.toNat / 16 - i]? = some true ∧
      (vs.getD ((hs.take (x.toNat / 16 - i)).count true) [])[x.toNat % 16]? = some true := by
  induction hs generalizing i vs with
  | nil => simp [rangeValues]
  | cons b hs ih =>
    simp only [List.length_cons] at hi
    have hshift : ∀ {k : Nat}, i + 1 ≤ k → k - i = (k - (i + 1)) + 1 := by intro k hk; omega
    cases b with
    | false =>
      rw [rangeValues, ih (by omega) (by simpa using hl) h16]
      by_cases hk : i + 1 ≤ x.toNat / 16
      · rw [hshift hk]
        simp [hk, show i ≤ x.toNat / 16 by omega]
      · by_cases he : i = x.toNat / 16
        · simp [he]
        · simp [hk, show ¬ i ≤ x.toNat / 16 by omega]
    | true =>
      cases vs with
      | nil => simp at hl
      | cons v vs =>
        have hv := h16 v (by simp)
        rw [rangeValues, List.mem_append, ih (by omega) (by simpa using hl) (fun w hw => h16 w (by simp [hw]))]
        have hblock : x ∈ ((List.range 16).filter (fun j => v.getD j false)).map (fun j => BitVec.ofNat 8 (16 * i + j)) ↔
            x.toNat / 16 = i ∧ v[x.toNat % 16]? = some true := by
          simp only [List.mem_map, List.mem_filter, List.mem_range, List.getD_eq_getElem?_getD]
          constructor
          · rintro ⟨j, ⟨hj, hvj⟩, rfl⟩
            have : (BitVec.ofNat 8 (16 * i + j)).toNat = 16 * i + j := by simp; omega
            rw [this, show (16 * i + j) / 16 = i by omega, show (16 * i + j) % 16 = j by omega]
            refine ⟨rfl, ?_⟩
            rw [List.getElem?_eq_getElem (by omega)] at hvj ⊢
            simpa using hvj
          · rintro ⟨h1, h2⟩
            refine ⟨x.toNat % 16, ⟨Nat.mod_lt _ (by decide), by simp [h2]⟩, ?_⟩
            apply BitVec.eq_of_toNat_eq
            have := x.isLt
            simp only [BitVec.toNat_ofNat]
            omega
        rw [hblock]
        by_cases hk : i + 1 ≤ x.toNat / 16
        · rw [hshift hk]
          simp [hk, show i ≤ x.toNat / 16 by omega, show x.toNat / 16 ≠ i by omega]
        · by_cases he : x.toNat / 16 = i
          · simp [he]
          · simp [hk, he, show ¬ i ≤ x.toNat / 16 by omega]

/-- The byte values read are in increasing order. -/
theorem rangeValues_sorted {i : Nat} {hs : List Bool} {vs : List (List Bool)} (hi : i + hs.length ≤ 16)
    (hl : vs.length = hs.count true) (h16 : ∀ v ∈ vs, v.length = 16) :
    (rangeValues i hs vs).Pairwise fun u v => u.toNat < v.toNat := by
  induction hs generalizing i vs with
  | nil => simp [rangeValues]
  | cons b hs ih =>
    simp only [List.length_cons] at hi
    cases b with
    | false => exact ih (by omega) (by simpa using hl) h16
    | true =>
      cases vs with
      | nil => simp [rangeValues]
      | cons v vs =>
        have hl' : vs.length = hs.count true := by simpa using hl
        have h16' : ∀ w ∈ vs, w.length = 16 := fun w hw => h16 w (by simp [hw])
        rw [rangeValues, List.pairwise_append]
        refine ⟨?_, ih (by omega) hl' h16', ?_⟩
        · rw [List.pairwise_map]
          refine ((List.pairwise_lt_range (n := 16)).filter _).imp_of_mem ?_
          intro a b ha hb hab
          have ha' := List.mem_range.mp (List.mem_filter.mp ha).1
          have hb' := List.mem_range.mp (List.mem_filter.mp hb).1
          simp only [BitVec.toNat_ofNat]
          omega
        · intro x hx y hy
          have hy' := ((mem_rangeValues (by omega) hl' h16' y).mp hy).1
          simp only [List.mem_map, List.mem_filter, List.mem_range] at hx
          obtain ⟨j, ⟨hj, -⟩, rfl⟩ := hx
          simp only [BitVec.toNat_ofNat]
          omega

/-- A sorted list of bytes is determined by its members. -/
theorem sorted_ext {xs ys : List Byte} (hx : xs.Pairwise fun u v => u.toNat < v.toNat)
    (hy : ys.Pairwise fun u v => u.toNat < v.toNat) (h : ∀ v, v ∈ xs ↔ v ∈ ys) : xs = ys := by
  have hn : ∀ {zs : List Byte}, (zs.Pairwise fun u v => u.toNat < v.toNat) → zs.Nodup := fun hz =>
    hz.imp fun hlt he => by rw [he] at hlt; exact lt_irrefl _ hlt
  refine List.Perm.eq_of_pairwise (le := fun u v : Byte => u.toNat < v.toNat) (fun a b _ _ h1 h2 => ?_) hx hy
    ((List.perm_ext_iff_of_nodup (hn hx) (hn hy)).mpr h)
  omega

/-- `readUsed` does what R272 says. -/
theorem agrees_readUsed : Agrees readUsed (bitwise IsUsedMap fun _ _ => False) := by
  refine agrees_bitwise ?_ ?_ ?_ (fun _ _ _ _ h => h.elim)
  · intro r x r' h
    unfold readUsed at h
    rcases readFlags_cases 16 r with ⟨hs, rest, hl, hr, hf⟩ | ⟨-, hf⟩
    · rw [hf] at h
      simp only at h
      rcases readRanges_cases hs 0 ⟨r.pos + 16, rest⟩ with ⟨vs, rest', h1, h2, h3, h4⟩ | h4
      · rw [h4] at h
        cases h
        simp only at h3
        refine ⟨hs ++ vs.flatten, ⟨hs, vs, hl, h1, h2, rfl, rangeValues_sorted (by omega) h1 h2, fun v => ?_⟩, ?_, ?_⟩
        · rw [mem_rangeValues (by omega) h1 h2]; simp
        · rw [hr, h3]; simp
        · simp [hl]; omega
      · rw [h4] at h; cases h
    · rw [hf] at h; cases h
  · intro r e h
    left
    unfold readUsed at h
    rcases readFlags_cases 16 r with ⟨hs, rest, hl, hr, hf⟩ | ⟨-, hf⟩
    · rw [hf] at h
      simp only at h
      rcases readRanges_cases hs 0 ⟨r.pos + 16, rest⟩ with ⟨vs, rest', h1, h2, h3, h4⟩ | h4
      · rw [h4] at h; cases h
      · rw [h4] at h
        cases h
        rw [hr]; simp [hl]; omega
    · rw [hf] at h; cases h; rfl
  · rintro x read pos rest ⟨hs, vs, hl, h1, h2, rfl, hsort, hmem⟩
    have hf := readFlags_append hs pos (vs.flatten ++ rest)
    rw [hl] at hf
    rw [readUsed, List.append_assoc, hf]
    simp only
    rw [readRanges_append hs 0 (pos + 16) vs rest h1 h2]
    have : rangeValues 0 hs vs = x := sorted_ext (rangeValues_sorted (by omega) h1 h2) hsort fun v => by
      rw [mem_rangeValues (by omega) h1 h2, hmem]; simp
    rw [this]
    simp [hl]; omega

/-! ### Selectors (47_block_stream.md R272) -/

/-- Moving the element found at its index to the front. -/
theorem moveFront_idxOf {α : Type} [DecidableEq α] {lst : List α} {x : α} (h : x ∈ lst) :
    moveFront lst (lst.idxOf x) = x :: lst.erase x := by
  have hlt := List.idxOf_lt_length_iff.mpr h
  rw [moveFront, List.getElem?_eq_getElem hlt]
  simp only [List.getElem_idxOf, List.eraseIdx_idxOf_eq_erase]

/-- An element moved to the front leaves the same elements. -/
theorem mem_moveToFront {α : Type} [DecidableEq α] {lst : List α} {x y : α} (h : x ∈ lst) :
    y ∈ x :: lst.erase x ↔ y ∈ lst := by
  rw [List.mem_cons]
  by_cases hxy : y = x
  · subst hxy; simp [h]
  · simp [hxy, List.mem_erase_of_ne hxy]

/-- An element moved to the front leaves as many elements. -/
theorem length_moveToFront {α : Type} [DecidableEq α] {lst : List α} {x : α} (h : x ∈ lst) :
    (x :: lst.erase x).length = lst.length := by
  have := List.length_pos_of_mem h
  rw [List.length_cons, List.length_erase_of_mem h]
  omega

/-- An element moved to the front leaves the elements different. -/
theorem nodup_moveToFront {α : Type} [DecidableEq α] {lst : List α} {x : α} (h : lst.Nodup) :
    (x :: lst.erase x).Nodup := by
  rw [List.nodup_cons]
  exact ⟨h.not_mem_erase, h.erase x⟩

/-- Everything a unary code can do (47_block_stream.md R272). -/
theorem readUnary_append (left j k pos : Nat) (rest : List Bool) (h : k < left) :
    readUnary left j ⟨pos, List.replicate k true ++ false :: rest⟩ = .ok (j + k, ⟨pos + k + 1, rest⟩) := by
  induction left generalizing j k pos with
  | zero => omega
  | succ left ih =>
    cases k with
    | zero => simp [readUnary, readBits_one]
    | succ k =>
      rw [readUnary, readBits_one]
      simp only [List.replicate_succ, List.cons_append, Bool.toNat_true, if_true]
      rw [ih (j + 1) k (pos + 1) (by omega)]
      simp; omega

/-- As many ones as are allowed are BAD_SELECTOR. -/
theorem readUnary_full (left j pos : Nat) (rest : List Bool) :
    readUnary left j ⟨pos, List.replicate left true ++ rest⟩ = .error (formatError 6) := by
  induction left generalizing j pos with
  | zero => rfl
  | succ left ih =>
    rw [readUnary, readBits_one]
    simp only [List.replicate_succ, List.cons_append, Bool.toNat_true, if_true]
    exact ih _ _

/-- Everything a unary number can do: end in a zero, reach its bound, or run out of bits. -/
theorem readUnary_cases (left j : Nat) (r : BitReader) :
    (∃ k rest, k < left ∧ r.rest = List.replicate k true ++ false :: rest ∧
      readUnary left j r = .ok (j + k, ⟨r.pos + k + 1, rest⟩)) ∨
    (∃ rest, r.rest = List.replicate left true ++ rest ∧ readUnary left j r = .error (formatError 6)) ∨
    readUnary left j r = .error (truncatedInput (r.pos + r.rest.length)) := by
  induction left generalizing j r with
  | zero => exact .inr (.inl ⟨r.rest, by simp, rfl⟩)
  | succ left ih =>
    rw [readUnary, readBits_one]
    cases hr : r.rest with
    | nil => exact .inr (.inr rfl)
    | cons b bs =>
      cases b with
      | false => exact .inl ⟨0, bs, by omega, rfl, rfl⟩
      | true =>
        simp only [Bool.toNat_true, if_true]
        rcases ih (j + 1) ⟨r.pos + 1, bs⟩ with ⟨k, rest, h1, h2, h3⟩ | ⟨rest, h2, h3⟩ | h3
        · left
          refine ⟨k + 1, rest, by omega, ?_, ?_⟩
          · simp only at h2; rw [h2]; rfl
          · rw [h3]; simp; omega
        · right; left
          refine ⟨rest, ?_, h3⟩
          simp only at h2; rw [h2]; rfl
        · right; right
          rw [h3]; simp; omega

/-- The unary positions of selectors from a list state on. -/
def unaryPositions (lst sel : List Nat) : List Bool :=
  (frontPositions lst sel).flatMap fun j => List.replicate j true ++ [false]

/-- The first selector and the others. -/
theorem unaryPositions_cons (lst : List Nat) (x : Nat) (sel : List Nat) : unaryPositions lst (x :: sel) =
    List.replicate (lst.idxOf x) true ++ false :: unaryPositions (x :: lst.erase x) sel := by
  simp [unaryPositions, frontPositions]

/-- Selectors that stand there are read as they are. -/
theorem readSelectorsFrom_append (nGroups : Nat) (sel : List Nat) (lst : List Nat) (pos : Nat) (rest : List Bool)
    (hlen : lst.length = nGroups) (hsel : ∀ x ∈ sel, x ∈ lst) :
    readSelectorsFrom nGroups sel.length lst ⟨pos, unaryPositions lst sel ++ rest⟩ =
      .ok (sel, ⟨pos + (unaryPositions lst sel).length, rest⟩) := by
  induction sel generalizing lst pos with
  | nil => rfl
  | cons x sel ih =>
    have hx := hsel x (by simp)
    have hlt := List.idxOf_lt_length_iff.mpr hx
    rw [unaryPositions_cons, List.append_assoc, List.cons_append, List.length_cons, readSelectorsFrom,
      readUnary_append _ _ _ _ _ (by omega)]
    simp only [Nat.zero_add]
    rw [moveFront_idxOf hx, ih _ _ (by rw [length_moveToFront hx, hlen]) fun y hy => by
      rw [mem_moveToFront hx]; exact hsel y (by simp [hy])]
    simp [hlt]; omega

/-- A selector that reaches nGroups is BAD_SELECTOR. -/
theorem readSelectorsFrom_bad (nGroups n : Nat) (sel : List Nat) (lst : List Nat) (pos : Nat) (rest : List Bool)
    (hn : sel.length < n) (hlen : lst.length = nGroups) (hsel : ∀ x ∈ sel, x ∈ lst) :
    readSelectorsFrom nGroups n lst ⟨pos, unaryPositions lst sel ++ (List.replicate nGroups true ++ rest)⟩ =
      .error (formatError 6) := by
  induction sel generalizing lst pos n with
  | nil =>
    obtain ⟨n, rfl⟩ := Nat.exists_eq_add_of_lt hn
    rw [show unaryPositions lst [] = [] from rfl, List.nil_append, readSelectorsFrom, readUnary_full]
  | cons x sel ih =>
    cases n with
    | zero => simp at hn
    | succ n =>
      have hx := hsel x (by simp)
      have hlt := List.idxOf_lt_length_iff.mpr hx
      rw [unaryPositions_cons, List.append_assoc, List.cons_append, readSelectorsFrom,
        readUnary_append _ _ _ _ _ (by omega)]
      simp only [Nat.zero_add]
      rw [moveFront_idxOf hx, ih n _ _ (by simpa using hn) (by rw [length_moveToFront hx, hlen]) fun y hy => by
        rw [mem_moveToFront hx]; exact hsel y (by simp [hy])]

/-- Everything a reading of selectors can do. -/
theorem readSelectorsFrom_cases (nGroups n : Nat) (lst : List Nat) (r : BitReader) (hlen : lst.length = nGroups)
    (hnd : lst.Nodup) :
    (∃ sel rest, sel.length = n ∧ (∀ x ∈ sel, x ∈ lst) ∧ r.rest = unaryPositions lst sel ++ rest ∧
      readSelectorsFrom nGroups n lst r = .ok (sel, ⟨r.pos + (unaryPositions lst sel).length, rest⟩)) ∨
    (∃ sel rest, sel.length < n ∧ (∀ x ∈ sel, x ∈ lst) ∧
      r.rest = unaryPositions lst sel ++ (List.replicate nGroups true ++ rest) ∧
      readSelectorsFrom nGroups n lst r = .error (formatError 6)) ∨
    readSelectorsFrom nGroups n lst r = .error (truncatedInput (r.pos + r.rest.length)) := by
  induction n generalizing lst r with
  | zero => exact .inl ⟨[], r.rest, rfl, by simp, rfl, rfl⟩
  | succ n ih =>
    rw [readSelectorsFrom]
    rcases readUnary_cases nGroups 0 r with ⟨k, rest, h1, h2, h3⟩ | ⟨rest, h2, h3⟩ | h3
    · have hk : k < lst.length := by omega
      have hx : lst[k] ∈ lst := List.getElem_mem hk
      have hidx : lst.idxOf lst[k] = k := hnd.idxOf_getElem k hk
      have hgd : lst.getD k 0 = lst[k] := by simp [hk]
      have hmv : moveFront lst k = lst[k] :: lst.erase lst[k] := by
        have := moveFront_idxOf hx
        rwa [hidx] at this
      rw [h3]
      simp only [Nat.zero_add, hgd, hmv]
      have hmem : ∀ {sel : List Nat}, (∀ x ∈ sel, x ∈ lst[k] :: lst.erase lst[k]) → ∀ x ∈ lst[k] :: sel, x ∈ lst := by
        intro sel hsel x hxs
        rcases List.mem_cons.mp hxs with rfl | hxs
        · exact hx
        · exact (mem_moveToFront hx).mp (hsel x hxs)
      rcases ih (lst[k] :: lst.erase lst[k]) ⟨r.pos + k + 1, rest⟩ (by rw [length_moveToFront hx, hlen])
        (nodup_moveToFront hnd) with ⟨sel, rest', h4, h5, h6, h7⟩ | ⟨sel, rest', h4, h5, h6, h7⟩ | h7
      · left
        simp only at h6
        refine ⟨lst[k] :: sel, rest', by simp [h4], hmem h5, ?_, ?_⟩
        · rw [h2, h6, unaryPositions_cons, hidx]; simp
        · rw [h7, unaryPositions_cons, hidx]; simp; omega
      · right; left
        simp only at h6
        refine ⟨lst[k] :: sel, rest', by simpa using h4, hmem h5, ?_, by rw [h7]⟩
        rw [h2, h6, unaryPositions_cons, hidx]; simp
      · right; right
        rw [h7, h2]; simp; omega
    · right; left
      exact ⟨[], rest, by simp, by simp, h2, by rw [h3]⟩
    · right; right
      rw [h3]

/-- The selectors are read as R272 says. -/
theorem agrees_readSelectors (nSel nGroups : Nat) :
    Agrees (readSelectors nSel nGroups) (bitwise (IsSelectors nSel nGroups) (IsBadSelector nSel nGroups)) := by
  have hlen : (List.range nGroups).length = nGroups := List.length_range
  refine agrees_bitwise ?_ ?_ ?_ ?_
  · intro r x r' h
    unfold readSelectors at h
    rcases readSelectorsFrom_cases nGroups nSel _ r hlen List.nodup_range with
      ⟨sel, rest, h1, h2, h3, h4⟩ | ⟨sel, rest, h1, h2, h3, h4⟩ | h4
    · rw [h4] at h
      cases h
      exact ⟨_, ⟨h1, by simpa using h2, rfl⟩, h3, rfl⟩
    · rw [h4] at h; cases h
    · rw [h4] at h; cases h
  · intro r e h
    unfold readSelectors at h
    rcases readSelectorsFrom_cases nGroups nSel _ r hlen List.nodup_range with
      ⟨sel, rest, h1, h2, h3, h4⟩ | ⟨sel, rest, h1, h2, h3, h4⟩ | h4
    · rw [h4] at h; cases h
    · rw [h4] at h
      cases h
      exact .inr ⟨_, rest, ⟨sel, h1, by simpa using h2, rfl, rfl⟩, by rw [h3]; simp [unaryPositions, selectorField]⟩
    · rw [h4] at h; cases h; exact .inl rfl
  · rintro x read pos rest ⟨rfl, h2, rfl⟩
    exact readSelectorsFrom_append nGroups x _ pos rest hlen (by simpa using h2)
  · rintro e read pos rest ⟨sel, h1, h2, rfl, rfl⟩
    refine ⟨?_, by decide⟩
    rw [List.append_assoc]
    exact readSelectorsFrom_bad nGroups nSel sel _ pos rest h1 hlen (by simpa using h2)

/-! ### Code lengths (47_block_stream.md R272) -/

/-- A legal length. -/
theorem lengthOk_iff (l : Nat) : lengthOk l = true ↔ 1 ≤ l ∧ l ≤ 20 := by simp [lengthOk]

/-- Steps to a legal length and a zero are read as they are. -/
theorem readSteps_append {l l' : Nat} {steps : List Bool} (h : IsSteps l l' steps) (hl : 1 ≤ l' ∧ l' ≤ 20) (pos : Nat)
    (rest : List Bool) : readSteps l pos (steps ++ false :: rest) = .ok (l', ⟨pos + steps.length + 1, rest⟩) := by
  induction h generalizing pos with
  | stay l => simp [readSteps, (lengthOk_iff l).mpr hl]
  | up l l' bits h1 h2 _ ih =>
    simp only [List.cons_append, readSteps, (lengthOk_iff l).mpr ⟨h1, h2⟩, if_true, Bool.false_eq_true, if_false]
    rw [ih hl]; simp; omega
  | down l l' bits h1 h2 _ ih =>
    simp only [List.cons_append, readSteps, (lengthOk_iff l).mpr ⟨h1, h2⟩, if_true]
    rw [ih hl]; simp; omega

/-- Steps that leave the legal lengths are HUFFMAN_OVERFLOW. -/
theorem readSteps_bad {l l' : Nat} {steps : List Bool} (h : IsSteps l l' steps) (hl : ¬(1 ≤ l' ∧ l' ≤ 20)) (pos : Nat)
    (rest : List Bool) : readSteps l pos (steps ++ rest) = .error { code := .huffmanOverflow } := by
  induction h generalizing pos with
  | stay l =>
    have : lengthOk l = false := by rw [← Bool.not_eq_true, lengthOk_iff]; exact hl
    rw [List.nil_append]
    rcases rest with _ | ⟨_ | _, _ | ⟨_, _⟩⟩ <;> simp [readSteps, this]
  | up l l' bits h1 h2 _ ih =>
    simp only [List.cons_append, readSteps, (lengthOk_iff l).mpr ⟨h1, h2⟩, if_true, Bool.false_eq_true, if_false]
    exact ih hl _
  | down l l' bits h1 h2 _ ih =>
    simp only [List.cons_append, readSteps, (lengthOk_iff l).mpr ⟨h1, h2⟩, if_true]
    exact ih hl _

/-- Everything a reading of steps can do. -/
theorem readSteps_cases (l pos : Nat) (bits : List Bool) :
    (∃ l' steps rest, IsSteps l l' steps ∧ 1 ≤ l' ∧ l' ≤ 20 ∧ bits = steps ++ false :: rest ∧
      readSteps l pos bits = .ok (l', ⟨pos + steps.length + 1, rest⟩)) ∨
    (∃ l' steps rest, IsSteps l l' steps ∧ ¬(1 ≤ l' ∧ l' ≤ 20) ∧ bits = steps ++ rest ∧
      readSteps l pos bits = .error { code := .huffmanOverflow }) ∨
    readSteps l pos bits = .error (truncatedInput (pos + bits.length)) := by
  by_cases hl : 1 ≤ l ∧ l ≤ 20
  · have hok := (lengthOk_iff l).mpr hl
    induction bits using List.twoStepInduction generalizing l pos with
    | nil => exact .inr (.inr (by simp [readSteps, hok]))
    | singleton b =>
      cases b with
      | false => exact .inl ⟨l, [], [], .stay l, hl.1, hl.2, rfl, by simp [readSteps, hok]⟩
      | true => exact .inr (.inr (by simp [readSteps, hok]))
    | cons_cons b c bits ih _ =>
      cases b with
      | false => exact .inl ⟨l, [], c :: bits, .stay l, hl.1, hl.2, rfl, by simp [readSteps, hok]⟩
      | true =>
        have hstep : ∀ l₁, (c = false → l₁ = l + 1) → (c = true → l₁ = l - 1) →
            readSteps l pos (true :: c :: bits) = readSteps l₁ (pos + 2) bits ∧
            ∀ l' steps, IsSteps l₁ l' steps → IsSteps l l' (true :: c :: steps) := by
          intro l₁ h1 h2
          cases c with
          | false =>
            rw [h1 rfl]
            exact ⟨by simp [readSteps, hok], fun l' steps h => .up _ _ _ hl.1 hl.2 h⟩
          | true =>
            rw [h2 rfl]
            exact ⟨by simp [readSteps, hok], fun l' steps h => .down _ _ _ hl.1 hl.2 h⟩
        obtain ⟨l₁, h1, h2⟩ : ∃ l₁, (c = false → l₁ = l + 1) ∧ (c = true → l₁ = l - 1) := by
          cases c
          · exact ⟨l + 1, by simp⟩
          · exact ⟨l - 1, by simp⟩
        obtain ⟨heq, hsteps⟩ := hstep l₁ h1 h2
        rw [heq]
        by_cases hl₁ : 1 ≤ l₁ ∧ l₁ ≤ 20
        · rcases ih l₁ (pos + 2) hl₁ ((lengthOk_iff l₁).mpr hl₁) with
            ⟨l', steps, rest, h3, h4, h5, h6, h7⟩ | ⟨l', steps, rest, h3, h4, h6, h7⟩ | h7
          · exact .inl ⟨l', _, rest, hsteps _ _ h3, h4, h5, by rw [h6]; rfl, by rw [h7]; simp; omega⟩
          · exact .inr (.inl ⟨l', _, rest, hsteps _ _ h3, h4, by rw [h6]; rfl, h7⟩)
          · exact .inr (.inr (by rw [h7]; simp; omega))
        · refine .inr (.inl ⟨l₁, _, bits, hsteps _ _ (.stay l₁), hl₁, rfl, ?_⟩)
          exact readSteps_bad (.stay l₁) hl₁ (pos + 2) bits
  · exact .inr (.inl ⟨l, [], bits, .stay l, hl, rfl, readSteps_bad (.stay l) hl pos bits⟩)

/-- Lengths that stand there are read as they are. -/
theorem readLengthsFrom_append {l : Nat} {lens : List Nat} {bits : List Bool} (h : IsLengths l lens bits) (pos : Nat)
    (rest : List Bool) : readLengthsFrom lens.length l ⟨pos, bits ++ rest⟩ = .ok (lens, ⟨pos + bits.length, rest⟩) := by
  induction h generalizing pos with
  | none l => rfl
  | next l l' lens steps bits h1 h2 h3 _ ih =>
    rw [List.length_cons, readLengthsFrom, List.append_assoc, List.cons_append, readSteps_append h1 ⟨h2, h3⟩]
    simp only
    rw [ih]
    simp; omega

/-- A length that leaves the legal ones is HUFFMAN_OVERFLOW. -/
theorem readLengthsFrom_bad {n l l' : Nat} {lens : List Nat} {before steps : List Bool} (hn : lens.length < n)
    (hb : IsLengths l lens before) (hs : IsSteps ((l :: lens).getLastD 0) l' steps) (hl : ¬(1 ≤ l' ∧ l' ≤ 20)) (pos : Nat)
    (rest : List Bool) :
    readLengthsFrom n l ⟨pos, before ++ (steps ++ rest)⟩ = .error { code := .huffmanOverflow } := by
  induction hb generalizing pos n with
  | none l =>
    obtain ⟨n, rfl⟩ := Nat.exists_eq_add_of_lt hn
    rw [readLengthsFrom, List.nil_append, readSteps_bad (by simpa using hs) hl]
  | next l l₁ lens st bits h1 h2 h3 _ ih =>
    cases n with
    | zero => simp at hn
    | succ n =>
      rw [readLengthsFrom, List.append_assoc, List.cons_append, readSteps_append h1 ⟨h2, h3⟩]
      simp only
      rw [ih (by simpa using hn) (by simpa using hs)]

/-- Everything a reading of lengths can do. -/
theorem readLengthsFrom_cases (n l : Nat) (r : BitReader) :
    (∃ lens bits rest, lens.length = n ∧ IsLengths l lens bits ∧ r.rest = bits ++ rest ∧
      readLengthsFrom n l r = .ok (lens, ⟨r.pos + bits.length, rest⟩)) ∨
    (∃ bits rest, IsBadLength n l { code := .huffmanOverflow } bits ∧ r.rest = bits ++ rest ∧
      readLengthsFrom n l r = .error { code := .huffmanOverflow }) ∨
    readLengthsFrom n l r = .error (truncatedInput (r.pos + r.rest.length)) := by
  induction n generalizing l r with
  | zero => exact .inl ⟨[], [], r.rest, rfl, .none l, rfl, rfl⟩
  | succ n ih =>
    rw [readLengthsFrom]
    rcases readSteps_cases l r.pos r.rest with ⟨l', steps, rest, h1, h2, h3, h4, h5⟩ | ⟨l', steps, rest, h1, h2, h4, h5⟩ | h5
    · rw [h5]
      simp only
      rcases ih l' ⟨r.pos + steps.length + 1, rest⟩ with ⟨lens, bits, rest', h6, h7, h8, h9⟩ | ⟨bits, rest', h7, h8, h9⟩ | h9
      · left
        simp only at h8
        refine ⟨l' :: lens, steps ++ false :: bits, rest', by simp [h6], .next _ _ _ _ _ h1 h2 h3 h7, ?_, ?_⟩
        · rw [h4, h8]; simp
        · rw [h9]; simp; omega
      · right; left
        simp only at h8
        obtain ⟨lens, before, st, l₂, k1, k2, k3, k4, rfl, -⟩ := h7
        refine ⟨steps ++ false :: (before ++ st), rest', ⟨l' :: lens, steps ++ false :: before, st, l₂, by simpa using k1,
          .next _ _ _ _ _ h1 h2 h3 k2, by simpa using k3, k4, by simp, rfl⟩, ?_, by rw [h9]⟩
        rw [h4, h8]; simp
      · right; right
        rw [h9, h4]; simp; omega
    · right; left
      rw [h5]
      exact ⟨steps, rest, ⟨[], [], steps, l', by simp, .none l, by simpa using h1, h2, by simp, rfl⟩, h4, rfl⟩
    · right; right
      rw [h5]

/-- The lengths of a table are read as R272 says. -/
theorem agrees_readLengths (a : Nat) : Agrees (readLengths a) (lengthsOf a) := by
  have h : Agrees (fun r => r.readBits 5 >>= fun y => readLengthsFrom a y.1 y.2) (lengthsOf a) := by
    refine (agrees_field 5).bind (q := fun y => readLengthsFrom a y.1 y.2) fun start => agrees_bitwise ?_ ?_ ?_ ?_
    · intro r x r' h
      rcases readLengthsFrom_cases a start r with ⟨lens, bits, rest, h1, h2, h3, h4⟩ | ⟨bits, rest, h2, h3, h4⟩ | h4
      · rw [h4] at h
        cases h
        exact ⟨bits, ⟨h1, h2⟩, h3, rfl⟩
      · rw [h4] at h; cases h
      · rw [h4] at h; cases h
    · intro r e h
      rcases readLengthsFrom_cases a start r with ⟨lens, bits, rest, h1, h2, h3, h4⟩ | ⟨bits, rest, h2, h3, h4⟩ | h4
      · rw [h4] at h; cases h
      · rw [h4] at h; cases h; exact .inr ⟨bits, rest, h2, h3⟩
      · rw [h4] at h; cases h; exact .inl rfl
    · rintro x read pos rest ⟨rfl, h2⟩
      exact readLengthsFrom_append h2 pos rest
    · rintro e read pos rest ⟨lens, before, steps, l, h1, h2, h3, h4, rfl, rfl⟩
      refine ⟨?_, by decide⟩
      rw [List.append_assoc]
      exact readLengthsFrom_bad h1 h2 h3 h4 pos rest
  refine h.congr fun r => ?_
  unfold readLengths
  cases r.readBits 5 <;> rfl

/-- The lengths read are legal. -/
theorem isLengths_ok {l : Nat} {lens : List Nat} {bits : List Bool} (h : IsLengths l lens bits) :
    ∀ x ∈ lens, 1 ≤ x ∧ x ≤ 20 := by
  induction h with
  | none l => simp
  | next l l' lens steps bits h1 h2 h3 _ ih => simpa using ⟨⟨h2, h3⟩, ih⟩

/-- `check_table` passes exactly the valid tables (46_huffman.md R230). -/
theorem checkTable_none_iff (lens : List Nat) : checkTable lens = none ↔ ValidTable lens := by
  unfold checkTable ValidTable
  rw [show kraftSum lens = (lens.map fun l => 2 ^ (20 - l)).sum from rfl]
  have hall : lens.all lengthOk = true ↔ ∀ l ∈ lens, 1 ≤ l ∧ l ≤ 20 := by simp [List.all_eq_true, lengthOk_iff]
  by_cases h : lens.all lengthOk = true
  · rw [h]
    simp only [Bool.not_true, Bool.false_eq_true, if_false, Config.maxCodeLen]
    rw [← hall]
    split
    · simp only [reduceCtorEq, false_iff, not_and]
      intro _; omega
    · simp only [true_iff]
      exact ⟨h, by omega⟩
  · rw [Bool.not_eq_true] at h
    rw [h]
    simp only [Bool.not_false, if_true, reduceCtorEq, false_iff, not_and]
    intro h'
    rw [← hall, h] at h'
    cases h'

/-! ### Tables (47_block_stream.md R271) -/

/-- The tables are read as R271 says. -/
theorem agrees_readTables (a n : Nat) : Agrees (readTables a n) (tablesOf a n) := by
  induction n with
  | zero => exact Agrees.pure []
  | succ n ih =>
    have h : Agrees (fun r => readLengths a r >>= fun y =>
        (fun lens r => require (decide ((lens.map fun l => 2 ^ (20 - l)).sum ≤ 2 ^ 20)) { code := .invalidHuffmanCode } >>=
          fun _ => readTables a n r >>= fun z => .ok (lens :: z.1, z.2)) y.1 y.2) (tablesOf a (n + 1)) :=
      (agrees_readLengths a).bind fun lens => Agrees.check (P := (lens.map fun l => 2 ^ (20 - l)).sum ≤ 2 ^ 20)
        (ok := decide ((lens.map fun l => 2 ^ (20 - l)).sum ≤ 2 ^ 20)) decide_eq_true_iff fun _ =>
        ih.bind (q := fun z => .ok (lens :: z.1, z.2)) fun more => Agrees.pure (lens :: more)
    refine h.congr fun r => ?_
    rw [readTables]
    cases hr : readLengths a r with
    | error e => rfl
    | ok y =>
      obtain ⟨lens, r'⟩ := y
      have hval : ∀ l ∈ lens, 1 ≤ l ∧ l ≤ 20 := by
        have := (agrees_readLengths a r (.ok (lens, r'.pos, r'.rest))).mp (by rw [hr]; rfl)
        rcases this with ⟨e, -, h⟩ | ⟨start, pos, rest, -, h⟩
        · cases h
        · rcases h with ⟨x, read, rest', h1, -, h2⟩ | ⟨e, read, rest', -, -, h2⟩ | ⟨-, h2⟩
          · rw [(Prod.mk.inj (Except.ok.inj h2)).1]; exact isLengths_ok h1.2
          · cases h2
          · cases h2
      simp only
      by_cases hk : (lens.map fun l => 2 ^ (20 - l)).sum ≤ 2 ^ 20
      · rw [(checkTable_none_iff lens).mpr ⟨hval, hk⟩]
        simp only
        show _ = (require _ _ >>= fun _ => _)
        rw [require, if_pos (by simpa using hk)]
        show _ = (readTables a n r' >>= fun z => .ok (lens :: z.1, z.2))
        cases readTables a n r' <;> rfl
      · have hct : checkTable lens = some { code := .invalidHuffmanCode } := by
          unfold checkTable
          rw [if_neg (by simp only [Bool.not_eq_eq_eq_not, Bool.not_true, Bool.not_eq_false]; rw [List.all_eq_true]; exact fun l hl => (lengthOk_iff l).mpr (hval l hl)), if_pos (by unfold kraftSum Config.maxCodeLen; omega)]
        rw [hct]
        show _ = (require _ _ >>= fun _ => _)
        rw [require, if_neg (by simpa using hk)]
        rfl

/-- The tables read are as many as asked for, valid, with a length for every symbol. -/
theorem tables_ok {a : Nat} : ∀ {n : Nat} {pos bits lens pos' rest},
    tablesOf a n pos bits (.ok (lens, pos', rest)) → lens.length = n ∧ ∀ t ∈ lens, ValidTable t ∧ t.length = a := by
  intro n
  induction n with
  | zero =>
    intro pos bits lens pos' rest h
    cases h
    simp
  | succ n ih =>
    intro pos bits lens pos' rest h
    rcases h with ⟨e, -, h⟩ | ⟨t, p1, r1, h1, ⟨e, -, h⟩ | ⟨u, p2, r2, h2, ⟨e, -, h⟩ | ⟨more, p3, r3, h3, h4⟩⟩⟩
    · cases h
    · cases h
    · cases h
    · cases h4
      obtain ⟨h5, h6⟩ := ih h3
      rcases h2 with ⟨h2, -⟩ | ⟨-, h⟩
      · refine ⟨by simp [h5], ?_⟩
        intro t' ht'
        rcases List.mem_cons.mp ht' with rfl | ht'
        · rcases h1 with ⟨e, -, h⟩ | ⟨start, pos, rest, -, h⟩
          · cases h
          · rcases h with ⟨x, read, rest', h1, -, h2⟩ | ⟨e, read, rest', -, -, h2⟩ | ⟨-, h2⟩
            · cases h2; exact ⟨⟨isLengths_ok h1.2, by assumption⟩, h1.1⟩
            · cases h2
            · cases h2
        · exact h6 t' ht'
      · cases h

/-- The used values of a map are different. -/
theorem usedMap_nodup {used : List Byte} {pos : Nat} {bits : List Bool} {pos' : Nat} {rest' : List Bool}
    (h : bitwise IsUsedMap (fun _ _ => False) pos bits (.ok (used, pos', rest'))) : used.Nodup := by
  rcases h with ⟨x, read, rest, h1, -, h2⟩ | ⟨e, read, rest, h1, -⟩ | ⟨-, h2⟩
  · cases h2
    obtain ⟨ranges, values, -, -, -, -, h, -⟩ := h1
    exact h.imp (fun hlt heq => by rw [heq] at hlt; omega)
  · exact h1.elim
  · cases h2

end Sys2Proof.Machine
end

