-- ==== Sys2Proof/Laws/HuffmanDecoding.lean ====
section
/-! SUPPORT. `huf_sym` and `huf_dec` over tables whose codes are sound: what one symbol's reading can do, what the decoding
can do with any consumer, and that it has one end only (46_huffman.md R235, R236). -/

namespace Sys2Proof.Machine

/-- The codes of a valid table as `huf_codes` gives them: each fits its length, and none starts another (46_huffman.md
R233). -/
structure CodesSound (lens : List Nat) : Prop where
  valid : ValidTable lens
  eq : hufCodes lens = canonicalCodes lens
  lt : ∀ i, i < lens.length → (canonicalCodes lens).getD i 0 < 2 ^ lens.getD i 0
  free : ∀ i j, i < lens.length → j < lens.length → i ≠ j → ¬ symbolCode lens i <+: symbolCode lens j

/-- An entry of a code table. -/
theorem codeTable_get {lens : List Nat} (h : CodesSound lens) (i l v : Nat) :
    (codeTable lens)[i]? = some (l, v) ↔ i < lens.length ∧ lens.getD i 0 = l ∧ (canonicalCodes lens).getD i 0 = v := by
  unfold codeTable
  rw [h.eq]
  have hl : (canonicalCodes lens).length = lens.length := by rw [← h.eq, hufCodes_length]
  rw [List.getElem?_eq_some_iff]
  constructor
  · rintro ⟨h1, h2⟩
    have h3 : i < lens.length := by simp [hl] at h1; exact h1
    rw [List.getElem_zip] at h2
    simp only [Prod.mk.injEq] at h2
    refine ⟨h3, ?_, ?_⟩
    · simp [List.getD_eq_getElem?_getD, h3, h2.1]
    · simp [List.getD_eq_getElem?_getD, hl, h3, h2.2]
  · rintro ⟨h1, h2, h3⟩
    refine ⟨by simp [hl, h1], ?_⟩
    rw [List.getElem_zip]
    simp [List.getD_eq_getElem?_getD, h1] at h2
    simp [List.getD_eq_getElem?_getD, hl, h1] at h3
    rw [h2, h3]

/-- A code is as long as its length says. -/
theorem symbolCode_length (lens : List Nat) (x : Nat) : (symbolCode lens x).length = lens.getD x 0 := by
  simp [symbolCode]

/-- A code is the bits that have its length and its number. -/
theorem symbolCode_eq_iff {lens : List Nat} (h : CodesSound lens) {i : Nat} (hi : i < lens.length) (pre : List Bool) :
    symbolCode lens i = pre ↔ lens.getD i 0 = pre.length ∧ (canonicalCodes lens).getD i 0 = bitsValue 0 pre := by
  unfold symbolCode
  constructor
  · rintro rfl
    exact ⟨by simp, by rw [bitsValue_bitsMSB (h.lt i hi)]⟩
  · rintro ⟨h1, h2⟩
    rw [h1, h2, bitsMSB_bitsValue]

/-- The number of a longer bit string. -/
theorem bitsValue_append (v : Nat) (a b : List Bool) : bitsValue v (a ++ b) = bitsValue (bitsValue v a) b := by
  induction a generalizing v with
  | nil => rfl
  | cons x a ih => simp only [List.cons_append, bitsValue, ih]

/-- No length is above the longest. -/
theorem maxOf_le (lens : List Nat) : ∀ l ∈ lens, l ≤ maxOf lens := by
  unfold maxOf
  have : ∀ (a : Nat) (xs : List Nat), a ≤ xs.foldl max a ∧ ∀ l ∈ xs, l ≤ xs.foldl max a := by
    intro a xs
    induction xs generalizing a with
    | nil => simp
    | cons x xs ih =>
      obtain ⟨h1, h2⟩ := ih (max a x)
      simp only [List.foldl_cons]
      refine ⟨by omega, ?_⟩
      intro l hl
      rcases List.mem_cons.mp hl with rfl | hl
      · omega
      · exact h2 l hl
  exact (this 0 lens).2

/-- The longest is one of the lengths. -/
theorem maxOf_mem {lens : List Nat} (h : lens ≠ []) : maxOf lens ∈ lens := by
  unfold maxOf
  have : ∀ (a : Nat) (xs : List Nat), xs.foldl max a = a ∨ xs.foldl max a ∈ xs := by
    intro a xs
    induction xs generalizing a with
    | nil => simp
    | cons x xs ih =>
      simp only [List.foldl_cons]
      rcases ih (max a x) with h | h
      · rw [h]
        by_cases hax : a ≤ x
        · right; rw [max_eq_right hax]; simp
        · left; omega
      · exact .inr (by simp [h])
  rcases this 0 lens with h1 | h1
  · cases lens with
    | nil => exact absurd rfl h
    | cons x xs =>
      have h2 := maxOf_le (x :: xs) x (by simp)
      unfold maxOf at h2
      rw [h1] at h2 ⊢
      have : x = 0 := by omega
      subst this; simp
  · exact h1

/-- An entry within the list is in it. -/
theorem getD_mem {lens : List Nat} {i : Nat} (h : i < lens.length) : lens.getD i 0 ∈ lens := by
  rw [List.getD_eq_getElem _ _ h]; exact List.getElem_mem h

/-- Everything the loop of `huf_sym` can do after some bits none of which ends a code. -/
theorem hufSymFrom_cases {lens : List Nat} (hv : CodesSound lens) (fuel l v : Nat) (r : BitReader) (pre : List Bool)
    (hl : pre.length = l) (hval : bitsValue 0 pre = v) (hno : ∀ i, i < lens.length → ¬ symbolCode lens i <+: pre)
    (hmax : fuel + l = maxOf lens) :
    (∃ i rest', i < lens.length ∧ pre ++ r.rest = symbolCode lens i ++ rest' ∧
      hufSymFrom (codeTable lens) fuel l v r = .ok (i, ⟨r.pos + (symbolCode lens i).length - l, rest'⟩)) ∨
    ((∀ i, i < lens.length → ¬ symbolCode lens i <+: pre ++ r.rest) ∧
      ((maxOf lens ≤ (pre ++ r.rest).length ∧ hufSymFrom (codeTable lens) fuel l v r = .error { code := .invalidHuffmanCode }) ∨
      ((pre ++ r.rest).length < maxOf lens ∧
        hufSymFrom (codeTable lens) fuel l v r = .error (truncatedInput (r.pos + r.rest.length))))) := by
  induction fuel generalizing l v r pre with
  | zero =>
    right
    refine ⟨?_, .inl ⟨by simp; omega, rfl⟩⟩
    intro i hi hp
    have h1 := maxOf_le lens _ (getD_mem hi)
    apply hno i hi
    exact List.prefix_of_prefix_length_le hp (List.prefix_append _ _) (by rw [symbolCode_length]; omega)
  | succ fuel ih =>
    rw [hufSymFrom, readBits_one]
    cases hr : r.rest with
    | nil =>
      right
      simp only [List.append_nil]
      exact ⟨hno, .inr ⟨by omega, by simp⟩⟩
    | cons b bs =>
      simp only
      have hval' : bitsValue 0 (pre ++ [b]) = 2 * v + b.toNat := by rw [bitsValue_append, hval]; rfl
      cases hi : (codeTable lens).idxOf? (l + 1, 2 * v + b.toNat) with
      | some i =>
        left
        simp only
        obtain ⟨h1, h2, -⟩ := List.findIdx?_eq_some_iff_getElem.mp hi
        simp only [beq_iff_eq] at h2
        have h3 : (codeTable lens)[i]? = some (l + 1, 2 * v + b.toNat) := by rw [List.getElem?_eq_getElem h1, h2]
        obtain ⟨h4, h5, h6⟩ := (codeTable_get hv _ _ _).mp h3
        have h7 : symbolCode lens i = pre ++ [b] := by
          rw [symbolCode_eq_iff hv h4, h5, h6, hval']; simp [hl]
        exact ⟨i, bs, h4, by rw [h7]; simp, by rw [h7]; simp [hl]; omega⟩
      | none =>
        simp only
        have hno' : ∀ i, i < lens.length → ¬ symbolCode lens i <+: pre ++ [b] := by
          intro i hlt hp
          rcases List.prefix_concat_iff.mp hp with h | h
          · rw [symbolCode_eq_iff hv hlt] at h
            have h3 : (codeTable lens)[i]? = some (l + 1, 2 * v + b.toNat) := by
              rw [codeTable_get hv]; exact ⟨hlt, by rw [h.1]; simp [hl], by rw [h.2, hval']⟩
            have h4 := List.mem_of_getElem? h3
            rw [List.idxOf?, List.findIdx?_eq_none_iff] at hi
            simpa using hi _ h4
          · exact hno i hlt h
        rcases ih (l + 1) (2 * v + b.toNat) ⟨r.pos + 1, bs⟩ (pre ++ [b]) (by simp [hl]) hval' hno' (by omega) with
          ⟨i, rest', h1, h2, h3⟩ | ⟨h1, h2⟩
        · left
          refine ⟨i, rest', h1, by rw [← h2]; simp, ?_⟩
          rw [h3]; simp; omega
        · right
          rw [List.append_assoc] at h1 h2
          refine ⟨h1, ?_⟩
          rcases h2 with ⟨h2, h3⟩ | ⟨h2, h3⟩
          · exact .inl ⟨h2, h3⟩
          · exact .inr ⟨h2, by rw [h3]; simp; omega⟩

/-- Everything `huf_sym` can do: find the one code that stands there, or no code, or too few bits (46_huffman.md
R235). -/
theorem hufSym_cases {lens : List Nat} (hv : CodesSound lens) (r : BitReader) :
    (∃ i rest', i < lens.length ∧ r.rest = symbolCode lens i ++ rest' ∧
      hufSym (codeTable lens) r = .ok (i, ⟨r.pos + (symbolCode lens i).length, rest'⟩)) ∨
    ((∀ i, i < lens.length → ¬ symbolCode lens i <+: r.rest) ∧
      ((maxOf lens ≤ r.rest.length ∧ hufSym (codeTable lens) r = .error { code := .invalidHuffmanCode }) ∨
      (r.rest.length < maxOf lens ∧ hufSym (codeTable lens) r = .error (truncatedInput (r.pos + r.rest.length))))) := by
  have hm : (codeTable lens).map (·.1) = lens := by
    unfold codeTable; rw [List.map_fst_zip]; rw [hufCodes_length]
  unfold hufSym
  rw [hm]
  have := hufSymFrom_cases hv (maxOf lens) 0 0 r [] rfl rfl (by
    intro i hi hp
    have h1 := List.prefix_nil.mp hp
    have h2 := symbolCode_length lens i
    rw [h1] at h2
    have h3 := hv.valid.1 _ (getD_mem hi)
    rw [List.length_nil] at h2
    omega) rfl
  simpa using this

/-- The bits of one symbol more. -/
theorem groupCodedBits_snoc (lens : List (List Nat)) (sel body : List Nat) (x : Nat) :
    groupCodedBits lens sel (body ++ [x]) =
      groupCodedBits lens sel body ++ symbolCode (lens.getD (sel.getD (body.length / 50) 0) []) x := by
  unfold groupCodedBits
  rw [List.length_append, List.length_singleton, List.range_succ, List.flatMap_append]
  congr 1
  · apply List.flatMap_congr
    intro k hk
    have hk := List.mem_range.mp hk
    congr 1
    rw [List.getD_append _ _ _ _ hk]
  · simp

/-- A consumer as the relation sees it. -/
structure HufConsumer {σ : Type} (emit : σ → Nat → Except EngineError σ) (eob : Nat) (takes : List Nat → Prop)
    (refusal : EngineError) (st0 : σ) (P : List Nat → σ → Prop) : Prop where
  start : P [] st0
  nil : takes []
  accept : ∀ body st x, (∀ y ∈ body, y < eob) → takes body → P body st → x ≤ eob → takes (body ++ [x]) →
    ∃ st', emit st x = .ok st' ∧ P (body ++ [x]) st'
  refuse : ∀ body st x, (∀ y ∈ body, y < eob) → takes body → P body st → x ≤ eob → ¬ takes (body ++ [x]) →
    emit st x = .error refusal
  mono : ∀ a b, (∀ y ∈ a ++ b, y < eob) → takes (a ++ b) → takes a

section
variable {σ : Type} {emit : σ → Nat → Except EngineError σ} {eob : Nat} {takes : List Nat → Prop}
  {refusal : EngineError} {st0 : σ} {P : List Nat → σ → Prop} {lens : List (List Nat)} {sel : List Nat}
  {pos : Nat} {bits : List Bool}

/-- What has been read and consumed so far. -/
structure HufReached (eob : Nat) (takes : List Nat → Prop) (P : List Nat → σ → Prop) (lens : List (List Nat)) (sel : List Nat)
    (pos : Nat) (bits : List Bool) (body : List Nat) (st : σ) (r : BitReader) : Prop where
  coded : bits = groupCodedBits lens sel body ++ r.rest
  at_ : r.pos = pos + (groupCodedBits lens sel body).length
  low : ∀ x ∈ body, x < eob
  taken : takes body
  here : P body st

/-- Everything the rest of a group can do: reach EOB, an error, or the end of the group. -/
theorem hufGroup_cases (hc : HufConsumer emit eob takes refusal st0 P)
    (hlens : ∀ t ∈ lens, CodesSound t ∧ t.length = eob + 1) (hsel : ∀ x ∈ sel, x < lens.length) (g : Nat)
    (hg : g < sel.length) (n : Nat) : ∀ (body : List Nat) (st : σ) (r : BitReader),
    HufReached eob takes P lens sel pos bits body st r → body.length + n = 50 * (g + 1) → 50 * g ≤ body.length →
    (∃ syms st' r', hufGroup emit eob (codeTable (lens.getD (sel.getD g 0) [])) n st r = .ok (true, st', r') ∧
      P syms st' ∧ IsHufDec lens sel eob takes refusal pos bits (.ok (syms, r'.pos, r'.rest))) ∨
    (∃ e, hufGroup emit eob (codeTable (lens.getD (sel.getD g 0) [])) n st r = .error e ∧
      IsHufDec lens sel eob takes refusal pos bits (.error e)) ∨
    (∃ body' st' r', hufGroup emit eob (codeTable (lens.getD (sel.getD g 0) [])) n st r = .ok (false, st', r') ∧
      HufReached eob takes P lens sel pos bits body' st' r' ∧ body'.length = 50 * (g + 1)) := by
  induction n with
  | zero =>
    intro body st r hr hb hge
    exact .inr (.inr ⟨body, st, r, rfl, hr, by omega⟩)
  | succ n ih =>
    intro body st r hr hb hge
    have hdiv : body.length / 50 = g := by omega
    have hlt : body.length < 50 * sel.length := by omega
    set table := lens.getD (sel.getD g 0) [] with htable
    have htm : table ∈ lens := by
      have : sel.getD g 0 < lens.length := hsel _ (getD_mem hg)
      rw [htable, List.getD_eq_getElem _ _ this]
      exact List.getElem_mem this
    obtain ⟨hv, hlen⟩ := hlens _ htm
    have hne : table ≠ [] := by intro h; rw [h] at hlen; simp at hlen
    rw [hufGroup]
    rcases hufSym_cases hv r with ⟨x, rest', h1, h2, h3⟩ | ⟨h1, ⟨h2, h3⟩ | ⟨h2, h3⟩⟩
    · rw [h3]
      simp only
      have hsn : groupCodedBits lens sel (body ++ [x]) = groupCodedBits lens sel body ++ symbolCode table x := by
        rw [groupCodedBits_snoc, hdiv, ← htable]
      have hbits : bits = groupCodedBits lens sel (body ++ [x]) ++ rest' := by
        rw [hr.coded, h2, hsn]; simp
      have hx : x ≤ eob := by omega
      by_cases ht : takes (body ++ [x])
      · obtain ⟨st', h4, h5⟩ := hc.accept body st x hr.low hr.taken hr.here hx ht
        rw [h4]
        simp only
        by_cases he : x = eob
        · subst he
          rw [if_pos rfl]
          refine .inl ⟨body ++ [x], st', _, rfl, h5, ?_⟩
          have := IsHufDec.done (lens := lens) (sel := sel) (eob := x) (takes := takes) (refusal := refusal) (pos := pos)
            body rest' hbits hr.low hlt hr.taken ht
          rw [hsn] at this
          simp only
          rw [hr.at_]
          simpa [Nat.add_assoc] using this
        · rw [if_neg he]
          refine ih (body ++ [x]) st' _ ⟨hbits, ?_, ?_, ht, h5⟩ (by simp; omega) (by simp; omega)
          · simp only [hr.at_, hsn]; simp; omega
          · intro y hy
            rcases List.mem_append.mp hy with hy | hy
            · exact hr.low y hy
            · simp at hy; omega
      · rw [hc.refuse body st x hr.low hr.taken hr.here hx ht]
        exact .inr (.inl ⟨_, rfl, .refused body x rest' hbits hr.low hx hlt hr.taken ht⟩)
    · rw [h3]
      exact .inr (.inl ⟨_, rfl, .noCode body r.rest table hr.coded hr.low hlt hr.taken (by rw [hdiv])
        (fun x hx => h1 x (by omega)) ⟨maxOf table, maxOf_mem hne, maxOf_le table, h2⟩⟩)
    · rw [h3]
      have : r.pos + r.rest.length = pos + bits.length := by
        rw [hr.coded, hr.at_]; simp; omega
      rw [this]
      exact .inr (.inl ⟨_, rfl, .short body r.rest table hr.coded hr.low hlt hr.taken (by rw [hdiv])
        (fun x hx => h1 x (by omega)) ⟨maxOf table, maxOf_mem hne, h2⟩⟩)

/-- Everything the groups from a selector on can do. -/
theorem hufDec_cases (hc : HufConsumer emit eob takes refusal st0 P)
    (hlens : ∀ t ∈ lens, CodesSound t ∧ t.length = eob + 1) (hsel : ∀ x ∈ sel, x < lens.length) (more : List Nat) :
    ∀ (g : Nat) (body : List Nat) (st : σ) (r : BitReader), sel.drop g = more → g ≤ sel.length → body.length = 50 * g →
    HufReached eob takes P lens sel pos bits body st r →
    (∃ syms st' r', hufDec emit eob (lens.map codeTable) more st r = .ok (st', r') ∧ P syms st' ∧
      IsHufDec lens sel eob takes refusal pos bits (.ok (syms, r'.pos, r'.rest))) ∨
    (∃ e, hufDec emit eob (lens.map codeTable) more st r = .error e ∧
      IsHufDec lens sel eob takes refusal pos bits (.error e)) := by
  induction more with
  | nil =>
    intro g body st r hd hg hb hr
    have : g = sel.length := by have := congrArg List.length hd; simp at this; omega
    exact .inr ⟨_, rfl, .exhausted body r.rest hr.coded hr.low (by rw [hb, this]) hr.taken⟩
  | cons t more ih =>
    intro g body st r hd hg hb hr
    have hlt : g < sel.length := by have := congrArg List.length hd; simp at this; omega
    have ht : sel.getD g 0 = t := by
      have := congrArg (fun l => l[0]?) hd
      simp at this
      simp [List.getD_eq_getElem?_getD, this]
    have hdrop : sel.drop (g + 1) = more := by
      have := congrArg List.tail hd
      simpa using this
    have htab : (lens.map codeTable).getD t [] = codeTable (lens.getD (sel.getD g 0) []) := by
      rw [ht]
      have : t < lens.length := by rw [← ht]; exact hsel _ (getD_mem hlt)
      simp [List.getD_eq_getElem?_getD, this]
    rw [hufDec, htab]
    rcases hufGroup_cases hc hlens hsel g hlt Config.groupSize body st r hr (by rw [hb]; rfl) (by omega) with
      ⟨syms, st', r', h1, h2, h3⟩ | ⟨e, h1, h2⟩ | ⟨body', st', r', h1, h2, h3⟩
    · rw [h1]; exact .inl ⟨syms, st', r', rfl, h2, h3⟩
    · rw [h1]; exact .inr ⟨e, rfl, h2⟩
    · rw [h1]
      exact ih (g + 1) body' st' r' hdrop (by omega) h3 h2

/-! uniqueness -/

/-- The code that stands there is that of one symbol only. -/
theorem coded_compare (hlens : ∀ t ∈ lens, CodesSound t ∧ t.length = eob + 1) (hsel : ∀ x ∈ sel, x < lens.length)
    (a : List Nat) (x y : Nat) (rest rest' : List Bool) (hx : x ≤ eob) (hy : y ≤ eob)
    (hlen : a.length < 50 * sel.length)
    (h : groupCodedBits lens sel (a ++ [x]) ++ rest = groupCodedBits lens sel (a ++ [y]) ++ rest') : x = y := by
  rw [groupCodedBits_snoc, groupCodedBits_snoc, List.append_assoc, List.append_assoc, List.append_cancel_left_eq] at h
  set table := lens.getD (sel.getD (a.length / 50) 0) [] with htable
  have htm : table ∈ lens := by
    have : sel.getD (a.length / 50) 0 < lens.length := hsel _ (getD_mem (by omega))
    rw [htable, List.getD_eq_getElem _ _ this]
    exact List.getElem_mem this
  obtain ⟨hv, hl⟩ := hlens _ htm
  by_contra hne
  rcases List.append_eq_append_iff.mp h with ⟨m, h1, h2⟩ | ⟨m, h1, h2⟩
  · exact hv.free x y (by omega) (by omega) hne ⟨m, h1.symm⟩
  · exact hv.free y x (by omega) (by omega) (Ne.symm hne) ⟨m, h1.symm⟩

/-- The bits of the first symbols begin the bits of all. -/
theorem coded_prefix (s m : List Nat) : groupCodedBits lens sel s <+: groupCodedBits lens sel (s ++ m) := by
  induction m using List.reverseRecOn with
  | nil => simp
  | append_singleton m x ih =>
    rw [← List.append_assoc, groupCodedBits_snoc]
    exact ih.trans (List.prefix_append _ _)

/-- Of two symbol sequences whose bits stand there, one begins the other. -/
theorem coded_comparable (hlens : ∀ t ∈ lens, CodesSound t ∧ t.length = eob + 1) (hsel : ∀ x ∈ sel, x < lens.length)
    (b : List Nat) : ∀ (a : List Nat), (∀ x ∈ a, x ≤ eob) → (∀ x ∈ b, x ≤ eob) → a.length ≤ 50 * sel.length →
    b.length ≤ 50 * sel.length → groupCodedBits lens sel a <+: bits → groupCodedBits lens sel b <+: bits →
    a <+: b ∨ b <+: a := by
  induction b using List.reverseRecOn with
  | nil => intro a _ _ _ _ _ _; exact .inr (List.nil_prefix)
  | append_singleton b y ih =>
    intro a ha hb hla hlb hpa hpb
    rcases ih a ha (fun x hx => hb x (by simp [hx])) hla (by simp at hlb; omega) hpa ((coded_prefix b [y]).trans hpb) with
      h | h
    · exact .inl (h.trans (List.prefix_append _ _))
    · obtain ⟨m, rfl⟩ := h
      cases m with
      | nil => left; simp
      | cons x m =>
        right
        obtain ⟨r1, h1⟩ := hpa
        obtain ⟨r2, h2⟩ := hpb
        have hax : groupCodedBits lens sel (b ++ [x]) <+: groupCodedBits lens sel (b ++ x :: m) := by
          simpa using coded_prefix (lens := lens) (sel := sel) (b ++ [x]) m
        obtain ⟨r3, h3⟩ := hax
        have : x = y := coded_compare hlens hsel b x y (r3 ++ r1) r2 (ha x (by simp)) (hb y (by simp))
          (by simp at hlb; omega) (by rw [← List.append_assoc, h3, h1, h2])
        subst this
        exact ⟨m, by simp⟩

/-- The symbols a reading has got, the deciding one included, with what they come to. -/
inductive HufEnded (lens : List (List Nat)) (sel : List Nat) (eob : Nat) (takes : List Nat → Prop)
    (refusal : EngineError) (pos : Nat) (bits : List Bool) : List Nat → BitsRead (List Nat) → Prop where
  | done (body : List Nat) (rest : List Bool) : bits = groupCodedBits lens sel (body ++ [eob]) ++ rest →
      (∀ x ∈ body, x < eob) → body.length < 50 * sel.length → takes body → takes (body ++ [eob]) →
      HufEnded lens sel eob takes refusal pos bits (body ++ [eob])
        (.ok (body ++ [eob], pos + (groupCodedBits lens sel (body ++ [eob])).length, rest))
  | refused (body : List Nat) (x : Nat) (rest : List Bool) : bits = groupCodedBits lens sel (body ++ [x]) ++ rest →
      (∀ y ∈ body, y < eob) → x ≤ eob → body.length < 50 * sel.length → takes body → ¬ takes (body ++ [x]) →
      HufEnded lens sel eob takes refusal pos bits (body ++ [x]) (.error refusal)
  | exhausted (body : List Nat) (rest : List Bool) : bits = groupCodedBits lens sel body ++ rest →
      (∀ x ∈ body, x < eob) → body.length = 50 * sel.length → takes body →
      HufEnded lens sel eob takes refusal pos bits body (.error (formatError 7))
  | noCode (body : List Nat) (rest : List Bool) (table : List Nat) : bits = groupCodedBits lens sel body ++ rest →
      (∀ x ∈ body, x < eob) → body.length < 50 * sel.length → takes body →
      table = lens.getD (sel.getD (body.length / 50) 0) [] → (∀ x, x ≤ eob → ¬ symbolCode table x <+: rest) →
      (∃ l ∈ table, (∀ l' ∈ table, l' ≤ l) ∧ l ≤ rest.length) →
      HufEnded lens sel eob takes refusal pos bits body (.error { code := .invalidHuffmanCode })
  | short (body : List Nat) (rest : List Bool) (table : List Nat) : bits = groupCodedBits lens sel body ++ rest →
      (∀ x ∈ body, x < eob) → body.length < 50 * sel.length → takes body →
      table = lens.getD (sel.getD (body.length / 50) 0) [] → (∀ x, x ≤ eob → ¬ symbolCode table x <+: rest) →
      (∃ l ∈ table, rest.length < l) →
      HufEnded lens sel eob takes refusal pos bits body (.error (truncatedInput (pos + bits.length)))

/-- Every end of a decoding has its symbols. -/
theorem isHufDec_ended {out : BitsRead (List Nat)} (h : IsHufDec lens sel eob takes refusal pos bits out) :
    ∃ s, HufEnded lens sel eob takes refusal pos bits s out := by
  cases h with
  | done body rest h1 h2 h3 h4 h5 => exact ⟨_, .done body rest h1 h2 h3 h4 h5⟩
  | refused body x rest h1 h2 h3 h4 h5 h6 => exact ⟨_, .refused body x rest h1 h2 h3 h4 h5 h6⟩
  | exhausted body rest h1 h2 h3 h4 => exact ⟨_, .exhausted body rest h1 h2 h3 h4⟩
  | noCode body rest table h1 h2 h3 h4 h5 h6 h7 => exact ⟨_, .noCode body rest table h1 h2 h3 h4 h5 h6 h7⟩
  | short body rest table h1 h2 h3 h4 h5 h6 h7 => exact ⟨_, .short body rest table h1 h2 h3 h4 h5 h6 h7⟩

/-- What an ended reading has. -/
theorem ended_facts (hc : HufConsumer emit eob takes refusal st0 P) {s : List Nat} {out : BitsRead (List Nat)}
    (h : HufEnded lens sel eob takes refusal pos bits s out) :
    (∀ x ∈ s, x ≤ eob) ∧ s.length ≤ 50 * sel.length ∧ groupCodedBits lens sel s <+: bits ∧
    (∀ a x m, s = a ++ x :: m → (∀ y ∈ a, y < eob) ∧ takes a) := by
  have snoc : ∀ (body : List Nat) (z : Nat), (∀ y ∈ body, y < eob) → z ≤ eob → takes body →
      (∀ x ∈ body ++ [z], x ≤ eob) ∧ (∀ a x m, body ++ [z] = a ++ x :: m → (∀ y ∈ a, y < eob) ∧ takes a) := by
    intro body z h1 h2 h3
    refine ⟨?_, ?_⟩
    · intro x hx
      rcases List.mem_append.mp hx with hx | hx
      · exact (h1 x hx).le
      · simp at hx; omega
    · intro a x m hb
      have : ∃ c, body = a ++ c := by
        rcases List.append_eq_append_iff.mp hb with ⟨c, h4, h5⟩ | ⟨c, h4, h5⟩
        · cases c with
          | nil => exact ⟨[], by simpa using h4.symm⟩
          | cons w c => simp at h5
        · exact ⟨c, h4⟩
      obtain ⟨c, rfl⟩ := this
      exact ⟨fun y hy => h1 y (by simp [hy]), hc.mono a c h1 h3⟩
  have plain : ∀ (body : List Nat), (∀ y ∈ body, y < eob) → takes body →
      (∀ x ∈ body, x ≤ eob) ∧ (∀ a x m, body = a ++ x :: m → (∀ y ∈ a, y < eob) ∧ takes a) := by
    intro body h1 h3
    refine ⟨fun x hx => (h1 x hx).le, ?_⟩
    rintro a x m rfl
    exact ⟨fun y hy => h1 y (by simp [hy]), hc.mono a _ h1 h3⟩
  cases h with
  | done body rest h1 h2 h3 h4 h5 =>
    obtain ⟨k1, k2⟩ := snoc body eob h2 (le_refl _) h4
    exact ⟨k1, by simp; omega, ⟨rest, h1.symm⟩, k2⟩
  | refused body x rest h1 h2 h3 h4 h5 h6 =>
    obtain ⟨k1, k2⟩ := snoc body x h2 h3 h5
    exact ⟨k1, by simp; omega, ⟨rest, h1.symm⟩, k2⟩
  | exhausted body rest h1 h2 h3 h4 =>
    obtain ⟨k1, k2⟩ := plain s h2 h4
    exact ⟨k1, by omega, ⟨rest, h1.symm⟩, k2⟩
  | noCode body rest table h1 h2 h3 h4 h5 h6 h7 =>
    obtain ⟨k1, k2⟩ := plain s h2 h4
    exact ⟨k1, by omega, ⟨rest, h1.symm⟩, k2⟩
  | short body rest table h1 h2 h3 h4 h5 h6 h7 =>
    obtain ⟨k1, k2⟩ := plain s h2 h4
    exact ⟨k1, by omega, ⟨rest, h1.symm⟩, k2⟩

/-- After the symbols of an end no further symbol is coded and taken. -/
theorem ended_maximal {s m : List Nat} {x : Nat} {out : BitsRead (List Nat)}
    (h : HufEnded lens sel eob takes refusal pos bits s out) (h1 : ∀ y ∈ s, y < eob) (h2 : takes s)
    (h3 : (s ++ x :: m).length ≤ 50 * sel.length) (h4 : groupCodedBits lens sel (s ++ x :: m) <+: bits) (h5 : x ≤ eob) :
    False := by
  have h6 : groupCodedBits lens sel (s ++ [x]) <+: bits :=
    (by simpa using coded_prefix (lens := lens) (sel := sel) (s ++ [x]) m : groupCodedBits lens sel (s ++ [x]) <+:
      groupCodedBits lens sel (s ++ x :: m)).trans h4
  rw [groupCodedBits_snoc] at h6
  cases h with
  | done body rest => exact absurd (h1 eob (by simp)) (by omega)
  | refused body y rest _ _ _ _ _ h => exact h h2
  | exhausted body rest _ _ h => simp at h3; omega
  | noCode body rest table g1 g2 g3 g4 g5 g6 g7 =>
    rw [g1, List.prefix_append_right_inj, ← g5] at h6
    exact g6 x h5 h6
  | short body rest table g1 g2 g3 g4 g5 g6 g7 =>
    rw [g1, List.prefix_append_right_inj, ← g5] at h6
    exact g6 x h5 h6

/-- The same symbols have one end only. -/
theorem ended_same {s s' : List Nat} {out out' : BitsRead (List Nat)}
    (h : HufEnded lens sel eob takes refusal pos bits s out) (h' : HufEnded lens sel eob takes refusal pos bits s' out')
    (hs : s = s') : out = out' := by
  have last : ∀ {body : List Nat} {x : Nat}, (∀ y ∈ body ++ [x], y < eob) → x < eob := fun h => h _ (by simp)
  cases h with
  | done b r h1 h2 h3 h4 h5 =>
    cases h' with
    | done b' r' g1 g2 g3 g4 g5 =>
      rw [hs] at h1 ⊢
      rw [g1] at h1
      rw [List.append_cancel_left h1]
    | refused b' x' r' g1 g2 g3 g4 g5 g6 => rw [hs] at h5; exact absurd h5 g6
    | exhausted b' r' g1 g2 g3 g4 => rw [← hs] at g2; have := last g2; omega
    | noCode b' r' t' g1 g2 g3 g4 g5 g6 g7 => rw [← hs] at g2; have := last g2; omega
    | short b' r' t' g1 g2 g3 g4 g5 g6 g7 => rw [← hs] at g2; have := last g2; omega
  | refused b x r h1 h2 h3 h4 h5 h6 =>
    cases h' with
    | done b' r' g1 g2 g3 g4 g5 => rw [hs] at h6; exact absurd g5 h6
    | refused b' x' r' g1 g2 g3 g4 g5 g6 => rfl
    | exhausted b' r' g1 g2 g3 g4 => rw [hs] at h6; exact absurd g4 h6
    | noCode b' r' t' g1 g2 g3 g4 g5 g6 g7 => rw [hs] at h6; exact absurd g4 h6
    | short b' r' t' g1 g2 g3 g4 g5 g6 g7 => rw [hs] at h6; exact absurd g4 h6
  | exhausted b r h1 h2 h3 h4 =>
    cases h' with
    | done b' r' g1 g2 g3 g4 g5 => rw [hs] at h2; have := last h2; omega
    | refused b' x' r' g1 g2 g3 g4 g5 g6 => rw [hs] at h4; exact absurd h4 g6
    | exhausted b' r' g1 g2 g3 g4 => rfl
    | noCode b' r' t' g1 g2 g3 g4 g5 g6 g7 => rw [hs] at h3; omega
    | short b' r' t' g1 g2 g3 g4 g5 g6 g7 => rw [hs] at h3; omega
  | noCode b r t h1 h2 h3 h4 h5 h6 h7 =>
    cases h' with
    | done b' r' g1 g2 g3 g4 g5 => rw [hs] at h2; have := last h2; omega
    | refused b' x' r' g1 g2 g3 g4 g5 g6 => rw [hs] at h4; exact absurd h4 g6
    | exhausted b' r' g1 g2 g3 g4 => rw [hs] at h3; omega
    | noCode b' r' t' g1 g2 g3 g4 g5 g6 g7 => rfl
    | short b' r' t' g1 g2 g3 g4 g5 g6 g7 =>
      subst hs
      rw [g1] at h1
      have := List.append_cancel_left h1
      subst this
      rw [← h5] at g5
      subst g5
      obtain ⟨l, -, k1, k2⟩ := h7
      obtain ⟨l', k3, k4⟩ := g7
      have := k1 _ k3
      omega
  | short b r t h1 h2 h3 h4 h5 h6 h7 =>
    cases h' with
    | done b' r' g1 g2 g3 g4 g5 => rw [hs] at h2; have := last h2; omega
    | refused b' x' r' g1 g2 g3 g4 g5 g6 => rw [hs] at h4; exact absurd h4 g6
    | exhausted b' r' g1 g2 g3 g4 => rw [hs] at h3; omega
    | noCode b' r' t' g1 g2 g3 g4 g5 g6 g7 =>
      subst hs
      rw [g1] at h1
      have := List.append_cancel_left h1
      subst this
      rw [← h5] at g5
      subst g5
      obtain ⟨l, -, k1, k2⟩ := g7
      obtain ⟨l', k3, k4⟩ := h7
      have := k1 _ k3
      omega
    | short b' r' t' g1 g2 g3 g4 g5 g6 g7 => rfl

/-- A decoding has one end only. -/
theorem isHufDec_unique (hc : HufConsumer emit eob takes refusal st0 P)
    (hlens : ∀ t ∈ lens, CodesSound t ∧ t.length = eob + 1) (hsel : ∀ x ∈ sel, x < lens.length)
    {out out' : BitsRead (List Nat)} (h : IsHufDec lens sel eob takes refusal pos bits out)
    (h' : IsHufDec lens sel eob takes refusal pos bits out') : out = out' := by
  obtain ⟨s, h⟩ := isHufDec_ended h
  obtain ⟨s', h'⟩ := isHufDec_ended h'
  obtain ⟨a1, a2, a3, a4⟩ := ended_facts hc h
  obtain ⟨b1, b2, b3, b4⟩ := ended_facts hc h'
  rcases coded_comparable hlens hsel s' s a1 b1 a2 b2 a3 b3 with ⟨m, hm⟩ | ⟨m, hm⟩
  · cases m with
    | nil => exact ended_same h h' (by simpa using hm)
    | cons x m =>
      obtain ⟨c1, c2⟩ := b4 s x m hm.symm
      exact (ended_maximal h c1 c2 (by rw [hm]; exact b2) (by rw [hm]; exact b3) (b1 x (by rw [← hm]; simp))).elim
  · cases m with
    | nil => exact ended_same h h' (by simpa using hm.symm)
    | cons x m =>
      obtain ⟨c1, c2⟩ := a4 s' x m hm.symm
      exact (ended_maximal h' c1 c2 (by rw [hm]; exact a2) (by rw [hm]; exact a3) (a1 x (by rw [← hm]; simp))).elim

/-- Everything `huf_dec` can do, with any consumer (46_huffman.md R236). -/
theorem hufDec_whole (hc : HufConsumer emit eob takes refusal st0 P)
    (hlens : ∀ t ∈ lens, CodesSound t ∧ t.length = eob + 1) (hsel : ∀ x ∈ sel, x < lens.length) (r : BitReader) :
    (∃ syms st' r', hufDec emit eob (lens.map codeTable) sel st0 r = .ok (st', r') ∧ P syms st' ∧
      IsHufDec lens sel eob takes refusal r.pos r.rest (.ok (syms, r'.pos, r'.rest))) ∨
    (∃ e, hufDec emit eob (lens.map codeTable) sel st0 r = .error e ∧
      IsHufDec lens sel eob takes refusal r.pos r.rest (.error e)) :=
  hufDec_cases hc hlens hsel sel 0 [] st0 r rfl (by omega) rfl ⟨by simp [groupCodedBits], by simp [groupCodedBits],
    by simp, hc.nil, hc.start⟩
end

/-! HUF_DEC -/

/-- HUF_DEC's consumer stores up to its capacity (46_huffman.md R240). -/
theorem storeConsumer (cap eob : Nat) : HufConsumer (storeSymbol cap) eob (fun syms => syms.length ≤ cap) outputTooSmall
    (([], 0) : List Nat × Nat) (fun body st => st = (body.reverse, body.length)) where
  start := rfl
  nil := by simp
  accept := by
    rintro body st x - h1 rfl - h2
    refine ⟨(x :: body.reverse, body.length + 1), ?_, by simp⟩
    simp at h2
    simp [storeSymbol]; omega
  refuse := by
    rintro body st x - h1 rfl - h2
    simp at h2
    simp [storeSymbol]; omega
  mono := by
    intro a b _ h
    simp at h
    omega

end Sys2Proof.Machine
end

