-- ==== Sys2Proof/Laws/MtfDecoding.lean ====
section
/-! SUPPORT. The loop of `mtf_dec` in the middle of a run: what a symbol does to it, how it ends, and that the symbols read so
far have put out one byte string only (45_mtf_rle2.md R212, R214). -/

namespace Sys2Proof.Machine

/-- The value of a numeral with more digits. -/
theorem numeralValue_append (a b : List Nat) :
    numeralValue (a ++ b) = numeralValue a + 2 ^ a.length * numeralValue b := by
  induction a with
  | nil => simp [numeralValue]
  | cons d a ih => simp only [List.cons_append, numeralValue, ih, List.length_cons, pow_succ]; ring

/-- Positions 0 only lengthen the run. -/
theorem isRankCode_zeros (eob z e : Nat) (js syms : List Nat) :
    IsRankCode eob z (List.replicate e 0 ++ js) syms ↔ IsRankCode eob (z + e) js syms := by
  induction e generalizing z with
  | zero => simp
  | succ e ih =>
    rw [List.replicate_succ, List.cons_append, IsRankCode, ih]
    rw [show z + 1 + e = z + (e + 1) by omega]

/-- Copies of the front of the list are at position 0. -/
theorem frontPositions_copies {α : Type} [DecidableEq α] (x : α) (l bs : List α) (e : Nat) :
    frontPositions (x :: l) (List.replicate e x ++ bs) = List.replicate e 0 ++ frontPositions (x :: l) bs := by
  induction e with
  | zero => rfl
  | succ e ih => simp [List.replicate_succ, frontPositions, ih]

/-- A sequence begins with digits and a first symbol above 1 in one way only. -/
theorem append_cons_digits {run run' : List Nat} {x y : Nat} {a b : List Nat} (h : run ++ x :: a = run' ++ y :: b)
    (h1 : ∀ d ∈ run, d ≤ 1) (h2 : ∀ d ∈ run', d ≤ 1) (hx : 2 ≤ x) (hy : 2 ≤ y) : run = run' ∧ x = y ∧ a = b := by
  induction run generalizing run' with
  | nil =>
    cases run' with
    | nil => simpa using h
    | cons d run' => simp at h; have := h2 d (by simp); omega
  | cons c run ih =>
    cases run' with
    | nil => simp at h; have := h1 c (by simp); omega
    | cons d run' =>
      simp only [List.cons_append, List.cons.injEq] at h
      obtain ⟨h3, h4, h5⟩ := ih h.2 (fun z hz => h1 z (by simp [hz])) (fun z hz => h2 z (by simp [hz]))
      exact ⟨by rw [h.1, h3], h4, h5⟩

/-- A coding that begins with the digits `run` and then has a symbol above 1. -/
theorem isRankCode_digits {eob z x : Nat} {js run tail : List Nat} (he : 2 ≤ eob) (hrun : ∀ d ∈ run, d ≤ 1) (hx : 2 ≤ x)
    (h : IsRankCode eob z js (run ++ x :: tail)) : ∃ e js', js = List.replicate e 0 ++ js' ∧ z + e = numeralValue run ∧
      ((js' = [] ∧ x = eob ∧ tail = []) ∨ ∃ j js'', js' = (j + 1) :: js'' ∧ x = j + 2 ∧ IsRankCode eob 0 js'' tail) := by
  induction js generalizing z with
  | nil =>
    obtain ⟨r, ⟨h1, h2⟩, h3⟩ := h
    obtain ⟨rfl, rfl, rfl⟩ := append_cons_digits h3 hrun h1 hx he
    exact ⟨0, [], rfl, by simpa using h2.symm, .inl ⟨rfl, rfl, rfl⟩⟩
  | cons j js ih =>
    cases j with
    | zero =>
      obtain ⟨e, js', h1, h2, h3⟩ := ih h
      exact ⟨e + 1, js', by rw [h1]; rfl, by omega, h3⟩
    | succ j =>
      obtain ⟨r, rest, ⟨h1, h2⟩, h3, h4⟩ := h
      obtain ⟨rfl, rfl, rfl⟩ := append_cons_digits h3 hrun h1 hx (by omega)
      exact ⟨0, _, rfl, by simpa using h2.symm, .inr ⟨j, js, rfl, rfl, h4⟩⟩

/-- Positions 0 are copies of the front of the list. -/
theorem frontPositions_eq_zeros {α : Type} [DecidableEq α] {x : α} {l bs : List α} {e : Nat} {js : List Nat}
    (h : frontPositions (x :: l) bs = List.replicate e 0 ++ js) :
    ∃ bs', bs = List.replicate e x ++ bs' ∧ frontPositions (x :: l) bs' = js := by
  induction e generalizing bs with
  | zero => exact ⟨bs, rfl, h⟩
  | succ e ih =>
    cases bs with
    | nil => simp [frontPositions, List.replicate_succ] at h
    | cons b bs =>
      simp only [frontPositions, List.replicate_succ, List.cons_append, List.cons.injEq] at h
      have hb : b = x := by
        by_contra hne
        rw [List.idxOf_cons_ne _ (Ne.symm hne)] at h
        omega
      subst hb
      rw [List.erase_cons_head] at h
      obtain ⟨bs', h1, h2⟩ := ih h.2
      exact ⟨bs', by rw [h1]; rfl, h2⟩

/-- The digits read so far of the pending run, and the decoder's own conditions. -/
structure MtfPending (lim n : Nat) (d : MtfState) (run : List Nat) : Prop where
  digits : ∀ x ∈ run, x ≤ 1
  es : numeralValue run = d.es
  weight : d.weight = 2 ^ run.length
  lst : d.lst ≠ []
  nodup : d.lst.Nodup
  len : d.lst.length = n
  outLen : d.outLen = d.out.length
  fits : d.outLen + d.es ≤ lim

/-- The bytes still to come from the symbols after the digits read so far. -/
def MtfComes (n : Nat) (run : List Nat) (lst : List Byte) (syms : List Nat) (bytes : List Byte) : Prop :=
  IsRankCode (n + 1) 0 (frontPositions lst bytes) (run ++ syms ++ [n + 1]) ∧ ∀ b ∈ bytes, b ∈ lst

/-- After the digits alone only the pending run comes. -/
theorem comes_run {lim n : Nat} {d : MtfState} {run : List Nat} (hn : 1 ≤ n) (hp : MtfPending lim n d run)
    (bytes : List Byte) : MtfComes n run d.lst [] bytes ↔ bytes = List.replicate d.es (d.lst.getD 0 0) := by
  obtain ⟨x, l, hl⟩ := List.exists_cons_of_ne_nil hp.lst
  rw [hl]
  simp only [List.getD_cons_zero]
  constructor
  · rintro ⟨h1, h2⟩
    rw [List.append_nil] at h1
    obtain ⟨e, js', h3, h4, h5 | ⟨j, js'', h5, h6, h7⟩⟩ := isRankCode_digits (by omega) hp.digits (by omega) h1
    · obtain ⟨bs', h6, h7⟩ := frontPositions_eq_zeros h3
      rw [h5.1] at h7
      cases bs' with
      | nil => rw [h6, List.append_nil]; congr 1; rw [← hp.es]; omega
      | cons b bs' => simp [frontPositions] at h7
    · exfalso
      revert h7
      cases js'' with
      | nil => rintro ⟨r, -, h⟩; simp at h
      | cons k js =>
        have : ∀ (z : Nat) (js : List Nat), ¬ IsRankCode (n + 1) z js [] := by
          intro z js
          induction js generalizing z with
          | nil => rintro ⟨r, -, h⟩; simp at h
          | cons k js ih =>
            cases k with
            | zero => exact ih _
            | succ k => rintro ⟨r, s, -, h, -⟩; simp at h
        exact this _ _
  · rintro rfl
    refine ⟨?_, by intro b hb; rw [List.eq_of_mem_replicate hb]; simp⟩
    have := frontPositions_copies x l [] d.es
    rw [List.append_nil] at this
    rw [this, isRankCode_zeros, List.append_nil]
    exact ⟨run, ⟨hp.digits, by rw [hp.es]; simp⟩, by simp⟩

/-- A symbol above 1 brings the pending run and the byte at its position, moved to the front. -/
theorem comes_symbol {lim n : Nat} {d : MtfState} {run syms : List Nat} {sym : Nat} (hp : MtfPending lim n d run)
    (h2 : 2 ≤ sym) (bytes : List Byte) : MtfComes n run d.lst (sym :: syms) bytes ↔
      ∃ b bytes', d.lst[sym - 1]? = some b ∧ bytes = List.replicate d.es (d.lst.getD 0 0) ++ b :: bytes' ∧
        MtfComes n [] (moveFront d.lst (sym - 1)) syms bytes' := by
  obtain ⟨x, l, hl⟩ := List.exists_cons_of_ne_nil hp.lst
  have hn : 1 ≤ n := by rw [← hp.len, hl]; simp
  constructor
  · rintro ⟨h3, h4⟩
    rw [hl] at h3
    rw [List.append_assoc, List.cons_append] at h3
    obtain ⟨e, js', h5, h6, ⟨-, -, h7⟩ | ⟨j, js'', h7, rfl, h8⟩⟩ := isRankCode_digits (by omega) hp.digits h2 h3
    · simp at h7
    · obtain ⟨bs', h9, h10⟩ := frontPositions_eq_zeros h5
      rw [h7] at h10
      cases bs' with
      | nil => simp [frontPositions] at h10
      | cons b bs' =>
        rw [frontPositions, List.cons.injEq] at h10
        have hb : b ∈ x :: l := by rw [← hl]; apply h4; rw [h9]; simp
        have hlt := List.idxOf_lt_length_iff.mpr hb
        have hget : (x :: l)[j + 1]? = some b := by
          have := List.getElem?_eq_getElem hlt
          rw [List.getElem_idxOf] at this
          rwa [h10.1] at this
        have hmv := moveFront_idxOf hb
        rw [h10.1] at hmv
        refine ⟨b, bs', by rw [hl]; exact hget, by rw [h9, hl, show e = d.es by rw [← hp.es]; omega]; rfl, ?_, ?_⟩
        · rw [hl]
          show IsRankCode _ _ (frontPositions (moveFront (x :: l) (j + 1)) bs') _
          rw [hmv, h10.2]
          exact h8
        · intro c hc
          rw [hl]
          show c ∈ moveFront (x :: l) (j + 1)
          rw [hmv, mem_moveToFront hb, ← hl]
          exact h4 c (by rw [h9]; simp [hc])
  · rintro ⟨b, bytes', h3, rfl, h4, h5⟩
    have hb : b ∈ d.lst := List.mem_of_getElem? h3
    have hidx : d.lst.idxOf b = sym - 1 := by
      obtain ⟨hlt, hg⟩ := List.getElem?_eq_some_iff.mp h3
      rw [← hg]
      exact hp.nodup.idxOf_getElem _ hlt
    have hmv := moveFront_idxOf hb
    rw [hidx] at hmv
    rw [hmv] at h4 h5
    constructor
    · rw [hl]
      simp only [List.getD_cons_zero]
      rw [frontPositions_copies, isRankCode_zeros, ← hl, frontPositions, hidx]
      obtain ⟨j, rfl⟩ : ∃ j, sym = j + 2 := ⟨sym - 2, by omega⟩
      exact ⟨run, _, ⟨hp.digits, by rw [hp.es]; simp⟩, by simp, h4⟩
    · intro c hc
      rcases List.mem_append.mp hc with hc | hc
      · rw [List.eq_of_mem_replicate hc, hl]; simp
      · rcases List.mem_cons.mp hc with rfl | hc
        · exact hb
        · exact (mem_moveToFront hb).mp (h5 c hc)

/-- A digit joins the pending run. -/
theorem comes_digit {n : Nat} {run syms : List Nat} {sym : Nat} {lst bytes : List Byte} :
    MtfComes n run lst (sym :: syms) bytes ↔ MtfComes n (run ++ [sym]) lst syms bytes := by
  simp [MtfComes]

/-- What follows a pending run is at least the run. -/
theorem comes_length {n : Nat} {d : MtfState} {run syms : List Nat} {bytes : List Byte} (hn : 1 ≤ n)
    (hp : ∀ x ∈ run, x ≤ 1) (hl : d.lst ≠ []) (h : MtfComes n run d.lst syms bytes) : numeralValue run ≤ bytes.length := by
  obtain ⟨x, l, hl⟩ := List.exists_cons_of_ne_nil hl
  obtain ⟨h1, h2⟩ := h
  rw [hl] at h1
  have hsplit : ∃ ds y tail, (∀ c ∈ ds, c ≤ 1) ∧ 2 ≤ y ∧ syms ++ [n + 1] = ds ++ y :: tail := by
    clear h1 h2
    induction syms with
    | nil => exact ⟨[], n + 1, [], by simp, by omega, rfl⟩
    | cons c syms ih =>
      by_cases hc : c ≤ 1
      · obtain ⟨ds, y, tail, h1, h2, h3⟩ := ih
        exact ⟨c :: ds, y, tail, by simpa [hc] using h1, h2, by rw [List.cons_append, h3]; rfl⟩
      · exact ⟨[], c, syms ++ [n + 1], by simp, by omega, rfl⟩
  obtain ⟨ds, y, tail, h3, h4, h5⟩ := hsplit
  rw [List.append_assoc, h5, ← List.append_assoc] at h1
  obtain ⟨e, js', h6, h7, -⟩ := isRankCode_digits (by omega) (run := run ++ ds)
    (by intro c hc; rcases List.mem_append.mp hc with hc | hc; exact hp c hc; exact h3 c hc) h4 h1
  obtain ⟨bs', h8, -⟩ := frontPositions_eq_zeros h6
  rw [h8, List.length_append, List.length_replicate]
  rw [numeralValue_append] at h7
  omega

/-- Everything a step can do. -/
theorem mtfStep_digit {lim n : Nat} {d : MtfState} {run : List Nat} {sym : Nat} (le : EngineError) (hn : 1 ≤ n)
    (hp : MtfPending lim n d run) (h1 : sym ≤ 1) :
    let d' : MtfState := { d with es := numeralValue (run ++ [sym]), weight := 2 ^ (run ++ [sym]).length }
    mtfStep (n + 1) lim le d sym = (if d.outLen + numeralValue (run ++ [sym]) ≤ lim then .ok d' else .error le) ∧
    (d.outLen + numeralValue (run ++ [sym]) ≤ lim → MtfPending lim n d' (run ++ [sym])) := by
  have hes : d.es + (sym + 1) * d.weight = numeralValue (run ++ [sym]) := by
    rw [numeralValue_append, hp.es, hp.weight]; simp [numeralValue]; ring
  refine ⟨?_, ?_⟩
  · unfold mtfStep
    rw [if_neg (by omega), if_pos h1]
    simp only [hes]
    rw [hp.weight, List.length_append, List.length_singleton, pow_succ, Nat.mul_comm]
  · intro h
    exact ⟨by intro x hx; rcases List.mem_append.mp hx with hx | hx; exact hp.digits x hx; simp at hx; omega, rfl, rfl,
      hp.lst, hp.nodup, hp.len, hp.outLen, h⟩

/-- The element at a position, moved to the front. -/
theorem moveFront_some {α : Type} [DecidableEq α] {lst : List α} {j : Nat} {x : α} (h : lst[j]? = some x) (hnd : lst.Nodup) :
    moveFront lst j = x :: lst.erase x := by
  obtain ⟨hlt, hg⟩ := List.getElem?_eq_some_iff.mp h
  have hx : x ∈ lst := List.mem_of_getElem? h
  have hidx : lst.idxOf x = j := by rw [← hg]; exact hnd.idxOf_getElem _ hlt
  have := moveFront_idxOf hx
  rwa [hidx] at this

/-- A step on a symbol above 1 and below EOB. -/
theorem mtfStep_symbol {lim n : Nat} {d : MtfState} {run : List Nat} {sym : Nat} (le : EngineError)
    (hp : MtfPending lim n d run) (h1 : 2 ≤ sym) (h2 : sym < n + 1) :
    ∃ b, d.lst[sym - 1]? = some b ∧
    let d' : MtfState := ⟨moveFront d.lst (sym - 1), b :: (List.replicate d.es (d.lst.getD 0 0) ++ d.out),
      d.outLen + d.es + 1, 0, 1⟩
    mtfStep (n + 1) lim le d sym = (if d.outLen + d.es + 1 ≤ lim then .ok d' else .error le) ∧
    (d.outLen + d.es + 1 ≤ lim → MtfPending lim n d' []) := by
  have hlt : sym - 1 < d.lst.length := by rw [hp.len]; omega
  refine ⟨d.lst[sym - 1], List.getElem?_eq_getElem hlt, ?_, ?_⟩
  · unfold mtfStep
    rw [if_neg (by omega), if_neg (by omega)]
    simp only [MtfState.flushRun]
    rw [if_neg (by omega), List.getElem?_eq_getElem hlt]
    rfl
  · intro h
    have hmv := moveFront_some (List.getElem?_eq_getElem hlt) hp.nodup
    have hx : d.lst[sym - 1] ∈ d.lst := List.getElem_mem hlt
    exact ⟨by simp, rfl, rfl, by simp only; rw [hmv]; simp, by simp only; rw [hmv]; exact nodup_moveToFront hp.nodup,
      by simp only; rw [hmv, length_moveToFront hx, hp.len],
      by have := hp.outLen; simp only [List.length_cons, List.length_append, List.length_replicate]; omega, by simpa using h⟩

/-- A step on EOB. -/
theorem mtfStep_eob {lim n : Nat} {d : MtfState} (le : EngineError) (hn : 1 ≤ n) :
    mtfStep (n + 1) lim le d (n + 1) = .ok d.flushRun := by
  unfold mtfStep
  rw [if_neg (by omega), if_neg (by omega)]
  simp

/-- The ends of the loop from a decoder in the middle of a run. -/
def MtfEnds (n lim : Nat) (le : EngineError) (k : Nat) (d : MtfState) (run syms : List Nat)
    (out : Except EngineError (List Byte × Nat)) : Prop :=
  (∃ seen more bytes, syms = seen ++ (n + 1) :: more ∧ MtfComes n run d.lst seen bytes ∧ d.outLen + bytes.length ≤ lim ∧
    out = .ok (d.out.reverse ++ bytes, k + seen.length + 1)) ∨
  (∃ seen more bytes x, syms = seen ++ x :: more ∧ MtfComes n run d.lst seen bytes ∧ d.outLen + bytes.length ≤ lim ∧
    n + 1 < x ∧ out = .error { code := .invalidSymbol }) ∨
  (∃ seen more bytes bytes' x, syms = seen ++ x :: more ∧ MtfComes n run d.lst seen bytes ∧ d.outLen + bytes.length ≤ lim ∧
    MtfComes n run d.lst (seen ++ [x]) bytes' ∧ lim < d.outLen + bytes'.length ∧ out = .error le) ∨
  (∃ bytes, MtfComes n run d.lst syms bytes ∧ d.outLen + bytes.length ≤ lim ∧ out = .error (formatError 9))

/-- What the loop comes to, as the bytes put out and the symbols used. -/
def mtfOutcome (x : Except EngineError (MtfState × Nat)) : Except EngineError (List Byte × Nat) :=
  x.map fun y => (y.1.out.reverse, y.2)

/-- The loop ends in one of the four ways. -/
theorem mtfDecFrom_ends {lim n : Nat} (le : EngineError) (hn : 1 ≤ n) (syms : List Nat) :
    ∀ (k : Nat) (d : MtfState) (run : List Nat), MtfPending lim n d run →
    MtfEnds n lim le k d run syms (mtfOutcome (mtfDecFrom (n + 1) lim le k d syms)) := by
  induction syms with
  | nil =>
    intro k d run hp
    refine .inr (.inr (.inr ⟨_, (comes_run hn hp _).mpr rfl, ?_, rfl⟩))
    have := hp.fits
    simpa using this
  | cons sym syms ih =>
    intro k d run hp
    have hfit := hp.fits
    have hnow := (comes_run hn hp _).mpr rfl
    rw [mtfDecFrom]
    rcases lt_trichotomy sym (n + 1) with hs | rfl | hs
    · by_cases h1 : sym ≤ 1
      · obtain ⟨h2, h3⟩ := mtfStep_digit le hn hp h1
        rw [h2]
        split
        · rename_i h heq
          split at heq
          · cases heq
          · rename_i hlim
            cases heq
            refine .inr (.inr (.inl ⟨[], syms, _, List.replicate (numeralValue (run ++ [sym])) (d.lst.getD 0 0), sym, rfl, hnow,
              by simpa using hfit, ?_, by simpa using hlim, rfl⟩))
            rw [List.nil_append, comes_digit]
            have hp' : MtfPending (d.outLen + numeralValue (run ++ [sym])) n
              { d with es := numeralValue (run ++ [sym]), weight := 2 ^ (run ++ [sym]).length } (run ++ [sym]) :=
              ⟨by intro x hx; rcases List.mem_append.mp hx with hx | hx; exact hp.digits x hx; simp at hx; omega, rfl, rfl,
              hp.lst, hp.nodup, hp.len, hp.outLen, le_refl _⟩
            exact (comes_run hn hp' _).mpr rfl
        · rename_i d' heq
          split at heq
          · rename_i hlim
            cases heq
            rw [if_neg (by omega)]
            have := ih (k + 1) _ _ (h3 hlim)
            rcases this with ⟨seen, more, bytes, g1, g2, g3, g4⟩ | ⟨seen, more, bytes, x, g1, g2, g3, g4, g5⟩ |
              ⟨seen, more, bytes, bytes', x, g1, g2, g3, g4, g5, g6⟩ | ⟨bytes, g1, g2, g3⟩
            · refine .inl ⟨sym :: seen, more, bytes, by rw [g1]; rfl, comes_digit.mpr g2, g3, ?_⟩
              rw [g4]; simp; omega
            · exact .inr (.inl ⟨sym :: seen, more, bytes, x, by rw [g1]; rfl, comes_digit.mpr g2, g3, g4, g5⟩)
            · exact .inr (.inr (.inl ⟨sym :: seen, more, bytes, bytes', x, by rw [g1]; rfl, comes_digit.mpr g2, g3,
                comes_digit.mpr g4, g5, g6⟩))
            · exact .inr (.inr (.inr ⟨bytes, comes_digit.mpr g1, g2, g3⟩))
          · cases heq
      · obtain ⟨b, h2, h3, h4⟩ := mtfStep_symbol le hp (by omega) hs
        rw [h3]
        have hgo : ∀ seen bytes, MtfComes n [] (moveFront d.lst (sym - 1)) seen bytes →
            MtfComes n run d.lst (sym :: seen) (List.replicate d.es (d.lst.getD 0 0) ++ b :: bytes) :=
          fun seen bytes h => (comes_symbol hp (by omega) _).mpr ⟨b, bytes, h2, rfl, h⟩
        split
        · rename_i h heq
          split at heq
          · cases heq
          · rename_i hlim
            cases heq
            refine .inr (.inr (.inl ⟨[], syms, _, List.replicate d.es (d.lst.getD 0 0) ++ [b], sym, rfl, hnow,
              by simpa using hfit, ?_, by simpa using by omega, rfl⟩))
            rw [List.nil_append]
            apply hgo
            exact ⟨⟨[], ⟨by simp, rfl⟩, by simp⟩, by simp⟩
        · rename_i d' heq
          split at heq
          · rename_i hlim
            cases heq
            rw [if_neg (by omega)]
            have := ih (k + 1) _ _ (h4 hlim)
            rcases this with ⟨seen, more, bytes, g1, g2, g3, g4⟩ | ⟨seen, more, bytes, x, g1, g2, g3, g4, g5⟩ |
              ⟨seen, more, bytes, bytes', x, g1, g2, g3, g4, g5, g6⟩ | ⟨bytes, g1, g2, g3⟩
            · refine .inl ⟨sym :: seen, more, _, by rw [g1]; rfl, hgo _ _ g2, ?_, ?_⟩
              · simp only at g3; simp; omega
              · rw [g4]; simp; omega
            · refine .inr (.inl ⟨sym :: seen, more, _, x, by rw [g1]; rfl, hgo _ _ g2, ?_, g4, g5⟩)
              simp only at g3; simp; omega
            · refine .inr (.inr (.inl ⟨sym :: seen, more, _, _, x, by rw [g1]; rfl, hgo _ _ g2, ?_, hgo _ _ g4, ?_, g6⟩))
              · simp only at g3; simp; omega
              · simp only at g5; simp; omega
            · refine .inr (.inr (.inr ⟨_, hgo _ _ g1, ?_, g3⟩))
              simp only at g2; simp; omega
          · cases heq
    · rw [mtfStep_eob le hn]
      simp only [if_true]
      refine .inl ⟨[], syms, _, rfl, hnow, by simpa using hfit, ?_⟩
      simp [mtfOutcome, Except.map, MtfState.flushRun]
    · have : mtfStep (n + 1) lim le d sym = .error { code := .invalidSymbol } := by
        unfold mtfStep; rw [if_pos hs]
      rw [this]
      exact .inr (.inl ⟨[], syms, _, sym, rfl, hnow, by simpa using hfit, hs, rfl⟩)

/-- The bytes of the first symbols begin the bytes of all: so each sequence has one byte string only. -/
theorem comes_unique {n : Nat} (hn : 1 ≤ n) (seen : List Nat) : ∀ (lim : Nat) (d : MtfState) (run : List Nat)
    (more : List Nat) (bytes bytes' : List Byte), MtfPending lim n d run → MtfComes n run d.lst seen bytes →
    MtfComes n run d.lst (seen ++ more) bytes' → bytes <+: bytes' := by
  induction seen with
  | nil =>
    intro lim d run more bytes bytes' hp h1 h2
    rw [comes_run hn hp] at h1
    subst h1
    cases more with
    | nil => rw [List.append_nil, comes_run hn hp] at h2; rw [h2]
    | cons x more =>
      obtain ⟨y, l, hl⟩ := List.exists_cons_of_ne_nil hp.lst
      have h3 := h2.1
      rw [hl] at h3
      have hsplit : ∀ syms : List Nat, ∃ ds y tail, (∀ c ∈ ds, c ≤ 1) ∧ 2 ≤ y ∧ syms ++ [n + 1] = ds ++ y :: tail := by
        intro syms
        induction syms with
        | nil => exact ⟨[], n + 1, [], by simp, by omega, rfl⟩
        | cons c syms ih =>
          by_cases hc : c ≤ 1
          · obtain ⟨ds, y, tail, h1, h2, h3⟩ := ih
            exact ⟨c :: ds, y, tail, by simpa [hc] using h1, h2, by rw [List.cons_append, h3]; rfl⟩
          · exact ⟨[], c, syms ++ [n + 1], by simp, by omega, rfl⟩
      obtain ⟨ds, z, tail, h4, h5, h6⟩ := hsplit ([] ++ x :: more)
      rw [List.append_assoc, h6, ← List.append_assoc] at h3
      obtain ⟨e, js', h7, h8, -⟩ := isRankCode_digits (by omega) (run := run ++ ds)
        (by intro c hc; rcases List.mem_append.mp hc with hc | hc; exact hp.digits c hc; exact h4 c hc) h5 h3
      obtain ⟨bs', h9, -⟩ := frontPositions_eq_zeros h7
      rw [numeralValue_append] at h8
      have : d.es ≤ e := by rw [← hp.es]; omega
      rw [h9, hl, List.getD_cons_zero, show e = d.es + (e - d.es) by omega, List.replicate_add, List.append_assoc]
      exact List.prefix_append _ _
  | cons sym seen ih =>
    intro lim d run more bytes bytes' hp h1 h2
    by_cases hs : sym ≤ 1
    · rw [comes_digit] at h1
      rw [List.cons_append, comes_digit] at h2
      have hp' : MtfPending (d.outLen + numeralValue (run ++ [sym])) n
        { d with es := numeralValue (run ++ [sym]), weight := 2 ^ (run ++ [sym]).length } (run ++ [sym]) :=
        ⟨by intro x hx; rcases List.mem_append.mp hx with hx | hx; exact hp.digits x hx; simp at hx; omega, rfl, rfl,
        hp.lst, hp.nodup, hp.len, hp.outLen, le_refl _⟩
      exact ih _ _ _ _ _ _ hp' h1 h2
    · rw [comes_symbol hp (by omega)] at h1
      rw [List.cons_append, comes_symbol hp (by omega)] at h2
      obtain ⟨b, c, h3, rfl, h4⟩ := h1
      obtain ⟨b', c', h5, rfl, h6⟩ := h2
      rw [h3] at h5
      cases h5
      have hmv := moveFront_some h3 hp.nodup
      have hx : b ∈ d.lst := List.mem_of_getElem? h3
      have hp' : MtfPending 0 n ⟨moveFront d.lst (sym - 1), [], 0, 0, 1⟩ [] :=
        ⟨by simp, rfl, rfl, by simp only; rw [hmv]; simp, by simp only; rw [hmv]; exact nodup_moveToFront hp.nodup,
          by simp only; rw [hmv, length_moveToFront hx, hp.len], rfl, by simp⟩
      have := ih _ _ _ _ _ _ hp' h4 h6
      exact List.prefix_append_right_inj _ |>.mpr (List.cons_prefix_cons.mpr ⟨rfl, this⟩)

/-- Symbols that put out bytes are below EOB. -/
theorem comes_symbols {n : Nat} (hn : 1 ≤ n) (seen : List Nat) : ∀ (lim : Nat) (d : MtfState) (run : List Nat)
    (bytes : List Byte), MtfPending lim n d run → MtfComes n run d.lst seen bytes → ∀ x ∈ seen, x < n + 1 := by
  induction seen with
  | nil => simp
  | cons sym seen ih =>
    intro lim d run bytes hp h1
    by_cases hs : sym ≤ 1
    · rw [comes_digit] at h1
      have hp' : MtfPending (d.outLen + numeralValue (run ++ [sym])) n
        { d with es := numeralValue (run ++ [sym]), weight := 2 ^ (run ++ [sym]).length } (run ++ [sym]) :=
        ⟨by intro x hx; rcases List.mem_append.mp hx with hx | hx; exact hp.digits x hx; simp at hx; omega, rfl, rfl,
        hp.lst, hp.nodup, hp.len, hp.outLen, le_refl _⟩
      have := ih _ _ _ _ hp' h1
      intro x hx
      rcases List.mem_cons.mp hx with rfl | hx
      · omega
      · exact this x hx
    · rw [comes_symbol hp (by omega)] at h1
      obtain ⟨b, c, h3, rfl, h4⟩ := h1
      obtain ⟨hlt, -⟩ := List.getElem?_eq_some_iff.mp h3
      have hmv := moveFront_some h3 hp.nodup
      have hx : b ∈ d.lst := List.mem_of_getElem? h3
      have hp' : MtfPending 0 n ⟨moveFront d.lst (sym - 1), [], 0, 0, 1⟩ [] :=
        ⟨by simp, rfl, rfl, by simp only; rw [hmv]; simp, by simp only; rw [hmv]; exact nodup_moveToFront hp.nodup,
          by simp only; rw [hmv, length_moveToFront hx, hp.len], rfl, by simp⟩
      have := ih _ _ _ _ hp' h4
      intro x hx
      rcases List.mem_cons.mp hx with rfl | hx
      · rw [hp.len] at hlt; omega
      · exact this x hx

/-- What the symbols of a decoding from its start have put out. -/
theorem isMtfPrefix_iff (used bytes : List Byte) (syms : List Nat) :
    IsMtfPrefix used bytes syms ↔ MtfComes used.length [] used syms bytes := by
  simp [IsMtfPrefix, MtfComes, IsMtfCode]

end Sys2Proof.Machine
end

