-- ==== Sys2Proof/Laws/BlockDecoding.lean ====
section
/-! SUPPORT. The consumer of a block's symbols: the steps of `mtf_dec` take a symbol sequence as long as its bytes stay within
the limit, and a block's decoding has the last column its symbols code (45_mtf_rle2.md R214, 47_block_stream.md R271). -/

namespace Sys2Proof.Machine

/-! the block's consumer -/

/-- The consumer after some symbols: with EOB last the bytes are out, without it a run may be pending. -/
def MtfFed (used : List Byte) (lim : Nat) (syms : List Nat) (d : MtfState) : Prop :=
  (syms.getLast? = some (used.length + 1) ∧ IsMtfCode used d.out.reverse syms ∧ ∀ b ∈ d.out.reverse, b ∈ used) ∨
  ((∀ x ∈ syms, x < used.length + 1) ∧ ∃ run, MtfPending lim used.length d run ∧ (∀ b ∈ d.lst, b ∈ used) ∧
    ∀ more bytes, MtfComes used.length run d.lst more bytes →
      MtfComes used.length [] used (syms ++ more) (d.out.reverse ++ bytes))

/-- A sequence without EOB is taken when its bytes stay within the limit. -/
theorem takesWithin_iff {used : List Byte} {lim : Nat} {syms : List Nat}
    (hs : ∀ x ∈ syms, x < used.length + 1) :
    TakesWithin used lim syms ↔ ∃ bytes, MtfComes used.length [] used syms bytes ∧ bytes.length ≤ lim := by
  unfold TakesWithin
  simp only [isMtfPrefix_iff]
  constructor
  · rintro (h | h)
    · have := hs _ (List.mem_of_getLast? h); omega
    · exact h
  · exact .inr

/-- The decoder before its first symbol has no pending run. -/
theorem mtfPending_start {used : List Byte} (hu : used ≠ []) (hnd : used.Nodup) (lim : Nat) :
    MtfPending lim used.length (mtfStart used) [] := ⟨by simp, rfl, rfl, hu, hnd, rfl, rfl, by simp [mtfStart]⟩

/-- The steps of `mtf_dec` as a block's consumer: FORMAT_ERROR 8 past the limit (47_block_stream.md R271). -/
theorem mtfConsumer (used : List Byte) (lim : Nat) (hu : used ≠ []) (hnd : used.Nodup) :
    HufConsumer (mtfStep (used.length + 1) lim (formatError 8)) (used.length + 1) (TakesWithin used lim) (formatError 8)
      (mtfStart used) (MtfFed used lim) := by
  have hn : 1 ≤ used.length := List.length_pos_iff.mpr hu
  have hstart := mtfPending_start hu hnd
  refine ⟨?_, ?_, ?_, ?_, ?_⟩
  · right
    refine ⟨by simp, [], hstart lim, fun b hb => hb, ?_⟩
    intro more bytes h
    simpa [mtfStart] using h
  · right
    refine ⟨[], ?_, by simp⟩
    exact ⟨⟨[], ⟨by simp, rfl⟩, rfl⟩, by simp⟩
  · rintro body d x hb ht (⟨h, -⟩ | ⟨-, run, hp, hsub, hcont⟩) hx hnext
    · have := hb _ (List.mem_of_getLast? h); omega
    rcases Nat.lt_or_eq_of_le hx with hx | rfl
    · have hlow : ∀ y ∈ body ++ [x], y < used.length + 1 := by
        intro y hy
        rcases List.mem_append.mp hy with hy | hy
        · exact hb y hy
        · simp at hy; omega
      rw [takesWithin_iff hlow] at hnext
      obtain ⟨all, h1, h2⟩ := hnext
      by_cases hd : x ≤ 1
      · obtain ⟨h3, h4⟩ := mtfStep_digit (formatError 8) hn hp hd
        have hp' : MtfPending (d.outLen + numeralValue (run ++ [x])) used.length
          { d with es := numeralValue (run ++ [x]), weight := 2 ^ (run ++ [x]).length } (run ++ [x]) :=
          ⟨by intro y hy; rcases List.mem_append.mp hy with hy | hy; exact hp.digits y hy; simp at hy; omega, rfl, rfl,
          hp.lst, hp.nodup, hp.len, hp.outLen, le_refl _⟩
        have h5 := hcont [x] _ (comes_digit.mpr ((comes_run hn hp' _).mpr rfl))
        have h6 := comes_unique hn (body ++ [x]) 0 _ _ [] _ _ (hstart 0) h1 (by rw [List.append_nil]; exact h5)
        have h7 := comes_unique hn (body ++ [x]) 0 _ _ [] _ _ (hstart 0) h5 (by rw [List.append_nil]; exact h1)
        have h8 : d.outLen + numeralValue (run ++ [x]) ≤ lim := by
          have h9 := h7.length_le
          simp at h9
          have := hp.outLen
          omega
        rw [h3, if_pos h8]
        refine ⟨_, rfl, .inr ⟨hlow, run ++ [x], h4 h8, hsub, ?_⟩⟩
        intro more bytes hm
        have := hcont (x :: more) bytes (comes_digit.mpr hm)
        simpa using this
      · obtain ⟨b, h2', h3, h4⟩ := mtfStep_symbol (formatError 8) hp (by omega) hx
        have hbmem : b ∈ d.lst := List.mem_of_getElem? h2'
        have hmv := moveFront_some h2' hp.nodup
        have hgo : ∀ more bytes, MtfComes used.length [] (moveFront d.lst (x - 1)) more bytes →
            MtfComes used.length [] used ((body ++ [x]) ++ more)
              (d.out.reverse ++ (List.replicate d.es (d.lst.getD 0 0) ++ b :: bytes)) := by
          intro more bytes hm
          have := hcont (x :: more) _ ((comes_symbol hp (by omega) _).mpr ⟨b, bytes, h2', rfl, hm⟩)
          simpa using this
        have h5 := hgo [] [] ⟨⟨[], ⟨by simp, rfl⟩, by simp⟩, by simp⟩
        rw [List.append_nil] at h5
        have h7 := comes_unique hn (body ++ [x]) 0 _ _ [] _ _ (hstart 0) h5 (by rw [List.append_nil]; exact h1)
        have h8 : d.outLen + d.es + 1 ≤ lim := by
          have h9 := h7.length_le
          simp at h9
          have := hp.outLen
          omega
        rw [h3, if_pos h8]
        refine ⟨_, rfl, .inr ⟨hlow, [], h4 h8, ?_, ?_⟩⟩
        · intro c hc
          simp only at hc
          rw [hmv, mem_moveToFront hbmem] at hc
          exact hsub c hc
        · intro more bytes hm
          have := hgo more bytes hm
          simpa using this
    · rw [mtfStep_eob _ hn]
      refine ⟨_, rfl, .inl ⟨by simp, ?_, ?_⟩⟩
      · have := hcont [] _ ((comes_run hn hp _).mpr rfl)
        rw [List.append_nil] at this
        have h1 := this.1
        simpa [MtfState.flushRun, IsMtfCode] using h1
      · have := hcont [] _ ((comes_run hn hp _).mpr rfl)
        have h1 := this.2
        intro c hc
        apply h1
        simpa [MtfState.flushRun, or_comm] using hc
  · rintro body d x hb ht (⟨h, -⟩ | ⟨-, run, hp, hsub, hcont⟩) hx hnext
    · have := hb _ (List.mem_of_getLast? h); omega
    rcases Nat.lt_or_eq_of_le hx with hx | rfl
    · have hlow : ∀ y ∈ body ++ [x], y < used.length + 1 := by
        intro y hy
        rcases List.mem_append.mp hy with hy | hy
        · exact hb y hy
        · simp at hy; omega
      rw [takesWithin_iff hlow] at hnext
      push Not at hnext
      by_cases hd : x ≤ 1
      · obtain ⟨h3, h4⟩ := mtfStep_digit (formatError 8) hn hp hd
        have hp' : MtfPending (d.outLen + numeralValue (run ++ [x])) used.length
          { d with es := numeralValue (run ++ [x]), weight := 2 ^ (run ++ [x]).length } (run ++ [x]) :=
          ⟨by intro y hy; rcases List.mem_append.mp hy with hy | hy; exact hp.digits y hy; simp at hy; omega, rfl, rfl,
          hp.lst, hp.nodup, hp.len, hp.outLen, le_refl _⟩
        have h5 := hcont [x] _ (comes_digit.mpr ((comes_run hn hp' _).mpr rfl))
        have h6 := hnext _ h5
        rw [h3, if_neg]
        simp at h6
        have := hp.outLen
        omega
      · obtain ⟨b, h2', h3, h4⟩ := mtfStep_symbol (formatError 8) hp (by omega) hx
        have := hcont [x] _ ((comes_symbol hp (by omega) _).mpr
          ⟨b, [], h2', rfl, ⟨⟨[], ⟨by simp, rfl⟩, by simp⟩, by simp⟩⟩)
        have h6 := hnext _ this
        rw [h3, if_neg]
        simp at h6
        have := hp.outLen
        omega
    · exact absurd (.inl (by simp)) hnext
  · intro a b hab h
    rw [takesWithin_iff hab] at h
    rw [takesWithin_iff fun y hy => hab y (by simp [hy])]
    obtain ⟨bytes, h1, h2⟩ := h
    -- the bytes of a prefix
    have : ∃ bytes', MtfComes used.length [] used a bytes' := by
      rcases mtfDecFrom_ends (formatError 9) hn a 0 _ _ (hstart bytes.length) with
        ⟨seen, more, c, g1, g2, g3, g4⟩ | ⟨seen, more, c, x, g1, g2, g3, g4, g5⟩ |
        ⟨seen, more, c, c', x, g1, g2, g3, g4, g5, g6⟩ | ⟨c, g1, g2, g3⟩
      · have := hab (used.length + 1) (by rw [g1]; simp); omega
      · have := hab x (by rw [g1]; simp); omega
      · have h3 : MtfComes used.length [] used ((seen ++ [x]) ++ (more ++ b)) bytes := by
          rw [g1] at h1; simpa using h1
        have := (comes_unique hn _ 0 _ _ _ _ _ (hstart 0) g4 h3).length_le
        simp [mtfStart] at g5
        omega
      · exact ⟨c, g1⟩
    obtain ⟨bytes', h3⟩ := this
    exact ⟨bytes', h3, (comes_unique hn a 0 _ _ b _ _ (hstart 0) h3 h1).length_le.trans h2⟩


/-- The symbols of a block are read as R271 says, and what follows depends on the last column they code. -/
theorem agrees_hufDec {used : List Byte} (hu : used ≠ []) (hnd : used.Nodup) {lim : Nat} {lens : List (List Nat)}
    {sel : List Nat} (hlens : ∀ t ∈ lens, CodesSound t ∧ t.length = used.length + 2)
    (hsel : ∀ x ∈ sel, x < lens.length) {β : Type} {q : List Byte → BitReader → Except EngineError (β × BitReader)}
    {S : List Byte → Reading β} (hq : ∀ last, Agrees (q last) (S last)) :
    Agrees (fun r => hufDec (mtfStep (used.length + 1) lim (formatError 8)) (used.length + 1) (lens.map codeTable) sel
        (mtfStart used) r >>= fun y => q y.1.out.reverse y.2)
      (Reading.andThen (IsHufDec lens sel (used.length + 1) (TakesWithin used lim) (formatError 8)) fun syms pos rest out =>
        ∃ last, IsMtfCode used last syms ∧ (∀ b ∈ last, b ∈ used) ∧ S last pos rest out) := by
  intro r out
  have hc := mtfConsumer used lim hu hnd
  have hn : 1 ≤ used.length := List.length_pos_iff.mpr hu
  show outcome (hufDec _ _ _ _ _ r >>= _) = out ↔ _
  unfold Reading.andThen
  rcases hufDec_whole hc hlens hsel r with ⟨syms, d, r', h1, h2, h3⟩ | ⟨e, h1, h2⟩
  · rw [h1]
    show outcome (q d.out.reverse r') = out ↔ _
    have hsyms : ∃ body, syms = body ++ [used.length + 1] := by
      generalize ho : (Except.ok (syms, r'.pos, r'.rest) : BitsRead (List Nat)) = o at h3
      cases h3 with
      | done body rest => exact ⟨body, (Prod.mk.inj (Except.ok.inj ho)).1⟩
      | _ => cases ho
    obtain ⟨body, rfl⟩ := hsyms
    have h4 : IsMtfCode used d.out.reverse (body ++ [used.length + 1]) ∧ ∀ b ∈ d.out.reverse, b ∈ used := by
      rcases h2 with h2 | ⟨h2, -⟩
      · exact h2.2
      · have := h2 (used.length + 1) (by simp); omega
    rw [hq d.out.reverse r' out]
    constructor
    · intro h; exact .inr ⟨_, _, _, h3, _, h4.1, h4.2, h⟩
    · rintro (⟨e, h5, -⟩ | ⟨syms', pos, rest, h5, last, h6, h7, h8⟩)
      · have := isHufDec_unique hc hlens hsel h3 h5
        cases this
      · have := isHufDec_unique hc hlens hsel h3 h5
        cases this
        have k1 : MtfComes used.length [] used body d.out.reverse := ⟨by simpa [IsMtfCode] using h4.1, h4.2⟩
        have k2 : MtfComes used.length [] used body last := ⟨by simpa [IsMtfCode] using h6, h7⟩
        have k3 := comes_unique hn body 0 _ _ [] _ _ (mtfPending_start hu hnd 0) k1 (by rw [List.append_nil]; exact k2)
        have k4 := comes_unique hn body 0 _ _ [] _ _ (mtfPending_start hu hnd 0) k2 (by rw [List.append_nil]; exact k1)
        have := k3.eq_of_length (le_antisymm k3.length_le k4.length_le)
        rw [this]
        exact h8
  · rw [h1]
    show .error e = out ↔ _
    constructor
    · rintro rfl; exact .inl ⟨e, h2, rfl⟩
    · rintro (⟨e', h5, rfl⟩ | ⟨syms', pos, rest, h5, last, h6, h7, h8⟩)
      · have := isHufDec_unique hc hlens hsel h2 h5
        cases this
        rfl
      · have := isHufDec_unique hc hlens hsel h2 h5
        cases this

end Sys2Proof.Machine
end

