-- ==== Sys2Proof/Laws/PerInstr.lean ====
section
/-! SUPPORT. The family of lemmas over the commands as syntax: the encoder sets no reserved bit of W0 (30_encoding.md
R91). -/

namespace Sys2Proof.Laws

theorem reservedClear_packW0 {opc opt : Nat} (wr : Bool) (ho : opc < 256) (hp : opt < 256) :
    reservedClear (packW0 opc wr opt) = true := by
  have hw : wr.toNat < 2 := Bool.toNat_lt wr
  simp only [reservedClear, bitField, packW0, BitVec.toNat_ofNat, Bool.and_eq_true, beq_iff_eq]
  omega

/-- A well-formed command's encoding has every reserved bit of W0 clear (30_encoding.md R91). -/
def ReservedClear.Statement (i : Instr) : Prop :=
  i.wellFormed = true → reservedClear (encode i).w0 = true

theorem ReservedClear.nop (wr : Option Word) : ReservedClear.Statement (.nop wr) :=
  fun _ => reservedClear_packW0 _ (by omega) (by omega)

theorem ReservedClear.endRun (wr : Option Word) : ReservedClear.Statement (.endRun wr) :=
  fun _ => reservedClear_packW0 _ (by omega) (by omega)

theorem ReservedClear.jump (target : Word) (wr : Option Word) : ReservedClear.Statement (.jump target wr) :=
  fun _ => reservedClear_packW0 _ (by omega) (by omega)

theorem ReservedClear.bwInit (base cap : Word) (wr : Option Word) : ReservedClear.Statement (.bwInit base cap wr) :=
  fun _ => reservedClear_packW0 _ (by omega) (by omega)

theorem ReservedClear.bwBits (n : Nat) (value : Word) (wr : Option Word) :
    ReservedClear.Statement (.bwBits n value wr) := fun h => by
  simp only [Instr.wellFormed, decide_eq_true_eq] at h
  exact reservedClear_packW0 _ (by omega) (by omega)

theorem ReservedClear.bwFlush (wr : Option Word) : ReservedClear.Statement (.bwFlush wr) :=
  fun _ => reservedClear_packW0 _ (by omega) (by omega)

theorem ReservedClear.brInit (base len : Word) (wr : Option Word) : ReservedClear.Statement (.brInit base len wr) :=
  fun _ => reservedClear_packW0 _ (by omega) (by omega)

theorem ReservedClear.brBits (n : Nat) (wr : Option Word) : ReservedClear.Statement (.brBits n wr) := fun h => by
  simp only [Instr.wellFormed, decide_eq_true_eq] at h
  exact reservedClear_packW0 _ (by omega) (by omega)

theorem ReservedClear.crc32 (cont : Option Word) (src len : Word) (wr : Option Word) :
    ReservedClear.Statement (.crc32 cont src len wr) :=
  fun _ => reservedClear_packW0 _ (by omega) (by have := Bool.toNat_lt cont.isSome; omega)

theorem ReservedClear.crcCombine (combined blockCrc : Word) (wr : Option Word) :
    ReservedClear.Statement (.crcCombine combined blockCrc wr) :=
  fun _ => reservedClear_packW0 _ (by omega) (by omega)

theorem ReservedClear.rle1Enc (src len dst cap : Word) (wr : Option Word) :
    ReservedClear.Statement (.rle1Enc src len dst cap wr) :=
  fun _ => reservedClear_packW0 _ (by omega) (by omega)

theorem ReservedClear.rle1Dec (src len dst cap : Word) (wr : Option Word) :
    ReservedClear.Statement (.rle1Dec src len dst cap wr) :=
  fun _ => reservedClear_packW0 _ (by omega) (by omega)

theorem ReservedClear.bwtFwd (src n dst : Word) (sa wr : Option Word) :
    ReservedClear.Statement (.bwtFwd src n dst sa wr) :=
  fun _ => reservedClear_packW0 _ (by omega) (by have := Bool.toNat_lt sa.isSome; omega)

theorem ReservedClear.bwtInv (src n origPtr dst : Word) (tv wr : Option Word) :
    ReservedClear.Statement (.bwtInv src n origPtr dst tv wr) :=
  fun _ => reservedClear_packW0 _ (by omega) (by have := Bool.toNat_lt tv.isSome; omega)

theorem ReservedClear.mtfEnc (src n dst cap map : Word) (wr : Option Word) :
    ReservedClear.Statement (.mtfEnc src n dst cap map wr) :=
  fun _ => reservedClear_packW0 _ (by omega) (by omega)

theorem ReservedClear.mtfDec (src count map dst cap : Word) (wr : Option Word) :
    ReservedClear.Statement (.mtfDec src count map dst cap wr) :=
  fun _ => reservedClear_packW0 _ (by omega) (by omega)

theorem ReservedClear.hufLen (freq alphaSize dst : Word) (wr : Option Word) :
    ReservedClear.Statement (.hufLen freq alphaSize dst wr) :=
  fun _ => reservedClear_packW0 _ (by omega) (by omega)

theorem ReservedClear.hufCodes (lengths alphaSize dst : Word) (wr : Option Word) :
    ReservedClear.Statement (.hufCodes lengths alphaSize dst wr) :=
  fun _ => reservedClear_packW0 _ (by omega) (by omega)

theorem ReservedClear.hufEnc (g : Nat) (syms count tables selectors alphaSize : Word) (wr : Option Word) :
    ReservedClear.Statement (.hufEnc g syms count tables selectors alphaSize wr) := fun h => by
  simp only [Instr.wellFormed, decide_eq_true_eq] at h
  exact reservedClear_packW0 _ (by omega) (by omega)

theorem ReservedClear.hufDec (g : Nat) (dst cap tables selectors alphaSize nSel : Word) (wr : Option Word) :
    ReservedClear.Statement (.hufDec g dst cap tables selectors alphaSize nSel wr) := fun h => by
  simp only [Instr.wellFormed, decide_eq_true_eq] at h
  exact reservedClear_packW0 _ (by omega) (by omega)

theorem ReservedClear.blkEnc (k : Nat) (src n blockCrc : Word) (wr : Option Word) :
    ReservedClear.Statement (.blkEnc k src n blockCrc wr) := fun h => by
  simp only [Instr.wellFormed, decide_eq_true_eq] at h
  exact reservedClear_packW0 _ (by omega) (by omega)

theorem ReservedClear.blkDec (k : Nat) (dst cap : Word) (wr : Option Word) :
    ReservedClear.Statement (.blkDec k dst cap wr) := fun h => by
  simp only [Instr.wellFormed, decide_eq_true_eq] at h
  exact reservedClear_packW0 _ (by omega) (by omega)

theorem ReservedClear.streamEnc (k : Nat) (src len dst cap : Word) (wr : Option Word) :
    ReservedClear.Statement (.streamEnc k src len dst cap wr) := fun h => by
  simp only [Instr.wellFormed, decide_eq_true_eq] at h
  exact reservedClear_packW0 _ (by omega) (by omega)

theorem ReservedClear.streamDec (src len dst cap : Word) (wr : Option Word) :
    ReservedClear.Statement (.streamDec src len dst cap wr) :=
  fun _ => reservedClear_packW0 _ (by omega) (by omega)

end Sys2Proof.Laws
end

