-- ==== Sys2Proof/Tests/Slice0.lean ====
section
/-! SUPPORT. Tests: WellFormed, decoding of words written out from the spec's encodings, one step per command from the
vectors of 95_test_vectors.md, and witnesses that meet the hypotheses of the statements. -/

namespace Sys2Proof.Tests

open Sys2Proof.Machine

set_option maxRecDepth 20000
-- One test after another: a test that the kernel evaluates waits for it, and would hold a thread of its own.
set_option Elab.async false

/-! ### WellFormed refuses ill-formed terms (30_encoding.md R95) -/

theorem test_wf_bwBits : (Instr.bwBits 64 0 none).wellFormed = false := by decide
theorem test_wf_brBits : (Instr.brBits 64 none).wellFormed = false := by decide
theorem test_wf_hufEnc : (Instr.hufEnc 8 0 0 0 0 0 none).wellFormed = false := by decide
theorem test_wf_hufDec : (Instr.hufDec 8 0 0 0 0 0 0 none).wellFormed = false := by decide
theorem test_wf_blkEnc : (Instr.blkEnc 16 0 0 0 none).wellFormed = false := by decide
theorem test_wf_blkDec : (Instr.blkDec 16 0 0 none).wellFormed = false := by decide
theorem test_wf_streamEnc : (Instr.streamEnc 16 0 0 0 0 none).wellFormed = false := by decide

/-! ### Decoding, one word at least per command; W0 in binary, fields 31:24, 23:16 OPT, 15:9, 8 WR, 7:0 OPC
(30_encoding.md R91, R95; the operands of 95_test_vectors.md section 3 where a program has the command) -/

/-- The command a descriptor stands for. -/
def decoded (d : Descriptor) : Option Instr := (decodeDescriptor d).toOption

theorem test_decode_nop : decoded ⟨0b00000000000000000000000100000000, 0, 0, 0, 0, 0, 0, 0x3000⟩ =
    some (.nop (some 0x3000)) := by decide
theorem test_decode_end : decoded ⟨0b00000000000000000000000000000001, 0, 0, 0, 0, 0, 0, 0⟩ =
    some (.endRun none) := by decide
theorem test_decode_jump : decoded ⟨0b00000000000000000000000000000010, 0x340, 0, 0, 0, 0, 0, 0⟩ =
    some (.jump 0x340 none) := by decide
theorem test_decode_bwInit : decoded ⟨0b00000000000000000000000000010000, 0x2000, 8, 0, 0, 0, 0, 0⟩ =
    some (.bwInit 0x2000 8 none) := by decide
theorem test_decode_bwBits : decoded ⟨0b00000000000000110000000000010001, 5, 0, 0, 0, 0, 0, 0⟩ =
    some (.bwBits 3 5 none) := by decide
theorem test_decode_bwFlush : decoded ⟨0b00000000000000000000000100010010, 0, 0, 0, 0, 0, 0, 0x3000⟩ =
    some (.bwFlush (some 0x3000)) := by decide
theorem test_decode_brInit : decoded ⟨0b00000000000000000000000000011000, 0x1000, 0x2B, 0, 0, 0, 0, 0⟩ =
    some (.brInit 0x1000 0x2B none) := by decide
theorem test_decode_brBits : decoded ⟨0b00000000001000000000000100011001, 0, 0, 0, 0, 0, 0, 0x3000⟩ =
    some (.brBits 32 (some 0x3000)) := by decide
theorem test_decode_crc32 : decoded ⟨0b00000000000000000000000100100000, 0x1200, 0x0B, 7, 0, 0, 0, 0x3020⟩ =
    some (.crc32 none 0x1200 0x0B (some 0x3020)) := by decide
theorem test_decode_crc32_cont : decoded ⟨0b00000000000000010000000000100000, 0x1200, 7, 0x77EDCC59, 0, 0, 0, 0⟩ =
    some (.crc32 (some 0x77EDCC59) 0x1200 7 none) := by decide
theorem test_decode_crcCombine : decoded ⟨0b00000000000000000000000100100001, 0, 0xD63C024E, 0, 0, 0, 0, 0x3040⟩ =
    some (.crcCombine 0 0xD63C024E (some 0x3040)) := by decide
theorem test_decode_rle1Enc : decoded ⟨0b00000000000000000000000000110000, 0x1000, 0x0B, 0x1100, 0x20, 0, 0, 0⟩ =
    some (.rle1Enc 0x1000 0x0B 0x1100 0x20 none) := by decide
theorem test_decode_rle1Dec : decoded ⟨0b00000000000000000000000000110001, 0x1400, 0x0D, 0x1700, 0x10, 0, 0, 0⟩ =
    some (.rle1Dec 0x1400 0x0D 0x1700 0x10 none) := by decide
theorem test_decode_bwtFwd : decoded ⟨0b00000000000000010000000001000000, 0x1100, 0x0D, 0x1200, 0x1300, 0, 0, 0⟩ =
    some (.bwtFwd 0x1100 0x0D 0x1200 (some 0x1300) none) := by decide
theorem test_decode_bwtInv :
    decoded ⟨0b00000000000000010000000101000001, 0x1200, 0x0D, 5, 0x1400, 0x1500, 0, 0x1600⟩ =
      some (.bwtInv 0x1200 0x0D 5 0x1400 (some 0x1500) (some 0x1600)) := by decide
theorem test_decode_mtfEnc : decoded ⟨0b00000000000000000000000001010000, 1, 2, 3, 4, 5, 6, 7⟩ =
    some (.mtfEnc 1 2 3 4 5 none) := by decide
theorem test_decode_mtfDec : decoded ⟨0b00000000000000000000000001010001, 1, 2, 3, 4, 5, 6, 7⟩ =
    some (.mtfDec 1 2 3 4 5 none) := by decide
theorem test_decode_hufLen : decoded ⟨0b00000000000000000000000001100000, 1, 2, 3, 4, 5, 6, 7⟩ =
    some (.hufLen 1 2 3 none) := by decide
theorem test_decode_hufCodes : decoded ⟨0b00000000000000000000000001100001, 1, 2, 3, 4, 5, 6, 7⟩ =
    some (.hufCodes 1 2 3 none) := by decide
theorem test_decode_hufEnc : decoded ⟨0b00000000000001110000000001100010, 1, 2, 3, 4, 5, 6, 7⟩ =
    some (.hufEnc 7 1 2 3 4 5 none) := by decide
theorem test_decode_hufDec : decoded ⟨0b00000000000000100000000101100011, 1, 2, 3, 4, 5, 6, 7⟩ =
    some (.hufDec 2 1 2 3 4 5 6 (some 7)) := by decide
theorem test_decode_blkEnc : decoded ⟨0b00000000000010010000000001110000, 1, 2, 3, 4, 5, 6, 7⟩ =
    some (.blkEnc 9 1 2 3 none) := by decide
theorem test_decode_blkDec : decoded ⟨0b00000000000000010000000101110001, 0x1100, 0x10, 0, 0, 0, 0, 0x3010⟩ =
    some (.blkDec 1 0x1100 0x10 (some 0x3010)) := by decide
theorem test_decode_streamEnc : decoded ⟨0b00000000000000010000000101111000, 0x1000, 0x0B, 0x2000, 0x40, 0, 0, 0x3000⟩ =
    some (.streamEnc 1 0x1000 0x0B 0x2000 0x40 (some 0x3000)) := by decide
theorem test_decode_streamDec : decoded ⟨0b00000000000000000000000101111001, 0x2000, 0x2B, 0x2100, 0x10, 0, 0, 0x3010⟩ =
    some (.streamDec 0x2000 0x2B 0x2100 0x10 (some 0x3010)) := by decide

/-- The bytes of P1's first descriptor in address order (95_test_vectors.md section 3). -/
theorem test_encode_bytes : encodeBytes (.streamEnc 1 0x1000 0x0B 0x2000 0x40 (some 0x3000)) =
    [0x78, 0x01, 0x01, 0x00, 0x00, 0x10, 0x00, 0x00, 0x0b, 0x00, 0x00, 0x00, 0x00, 0x20, 0x00, 0x00,
     0x40, 0x00, 0x00, 0x00, 0x00, 0x00, 0x00, 0x00, 0x00, 0x00, 0x00, 0x00, 0x00, 0x30, 0x00, 0x00] := by decide

/-- The table's numbering: OPT = 0x40 on BW_BITS is refused, 0x3F is read (95_test_vectors.md 2.1). -/
theorem test_table_word : decodeTableWord 32 0x00400011 = none ∧ decodeTableWord 32 0x003F0011 =
    some (.bwBits 63 0 none) := by decide

/-! ### One step per command, on small states -/

/-- The state an outcome leads to; the reset state where there is none. -/
def after : Step → State
  | .next s => s
  | _ => State.reset

/-- The reset state with bytes at an address. -/
def holding (a : Nat) (bs : List Byte) : State := storeBytes a bs State.reset

/-- The state with a run in progress at 0x100 and the command's descriptor there. -/
def about (i : Instr) (s : State) : State :=
  { storeBytes 0x100 (encodeBytes i) s with dp := 0x100, busy := true }

/-- "aaaabbbbccc" (95_test_vectors.md 1.1). -/
def sample : List Byte := [0x61, 0x61, 0x61, 0x61, 0x62, 0x62, 0x62, 0x62, 0x63, 0x63, 0x63]

/-- The post-RLE1 block of "aaaabbbbccc" (95_test_vectors.md 1.1). -/
def sampleBlock : List Byte := [0x61, 0x61, 0x61, 0x61, 0x00, 0x62, 0x62, 0x62, 0x62, 0x00, 0x63, 0x63, 0x63]

/-- The stream of "aaaabbbbccc" at k = 1 (95_test_vectors.md 1.1). -/
def sampleStream : List Byte :=
  [0x42, 0x5a, 0x68, 0x31, 0x31, 0x41, 0x59, 0x26, 0x53, 0x59, 0xd6, 0x3c, 0x02, 0x4e, 0x00] ++
  [0x00, 0x02, 0xc1, 0x00, 0x40, 0x00, 0x38, 0x00, 0x20, 0x00, 0x21, 0x99, 0x03, 0x0c, 0x12] ++
  [0xe6, 0xe6, 0x1c, 0x5d, 0xc9, 0x14, 0xe1, 0x42, 0x43, 0x58, 0xf0, 0x09, 0x38]

/-- R140's example, first step: DP 0x120, CMDCOUNT 1; and WR on NOP stores the RESULT registers (program P6). -/
theorem test_nop :
    let t := after (step (about (.nop none) State.reset))
    t.dp = 0x120 ∧ t.cmdcount = 1 ∧ t.busy = true := by decide
theorem test_nop_wr :
    (after (exec (.nop (some 0x3000)) { State.reset with results := ⟨5, 0, 0, 0x01020304⟩ })).mem.readBytes 0x3000 16 =
      [5, 0, 0, 0, 0, 0, 0, 0, 0, 0, 0, 0, 4, 3, 2, 1] := by decide

/-- R141's example. -/
theorem test_end :
    let t := after (step (about (.endRun none) State.reset))
    t.dp = 0x100 ∧ t.cmdcount = 1 ∧ t.busy = false ∧ t.done = true := by decide

/-- R142: JUMP to an address that is not aligned completes (95_test_vectors.md 2.10). -/
theorem test_jump :
    let t := after (step (about (.jump 0x202 none) State.reset))
    t.dp = 0x202 ∧ t.cmdcount = 1 ∧ t.busy = true ∧ t.err = false := by decide

/-- 95_test_vectors.md 2.1, row 1; and the buffer that is not admitted: BUS_ERROR 1 (R152). -/
theorem test_bwInit : (after (exec (.bwInit 0x2000 4 none) State.reset)).bw = ⟨0x2000, 4, 0, 0, 0⟩ := by decide
theorem test_bwInit_bus :
    let t := after (exec (.bwInit 0xFFF0 0x11 none) State.reset)
    t.errcode = 13 ∧ t.errinfo = 1 ∧ t.bw = ⟨0, 0, 0, 0, 0⟩ := by decide

/-- 95_test_vectors.md 2.1, row 2: BW_BITS n = 8, value = 0x1FF after the 3 bits 101. -/
theorem test_bwBits :
    let t := after (exec (.bwBits 8 0x1FF none) { State.reset with bw := ⟨0x2000, 4, 0, 5, 3⟩ })
    t.mem = [(0x2000, 0xBF)] ∧ t.bw = ⟨0x2000, 4, 1, 7, 3⟩ := by decide
/-- 95_test_vectors.md 2.1: the 8th bit does not fit in a writer without room. -/
theorem test_bwBits_full : (after (exec (.bwBits 8 0 none) State.reset)).errcode = 3 := by decide

/-- 95_test_vectors.md 2.1, row 3. -/
theorem test_bwFlush :
    let t := after (exec (.bwFlush none) { State.reset with bw := ⟨0x2000, 4, 1, 7, 3⟩ })
    t.mem = [(0x2001, 0xE0)] ∧ t.bw = ⟨0x2000, 4, 2, 0, 0⟩ ∧ t.results = ⟨2, 0, 0, 0⟩ := by decide

/-- 95_test_vectors.md 2.1: BR_INIT, and its bound. -/
theorem test_brInit : (after (exec (.brInit 0x2000 2 none) State.reset)).br = ⟨0x2000, 2, 0⟩ := by decide
theorem test_brInit_bound :
    let t := after (exec (.brInit 0 0x20000000 none) State.reset)
    t.errcode = 2 ∧ t.errinfo = 1 := by decide

/-- The bytes BF E0 with a reader over them. -/
def reading (pos : Word) : State := { holding 0x2000 [0xBF, 0xE0] with br := ⟨0x2000, 2, pos⟩ }

/-- 95_test_vectors.md 2.1: BR_BITS n = 13 from position 3; then one bit too many. -/
theorem test_brBits : (after (exec (.brBits 13 none) (reading 3))).results = ⟨0x1FE0, 16, 0, 0⟩ := by decide
theorem test_brBits_truncated :
    let t := after (exec (.brBits 1 none) (reading 16))
    t.errcode = 4 ∧ t.errpos = 16 ∧ t.br.pos = 16 := by decide

/-- 95_test_vectors.md 2.2: "a", and the check value of "123456789" (R170). -/
theorem test_crc32 : (after (exec (.crc32 none 0x1000 1 none) (holding 0x1000 [0x61]))).results =
    ⟨0x19939B6B, 0xE66C6494, 0, 0⟩ := by decide
theorem test_crc32_check : crcOf [0x31, 0x32, 0x33, 0x34, 0x35, 0x36, 0x37, 0x38, 0x39] = 0xFC891918#32 := by decide

/-- R172's example. -/
theorem test_crcCombine : (after (exec (.crcCombine 0x80000001 1 none) State.reset)).results = ⟨2, 0, 0, 0⟩ := by decide

/-- 95_test_vectors.md 2.3: "aaaabbbbccc" with capacity 13 and 12. -/
theorem test_rle1Enc :
    let t := after (exec (.rle1Enc 0x1000 11 0x1100 13 none) (holding 0x1000 sample))
    t.mem.readBytes 0x1100 13 = sampleBlock ∧ t.results = ⟨13, 0, 0, 0⟩ := by decide
theorem test_rle1Enc_small : (after (exec (.rle1Enc 0x1000 11 0x1100 12 none) (holding 0x1000 sample))).errcode = 3 := by
  decide

/-- 95_test_vectors.md 2.3: the run restarts after a count byte; four equal bytes without one are malformed. -/
theorem test_rle1Dec :
    let t := after (exec (.rle1Dec 0x1000 6 0x1100 16 none) (holding 0x1000 [0x61, 0x61, 0x61, 0x61, 0x00, 0x61]))
    t.mem.readBytes 0x1100 6 = [0x61, 0x61, 0x61, 0x61, 0x61, 0x00] ∧ t.results = ⟨5, 0, 0, 0⟩ := by decide
theorem test_rle1Dec_malformed :
    (after (exec (.rle1Dec 0x1000 4 0x1100 0 none) (holding 0x1000 [0x61, 0x61, 0x61, 0x61]))).errcode = 5 := by decide

/-- 95_test_vectors.md 2.4: "banana" with SA, and the periodic "abab". -/
theorem test_bwtFwd :
    let t := after (exec (.bwtFwd 0x1000 6 0x1100 (some 0x1200) none)
      (holding 0x1000 [0x62, 0x61, 0x6E, 0x61, 0x6E, 0x61]))
    t.mem.readBytes 0x1100 6 = [0x6E, 0x6E, 0x62, 0x61, 0x61, 0x61] ∧
    t.mem.readArray 0x1200 4 6 = [5, 3, 1, 0, 4, 2] ∧ t.results = ⟨3, 6, 0, 0⟩ := by decide
theorem test_bwtFwd_periodic :
    let t := after (exec (.bwtFwd 0x1000 4 0x1100 none none) (holding 0x1000 [0x61, 0x62, 0x61, 0x62]))
    t.mem.readBytes 0x1100 4 = [0x62, 0x62, 0x61, 0x61] ∧ t.results = ⟨0, 4, 0, 0⟩ := by decide

/-- 95_test_vectors.md 2.4: "nnbaaa" with C = 3 and TV, and a last column no block has. -/
theorem test_bwtInv :
    let t := after (exec (.bwtInv 0x1000 6 3 0x1100 (some 0x1200) none)
      (holding 0x1000 [0x6E, 0x6E, 0x62, 0x61, 0x61, 0x61]))
    t.mem.readBytes 0x1100 6 = [0x62, 0x61, 0x6E, 0x61, 0x6E, 0x61] ∧
    t.mem.readArray 0x1200 4 6 = [3, 4, 5, 2, 0, 1] := by decide +kernel
theorem test_bwtInv_origin :
    (after (exec (.bwtInv 0x1000 0 0 0x1100 none none) State.reset)).errcode = 6 := by decide

/-- 95_test_vectors.md 2.5: "caaaabbbccb". -/
theorem test_mtfEnc :
    let t := after (exec (.mtfEnc 0x1000 11 0x3000 16 0x3100 none)
      (holding 0x1000 [0x63, 0x61, 0x61, 0x61, 0x61, 0x62, 0x62, 0x62, 0x63, 0x63, 0x62]))
    t.mem.readArray 0x3000 2 10 = [3, 2, 0, 0, 3, 1, 3, 0, 2, 4] ∧ t.mem.readBytes 0x310B 3 = [0, 0x0E, 0] ∧
    t.results = ⟨10, 3, 4, 0⟩ := by decide +kernel
/-- 95_test_vectors.md 2.5: run symbols of 10. -/
theorem test_runSymbols : runSymbols 10 = [1, 1, 0] ∧ runSymbols 11 = [0, 0, 1] := by decide

/-- The symbols RUNA RUNA EOB and the used map of "a". -/
def mtfInput : State := storeBytes 0x110C [0x02] (holding 0x1000 [0, 0, 0, 0, 2, 0])

/-- 95_test_vectors.md 2.5: [0, 0, 2] over the map of "a", with capacity 8 and 2. -/
theorem test_mtfDec :
    let t := after (exec (.mtfDec 0x1000 3 0x1100 0x1200 8 none) mtfInput)
    t.mem.readBytes 0x1200 4 = [0x61, 0x61, 0x61, 0] ∧ t.results = ⟨3, 3, 0, 0⟩ := by decide +kernel
theorem test_mtfDec_small : (after (exec (.mtfDec 0x1000 3 0x1100 0x1200 2 none) mtfInput)).errcode = 3 := by
  decide +kernel

/-- 95_test_vectors.md 2.6: [10, 1, 1, 1, 0]. -/
theorem test_hufLen :
    let t := after (exec (.hufLen 0x1000 5 0x1100 none)
      (holding 0x1000 [10, 0, 0, 0, 1, 0, 0, 0, 1, 0, 0, 0, 1, 0, 0, 0]))
    t.mem.readBytes 0x1100 5 = [1, 3, 3, 3, 3] ∧ t.results = ⟨3, 0, 0, 0⟩ := by decide +kernel
theorem test_hufLen_one : (after (exec (.hufLen 0x1000 1 0x1100 none) State.reset)).errinfo = 1 := by decide

/-- 95_test_vectors.md 2.6: [2, 3, 2, 2, 3], and [1, 1, 1]. -/
theorem test_hufCodes :
    let t := after (exec (.hufCodes 0x1000 5 0x1100 none) (holding 0x1000 [2, 3, 2, 2, 3]))
    t.mem.readArray 0x1100 4 5 = [0, 6, 1, 2, 7] ∧ t.results = ⟨2, 3, 0, 0⟩ := by decide +kernel
theorem test_hufCodes_kraft :
    (after (exec (.hufCodes 0x1000 3 0x1100 none) (holding 0x1000 [1, 1, 1]))).errcode = 9 := by decide +kernel

/-- The setup of 95_test_vectors.md 2.6: ten symbols, one table, the selector 0, a writer and the bits of the symbols with
a reader. -/
def groupInput : State :=
  { storeBytes 0x1300 [0x90, 0xB4, 0x3C] (storeBytes 0x1100 [2, 3, 2, 2, 3]
      (holding 0x1000 [3, 0, 2, 0, 0, 0, 0, 0, 3, 0, 1, 0, 3, 0, 0, 0, 2, 0, 4, 0])) with
    bw := ⟨0x2000, 16, 0, 0, 0⟩, br := ⟨0x1300, 3, 0⟩ }

/-- R238's example. -/
theorem test_hufEnc :
    let t := after (exec (.hufEnc 1 0x1000 10 0x1100 0x1200 5 none) groupInput)
    t.mem.readBytes 0x2000 3 = [0x90, 0xB4, 0] ∧ t.bw = ⟨0x2000, 16, 2, 0x0F, 6⟩ ∧ t.results = ⟨22, 0, 0, 0⟩ := by
  decide +kernel
/-- 95_test_vectors.md 2.6: a symbol equal to alphaSize. -/
theorem test_hufEnc_symbol :
    (after (exec (.hufEnc 1 0x1000 3 0x1100 0x1200 2 none)
      (storeBytes 0x1100 [1, 1] (holding 0x1000 [0, 0, 0, 0, 2, 0])))).errcode = 7 := by decide +kernel

/-- R240's example; and no selector: FORMAT_ERROR 7. -/
theorem test_hufDec :
    let t := after (exec (.hufDec 1 0x1400 16 0x1100 0x1200 5 1 none) groupInput)
    t.mem.readArray 0x1400 2 10 = [3, 2, 0, 0, 3, 1, 3, 0, 2, 4] ∧ t.br.pos = 22 ∧ t.results = ⟨10, 22, 0, 0⟩ := by
  decide +kernel
theorem test_hufDec_noSelector :
    let t := after (exec (.hufDec 1 0x1400 16 0x1100 0x1200 5 0 none) groupInput)
    t.errcode = 12 ∧ t.errinfo = 7 := by decide +kernel

/-- 95_test_vectors.md 2.7. -/
theorem test_blkEnc :
    let t := after (exec (.blkEnc 1 0x1000 13 0xD63C024E none)
      { holding 0x1000 sampleBlock with bw := ⟨0x2000, 100, 0, 0, 0⟩ })
    t.mem.readBytes 0x2000 29 = (sampleStream.drop 4).take 28 ++ [0] ∧ t.bw = ⟨0x2000, 100, 28, 7, 6⟩ ∧
    t.results = ⟨5, 2, 1, 230⟩ := by decide +kernel

/-- 95_test_vectors.md 2.8, steps 2 and 3. -/
theorem test_blkDec :
    let t := after (exec (.blkDec 1 0x1100 16 none) { holding 0x1000 sampleStream with br := ⟨0x1000, 43, 32⟩ })
    t.mem.readBytes 0x1100 13 = sampleBlock ∧ t.br.pos = 262 ∧ t.results = ⟨13, 0xD63C024E, 5, 1⟩ := by decide +kernel
theorem test_blkDec_eos :
    let t := after (exec (.blkDec 1 0x1100 16 none) { holding 0x1000 sampleStream with br := ⟨0x1000, 43, 262⟩ })
    t.br.pos = 342 ∧ t.results = ⟨0, 0xD63C024E, 0, 0⟩ := by decide +kernel

/-- 95_test_vectors.md 1.1, as the step of program P1's first descriptor; and k = 0. -/
theorem test_streamEnc :
    let t := after (step (about (.streamEnc 1 0x1000 11 0x2000 64 none) (holding 0x1000 sample)))
    t.mem.readBytes 0x2000 44 = sampleStream ++ [0] ∧ t.results = ⟨43, 1, 0xD63C024E, 0⟩ := by decide +kernel
theorem test_streamEnc_k : (after (exec (.streamEnc 0 0 0 0 0 none) State.reset)).errinfo = 1 := by decide

/-- 95_test_vectors.md 1.1; and program P4, the block CRC with a flipped bit. -/
theorem test_streamDec :
    let t := after (exec (.streamDec 0x1000 43 0x1100 16 none) (holding 0x1000 sampleStream))
    t.mem.readBytes 0x1100 11 = sample ∧ t.results = ⟨11, 1, 0xD63C024E, 43⟩ := by decide +kernel
theorem test_streamDec_checksum :
    let t := after (exec (.streamDec 0x1000 43 0x1100 16 (some 0x1200))
      (storeBytes 0x100D [0x4F] (holding 0x1000 sampleStream)))
    t.errcode = 11 ∧ t.errinfo = 0 ∧ t.errpos = 0 ∧ t.results = ⟨11, 0, 0, 33⟩ ∧ t.mem.readBytes 0x1100 11 = sample := by
  decide +kernel

/-- withFetchWord places a command where the next step runs it. -/
theorem test_withFetchWord : (after (step (State.reset.withFetchWord 32 0x00000001))).done = true := by decide

/-! ### The host's side and the errors -/

/-- START from DLIST = 0x102, then the fetch: DESCRIPTOR_FAULT 1, DP 0x102 (95_test_vectors.md 2.10). -/
theorem test_start : (after (step { State.reset with dlist := 0x102, inputs := [.writeReg 0x008 4 1] })).dp = 0x102 := by
  decide
theorem test_fault_misaligned :
    let t := after (step { State.reset with dp := 0x102, busy := true })
    t.errcode = 14 ∧ t.errinfo = 1 ∧ t.dp = 0x102 ∧ registerValue t 0x00C = 4 := by decide
/-- Program P7: the destination runs out of the admitted range. -/
theorem test_bus_error :
    let t := after (step (about (.rle1Enc 0x1000 11 0xFFF0 32 none) State.reset))
    t.errcode = 13 ∧ t.errinfo = 3 ∧ t.cmdcount = 0 := by decide
/-- Overlap is checked before admission (95_test_vectors.md 2.10). -/
theorem test_overlap_first :
    let t := after (step (about (.rle1Enc 0x1000 11 0x1008 0x10000 none) State.reset))
    t.errcode = 2 ∧ t.errinfo = 3 := by decide
/-- The interrupt level with IE, DONE and a write of 1 to DONE (60_exceptions.md R330). -/
theorem test_irq :
    registerValue { State.reset with ie := true, done := true } 0x00C = 0xA ∧
    irqLevel (after (step { State.reset with ie := true, done := true, inputs := [.writeReg 0x00C 4 2] })) = false := by
  decide
/-- An access that is not an aligned 32-bit word is refused. -/
theorem test_access_other :
    step { State.reset with inputs := [.readReg 0x002 4] } = .refused (.hostAccessOther 2 4) := by rfl

/-- A JUMP to its own address at 0x100, with a host action pending (95_test_vectors.md 2.10: the run never ends). -/
def looping (a : HostAction) : State := { about (.jump 0x100 none) State.reset with inputs := [a] }

/-- A host write that keeps its duty has its effect in a run that never ends; one on the descriptor has no step (R77). -/
theorem test_host_write_in_loop : (after (step (looping (.writeMem 0x2000 [7])))).mem.read 0x2000 = 7 := by
  decide +kernel
theorem test_host_write_descriptor : step (looping (.writeMem 0x11F [7])) = .refused (.hostDuty 0x11F 1) := by rfl

/-- A run whose earlier commands read 0x1000 to 0x100A and wrote 0x1100 to 0x110F. -/
def afterCommand (a : HostAction) : State :=
  { about (.endRun none) State.reset with
    inputs := [a], runLog := ⟨[⟨0x1000, 11⟩, ⟨0x1100, 16⟩], [⟨0x1100, 16⟩]⟩ }

/-- A range of a command that has completed is still out of the host's reach (R77); its source may be read. -/
theorem test_host_write_earlier_range : step (afterCommand (.writeMem 0x100A [7])) = .refused (.hostDuty 0x100A 1) := by
  rfl
theorem test_host_read_earlier_range : step (afterCommand (.readMem 0x110F 1)) = .refused (.hostDuty 0x110F 1) := by rfl
theorem test_host_read_source : (after (step (afterCommand (.readMem 0x1000 2)))).hostBuf = [0, 0] := by decide +kernel

/-- A command's ranges go into the log (R77). -/
theorem test_run_log :
    (after (step (about (.rle1Enc 0x1000 11 0x1100 16 none) (holding 0x1000 sample)))).runLog.written = [⟨0x1100, 16⟩] := by
  decide +kernel

/-- A list of `n` NOPs at 0x100 with END after them, and a host action pending: the list is followed to its end, however
long. -/
def nops (n : Nat) (a : HostAction) : State :=
  { storeBytes 0x100 ((List.replicate n (encodeBytes (.nop none))).flatten ++ encodeBytes (.endRun none)) State.reset with
    dp := 0x100, busy := true, inputs := [a] }
theorem test_host_write_far_ahead : step (nops 12 (.writeMem 0x29F [7])) = .refused (.hostDuty 0x29F 1) := by rfl
theorem test_host_write_behind_list : (after (step (nops 3 (.writeMem 0x180 [7])))).mem.read 0x180 = 7 := by decide +kernel

/-- A NOP and a JUMP back to it: the loop is followed around once. -/
def twoLoop (a : HostAction) : State :=
  { about (.nop none) (storeBytes 0x120 (encodeBytes (.jump 0x100 none)) State.reset) with inputs := [a] }
theorem test_host_write_in_two_loop : step (twoLoop (.writeMem 0x13F [7])) = .refused (.hostDuty 0x13F 1) ∧
    (after (step (twoLoop (.writeMem 0x140 [7])))).mem.read 0x140 = 7 := by
  constructor
  · rfl
  · decide +kernel

/-! ### Witnesses: states and operands that meet the hypotheses of the statements -/

/-- Every address below 0x10000 is admitted on the platform of the vectors. -/
theorem admits_low {a : Nat} (h : a < 0x10000) : State.reset.platform.admits a = true := by
  have hw : State.reset.platform.window.contains a = false := by
    have hlow : decide (0x40000000 ≤ a) = false := decide_eq_false (by omega)
    show (decide (0x40000000 ≤ a) && _) = false
    rw [hlow, Bool.false_and]
  have hr : State.reset.platform.regions.any (fun r => r.base ≤ a && a < r.base + r.size) = true := by
    simp [State.reset, h]
  rw [Platform.admits, hr, hw]
  rfl

/-- A descriptor of 32 bytes at an aligned address below 0x10000 is fetched in order on that platform. -/
theorem fetch_in_order {s : State} (hp : s.platform = State.reset.platform) (h4 : s.dp.toNat % 4 = 0)
    (hl : s.dp.toNat + 32 ≤ 0x10000) : FetchInOrder s :=
  ⟨h4, by omega, fun a _ h2 => hp ▸ admits_low (by omega)⟩

/-- A well-formed command with an OPT field at its last value. -/
theorem witness_wellFormed : (Instr.bwBits 63 0 (some 0xFFFFFFFF)).wellFormed = true := by decide

/-- Each clause of the decoding errors: a reserved OPC, bit 9, OPT bit 6, OPT = 0x3F. -/
theorem witness_decode_errors : usedOptionBits 0xFF = none ∧ usedOptionBits 0x11 = some 6 ∧
    0x00000211#32 &&& reservedMask ≠ 0 ∧ 0x00400011#32 &&& reservedMask = 0 ∧
    2 ^ 6 ≤ (0x00400011#32).toNat / 65536 % 256 ∧ (0x003F0011#32).toNat / 65536 % 256 < 2 ^ 6 := by decide

/-- A run at the last descriptor of the admitted range, with no host action and with a yield. -/
def lastSlot : State := { storeBytes 0xFFE0 (encodeBytes (.nop none)) State.reset with dp := 0xFFE0, busy := true }
theorem witness_step : lastSlot.busy = true ∧ FetchInOrder lastSlot ∧ lastSlot.inputs = [] ∧
    (decodeBytes (lastSlot.mem.readBytes lastSlot.dp.toNat 32)).toOption = some (.nop none, []) :=
  ⟨rfl, fetch_in_order rfl (by decide) (by decide), rfl, by decide⟩
theorem witness_step_yield : FetchInOrder { lastSlot with inputs := [.yield] } :=
  fetch_in_order rfl (by decide) (by decide)

/-- A descriptor that leaves the admitted range, and one that wraps. -/
theorem witness_descriptor_faults :
    (0xFFE4#32).toNat % 4 = 0 ∧ State.reset.platform.admits 0x10000 = false ∧ (0xFFE4#32).toNat ≤ 0x10000 ∧
    0x10000 < (0xFFE4#32).toNat + 32 ∧ (0xFFFFFFE4#32).toNat % 4 = 0 ∧ 4294967296 < (0xFFFFFFE4#32).toNat + 32 := by decide

/-- Reserved OPC, reserved bit, unused OPT bit in memory at DP = 0. -/
theorem witness_illegal : ∀ w0 ∈ [0x00000003#32, 0x00000200#32, 0x00020020#32],
    FetchInOrder (State.reset.withFetchWord 32 w0.toNat) ∧ (State.reset.withFetchWord 32 w0.toNat).inputs = [] ∧
      w0.toNat = (State.reset.withFetchWord 32 w0.toNat).mem.readNat 0 4 := by
  intro w0 h
  simp only [List.mem_cons, List.not_mem_nil, or_false] at h
  rcases h with rfl | rfl | rfl <;>
    exact ⟨fetch_in_order rfl (by decide) (by decide), rfl, by decide⟩

/-- A check that fails and one that holds. -/
theorem witness_checks : ((instrPlan (.bwBits 33 0 none) State.reset).check State.reset.platform).isSome = true ∧
    (instrPlan (.bwBits 32 0 none) State.reset).check State.reset.platform = none := by decide

/-- Plans for each clause of the check order. -/
theorem witness_check_order :
    (⟨false, []⟩ : Plan).values = false ∧
    (∃ r ∈ [readRange 1 0xFFFFFFFF#32 2], 4294967296 < r.span.addr + r.span.len) ∧
    ¬ [readRange 1 0#32 2, writeRange 3 1#32 1].Pairwise MayStandTogether ∧
    [readRange 1 0#32 2, readRange 3 1#32 1, writeRange 4 2#32 1].Pairwise MayStandTogether ∧
    ¬ AdmittedOrCursor State.reset.platform (readRange 3 0x10000#32 1) ∧
    AdmittedOrCursor State.reset.platform (readRange 3 0x10000#32 0) := by
  refine ⟨rfl, by decide, ?_, ?_, ?_, ?_⟩
  · intro h
    rcases (List.pairwise_cons.1 h).1 _ (List.mem_singleton.2 rfl) with h | h | h | h
    · exact absurd h (by decide)
    · exact absurd h (by decide)
    · exact absurd h.2 (by decide)
    · exact h 1 (by decide)
  · refine List.Pairwise.cons ?_ (List.Pairwise.cons ?_ (List.Pairwise.cons ?_ List.Pairwise.nil))
    · intro y hy
      simp only [List.mem_cons, List.not_mem_nil, or_false] at hy
      rcases hy with rfl | rfl
      · exact Or.inr (Or.inr (Or.inl ⟨rfl, rfl⟩))
      · refine Or.inr (Or.inr (Or.inr fun a h => ?_))
        have h1 : a < 2 := h.1.2
        have h2 : 2 ≤ a := h.2.1
        omega
    · intro y hy
      simp only [List.mem_cons, List.not_mem_nil, or_false] at hy
      subst hy
      refine Or.inr (Or.inr (Or.inr fun a h => ?_))
      have h1 : a < 2 := h.1.2
      have h2 : 2 ≤ a := h.2.1
      omega
    · intro y hy
      exact absurd hy (by simp)
  · intro h
    rcases h with h | h
    · exact absurd h (by decide)
    · exact absurd (h 0x10000 (by decide) (by decide)) (by decide)
  · right
    intro a h1 h2
    simp at h1 h2
    omega

/-- Commands for each clause of the check order: a value out of its range at its bound, a range past the top, two ranges that
share a byte, an address not admitted after one that is, and none of these. -/
theorem witness_command_checks :
    ¬ LegalValues (.bwBits 33 0 none) ∧ ¬ LegalValues (.brInit 0 0x20000000 none) ∧ ¬ LegalValues (.hufLen 0 259 0 none) ∧
    ¬ LegalValues (.blkEnc 1 0 100001 0 none) ∧ LegalValues (.blkEnc 9 0 900000 0 none) ∧
    LegalValues (.crc32 none 0xFFFFFFFF 2 none) ∧
    (∃ r ∈ operandTable (.crc32 none 0xFFFFFFFF 2 none) State.reset, 4294967296 < r.span.addr + r.span.len) ∧
    operandTable (.rle1Enc 0 2 1 1 none) State.reset = [readRange 1 0#32 2, writeRange 3 1#32 1] ∧
    operandTable (.rle1Enc 0 1 0x10000 1 (some 0)) State.reset =
      [readRange 1 0#32 1] ++ writeRange 3 0x10000#32 1 :: [⟨.write, ⟨0, 16⟩, 7⟩] ∧
    (∀ r ∈ operandTable (.rle1Enc 0 1 0x10000 1 none) State.reset, r.span.addr + r.span.len ≤ 4294967296) := by
  refine ⟨?_, ?_, ?_, ?_, ?_, trivial, by decide, rfl, rfl, by decide⟩ <;> simp [LegalValues]

/-- A failing command: BR_BITS n = 1 of a reader without bits. -/
theorem witness_failure : exec (.brBits 1 none) State.reset = .next (stopRecord 4 0 0 State.reset) ∧
    State.reset.err = false ∧ (stopRecord 4 0 0 State.reset).err = true := ⟨rfl, rfl, rfl⟩

/-- A failing command with a WR area, at its first and last byte. -/
theorem witness_failure_wr : exec (.brBits 1 (some 0xFFF0)) State.reset = .next (stopRecord 4 0 0 State.reset) ∧
    resultOperand (.brBits 1 (some 0xFFF0)) = some 0xFFF0 := ⟨rfl, rfl⟩

/-- A run that ends at END, and a host action in a run that ends it. -/
theorem witness_end : (after (step (about (.endRun none) State.reset))).busy = false ∧
    (after (step { State.reset with busy := true, inputs := [.writeReg 0x008 4 0x80000000] })).busy = false := by decide

/-- A JUMP to its own address. -/
def loopState : State := about (.jump 0x100 none) State.reset
theorem witness_loop : loopState.busy = true ∧ loopState.inputs = [] ∧ FetchInOrder loopState ∧
    (decodeBytes (loopState.mem.readBytes loopState.dp.toNat 32)).toOption = some (.jump loopState.dp none, []) :=
  ⟨rfl, rfl, fetch_in_order rfl (by decide) (by decide), by decide⟩

/-- The invariant holds in a running state with both cursors at work and memory listed, and the state has a step. -/
theorem witness_inv : Inv { groupInput with busy := true } := by constructor <;> decide
theorem witness_inv_step : step lastSlot = .next (after (step lastSlot)) := rfl

/-- Host writes of CTRL: START idle and in a run, IE alone, SRST with START; and the reset input. -/
theorem witness_ctrl : (2#32).getLsbD 0 = false ∧ (2#32).getLsbD 31 = false ∧ (1#32).getLsbD 0 = true ∧ (1#32).getLsbD 31 = false ∧ (0x80000001#32).getLsbD 31 = true ∧
    ({ State.reset with inputs := [.writeReg 0x008 4 1] } : State).inputs = .writeReg 0x008 4 1 :: [] ∧
    ({ State.reset with inputs := [.resetPin] } : State).inputs = .resetPin :: [] := by decide

/-- A run with a reset pending whose command passes its fetch and its checks, and one whose fetch fails. -/
theorem witness_reset_run :
    (fetchCommand { about (.rle1Enc 0x1000 11 0x1100 16 none) State.reset with inputs := [.resetPin] }).toOption =
      some (.rle1Enc 0x1000 11 0x1100 16 none) ∧
    (instrPlan (.rle1Enc 0x1000 11 0x1100 16 none) State.reset).check State.reset.platform = none ∧
    (fetchCommand { State.reset with busy := true, dp := 2, inputs := [.resetPin] }).toOption = none := by decide

/-- Register offsets at the ends of the window. -/
theorem witness_offsets : (0x000#12).toNat % 4 = 0 ∧ (0xFFC#12).toNat % 4 = 0 ∧ 0xFFC#12 ≠ 0x008 ∧ 0xFFC#12 ≠ 0x00C ∧
    0xFFC#12 ≠ 0x010 ∧ (0x000#12, 0x42575445#32) ∈ registerTable State.reset ∧
    (0x068#12, 0#32) ∈ registerTable State.reset ∧ (0xFFC#12 : BitVec 12) ∉ (registerTable State.reset).map Prod.fst ∧
    0xFFC#12 ∉ hiddenWhileBusy ∧ 0x020#12 ∉ hiddenWhileBusy ∧ 0x018#12 ∈ [0x018#12, 0x01C#12, 0x020#12] := by decide

/-- A host write on the last byte of the running descriptor, and one on the last byte of the command's write range. -/
theorem witness_duty :
    (0x11F : Nat) < (about (.nop none) State.reset).dp.toNat + 32 ∧
    (fetchCommand (about (.rle1Enc 0x1000 11 0x1100 16 none) State.reset)).toOption =
      some (.rle1Enc 0x1000 11 0x1100 16 none) ∧
    (⟨0x1100, 16⟩ : Span) ∈ writeSpans (.rle1Enc 0x1000 11 0x1100 16 none) State.reset := by decide

/-- A run of two commands, NOP and then RLE1_ENC: the second uses the last byte of its source and writes the last byte of
its destination one command ahead. -/
def twoCommands : State := about (.nop none) (storeBytes 0x120 (encodeBytes (.rle1Enc 0x1000 11 0x1100 16 none)) State.reset)
theorem witness_duty_ahead : commandsAfter 1 twoCommands = some (after (engineStep twoCommands)) ∧
    (after (engineStep twoCommands)).busy = true ∧ WritesByte (after (engineStep twoCommands)) 0x110F ∧
    UsesByte (after (engineStep twoCommands)) 0x100A ∧ UsesByte (after (engineStep twoCommands)) 0x13F := by
  have hf : fetchCommand (after (engineStep twoCommands)) = .ok (.rle1Enc 0x1000 11 0x1100 16 none) := by rfl
  exact ⟨rfl, rfl, ⟨_, hf, rfl, ⟨0x1100, 16⟩, by decide, by decide, by decide⟩,
    .inr ⟨_, hf, rfl, ⟨0x1000, 11⟩, by decide, by decide, by decide⟩, .inl ⟨by decide, by decide⟩⟩

/-- In a run whose next command is END, the host may touch every byte outside that descriptor. -/
theorem witness_duty_free {a : Nat} (h : a < 0x100 ∨ 0x120 ≤ a) (n : Nat) (t : State)
    (ht : commandsAfter n (about (.endRun none) State.reset) = some t) (hb : t.busy = true) :
    ¬ UsesByte t a ∧ ¬ WritesByte t a := by
  have hidle : ∀ (n : Nat) (s t : State), s.busy = false → commandsAfter n s = some t → t.busy = false := by
    intro n
    induction n with
    | zero => intro s t hs ht; cases ht; exact hs
    | succ n ih =>
      intro s t hs ht
      rw [commandsAfter, show engineStep s = .next s by rw [engineStep, if_neg (by rw [hs]; decide)]] at ht
      exact ih s t hs ht
  cases n with
  | zero =>
    cases ht
    have hf : fetchCommand (about (.endRun none) State.reset) = .ok (.endRun none) := by rfl
    have hnone : ∀ i, fetchCommand (about (.endRun none) State.reset) = .ok i → i = .endRun none :=
      fun i hi => (Except.ok.inj (hf.symm.trans hi)).symm
    constructor
    · rintro (⟨h1, h2⟩ | ⟨i, hi, -, sp, hsp, -⟩)
      · change 0x100 ≤ a at h1
        change a < 0x100 + 32 at h2
        omega
      · rw [hnone i hi] at hsp
        exact List.not_mem_nil hsp
    · rintro ⟨i, hi, -, sp, hsp, -⟩
      rw [hnone i hi] at hsp
      exact List.not_mem_nil hsp
  | succ n =>
    have hs : engineStep (about (.endRun none) State.reset) = .next (after (engineStep (about (.endRun none) State.reset))) := by
      rfl
    rw [commandsAfter, hs] at ht
    have := hidle n _ t rfl ht
    rw [hb] at this
    cases this

/-- A pending access in a run with the invariant, to a range that a command has read and one that it has written. -/
theorem witness_duty_inv : Inv { twoCommands with inputs := [.writeMem 0x100A [7]] } ∧
    Inv (afterCommand (.readMem 0x110F 1)) ∧ touches (afterCommand (.readMem 0x110F 1)).runLog.written 0x110F ∧
    touches (afterCommand (.writeMem 0x1000 [7])).runLog.used 0x1000 := by
  refine ⟨?_, ?_, ⟨⟨0x1100, 16⟩, by decide, by decide, by decide⟩, ⟨⟨0x1000, 11⟩, by decide, by decide, by decide⟩⟩ <;>
    constructor <;> decide

/-- Host accesses at the ends of the address space beside the register window. -/
theorem witness_host_access : (0xFFFFFFFF#32).toNat + 1 ≤ 4294967296 ∧
    State.reset.platform.window.contains 0xFFFFFFFF = false ∧ State.reset.platform.window.contains 0x40000000 = true ∧
    State.reset.platform.window.contains 0x40000FFF = true ∧ State.reset.platform.window.contains 0x40001000 = false := by
  decide

/-- A completed command that writes, for the statements about what a command leaves alone. -/
theorem witness_exec :
    exec (.crcCombine 1 2 (some 0)) State.reset = .next (after (exec (.crcCombine 1 2 (some 0)) State.reset)) ∧
    (∀ sp ∈ writeSpans (.crcCombine 1 2 (some 0)) State.reset, ¬(sp.addr ≤ 16 ∧ 16 < sp.addr + sp.len)) ∧
    ownsWriter (.crcCombine 1 2 (some 0)) = false ∧ ownsReader (.crcCombine 1 2 (some 0)) = false ∧
    withoutResults (.nop none) = true := ⟨rfl, by decide, rfl, rfl, rfl⟩

/-- A completed command in a state with the invariant, and the ends of the register window. -/
theorem witness_window : Inv groupInput ∧
    exec (.nop none) groupInput = .next (after (exec (.nop none) groupInput)) ∧
    groupInput.platform.regBase.toNat ≤ 0x40000000 ∧ 0x40000FFF < groupInput.platform.regBase.toNat + 4096 := by
  refine ⟨?_, rfl, by decide, by decide⟩
  constructor <;> decide

/-- A register read and a register write pending, idle and in a run with the invariant. -/
theorem witness_register_access :
    ({ groupInput with busy := true, inputs := [.readReg 0x018 4] } : State).inputs = [.readReg 0x018 4] ∧
    Inv { groupInput with busy := true, inputs := [.readReg 0x018 4] } ∧
    ({ groupInput with inputs := [.writeReg 0xFFC 4 1] } : State).busy = false := by
  refine ⟨rfl, ?_, rfl⟩
  constructor <;> decide

/-- Operands in order for the commands whose only range is the WR area, at both ends of the admitted range. -/
theorem witness_wr : operandsInOrder State.reset [] [] [] [] none = true ∧
    operandsInOrder State.reset [] [] [] [] (some 0x0000) = true ∧
    operandsInOrder State.reset [] [] [] [] (some 0xFFF0) = true := by decide

/-- An INIT buffer that ends at the last admitted byte, and the empty one at the top of the address space. -/
theorem witness_init : (∀ a, (0xFFF0#32).toNat ≤ a → a < (0xFFF0#32).toNat + (0x10#32).toNat →
      State.reset.platform.admits a = true) ∧
    (0xFFFFFFFF#32).toNat + (0#32).toNat ≤ 4294967296 ∧ (0x1FFFFFFF#32).toNat < 2 ^ 29 := by
  refine ⟨fun a _ h2 => admits_low ?_, by decide, by decide⟩
  have h2' : a < 0x10000 := h2
  exact h2'

/-- A writer with three pending bits and room for one byte: 8 + 4 more bits fit, 8 + 5 do not. -/
def writing : State := { State.reset with bw := ⟨0x2000, 1, 0, 5, 3⟩ }
theorem witness_bwBits : (12 : Nat) ≤ 32 ∧ writing.bw.count.toNat ≤ writing.bw.cap.toNat ∧
    operandsInOrder writing [] [] [] [writing.bw.freeSpan] (some 0x1FF0) = true ∧ hasRoom writing 12 = true ∧
    hasRoom writing 13 = false := by decide
theorem witness_bwFlush : hasRoom writing ((8 - writing.bw.nbits.toNat) % 8) = true ∧
    hasRoom { writing with bw := ⟨0x2000, 0, 0, 5, 3⟩ } 5 = false ∧
    operandsInOrder { writing with bw := ⟨0x2000, 0, 0, 5, 3⟩ } [] [] [] [⟨0x2000, 0⟩] none = true := by decide

/-- A reader that has exactly the bits asked for, and one bit fewer. -/
theorem witness_brBits : operandsInOrder (reading 3) [] [] [(reading 3).br.remainder] [] (some 0x2002) = true ∧
    (reading 3).br.pos.toNat + 13 ≤ 8 * (reading 3).br.len.toNat ∧
    8 * (reading 3).br.len.toNat < (reading 3).br.pos.toNat + 14 := by decide

/-- A source and a destination side by side, for the commands from one to the other. -/
theorem witness_source_destination :
    operandsInOrder (holding 0x1000 sample) [wordSpan 0x1000 0x100] [wordSpan 0x1100 16] [] [] none = true ∧
    operandsInOrder (holding 0x1000 sample) [wordSpan 0x1000 0x100] [wordSpan 0x1100 16] [] [] (some 0x1110) = true := by
  decide

/-- RLE1_ENC with exactly the room it needs and one byte less. -/
theorem witness_rle1Enc :
    operandsInOrder (holding 0x1000 sample) [wordSpan 0x1000 11] [wordSpan 0x100B 13] [] [] none = true ∧
    (rle1Enc ((holding 0x1000 sample).mem.readBytes 0x1000 11)).length = 13 := by decide

/-- RLE1_DEC: a source that decodes, and one that ends inside a run marker. -/
theorem witness_rle1Dec : (rle1Vars sampleBlock).cnt ≠ 4 ∧ (rle1Vars sampleBlock).out = sample ∧
    (rle1Vars [0x61, 0x61, 0x61, 0x61]).cnt = 4 ∧
    (rle1Dec ((holding 0x1000 sampleBlock).mem.readBytes 0x1000 13)).toOption = some sample ∧
    (rle1Dec ((holding 0x1000 sampleBlock).mem.readBytes 0x1000 4)).toOption = none := by decide

/-- BWT_FWD and BWT_INV with their optional array, for n = 1 and at the origin row's bound. -/
theorem witness_bwt (n : Word) (h : n = 1 ∨ n = 13) :
    operandsInOrder (holding 0x1000 sampleBlock) [wordSpan 0x1000 n]
      [wordSpan 0x1100 n, ⟨(0x1200#32).toNat, 4 * n.toNat⟩] [] [] (some 0x1300) = true ∧
    1 ≤ n.toNat ∧ n.toNat ≤ 900000 ∧ (n - 1).toNat < n.toNat := by
  rcases h with rfl | rfl <;> decide +kernel

/-- A block that is not empty. -/
theorem witness_block : sampleBlock ≠ [] ∧ 1 ≤ sampleBlock.length ∧ sampleBlock.length ≤ 100000 * 1 := by decide

/-- The used list of "a". -/
theorem witness_used : (∀ v : Byte, v ∈ [0x61#8] ↔ v ∈ (holding 0x1000 [0x61]).mem.readBytes 0x1000 1) ∧
    [0x61#8].Pairwise (fun u v => u.toNat < v.toNat) ∧ [0x61#8] ≠ [] ∧ [0x61#8].Nodup :=
  ⟨fun v => by rw [show (holding 0x1000 [0x61]).mem.readBytes 0x1000 1 = [0x61] from by decide]; exact Iff.rfl,
    by decide, by decide, by decide⟩

/-- MTF_ENC with exactly the room it needs and one symbol less. -/
theorem witness_mtfEnc :
    operandsInOrder (holding 0x1000 [0x61]) [wordSpan 0x1000 1] [⟨0x1100, 4⟩, ⟨0x1104, 32⟩] [] [] none = true ∧
    (mtfEnc ((holding 0x1000 [0x61]).mem.readBytes 0x1000 1)).length = 2 := by decide +kernel

/-- MTF_DEC: operands in order, a used map with one value and an empty one, a decoding and an error. -/
theorem witness_mtfDec :
    operandsInOrder mtfInput [⟨0x1000, 6⟩, ⟨0x1100, 32⟩] [wordSpan 0x1200 3] [] [] none = true ∧
    allBytes.filter (fun v => (mtfInput.mem.read (0x1100 + v.toNat / 8)).getLsbD (v.toNat % 8)) = [0x61] ∧
    allBytes.filter (fun v => (mtfInput.mem.read (0x1200 + v.toNat / 8)).getLsbD (v.toNat % 8)) = [] ∧
    mtfInput.mem.readArray 0x1000 2 3 = [0, 0, 2] ∧
    (mtfDec [0, 0, 2] [0x61] 3 outputTooSmall).toOption = some ([0x61, 0x61, 0x61], 3) ∧
    (mtfDec [0, 0, 2] [0x61] 2 outputTooSmall).toOption = none := by decide +kernel

/-- The symbol RUNA over the list of "a" has put out "a". -/
theorem oneByte_prefix : IsMtfPrefix [0x61] [0x61] [0] := ⟨⟨[0], ⟨by decide, rfl⟩, rfl⟩, by decide⟩

/-- MTF_DEC: each of the ends, at the bound of the limit. -/
theorem witness_mtfDec_ends :
    IsMtfDec [0x61] 3 outputTooSmall [0, 0, 2] (.ok ([0x61, 0x61, 0x61], 3)) ∧
    IsMtfDec [0x61] 2 outputTooSmall [0, 0, 2] (.error outputTooSmall) ∧
    IsMtfDec [0x61] 1 outputTooSmall [0, 3] (.error { code := .invalidSymbol }) ∧
    IsMtfDec [0x61] 1 outputTooSmall [0] (.error (formatError 9)) := by
  have h3 : IsMtfPrefix [0x61] [0x61, 0x61, 0x61] [0, 0] := ⟨⟨[0, 0], ⟨by decide, rfl⟩, rfl⟩, by decide⟩
  exact ⟨.done [0, 0] [] _ rfl h3 (by decide), .limit [0] [2] _ _ 0 rfl oneByte_prefix (by decide) h3 (by decide),
    .noSymbol [0] [] _ 3 rfl oneByte_prefix (by decide) (by decide), .noEob _ oneByte_prefix (by decide)⟩

/-- Frequency lists at both ends of the alphabet, and two weights of which one is larger in a table that took no round. -/
theorem witness_frequencies : 2 ≤ [0, 5].length ∧ [0, 5].length ≤ 258 ∧ 2 ≤ (List.replicate 258 0).length ∧
    (List.replicate 258 0).length ≤ 258 ∧ (hufLen [10, 1, 1, 1, 0]).2 = 0 ∧
    max ([10, 1, 1, 1, 0].getD 1 0) 1 < max ([10, 1, 1, 1, 0].getD 0 0) 1 := by decide +kernel

/-- HUF_LEN and HUF_CODES: operands in order at both ends of alphaSize, a valid table, a bad length, a bad Kraft sum. -/
theorem witness_huffman_tables (a : Word) (h : a = 2 ∨ a = 258) : 2 ≤ a.toNat ∧ a.toNat ≤ 258 ∧
    operandsInOrder State.reset [⟨0x1000, 4 * a.toNat⟩] [wordSpan 0x1500 a] [] [] (some 0x1700) = true ∧
    operandsInOrder State.reset [wordSpan 0x1000 a] [⟨0x1500, 4 * a.toNat⟩] [] [] none = true := by
  rcases h with rfl | rfl <;> decide +kernel
theorem witness_huffman_lengths : ValidTable [1, 20] ∧ (∃ l ∈ [21, 1], ¬(1 ≤ l ∧ l ≤ 20)) ∧
    (∀ l ∈ [1, 1, 1], 1 ≤ l ∧ l ≤ 20) ∧ 2 ^ 20 < ([1, 1, 1].map fun l => 2 ^ (20 - l)).sum :=
  ⟨⟨by decide, by decide +kernel⟩, by decide, by decide, by decide +kernel⟩

/-- HUF_ENC: operands, tables, selectors and symbols in order, with room and without. -/
theorem witness_hufEnc :
    operandsInOrder groupInput [⟨0x1000, 20⟩, ⟨0x1100, 5⟩, ⟨0x1200, 1⟩] [] [] [groupInput.bw.freeSpan] none = true ∧
    (List.range 1).map (fun t => (groupInput.mem.readBytes (0x1100 + t * 5) 5).map BitVec.toNat) = [[2, 3, 2, 2, 3]] ∧
    (groupInput.mem.readBytes 0x1200 1).map BitVec.toNat = [0] ∧
    (List.range 10).map (fun k => groupInput.mem.readNat (0x1000 + 2 * k) 2) = [3, 2, 0, 0, 3, 1, 3, 0, 2, 4] ∧
    ValidTable [2, 3, 2, 2, 3] ∧ (groupCodedBits [[2, 3, 2, 2, 3]] [0] [3, 2, 0, 0, 3, 1, 3, 0, 2, 4]).length = 22 ∧
    hasRoom groupInput 22 = true ∧ hasRoom { groupInput with bw := ⟨0x2000, 1, 0, 0, 0⟩ } 22 = false :=
  ⟨by decide, by decide, by decide, by decide, ⟨by decide, by decide +kernel⟩, by decide +kernel, by decide, by decide⟩

/-- HUF_ENC with two tables of three symbols: the second with a length 0 (at 0x1100) or with Kraft sum 3/2 (at 0x1110), a
selector at nGroups, a symbol at alphaSize. -/
def rejecting : State :=
  storeBytes 0x1200 [2] (storeBytes 0x1110 [2, 2, 1, 1, 1, 1] (storeBytes 0x1100 [2, 2, 1, 0, 1, 1] (holding 0x1000 [3, 0])))
theorem witness_hufEnc_rejects :
    operandsInOrder rejecting [⟨0x1000, 2⟩, ⟨0x1100, 6⟩, ⟨0x1200, 1⟩] [] [] [rejecting.bw.freeSpan] none = true ∧
    (List.range 2).map (fun t => (rejecting.mem.readBytes (0x1100 + t * 3) 3).map BitVec.toNat) =
      [[2, 2, 1]] ++ [0, 1, 1] :: [] ∧
    (List.range 2).map (fun t => (rejecting.mem.readBytes (0x1110 + t * 3) 3).map BitVec.toNat) =
      [[2, 2, 1]] ++ [1, 1, 1] :: [] ∧
    (rejecting.mem.readBytes 0x1200 1).map BitVec.toNat = [2] ∧ rejecting.mem.readNat 0x1000 2 = 3 ∧
    ValidTable [2, 2, 1] ∧ 2 ^ 20 < ([1, 1, 1].map fun l => 2 ^ (20 - l)).sum :=
  ⟨by decide, by decide, by decide, by decide, by decide, ⟨by decide, by decide +kernel⟩, by decide +kernel⟩

/-- HUF_DEC: operands in order, a decoding, and an error. -/
theorem witness_hufDec :
    operandsInOrder groupInput [⟨0x1100, 5⟩, wordSpan 0x1200 1] [⟨0x1400, 20⟩] [groupInput.br.remainder] [] none = true ∧
    groupInput.br.len.toNat < 2 ^ 29 ∧
    ((hufDecode 1 10 4 [[2, 3, 2, 2, 3]] [0] (registerReader groupInput)).toOption.map fun x => (x.1, x.2.pos)) =
      some ([3, 2, 0, 0, 3, 1, 3, 0, 2, 4], 22) ∧
    (hufDecode 1 9 4 [[2, 3, 2, 2, 3]] [0] (registerReader groupInput)).toOption = none := by decide +kernel

/-- HUF_DEC: both table errors, at the first bad table. -/
theorem witness_tableErrors :
    IsTableError [[2, 2, 1], [0, 1, 1]] { code := .huffmanOverflow } ∧
    IsTableError [[2, 2, 1], [1, 1, 1]] { code := .invalidHuffmanCode } := by
  have h : ∀ t ∈ [[2, 2, 1]], ValidTable t := by
    intro t ht
    rw [List.mem_singleton.mp ht]
    exact ⟨by decide, by decide +kernel⟩
  exact ⟨⟨[[2, 2, 1]], [0, 1, 1], [], rfl, h, .inl ⟨by decide, rfl⟩⟩,
    ⟨[[2, 2, 1]], [1, 1, 1], [], rfl, h, .inr ⟨by decide, by decide +kernel, rfl⟩⟩⟩

/-- HUF_DEC: each of the ends, the first two on a state, at the bound of the capacity. -/
theorem witness_hufDec_ends :
    (∃ pos, IsHufDec [[2, 3, 2, 2, 3]] [0] 4 (fun syms => syms.length ≤ 10) outputTooSmall 0 (bitsAhead groupInput)
      (.ok ([3, 2, 0, 0, 3, 1, 3, 0, 2] ++ [4], pos, [false, false]))) ∧
    IsHufDec [[2, 3, 2, 2, 3]] [0] 4 (fun syms => syms.length ≤ 9) outputTooSmall 0 (bitsAhead groupInput)
      (.error outputTooSmall) ∧
    IsHufDec [[1, 1]] [] 1 (fun syms => syms.length ≤ 9) outputTooSmall 0 [] (.error (formatError 7)) ∧
    IsHufDec [[2, 1]] [0] 1 (fun syms => syms.length ≤ 9) outputTooSmall 0 [true, true]
      (.error { code := .invalidHuffmanCode }) ∧
    IsHufDec [[2, 1]] [0] 1 (fun syms => syms.length ≤ 9) outputTooSmall 0 [true] (.error (truncatedInput 1)) := by
  have hb : bitsAhead groupInput =
      groupCodedBits [[2, 3, 2, 2, 3]] [0] ([3, 2, 0, 0, 3, 1, 3, 0, 2] ++ [4]) ++ [false, false] := by decide +kernel
  exact ⟨⟨_, .done _ _ hb (by decide) (by decide) (by decide) (by decide)⟩,
    .refused _ 4 _ hb (by decide) (by decide) (by decide) (by decide) (by decide),
    .exhausted [] [] rfl (by decide) (by decide) (by decide),
    .noCode [] [true, true] [2, 1] rfl (by decide) (by decide) (by decide) rfl (by decide +kernel) (by decide),
    .short [] [true] [2, 1] rfl (by decide) (by decide) (by decide) rfl (by decide +kernel) (by decide)⟩

/-- A sequence of 51 symbols with its only EOB at the end: two groups. -/
theorem witness_huffman_round_trip : (∀ t ∈ [[1, 1], [1, 1]], t.length = 2) ∧ (∀ x ∈ [1, 0], x < [[1, 1], [1, 1]].length) ∧
    (∀ x ∈ List.replicate 50 0, x < 2 - 1) ∧ [1, 0].length = ((List.replicate 50 0).length + 1 + 49) / 50 := by decide

/-- BLK_ENC: operands in order with room and without. -/
theorem witness_blkEnc :
    operandsInOrder { holding 0x1000 sampleBlock with bw := ⟨0x2000, 28, 0, 0, 0⟩ } [wordSpan 0x1000 13] [] []
      [⟨0x2000, 28⟩] (some 0x3000) = true ∧
    (blockCode sampleBlock 0xD63C024E#32).bits.length = 230 ∧
    hasRoom { State.reset with bw := ⟨0x2000, 28, 0, 0, 0⟩ } 230 = true ∧
    hasRoom { State.reset with bw := ⟨0x2000, 27, 0, 0, 0⟩ } 230 = false := by decide +kernel

/-- The sample stream with a reader at the block and at the footer. -/
def streamAt (pos : Word) : State := { holding 0x1000 sampleStream with br := ⟨0x1000, 43, pos⟩ }

/-- BLK_DEC: operands in order, a block, the footer, and an error. -/
theorem witness_blkDec :
    operandsInOrder (streamAt 32) [] [wordSpan 0x1100 13] [(streamAt 32).br.remainder] [] none = true ∧
    ((readBlock (registerReader (streamAt 32)) 1 13).toOption.map (·.1)) = some (.block sampleBlock 0xD63C024E 5) ∧
    ((readBlock (registerReader (streamAt 262)) 1 0).toOption.map (·.1)) = some (.eos 0xD63C024E) ∧
    (readBlock (registerReader (streamAt 32)) 1 12).toOption = none := by decide +kernel

/-- The metadata writers' operands at their bounds. -/
theorem witness_metadata : (∀ x ∈ [5, 0], x < 6) ∧ (∀ l ∈ [1, 20], 1 ≤ l ∧ l ≤ 20) := by decide

/-- STREAM_ENC: operands in order and the exact room; STREAM_DEC: the end it reaches, and its errors. -/
theorem witness_streamEnc :
    operandsInOrder (holding 0x1000 sample) [wordSpan 0x1000 11] [wordSpan 0x2000 43] [] [] (some 0x3000) = true ∧
    ((streamCode sample 1).1.length + 7) / 8 = 43 := by decide +kernel
theorem witness_streamDec :
    operandsInOrder (holding 0x1000 sampleStream) [wordSpan 0x1000 43] [wordSpan 0x2000 11] [] [] none = true ∧
    decodeStream sampleStream 11 = .finished ⟨sample, 0xD63C024E, 1⟩ 342 ∧
    decodeStream sampleStream 10 = .failed outputTooSmall ⟨[], 0, 0⟩ 262 := by decide +kernel
theorem witness_checksum :
    decodeStream (sampleStream.set 13 0x4F) 16 = .failed (checksumMismatch 0 0) ⟨sample, 0, 0⟩ 262 ∧
    decodeStream (sampleStream.set 42 0x30) 16 = .failed (checksumMismatch 1 1) ⟨sample, 0xD63C024E, 1⟩ 342 := by
  decide +kernel
theorem witness_stream_round_trip : (packStream 43 (streamCode sample 1).1).toOption = some sampleStream := by
  decide +kernel

/-- A block and a stream that fail, for the statement about INVALID_SYMBOL; and a randomized block. -/
theorem witness_block_errors : (readBlock ⟨0, []⟩ 1 0).toOption = none ∧
    (readBlock ⟨0, bitsMSB Config.blockMagic 48 ++ List.replicate 32 false ++ [true]⟩ 1 0).toOption = none := by
  decide +kernel

/-! ### Witnesses for the ways of reading a block and a stream (47_block_stream.md R271, R285) -/

/-- A reading that succeeds and then another. -/
theorem reading_andThen {α β : Type} {R : Reading α} {S : α → Reading β} {pos pos' : Nat} {bits rest : List Bool} {x : α}
    {out : BitsRead β} (h : R pos bits (.ok (x, pos', rest))) (h' : S x pos' rest out) : (R.andThen S) pos bits out :=
  .inr ⟨x, pos', rest, h, h'⟩

/-- A field that stands there. -/
theorem reading_field (n v pos : Nat) (rest : List Bool) (h : v < 2 ^ n) :
    fieldOf n pos (bitsMSB v n ++ rest) (.ok (v, pos + n, rest)) := .inl ⟨v, rest, h, rfl, rfl⟩

/-- A check that holds. -/
theorem reading_check {p : Prop} {e : EngineError} {pos : Nat} {bits : List Bool} (h : p) :
    checked p e pos bits (.ok ((), pos, bits)) := .inl ⟨h, rfl⟩

/-- A part that stands there. -/
theorem reading_bitwise {α : Type} {full : α → List Bool → Prop} {bad : EngineError → List Bool → Prop} {x : α}
    {read : List Bool} (h : full x read) (pos : Nat) (rest : List Bool) :
    bitwise full bad pos (read ++ rest) (.ok (x, pos + read.length, rest)) := .inl ⟨x, read, rest, h, rfl, rfl⟩

/-- The stream of "a" at k = 1 (95_test_vectors.md 1.2). -/
def oneByteStream : List Byte :=
  [0x42, 0x5a, 0x68, 0x31, 0x31, 0x41, 0x59, 0x26, 0x53, 0x59, 0x19, 0x93, 0x9b, 0x6b, 0x00, 0x00, 0x00, 0x01, 0x00] ++
  [0x20, 0x00, 0x20, 0x00, 0x21, 0x18, 0x46, 0x82, 0xee, 0x48, 0xa7, 0x0a, 0x12, 0x03, 0x32, 0x73, 0x6d, 0x60]

/-- The used map of "a". -/
def oneByteMap : List Bool :=
  (List.range 16).map (fun i => i == 6) ++ ((List.range 16).map fun j => j == 1)

/-- The lengths 2, 2, 1 after their start value. -/
def oneByteLengths : List Bool := [false, false, true, true, false]

/-- The block of "a" with a stored CRC, field by field (30_encoding.md R112). -/
def oneByteBlock (crc : Nat) (rest : List Bool) : List Bool :=
  bitsMSB 0x314159265359 48 ++ (bitsMSB crc 32 ++ (bitsMSB 0 1 ++ (bitsMSB 0 24 ++ (oneByteMap ++ (bitsMSB 2 3 ++
    (bitsMSB 1 15 ++ ([false] ++ (bitsMSB 2 5 ++ (oneByteLengths ++ (bitsMSB 2 5 ++ (oneByteLengths ++
      ([true, false, false] ++ rest))))))))))))

/-- The used map of "a" marks "a" alone. -/
theorem oneByte_used : IsUsedMap [0x61] oneByteMap :=
  ⟨(List.range 16).map (fun i => i == 6), [(List.range 16).map fun j => j == 1], by decide, by decide, by decide, by decide,
    by decide, by decide +kernel⟩

/-- They are the lengths 2, 2, 1. -/
theorem oneByte_lengths : IsLengths 2 [2, 2, 1] oneByteLengths :=
  .next 2 2 _ [] _ (.stay 2) (by decide) (by decide) (.next 2 2 _ [] _ (.stay 2) (by decide) (by decide)
    (.next 2 1 _ [true, true] _ (.down 2 1 [] (by decide) (by decide) (.stay 1)) (by decide) (by decide) (.none 1)))

/-- The symbols RUNA and EOB of the block of "a". -/
theorem oneByte_symbols (pos : Nat) (rest : List Bool) :
    IsHufDec [[2, 2, 1], [2, 2, 1]] [0] 2 (TakesWithin [0x61] 100000) (formatError 8) pos ([true, false, false] ++ rest)
      (.ok ([0] ++ [2], pos + (groupCodedBits [[2, 2, 1], [2, 2, 1]] [0] ([0] ++ [2])).length, rest)) :=
  .done [0] rest (by rw [show groupCodedBits [[2, 2, 1], [2, 2, 1]] [0] ([0] ++ [2]) = [true, false, false] by decide +kernel])
    (by decide) (by decide) (.inr ⟨[0x61], oneByte_prefix, by decide⟩) (.inl rfl)

/-- The block of "a" is read as the block of "a", with any stored CRC and whatever follows. -/
theorem witness_block_read (crc pos cap : Nat) (rest : List Bool) (h : crc < 2 ^ 32) (hc : 1 ≤ cap) :
    ∃ pos', blockOrFooter 1 cap pos (oneByteBlock crc rest) (.ok (.block [0x61] crc 0, pos', rest)) := by
  constructor
  refine reading_andThen (reading_field 48 0x314159265359 _ _ (by decide)) (.inr ⟨by decide, ?_⟩)
  refine reading_andThen (reading_check rfl) ?_
  refine reading_andThen (reading_field 32 crc _ _ h) ?_
  refine reading_andThen (reading_field 1 0 _ _ (by decide)) ?_
  refine reading_andThen (reading_check rfl) ?_
  refine reading_andThen (reading_field 24 0 _ _ (by decide)) ?_
  refine reading_andThen (reading_bitwise oneByte_used _ _) ?_
  refine reading_andThen (reading_check (by decide)) ?_
  refine reading_andThen (reading_field 3 2 _ _ (by decide)) ?_
  refine reading_andThen (reading_check (by decide)) ?_
  refine reading_andThen (reading_field 15 1 _ _ (by decide)) ?_
  refine reading_andThen (reading_check (by decide)) ?_
  refine reading_andThen (reading_bitwise (x := [0]) ⟨rfl, by decide, by decide⟩ _ _) ?_
  have htable : ∀ p r, lengthsOf 3 p (bitsMSB 2 5 ++ (oneByteLengths ++ r)) (.ok ([2, 2, 1], p + 5 + 5, r)) := fun p r =>
    reading_andThen (reading_field 5 2 _ _ (by decide)) (reading_bitwise ⟨rfl, oneByte_lengths⟩ _ _)
  have htables : ∀ p r, tablesOf 3 2 p (bitsMSB 2 5 ++ (oneByteLengths ++ (bitsMSB 2 5 ++ (oneByteLengths ++ r))))
      (.ok ([[2, 2, 1], [2, 2, 1]], p + 5 + 5 + 5 + 5, r)) := fun p r =>
    reading_andThen (htable _ _) (reading_andThen (reading_check (by decide)) (reading_andThen
      (reading_andThen (htable _ _) (reading_andThen (reading_check (by decide)) (reading_andThen rfl rfl))) rfl))
  refine reading_andThen (htables _ _) ?_
  refine reading_andThen (oneByte_symbols _ _) ⟨[0x61], oneByte_prefix.1, by decide, ?_⟩
  refine reading_andThen (reading_check (by decide)) (reading_andThen (reading_check (by simpa using hc)) ?_)
  refine ⟨[0x61], ⟨[0], fun _ => 0, ⟨rfl, ?_⟩, rfl, rfl, ?_⟩, rfl⟩
  · intro i hi
    have : i = 0 := by simpa using hi
    subst this
    decide
  · intro k hk
    have : k = 0 := by simpa using hk
    subst this
    exact ⟨rfl, rfl⟩

/-- The footer with a stored combined CRC. -/
def footerBits (comb : Nat) (rest : List Bool) : List Bool := bitsMSB 0x177245385090 48 ++ (bitsMSB comb 32 ++ rest)

/-- The footer is read as the footer; the block of "a" without room, a randomized block and two truncated reads are the
errors of R276. -/
theorem witness_footer_read (comb pos k cap : Nat) (rest : List Bool) (h : comb < 2 ^ 32) :
    blockOrFooter k cap pos (footerBits comb rest) (.ok (.eos comb, pos + 48 + 32, rest)) :=
  reading_andThen (reading_field 48 0x177245385090 _ _ (by decide)) (.inl ⟨rfl, reading_andThen (reading_field 32 comb _ _ h) rfl⟩)
theorem witness_block_read_errors (pos k cap : Nat) (rest : List Bool) :
    blockOrFooter k cap pos (bitsMSB 0 48 ++ rest) (.error (formatError 2)) ∧
    blockOrFooter k cap pos (bitsMSB 0 47) (.error (truncatedInput pos)) ∧
    blockOrFooter k cap pos (List.replicate 5 false) (.error (truncatedInput pos)) ∧
    blockOrFooter k cap pos (bitsMSB 0x314159265359 48 ++ (bitsMSB 0 32 ++ (bitsMSB 1 1 ++ rest)))
      (.error { code := .unsupportedLegacyFeature }) := by
  refine ⟨?_, .inl ⟨_, .inr ⟨by decide, rfl⟩, rfl⟩, .inl ⟨_, .inr ⟨by decide, rfl⟩, rfl⟩, ?_⟩
  · exact reading_andThen (reading_field 48 0 _ _ (by decide)) (.inr ⟨by decide, .inl ⟨_, .inr ⟨by decide, rfl⟩, rfl⟩⟩)
  · exact reading_andThen (reading_field 48 0x314159265359 _ _ (by decide)) (.inr ⟨by decide, reading_andThen (reading_check rfl)
      (reading_andThen (reading_field 32 0 _ _ (by decide)) (reading_andThen (reading_field 1 1 _ _ (by decide))
        (.inl ⟨_, .inr ⟨by decide, rfl⟩, rfl⟩)))⟩)

/-- The header of a stream at k = 1. -/
theorem oneByte_header (rest : List Bool) : headerOf 0 (bitsMSB 0x42 8 ++ (bitsMSB 0x5A 8 ++ (bitsMSB 0x68 8 ++
    (bitsMSB 0x31 8 ++ rest)))) (.ok (1, 32, rest)) :=
  reading_andThen (reading_field 8 0x42 _ _ (by decide)) (reading_andThen (reading_check rfl)
    (reading_andThen (reading_field 8 0x5A _ _ (by decide)) (reading_andThen (reading_check rfl)
      (reading_andThen (reading_field 8 0x68 _ _ (by decide)) (reading_andThen (reading_check rfl)
        (reading_andThen (reading_field 8 0x31 _ _ (by decide)) (reading_andThen (reading_check (by decide)) rfl)))))))

/-- The bits of the stream of "a" (95_test_vectors.md 1.2), header, block, footer and pad. -/
theorem oneByte_bits : bitsOfBytes oneByteStream = bitsMSB 0x42 8 ++ (bitsMSB 0x5A 8 ++ (bitsMSB 0x68 8 ++
    (bitsMSB 0x31 8 ++ oneByteBlock 0x19939B6B (footerBits 0x19939B6B (List.replicate 5 false))))) := by decide +kernel

/-- The stream of "a": read to its footer, and refused for want of room. -/
theorem witness_stream_read :
    (∃ pos, IsStreamRead oneByteStream 1 (.finished ⟨[0x61], 0x19939B6B, 1⟩ pos)) ∧
    ∃ pos, IsStreamRead oneByteStream 0 (.failed outputTooSmall ⟨[], 0, 0⟩ pos) := by
  unfold IsStreamRead
  rw [oneByte_bits]
  obtain ⟨pos', h⟩ := witness_block_read 0x19939B6B 32 100000 (footerBits 0x19939B6B (List.replicate 5 false)) (by decide)
    (by decide)
  constructor
  · exact ⟨_, .inr ⟨_, _, _, oneByte_header _, .block _ _ _ _ _ _ _ _ _ h (by decide) (by decide) (by decide +kernel)
      (.footer _ _ _ _ _ _ (witness_footer_read _ _ _ _ _ (by decide)) (by decide +kernel))⟩⟩
  · exact ⟨_, .inr ⟨_, _, _, oneByte_header _, .noRoom _ _ _ _ _ _ _ _ h (by decide) (by decide)⟩⟩

/-- A block CRC and a combined CRC that differ, and a header that is none. -/
theorem witness_stream_checksum (rest : List Bool) :
    (∃ pos, IsBlockLoop 1 1 ⟨[], 0, 0⟩ 32 (oneByteBlock 0 rest)
      (.failed (checksumMismatch 0 0) ⟨[0x61], 0, 0⟩ pos)) ∧
    (∃ pos, IsBlockLoop 1 0 ⟨[], 0, 0⟩ 32 (footerBits 1 rest) (.failed (checksumMismatch 1 0) ⟨[], 0, 0⟩ pos)) ∧
    IsStreamRead [0x42, 0x5B] 0 (.failed (formatError 1) ⟨[], 0, 0⟩ 0) := by
  obtain ⟨pos', h⟩ := witness_block_read 0 32 100000 rest (by decide) (by decide)
  refine ⟨⟨_, .crcMismatch _ _ _ _ _ _ _ _ h (by decide) (by decide) (by decide +kernel)⟩,
    ⟨_, .footerMismatch _ _ _ _ _ _ (witness_footer_read _ _ _ _ _ (by decide)) (by decide)⟩, .inl ⟨_, ?_, rfl⟩⟩
  exact reading_andThen (reading_field 8 0x42 _ _ (by decide)) (reading_andThen (reading_check rfl)
    (reading_andThen (reading_field 8 0x5B 8 [] (by decide)) (.inl ⟨_, .inr ⟨by decide, rfl⟩, rfl⟩)))

/-- A reader over the stream of "a" at its block and at its footer. -/
def oneByteAt (pos : Word) : State := { holding 0x1000 oneByteStream with br := ⟨0x1000, 37, pos⟩ }
theorem witness_blkDec_bits :
    operandsInOrder (oneByteAt 32) [] [wordSpan 0x1100 1] [(oneByteAt 32).br.remainder] [] none = true ∧
    bitsAhead (oneByteAt 32) = oneByteBlock 0x19939B6B (footerBits 0x19939B6B (List.replicate 5 false)) ∧
    bitsAhead (oneByteAt 211) = footerBits 0x19939B6B (List.replicate 5 false) ∧
    bitsAhead (oneByteAt 291) = List.replicate 5 false := by decide +kernel

end Sys2Proof.Tests
end

/-! SUPPORT. What the readers and decoders leave of a bit reader: it goes forward, inside its buffer. -/

namespace Sys2Proof.Machine

/-! ### Readers go forward (41_bitstream.md R151) -/

/-- The reader has gone forward over some bits of its buffer, and no further than its end. -/
def BitReader.Advances (r r' : BitReader) : Prop :=
  ∃ read, r.rest = read ++ r'.rest ∧ r'.pos = r.pos + read.length

theorem BitReader.Advances.refl (r : BitReader) : r.Advances r := ⟨[], rfl, rfl⟩

theorem BitReader.Advances.trans {r r' r'' : BitReader} (h : r.Advances r') (h' : r'.Advances r'') :
    r.Advances r'' := by
  obtain ⟨read, hrest, hpos⟩ := h
  obtain ⟨read', hrest', hpos'⟩ := h'
  exact ⟨read ++ read', by simp [hrest, hrest'], by simp [hpos, hpos', Nat.add_assoc]⟩

/-- The position moves within the buffer. -/
theorem BitReader.Advances.pos_le {r r' : BitReader} (h : r.Advances r') :
    r.pos ≤ r'.pos ∧ r'.pos ≤ r.pos + r.rest.length := by
  obtain ⟨read, hrest, hpos⟩ := h
  simp only [hrest, List.length_append, hpos]
  omega

theorem readBits_advances {r r' : BitReader} {n v : Nat} (h : r.readBits n = .ok (v, r')) : r.Advances r' := by
  rcases readBits_cases r n with ⟨hd, tl, hrest, hlen, he⟩ | ⟨-, he⟩ <;> rw [he] at h <;> cases h
  exact ⟨hd, hrest, by simp [hlen]⟩

theorem readUsed_advances {r r' : BitReader} {used : List Byte} (h : readUsed r = .ok (used, r')) : r.Advances r' := by
  unfold readUsed at h
  rcases readFlags_cases 16 r with ⟨hs, tl, hlen, hrest, he⟩ | ⟨-, he⟩ <;> rw [he] at h
  · have hflags : r.Advances ⟨r.pos + 16, tl⟩ := ⟨hs, hrest, by simp [hlen]⟩
    refine hflags.trans ?_
    dsimp only at h
    rcases readRanges_cases hs 0 ⟨r.pos + 16, tl⟩ with ⟨vs, tl', -, -, hrest', he'⟩ | he' <;> rw [he'] at h <;> cases h
    exact ⟨_, hrest', rfl⟩
  · cases h

theorem readSelectors_advances {nSel nGroups : Nat} {r r' : BitReader} {sel : List Nat}
    (h : readSelectors nSel nGroups r = .ok (sel, r')) : r.Advances r' := by
  unfold readSelectors at h
  rcases readSelectorsFrom_cases nGroups nSel _ r List.length_range List.nodup_range with
    ⟨sel', tl, -, -, hrest, he⟩ | ⟨-, -, -, -, -, he⟩ | he <;> rw [he] at h <;> cases h
  exact ⟨_, hrest, rfl⟩

theorem readLengths_advances {a : Nat} {r r' : BitReader} {lens : List Nat} (h : readLengths a r = .ok (lens, r')) :
    r.Advances r' := by
  unfold readLengths at h
  split at h
  · cases h
  · rename_i cur r₁ hbits
    refine (readBits_advances hbits).trans ?_
    rcases readLengthsFrom_cases a cur r₁ with ⟨lens', bits, tl, -, -, hrest, he⟩ | ⟨-, -, -, -, he⟩ | he <;>
      rw [he] at h <;> cases h
    exact ⟨_, hrest, rfl⟩

theorem readTables_advances {a n : Nat} {r r' : BitReader} {lens : List (List Nat)}
    (h : readTables a n r = .ok (lens, r')) : r.Advances r' := by
  induction n generalizing r lens with
  | zero => cases h; exact .refl _
  | succ n ih =>
    simp only [readTables] at h
    split at h
    · cases h
    · rename_i hlens
      split at h
      · cases h
      · split at h
        · cases h
        · rename_i hmore
          cases h
          exact (readLengths_advances hlens).trans (ih hmore)

theorem hufSymFrom_advances {t : CodeTable} {fuel l v x : Nat} {r r' : BitReader}
    (h : hufSymFrom t fuel l v r = .ok (x, r')) : r.Advances r' := by
  induction fuel generalizing l v r with
  | zero => cases h
  | succ fuel ih =>
    simp only [hufSymFrom] at h
    split at h
    · cases h
    · rename_i hbit
      split at h
      · cases h; exact readBits_advances hbit
      · exact (readBits_advances hbit).trans (ih h)

theorem hufGroup_advances {σ : Type} {emit : σ → Nat → Except EngineError σ} {eob : Nat} {t : CodeTable} {n : Nat}
    {st st' : σ} {r r' : BitReader} {b : Bool} (h : hufGroup emit eob t n st r = .ok (b, st', r')) : r.Advances r' := by
  induction n generalizing st r with
  | zero => cases h; exact .refl _
  | succ n ih =>
    simp only [hufGroup] at h
    split at h
    · cases h
    · rename_i hsym
      split at h
      · cases h
      · split at h
        · cases h; exact hufSymFrom_advances hsym
        · exact (hufSymFrom_advances hsym).trans (ih h)

theorem hufDec_advances {σ : Type} {emit : σ → Nat → Except EngineError σ} {eob : Nat} {tables : List CodeTable}
    {sel : List Nat} {st st' : σ} {r r' : BitReader} (h : hufDec emit eob tables sel st r = .ok (st', r')) :
    r.Advances r' := by
  induction sel generalizing st r with
  | nil => cases h
  | cons t sel ih =>
    simp only [hufDec] at h
    split at h
    · cases h
    · rename_i hgroup
      cases h
      exact hufGroup_advances hgroup
    · rename_i hgroup
      exact (hufGroup_advances hgroup).trans (ih h)

theorem hufDecode_advances {g cap eob : Nat} {lens : List (List Nat)} {sel symbols : List Nat} {r r' : BitReader}
    (h : hufDecode g cap eob lens sel r = .ok (symbols, r')) : r.Advances r' := by
  unfold hufDecode at h
  split at h
  · cases h
  split at h
  · cases h
  split at h
  · cases h
  rename_i hdec
  cases h
  exact hufDec_advances hdec

theorem readBlockBody_advances {r r' : BitReader} {k cap : Nat} {b : BlockRead}
    (h : readBlockBody r k cap = .ok (b, r')) : r.Advances r' := by
  unfold readBlockBody at h
  obtain ⟨⟨crc, r₁⟩, hcrc, h⟩ := bind_ok h
  obtain ⟨⟨randomized, r₂⟩, hrandomized, h⟩ := bind_ok h
  obtain ⟨-, -, h⟩ := bind_ok h
  obtain ⟨⟨origPtr, r₃⟩, horigPtr, h⟩ := bind_ok h
  obtain ⟨⟨used, r₄⟩, hused, h⟩ := bind_ok h
  obtain ⟨-, -, h⟩ := bind_ok h
  obtain ⟨⟨nGroups, r₅⟩, hnGroups, h⟩ := bind_ok h
  obtain ⟨-, -, h⟩ := bind_ok h
  obtain ⟨⟨nSel, r₆⟩, hnSel, h⟩ := bind_ok h
  obtain ⟨-, -, h⟩ := bind_ok h
  obtain ⟨⟨sel, r₇⟩, hsel, h⟩ := bind_ok h
  obtain ⟨⟨lens, r₈⟩, hlens, h⟩ := bind_ok h
  obtain ⟨⟨d, r₉⟩, hdec, h⟩ := bind_ok h
  obtain ⟨-, -, h⟩ := bind_ok h
  obtain ⟨-, -, h⟩ := bind_ok h
  cases h
  have hfields := ((readBits_advances hcrc).trans (readBits_advances hrandomized)).trans (readBits_advances horigPtr)
  have hcounts := ((readUsed_advances hused).trans (readBits_advances hnGroups)).trans (readBits_advances hnSel)
  have hcodes := ((readSelectors_advances hsel).trans (readTables_advances hlens)).trans (hufDec_advances hdec)
  exact (hfields.trans hcounts).trans hcodes

theorem readBlock_advances {r r' : BitReader} {k cap : Nat} {b : BlockRead}
    (h : readBlock r k cap = .ok (b, r')) : r.Advances r' := by
  unfold readBlock at h
  obtain ⟨⟨magic, r₁⟩, hmagic, h⟩ := bind_ok h
  refine (readBits_advances hmagic).trans ?_
  dsimp only at h
  split at h
  · obtain ⟨⟨combined, r₂⟩, hcombined, h⟩ := bind_ok h
    cases h
    exact readBits_advances hcombined
  · obtain ⟨-, -, h⟩ := bind_ok h
    exact readBlockBody_advances h

/-- The reader of the BR registers stands at BR_POS, with the bits up to 8 × BR_LEN ahead of it (10_state.md R33). -/
theorem registerReader_end {s : State} (h : s.br.pos.toNat ≤ 8 * s.br.len.toNat) :
    (registerReader s).pos + (registerReader s).rest.length = 8 * s.br.len.toNat := by
  simp only [registerReader, List.length_drop, bitsOfBytes_length, readBytes_length, ReaderRegs.remainder]
  omega

/-- Where a decoder leaves the reader of the BR registers: not behind BR_POS and inside the buffer. -/
theorem registerReader_advances {s : State} {r : BitReader} (h : (registerReader s).Advances r) :
    s.br.pos.toNat ≤ r.pos ∧ (s.br.pos.toNat ≤ 8 * s.br.len.toNat → r.pos ≤ 8 * s.br.len.toNat) := by
  obtain ⟨hle, hend⟩ := h.pos_le
  exact ⟨hle, fun hpos => registerReader_end hpos ▸ hend⟩

end Sys2Proof.Machine

/-! SUPPORT. Everything a command can do, said once: its work and its end. -/

namespace Sys2Proof.Machine

/-! ### What a command can do -/

/-- The span is a write range of the command, other than its WR area (20_memory.md R68 to R71). -/
def OwnWrite (i : Instr) (s : State) (sp : Span) : Prop :=
  ∃ word, word ≠ 7 ∧ ⟨.write, sp, word⟩ ∈ operandTable i s

/-- The span lies inside a write range of the command, other than its WR area. -/
def InOwnWrite (i : Instr) (s : State) (sp : Span) : Prop :=
  ∃ w, OwnWrite i s w ∧ w.addr ≤ sp.addr ∧ sp.limit ≤ w.limit

theorem OwnWrite.inOwnWrite {i : Instr} {s : State} {sp : Span} (h : OwnWrite i s sp) : InOwnWrite i s sp :=
  ⟨sp, h, le_rfl, le_rfl⟩

/-- `u` is a state that command `i`, begun in `s`, can have come to before it completes or fails: it has stored bytes in
its own write ranges, moved the cursors it owns and set its results, and has done nothing else. -/
inductive Work (i : Instr) (s : State) : State → Prop where
  | start : Work i s s
  | store {u : State} {sp : Span} {bs : List Byte} : Work i s u → OwnWrite i s sp → bs.length ≤ sp.len →
      Work i s (storeBytes sp.addr bs u)
  | results {u : State} {r0 r1 r2 r3 : Nat} : Work i s u → withoutResults i = false →
      Work i s (setResults r0 r1 r2 r3 u)
  | append {bits : List Bool} {w : BitSink} : ownsWriter i = true → OwnWrite i s s.bw.freeSpan →
      s.bw.sink.writeAll bits = .ok w → Work i s (putSink w s)
  | seek {u : State} {pos : Nat} : Work i s u → ownsReader i = true → u.br = s.br →
      (s.br.pos.toNat ≤ pos ∧ (s.br.pos.toNat ≤ 8 * s.br.len.toNat → pos ≤ 8 * s.br.len.toNat)) →
      Work i s (putReaderPos pos u)
  | initWriter {base cap : Word} {wr : Option Word} : i = .bwInit base cap wr →
      Work i s { s with bw := ⟨base, cap, 0, 0, 0⟩ }
  | initReader {base len : Word} {wr : Option Word} : i = .brInit base len wr →
      Work i s { s with br := ⟨base, len, 0⟩ }

/-- `t` is a state that command `i`, begun in `s` with its checks passed, can end in (60_exceptions.md R310, R321). Only a
checksum error comes after results are set and bytes are written (47_block_stream.md R287). -/
inductive CommandEnd (i : Instr) (s : State) : State → Prop where
  | finished {u : State} : Work i s u → CommandEnd i s (finish (resultOperand i) u)
  | jumped {target : Word} {wr : Option Word} : i = .jump target wr → CommandEnd i s (jumpTo target (complete wr s))
  | ended {wr : Option Word} : i = .endRun wr → CommandEnd i s (stopDone (complete wr s))
  | failed {u : State} {e : EngineError} {spans : List Span} : Work i s u → (e.code ≠ .checksumMismatch → u = s) →
      (∀ sp ∈ spans, InOwnWrite i s sp) → CommandEnd i s (failSpans spans e u)
  | failedAppend {e : EngineError} : ownsWriter i = true → OwnWrite i s s.bw.freeSpan →
      CommandEnd i s (failAppend s.bw.freeSpan e s)
  | failedRead {e : EngineError} {dst : Span} : ownsReader i = true → OwnWrite i s dst →
      CommandEnd i s (failRead dst e s)

/-- An error stop that leaves nothing unspecified. -/
theorem CommandEnd.stopped {i : Instr} {s : State} (e : EngineError) : CommandEnd i s (errorStop e s) :=
  .failed (spans := []) .start (fun _ => rfl) (by simp)

/-- An error stop that leaves write ranges unspecified. -/
theorem CommandEnd.failedWith {i : Instr} {s : State} (e : EngineError) {spans : List Span}
    (h : ∀ sp ∈ spans, OwnWrite i s sp) : CommandEnd i s (failSpans spans e s) :=
  .failed .start (fun _ => rfl) fun sp hsp => (h sp hsp).inOwnWrite

/-- The optional array of BWT_FWD and BWT_INV is stored in its own range. -/
theorem Work.words {i : Instr} {s u : State} {a : Option Word} {vs : List Nat} (h : Work i s u)
    (hown : ∀ x, a = some x → OwnWrite i s ⟨x.toNat, 4 * vs.length⟩) : Work i s (storeWords a vs u) := by
  cases a with
  | none => exact h
  | some x => exact h.store (hown x rfl) (by simp)

/-- A byte string goes to its range or, when it does not fit, is not written (43_rle1.md R181, R183). -/
theorem finishBytes_end {i : Instr} {s : State} {dst cap : Word} {out : List Byte}
    (hown : OwnWrite i s ⟨dst.toNat, cap.toNat⟩) (hres : withoutResults i = false) :
    CommandEnd i s (finishBytes dst cap out (resultOperand i) s) := by
  unfold finishBytes
  split
  · exact .finished ((Work.start.store hown (by assumption)).results hres)
  · exact .failedWith _ (by simpa using hown)

/-- The error ends of the stream decoder, too, have put out no more than fits. -/
theorem decodeBlocks_failed_length {k cap fuel pos : Nat} {o o' : StreamOut} {r : BitReader} {e : EngineError}
    (ho : o.raw.length ≤ cap) (h : decodeBlocks k cap fuel o r = .failed e o' pos) : o'.raw.length ≤ cap := by
  induction fuel generalizing o r with
  | zero => cases h; exact ho
  | succ fuel ih =>
    simp only [decodeBlocks] at h
    split at h
    · cases h; exact ho
    · split at h
      · cases h
      · cases h; exact ho
    · split at h
      · cases h; exact ho
      · split at h
        · rename_i hl
          have hl' := List.length_append.trans_le hl
          split at h
          · exact ih hl' h
          · cases h; exact hl'
        · cases h; exact ho

theorem decodeStream_failed_length {bytes : List Byte} {cap pos : Nat} {o : StreamOut} {e : EngineError}
    (h : decodeStream bytes cap = .failed e o pos) : o.raw.length ≤ cap := by
  simp only [decodeStream] at h
  split at h
  · cases h; exact Nat.zero_le _
  · exact decodeBlocks_failed_length (Nat.zero_le _) h

/-- The ends of a command that runs its own checks and then `body`. -/
theorem guarded_ends {i : Instr} {pl : Plan} {wr : Option Word} {body : State → State} {s t : State}
    (h : guarded pl wr body s = .next t) (hplan : instrPlan i s = pl.withResults wr)
    (hbody : CommandEnd i s (body s)) :
    (∃ e, (instrPlan i s).check s.platform = some e ∧ t = errorStop e s) ∨
    ((instrPlan i s).check s.platform = none ∧ CommandEnd i s t) := by
  rw [hplan]
  rcases guarded_cases h with ⟨e, hc, rfl⟩ | ⟨hc, rfl⟩
  · exact .inl ⟨e, hc, rfl⟩
  · exact .inr ⟨hc, hbody⟩

/-- Everything a command can do: the error stop that its first failing check names, or one of its ends. -/
theorem exec_cases {i : Instr} {s t : State} (h : exec i s = .next t) :
    (∃ e, (instrPlan i s).check s.platform = some e ∧ t = errorStop e s) ∨
    ((instrPlan i s).check s.platform = none ∧ CommandEnd i s t) := by
  cases i with simp only [exec] at h
  | nop wr => exact guarded_ends h rfl (.finished .start)
  | endRun wr => exact guarded_ends h rfl (.ended rfl)
  | jump target wr => exact guarded_ends h rfl (.jumped rfl)
  | bwInit base cap wr => exact guarded_ends h rfl (.finished (.initWriter rfl))
  | bwBits n value wr =>
    refine guarded_ends h rfl ?_
    have hown : OwnWrite (.bwBits n value wr) s s.bw.freeSpan := ⟨0, by decide, List.mem_cons_self⟩
    split
    · exact .finished (.append rfl hown (by assumption))
    · exact .failedAppend rfl hown
  | bwFlush wr =>
    refine guarded_ends h rfl ?_
    have hown : OwnWrite (.bwFlush wr) s s.bw.freeSpan := ⟨0, by decide, List.mem_cons_self⟩
    split
    · exact .finished (.results (.append rfl hown (by assumption)) rfl)
    · exact .failedAppend rfl hown
  | brInit base len wr => exact guarded_ends h rfl (.finished (.initReader rfl))
  | brBits n wr =>
    refine guarded_ends h rfl ?_
    dsimp only
    split
    · exact .finished (.results (.seek .start rfl rfl ⟨by omega, fun _ => by assumption⟩) rfl)
    · exact .stopped _
  | crc32 cont src len wr => exact guarded_ends h rfl (.finished (.results .start rfl))
  | crcCombine combined blockCrc wr => exact guarded_ends h rfl (.finished (.results .start rfl))
  | rle1Enc src len dst cap wr =>
    exact guarded_ends h rfl (finishBytes_end ⟨3, by decide, by simp [operandTable]⟩ rfl)
  | rle1Dec src len dst cap wr =>
    refine guarded_ends h rfl ?_
    have hown : OwnWrite (.rle1Dec src len dst cap wr) s ⟨dst.toNat, cap.toNat⟩ :=
      ⟨3, by decide, by simp [operandTable]⟩
    split
    · exact finishBytes_end hown rfl
    · exact .failedWith _ (by simpa using hown)
  | bwtFwd src n dst sa wr =>
    refine guarded_ends h rfl (.finished (.results (.words (.store .start (sp := ⟨dst.toNat, n.toNat⟩) ?_ ?_) ?_) rfl))
    · exact ⟨3, by decide, by simp [operandTable]⟩
    · simp
    · rintro x rfl
      exact ⟨4, by decide, by simp [operandTable]⟩
  | bwtInv src n origPtr dst tv wr =>
    refine guarded_ends h rfl ?_
    dsimp only
    split
    · refine .finished (.results (.words (.store .start (sp := ⟨dst.toNat, n.toNat⟩) ?_ ?_) ?_) rfl)
      · exact ⟨4, by decide, by simp [operandTable]⟩
      · simp
      · rintro x rfl
        exact ⟨5, by decide, by simp [operandTable]⟩
    · exact .stopped _
  | mtfEnc src n dst cap map wr =>
    refine guarded_ends h rfl ?_
    have hdst : OwnWrite (.mtfEnc src n dst cap map wr) s ⟨dst.toNat, 2 * cap.toNat⟩ :=
      ⟨3, by decide, by simp [operandTable]⟩
    have hmap : OwnWrite (.mtfEnc src n dst cap map wr) s ⟨map.toNat, 32⟩ := ⟨5, by decide, by simp [operandTable]⟩
    dsimp only
    split
    · rename_i hfit
      exact .finished (.results (.store (.store .start hdst (by simpa using hfit)) hmap (by simp [usedMap])) rfl)
    · exact .failedWith _ (by simp [hdst, hmap])
  | mtfDec src count map dst cap wr =>
    refine guarded_ends h rfl ?_
    have hown : OwnWrite (.mtfDec src count map dst cap wr) s ⟨dst.toNat, cap.toNat⟩ :=
      ⟨4, by decide, by simp [operandTable]⟩
    split
    · rename_i hdec
      exact .finished (.results (.store .start hown (mtfDecode_length hdec)) rfl)
    · exact .failedWith _ (by simpa using hown)
  | hufLen freq alphaSize dst wr =>
    refine guarded_ends h rfl (.finished (.results (.store .start (sp := ⟨dst.toNat, alphaSize.toNat⟩) ?_ ?_) rfl))
    · exact ⟨3, by decide, by simp [operandTable]⟩
    · rw [arrayBytes_length, Nat.one_mul]
      exact (hufLen_length_le _).trans (by simp [Memory.readArray])
  | hufCodes lengths alphaSize dst wr =>
    refine guarded_ends h rfl ?_
    have hown : OwnWrite (.hufCodes lengths alphaSize dst wr) s ⟨dst.toNat, 4 * alphaSize.toNat⟩ :=
      ⟨3, by decide, by simp [operandTable]⟩
    dsimp only
    split
    · exact .finished (.results (.store .start hown (by simp [Memory.readArray])) rfl)
    · exact .failedWith _ (by simpa using hown)
  | hufEnc g syms count tables selectors alphaSize wr =>
    refine guarded_ends h rfl ?_
    have hown : OwnWrite (.hufEnc g syms count tables selectors alphaSize wr) s s.bw.freeSpan :=
      ⟨0, by decide, by simp [operandTable, WriterRegs.freeSpan]⟩
    dsimp only
    split
    · exact .stopped _
    · split
      · exact .finished (.results (.append rfl hown (by assumption)) rfl)
      · exact .failedAppend rfl hown
  | hufDec g dst cap tables selectors alphaSize nSel wr =>
    refine guarded_ends h rfl ?_
    have hown : OwnWrite (.hufDec g dst cap tables selectors alphaSize nSel wr) s ⟨dst.toNat, 2 * cap.toNat⟩ :=
      ⟨1, by decide, by simp [operandTable]⟩
    split
    · rename_i hdec
      have hfit := hufDecode_length hdec
      exact .finished (.results (.seek (.store .start hown (by simpa using hfit)) rfl rfl
        (registerReader_advances (hufDecode_advances hdec))) rfl)
    · exact .failedRead rfl hown
  | blkEnc k src n blockCrc wr =>
    refine guarded_ends h rfl ?_
    have hown : OwnWrite (.blkEnc k src n blockCrc wr) s s.bw.freeSpan :=
      ⟨0, by decide, by simp [operandTable, WriterRegs.freeSpan]⟩
    dsimp only
    split
    · exact .finished (.results (.append rfl hown (by assumption)) rfl)
    · exact .failedAppend rfl hown
  | blkDec k dst cap wr =>
    refine guarded_ends h rfl ?_
    have hown : OwnWrite (.blkDec k dst cap wr) s ⟨dst.toNat, cap.toNat⟩ :=
      ⟨1, by decide, by simp [operandTable]⟩
    split
    · rename_i hread
      exact .finished (.results (.seek .start rfl rfl (registerReader_advances (readBlock_advances hread))) rfl)
    · rename_i hread
      exact .finished (.results (.seek (.store .start hown (readBlock_length hread)) rfl rfl
        (registerReader_advances (readBlock_advances hread))) rfl)
    · exact .failedRead rfl hown
  | streamEnc k src len dst cap wr =>
    refine guarded_ends h rfl ?_
    have hown : OwnWrite (.streamEnc k src len dst cap wr) s ⟨dst.toNat, cap.toNat⟩ :=
      ⟨3, by decide, by simp [operandTable]⟩
    dsimp only
    split
    · rename_i hpack
      exact .finished (.results (.store .start hown (packStream_length hpack)) rfl)
    · exact .failedWith _ (by simpa using hown)
  | streamDec src len dst cap wr =>
    refine guarded_ends h rfl ?_
    have hown : OwnWrite (.streamDec src len dst cap wr) s ⟨dst.toNat, cap.toNat⟩ :=
      ⟨3, by decide, by simp [operandTable]⟩
    split
    · rename_i hdec
      exact .finished (.results (.store .start hown (decodeStream_length hdec)) rfl)
    · rename_i e o pos hdec
      have hfit := decodeStream_failed_length hdec
      split
      · rename_i hsum
        refine .failed (.results (.store .start hown hfit) rfl) (fun hne => absurd hsum hne) fun sp hsp => ?_
        unfold undefinedTail at hsp
        split at hsp
        · cases hsp
        · rw [List.mem_singleton.mp hsp]
          exact ⟨_, hown, by simp, by simp only [Span.limit]; omega⟩
      · refine .failedWith _ fun sp hsp => ?_
        split at hsp
        · cases hsp
        · rw [List.mem_singleton.mp hsp]
          exact hown

end Sys2Proof.Machine

/-! SUPPORT. What a command's work and end keep: the cursors it does not own, the host's registers, RESULT. -/

namespace Sys2Proof.Machine

/-! ### What a command keeps -/

/-- Before its end a command changes nothing but RESULT, the cursors and memory. -/
theorem Work.frame {i : Instr} {s u : State} (h : Work i s u) :
    ∃ r w b m, u = { s with results := r, bw := w, br := b, mem := m } := by
  induction h with
  | start => exact ⟨_, _, _, _, rfl⟩
  | store _ _ _ ih | results _ _ ih | seek _ _ _ _ ih => obtain ⟨r, w, b, m, rfl⟩ := ih; exact ⟨_, _, _, _, rfl⟩
  | append _ _ _ => exact ⟨_, _, _, _, rfl⟩
  | initWriter _ | initReader _ => exact ⟨_, _, _, _, rfl⟩

theorem Work.bw_eq {i : Instr} {s u : State} (h : Work i s u) (ho : ownsWriter i = false) : u.bw = s.bw := by
  induction h with
  | start | initReader _ => rfl
  | store _ _ _ ih | results _ _ ih | seek _ _ _ _ ih => exact ih
  | append howns _ _ => simp [ho] at howns
  | initWriter hi => simp [hi, ownsWriter] at ho

theorem Work.br_eq {i : Instr} {s u : State} (h : Work i s u) (ho : ownsReader i = false) : u.br = s.br := by
  induction h with
  | start | initWriter _ | append _ _ _ => rfl
  | store _ _ _ ih | results _ _ ih => exact ih
  | seek _ howns _ _ _ => simp [ho] at howns
  | initReader hi => simp [hi, ownsReader] at ho

theorem Work.results_eq {i : Instr} {s u : State} (h : Work i s u) (ho : withoutResults i = true) :
    u.results = s.results := by
  induction h with
  | start | initWriter _ | initReader _ | append _ _ _ => rfl
  | store _ _ _ ih | seek _ _ _ _ ih => exact ih
  | results _ hres _ => simp [ho] at hres

/-- Settles O24: the cursors move only in the work of a command that owns them, or in its error stop. -/
theorem cursorOwnership : Obligations.CursorOwnership := by
  intro i s t h
  rcases exec_cases h with ⟨e, -, rfl⟩ | ⟨-, hend⟩
  · simp
  · cases hend with
    | finished hw => simpa using ⟨hw.bw_eq, hw.br_eq⟩
    | jumped _ | ended _ => simp
    | failed hw _ _ => simpa using ⟨hw.bw_eq, hw.br_eq⟩
    | failedAppend howns _ => simp [howns]
    | failedRead howns _ => simp [howns]

/-- Settles O25: neither a command's work nor its end touches the host's registers, and only END's own end sets DONE. -/
theorem engineKeepsHostRegisters : Obligations.EngineKeepsHostRegisters := by
  intro i s t h
  rcases exec_cases h with ⟨e, -, rfl⟩ | ⟨-, hend⟩
  · simp
  · cases hend with
    | finished hw =>
      have hres := hw.results_eq
      obtain ⟨r, w, b, m, rfl⟩ := hw.frame
      simpa using hres
    | failed hw _ _ =>
      have hres := hw.results_eq
      obtain ⟨r, w, b, m, rfl⟩ := hw.frame
      simpa using hres
    | jumped _ | failedAppend _ _ | failedRead _ _ => simp
    | ended hi => simp [hi]

end Sys2Proof.Machine

/-! SUPPORT. The invariant in parts, and that every step of the engine and of the host keeps it. -/

namespace Sys2Proof.Machine

/-! ### The invariant in parts -/

/-- The bit writer's part of the invariant (10_state.md R32, 20_memory.md R71). -/
structure WriterOk (p : Platform) (w : WriterRegs) : Prop where
  count : w.count.toNat ≤ w.cap.toNat
  pending : w.acc.toNat < 2 ^ w.nbits.toNat
  noWrap : (Span.mk w.base.toNat w.cap.toNat).wraps = false
  admitted : p.admitsSpan ⟨w.base.toNat, w.cap.toNat⟩ = true

/-- The bit reader's part of the invariant (10_state.md R33, 20_memory.md R71). -/
structure ReaderOk (p : Platform) (r : ReaderRegs) : Prop where
  len : r.len.toNat < 2 ^ 29
  pos : r.pos.toNat ≤ 8 * r.len.toNat
  noWrap : (Span.mk r.base.toNat r.len.toNat).wraps = false
  admitted : p.admitsSpan ⟨r.base.toNat, r.len.toNat⟩ = true

/-- What STATUS and the error registers may hold together (10_state.md R25, R29, 60_exceptions.md R300). -/
def RecordOk (s : State) : Prop :=
  (s.done && s.err) = false ∧ (s.busy = true → s.done = false ∧ s.err = false) ∧ s.errcode.toNat ≤ 14 ∧
  (s.err = true → s.errcode ≠ 0) ∧ (s.busy = true ∨ s.done = true → s.errcode = 0 ∧ s.errinfo = 0 ∧ s.errpos = 0)

/-- The invariant is memory in order, the cursors' parts and the record's. -/
theorem inv_iff (s : State) :
    Inv s ↔ InOrderOn s.platform s ∧ WriterOk s.platform s.bw ∧ ReaderOk s.platform s.br ∧ RecordOk s := by
  constructor
  · intro h
    exact ⟨⟨⟨h.memWf, h.memInSpace⟩, rfl⟩, ⟨h.writerCount, h.writerPending, h.writerNoWrap, h.writerAdmitted⟩,
      ⟨h.readerLen, h.readerPos, h.readerNoWrap, h.readerAdmitted⟩,
      h.oneStop, h.running, h.errcodeKnown, h.errRecorded, h.noRecord⟩
  · rintro ⟨⟨⟨hwf, hspace⟩, -⟩, ⟨hcount, hpending, hwrap, hadmitted⟩, ⟨hlen, hpos, hrwrap, hradmitted⟩,
      hone, hrun, hcode, herr, hrec⟩
    exact ⟨hwf, hspace, hcount, hpending, hwrap, hadmitted, hlen, hpos, hrwrap, hradmitted, hone, hrun, hcode, herr,
      hrec⟩

/-! ### What passed checks promise -/

section Checked
variable {i : Instr} {s : State} (hc : (instrPlan i s).check s.platform = none)
include hc

/-- A range of a command whose checks hold does not wrap, and is admitted when a descriptor word names it. -/
theorem operandTable_checked {r : OperandRange} (hr : r ∈ operandTable i s) :
    r.span.wraps = false ∧ (r.word ≠ 0 → s.platform.admitsSpan r.span = true) := by
  obtain ⟨-, hwrap, -, hadmit⟩ := check_none_iff.mp hc
  rw [instrPlan_ranges] at hwrap hadmit
  exact ⟨hwrap r hr, hadmit r hr⟩

theorem ownWrite_noWrap {sp : Span} (h : OwnWrite i s sp) : sp.wraps = false := by
  obtain ⟨word, -, hr⟩ := h
  exact (operandTable_checked hc hr).1

theorem inOwnWrite_noWrap {sp : Span} (h : InOwnWrite i s sp) : sp.wraps = false := by
  obtain ⟨w, hw, -, hle⟩ := h
  have := ownWrite_noWrap hc hw
  simp only [Span.wraps, decide_eq_false_iff_not] at this ⊢
  omega

theorem resultSpan_noWrap {a : Word} (h : resultOperand i = some a) : (resultSpan a).wraps = false :=
  (operandTable_checked hc (r := ⟨.write, resultSpan a, 7⟩) (by simp [operandTable, h, resultSpan])).1

end Checked

/-! ### Memory -/

theorem Work.inOrder {i : Instr} {s u : State} {p : Platform} (hc : (instrPlan i s).check s.platform = none)
    (h : Work i s u) (hs : InOrderOn p s) : InOrderOn p u := by
  induction h with
  | start | initWriter _ | initReader _ => exact hs
  | store _ hown hfit ih => exact ih.store (ownWrite_noWrap hc hown) hfit
  | results _ _ ih => exact ih.results _ _ _ _
  | append _ hown hwrite => exact hs.sink (ownWrite_noWrap hc hown) (sink_bounds hwrite)
  | seek _ _ _ _ ih => exact ih.readerPos _

theorem havocSpans_inOrder {spans : List Span} {s : State} {p : Platform} (hs : InOrderOn p s)
    (h : ∀ sp ∈ spans, sp.wraps = false) : InOrderOn p (havocSpans spans s) :=
  ⟨⟨havocSpans_wf hs.1.1, havocSpans_inSpace hs.1.2 h⟩, by simpa using hs.2⟩

theorem havocSpan_inOrder {sp : Span} {s : State} {p : Platform} (hs : InOrderOn p s) (h : sp.wraps = false) :
    InOrderOn p (havocSpan sp s) :=
  havocSpans_inOrder (spans := [sp]) hs (by simpa using h)

theorem CommandEnd.inOrder {i : Instr} {s t : State} {p : Platform} (hc : (instrPlan i s).check s.platform = none)
    (h : CommandEnd i s t) (hs : InOrderOn p s) : InOrderOn p t := by
  cases h with
  | finished hw => exact (hw.inOrder hc hs).finish fun _ => resultSpan_noWrap hc
  | jumped hi => exact hs.complete fun _ hwr => resultSpan_noWrap hc (by simpa [hi, resultOperand] using hwr)
  | ended hi => exact hs.complete fun _ hwr => resultSpan_noWrap hc (by simpa [hi, resultOperand] using hwr)
  | failed hw _ hspans => exact havocSpans_inOrder (hw.inOrder hc hs) fun sp hsp => inOwnWrite_noWrap hc (hspans sp hsp)
  | failedAppend _ hown => exact havocSpan_inOrder hs (ownWrite_noWrap hc hown)
  | failedRead _ hown => exact havocSpan_inOrder hs (ownWrite_noWrap hc hown)

/-! ### The bit writer -/

/-- A bit sink holds fewer than 8 pending bits, and their value fits them (41_bitstream.md R150). -/
def BitSink.PendingOk (w : BitSink) : Prop := w.nbits < 8 ∧ w.acc < 2 ^ w.nbits

theorem writeAll_pendingOk {bits : List Bool} {w w' : BitSink} (hw : w.PendingOk) (h : w.writeAll bits = .ok w') :
    w'.PendingOk := by
  induction bits generalizing w with
  | nil => cases h; exact hw
  | cons b bits ih =>
    simp only [BitSink.writeAll] at h
    split at h
    · rename_i w₁ hbit
      refine ih ?_ h
      obtain ⟨hn, hacc⟩ := hw
      rcases writeBit_cases hbit with ⟨hne, rfl⟩ | ⟨-, -, rfl⟩
      · have := Bool.toNat_le b
        have hdouble : 2 * w.acc + b.toNat < 2 ^ (w.nbits + 1) := by rw [Nat.pow_succ]; omega
        exact ⟨Nat.lt_of_le_of_ne hn hne, hdouble⟩
      · exact ⟨Nat.zero_lt_succ 7, Nat.one_pos⟩
    · cases h

/-- Registers that hold a capacity's worth of bytes at most and pending bits in order read as those numbers. -/
theorem writerOk_of_numbers {p : Platform} {w : WriterRegs} (hw : WriterOk p w) {count acc nbits : Nat}
    (hcount : count ≤ w.cap.toNat) (hn : nbits < 8) (hacc : acc < 2 ^ nbits) :
    WriterOk p ⟨w.base, w.cap, BitVec.ofNat 32 count, BitVec.ofNat 7 acc, BitVec.ofNat 3 nbits⟩ := by
  have hpow : 2 ^ nbits ≤ 2 ^ 7 := Nat.pow_le_pow_right (by decide) (by omega)
  refine ⟨?_, ?_, hw.noWrap, hw.admitted⟩
  · rw [BitVec.toNat_ofNat]
    exact (Nat.mod_le _ _).trans hcount
  · rw [BitVec.toNat_ofNat, BitVec.toNat_ofNat, Nat.mod_eq_of_lt (by omega : nbits < 2 ^ 3)]
    exact (Nat.mod_le _ _).trans_lt hacc

theorem putSink_writerOk {s : State} {p : Platform} {bits : List Bool} {w : BitSink} (hs : WriterOk p s.bw)
    (h : s.bw.sink.writeAll bits = .ok w) : WriterOk p (putSink w s).bw := by
  have hcount : w.count ≤ s.bw.cap.toNat := (sink_bounds h).2.elim (fun heq => heq ▸ hs.count) id
  obtain ⟨hn, hacc⟩ := writeAll_pendingOk (w := s.bw.sink) ⟨s.bw.nbits.isLt, hs.pending⟩ h
  exact writerOk_of_numbers hs hcount hn hacc

theorem havocWriter_writerOk {s : State} {p : Platform} (hs : WriterOk p s.bw) : WriterOk p (havocWriter s).bw :=
  writerOk_of_numbers hs (Nat.lt_succ_iff.mp (Nat.mod_lt _ (Nat.succ_pos _))) (Nat.mod_lt _ (by decide))
    (Nat.mod_lt _ (Nat.two_pow_pos _))

theorem Work.writerOk {i : Instr} {s u : State} (hc : (instrPlan i s).check s.platform = none) (h : Work i s u)
    (hs : WriterOk s.platform s.bw) : WriterOk s.platform u.bw := by
  induction h with
  | start | initReader _ => exact hs
  | store _ _ _ ih | results _ _ ih | seek _ _ _ _ ih => exact ih
  | append _ _ hwrite => exact putSink_writerOk hs hwrite
  | @initWriter base cap wr hi =>
    obtain ⟨hwrap, hadmit⟩ := operandTable_checked hc (r := ⟨.probe, wordSpan base cap, 1⟩) (by simp [hi, operandTable])
    exact ⟨Nat.zero_le _, Nat.one_pos, hwrap, hadmit Nat.one_ne_zero⟩

theorem CommandEnd.writerOk {i : Instr} {s t : State} (hc : (instrPlan i s).check s.platform = none)
    (h : CommandEnd i s t) (hs : WriterOk s.platform s.bw) : WriterOk s.platform t.bw := by
  cases h with
  | finished hw => simpa using hw.writerOk hc hs
  | failed hw _ _ => simpa using hw.writerOk hc hs
  | jumped _ | ended _ | failedRead _ _ => simpa using hs
  | failedAppend _ _ => exact havocWriter_writerOk (s := havocSpan s.bw.freeSpan s) hs

/-! ### The bit reader -/

theorem havocReader_readerOk {s : State} {p : Platform} (hs : ReaderOk p s.br) : ReaderOk p (havocReader s).br := by
  refine ⟨hs.len, ?_, hs.noWrap, hs.admitted⟩
  show (BitVec.ofNat 32 _).toNat ≤ 8 * s.br.len.toNat
  rw [BitVec.toNat_ofNat]
  exact (Nat.mod_le _ _).trans (Nat.lt_succ_iff.mp (Nat.mod_lt _ (Nat.succ_pos _)))

theorem Work.readerOk {i : Instr} {s u : State} (hc : (instrPlan i s).check s.platform = none) (h : Work i s u)
    (hs : ReaderOk s.platform s.br) : ReaderOk s.platform u.br := by
  induction h with
  | start | initWriter _ | append _ _ _ => exact hs
  | store _ _ _ ih | results _ _ ih => exact ih
  | seek _ _ hbr hpos ih =>
    refine ⟨ih.len, ?_, ih.noWrap, ih.admitted⟩
    rw [putReaderPos_br_pos, putReaderPos_br_len, BitVec.toNat_ofNat, hbr]
    exact (Nat.mod_le _ _).trans (hpos.2 hs.pos)
  | @initReader base len wr hi =>
    obtain ⟨hwrap, hadmit⟩ := operandTable_checked hc (r := ⟨.probe, wordSpan base len, 1⟩) (by simp [hi, operandTable])
    have hlegal : LegalValues (.brInit base len wr) := hi ▸ (instrPlan_values_iff i s).mp (check_none_iff.mp hc).1
    exact ⟨hlegal, Nat.zero_le _, hwrap, hadmit Nat.one_ne_zero⟩

theorem CommandEnd.readerOk {i : Instr} {s t : State} (hc : (instrPlan i s).check s.platform = none)
    (h : CommandEnd i s t) (hs : ReaderOk s.platform s.br) : ReaderOk s.platform t.br := by
  cases h with
  | finished hw => simpa using hw.readerOk hc hs
  | failed hw _ _ => simpa using hw.readerOk hc hs
  | jumped _ | ended _ | failedAppend _ _ => simpa using hs
  | @failedRead _ dst _ _ => exact havocReader_readerOk (s := havocSpan dst s) hs

/-! ### The record -/

theorem errorCode_number_bounds (c : ErrorCode) : 1 ≤ c.number.toNat ∧ c.number.toNat ≤ 14 := by
  cases c <;> decide

/-- An error stop records a known code and leaves one of DONE and ERR. -/
theorem errorStop_recordOk {e : EngineError} {s : State} (h : s.done = false) : RecordOk (errorStop e s) := by
  obtain ⟨hpos, hle⟩ := errorCode_number_bounds e.code
  refine ⟨by simp [h], by simp, hle, fun _ hzero => ?_, by simp [h]⟩
  rw [errorStop_errcode] at hzero
  simp [hzero] at hpos

theorem CommandEnd.recordOk {i : Instr} {s t : State} (h : CommandEnd i s t) (hs : RecordOk s) (hb : s.busy = true) :
    RecordOk t := by
  obtain ⟨-, hrun, hcode, -, hrec⟩ := hs
  obtain ⟨hdone, herr⟩ := hrun hb
  cases h with
  | finished hw =>
    obtain ⟨r, w, b, m, rfl⟩ := hw.frame
    simp [RecordOk, hdone, herr, hrec (.inl hb)]
  | jumped _ | ended _ => simp [RecordOk, hdone, herr, hrec (.inl hb)]
  | failed hw _ _ =>
    obtain ⟨r, w, b, m, rfl⟩ := hw.frame
    exact errorStop_recordOk (by simpa using hdone)
  | failedAppend _ _ | failedRead _ _ => exact errorStop_recordOk (by simpa using hdone)

/-! ### Every step -/

/-- A command keeps the invariant, whether it completes or fails. -/
theorem exec_inv {i : Instr} {s t : State} (hs : Inv s) (hb : s.busy = true) (h : exec i s = .next t) : Inv t := by
  obtain ⟨hmem, hbw, hbr, hrec⟩ := (inv_iff s).mp hs
  rcases exec_cases h with ⟨e, -, rfl⟩ | ⟨hc, hend⟩
  · exact (inv_iff _).mpr ⟨hmem, hbw, hbr, errorStop_recordOk (hs.running hb).1⟩
  · have hmem' := hend.inOrder hc hmem
    rw [inv_iff, hmem'.2]
    exact ⟨hmem', hend.writerOk hc hbw, hend.readerOk hc hbr, hend.recordOk hrec hb⟩

theorem engineStep_inv {s t : State} (hs : Inv s) (h : engineStep s = .next t) : Inv t := by
  obtain ⟨hmem, hbw, hbr, hrec⟩ := (inv_iff s).mp hs
  rcases engineStep_cases s with ⟨-, he⟩ | ⟨hb, e, -, he⟩ | ⟨hb, i, -, he⟩ <;> rw [he] at h
  · cases h; exact hs
  · cases h; exact (inv_iff _).mpr ⟨hmem, hbw, hbr, errorStop_recordOk (hs.running hb).1⟩
  · exact exec_inv (s := noteCommand s) ((inv_iff _).mpr ⟨hmem, hbw, hbr, hrec⟩) hb h

/-- The write ranges that a reset during a run leaves unspecified lie inside the address space. -/
theorem latchedWrites_noWrap {s : State} {sp : Span} (h : sp ∈ latchedWrites s) : sp.wraps = false := by
  unfold latchedWrites at h
  cases hf : fetchCommand s with
  | error e => simp [commandRanges_of_error hf] at h
  | ok i =>
    rw [commandRanges_of_fetch hf] at h
    split at h
    · rename_i hc
      obtain ⟨r, hr, rfl⟩ := List.mem_map.mp h
      exact (check_none_iff.mp hc).2.1 r (List.mem_filter.mp hr).1
    · cases h

theorem resetRegisters_inv {s : State} (h : MemInOrder s) : Inv (resetRegisters s) :=
  (inv_iff _).mpr ⟨⟨h, rfl⟩, ⟨Nat.le_refl _, Nat.one_pos, rfl, rfl⟩, ⟨Nat.two_pow_pos _, Nat.le_refl _, rfl, rfl⟩,
    by simp [RecordOk, State.reset]⟩

theorem resetEngine_inv {s : State} (hs : Inv s) : Inv (resetEngine s) := by
  obtain ⟨hmem, -⟩ := (inv_iff s).mp hs
  refine resetRegisters_inv ?_
  split
  · exact (havocSpans_inOrder hmem fun _ => latchedWrites_noWrap).1
  · exact hmem.1

theorem startRun_inv {s : State} (hs : Inv s) : Inv (startRun s) := by
  obtain ⟨hmem, hbw, hbr, -⟩ := (inv_iff s).mp hs
  exact (inv_iff _).mpr ⟨hmem, hbw, hbr, by simp [RecordOk]⟩

theorem writeCtrl_inv {s : State} (v : Word) (hs : Inv s) : Inv (writeCtrl v s) := by
  have hie : Inv { s with ie := v.getLsbD 1 } := (inv_iff _).mpr ((inv_iff s).mp hs)
  unfold writeCtrl
  split
  · exact resetEngine_inv hs
  · dsimp only
    split
    · exact startRun_inv hie
    · exact hie

/-- Clearing DONE and ERR leaves the error registers as they are, which the invariant allows (10_state.md R25, R29). -/
theorem writeStatus_inv {s : State} (v : Word) (hs : Inv s) : Inv (writeStatus v s) := by
  obtain ⟨hmem, hbw, hbr, hone, hrun, hcode, herr, hrec⟩ := (inv_iff s).mp hs
  refine (inv_iff _).mpr ⟨hmem, hbw, hbr, ?_, fun hb => ?_, hcode, fun he => ?_, fun h => ?_⟩
  · cases hd : s.done <;> simp_all
  · simp [hrun hb]
  · exact herr (Bool.and_eq_true_iff.mp he).1
  · exact hrec (h.imp_right fun hd => (Bool.and_eq_true_iff.mp hd).1)

theorem writeRegister_inv {s : State} (offset : Nat) (v : Word) (hs : Inv s) : Inv (writeRegister offset v s) := by
  unfold writeRegister
  split
  · exact writeCtrl_inv v hs
  · exact writeStatus_inv v hs
  · split
    · exact hs
    · exact (inv_iff _).mpr ((inv_iff s).mp hs)
  · exact hs

theorem readRegister_inv {s : State} (offset : Nat) (hs : Inv s) : Inv (readRegister offset s) := by
  unfold readRegister
  split <;> exact (inv_iff _).mpr ((inv_iff s).mp hs)

theorem hostStep_inv {a : HostAction} {s t : State} (hs : Inv s) (h : hostStep a s = .next t) : Inv t := by
  obtain ⟨hmem, hbw, hbr, hrec⟩ := (inv_iff s).mp hs
  cases a with simp only [hostStep] at h
  | readReg offset width =>
    split at h <;> cases h
    exact readRegister_inv _ hs
  | writeReg offset width v =>
    split at h <;> cases h
    exact writeRegister_inv _ v hs
  | readMem addr len =>
    rcases hostAccess_cases _ _ _ s with ⟨-, -, -, he⟩ | ⟨-, he⟩ | ⟨-, he⟩ | ⟨-, he⟩ <;> rw [he] at h <;> cases h
    exact (inv_iff _).mpr ⟨hmem, hbw, hbr, hrec⟩
  | writeMem addr bytes =>
    rcases hostAccess_cases _ _ _ s with ⟨hwrap, -, -, he⟩ | ⟨-, he⟩ | ⟨-, he⟩ | ⟨-, he⟩ <;> rw [he] at h <;> cases h
    exact (inv_iff _).mpr ⟨hmem.store hwrap le_rfl, hbw, hbr, hrec⟩
  | resetPin => cases h; exact resetEngine_inv hs
  | yield => exact engineStep_inv hs h

/-- Settles O13: the engine's step keeps the parts of the invariant end by end, the host's step action by action. -/
theorem stepKeepsInv : Obligations.StepKeepsInv := by
  intro s t hs h
  unfold step at h
  split at h
  · exact engineStep_inv hs h
  · rename_i a rest _
    have hrest : Inv { s with inputs := rest } := (inv_iff _).mpr ((inv_iff s).mp hs)
    exact hostStep_inv hrest h

end Sys2Proof.Machine

/-! SUPPORT. The register window: what each write and read does, reset, and the bits of STATUS and CTRL. -/

namespace Sys2Proof.Machine

/-! ### Host writes of registers (10_state.md R23 to R27, R38) -/

/-- An aligned register write at the host's turn. -/
theorem step_writeReg {s : State} {o : BitVec 12} {v : Word} {more : List HostAction}
    (h : s.inputs = .writeReg o 4 v :: more) (ha : o.toNat % 4 = 0) :
    step s = .next (writeRegister o.toNat v { s with inputs := more }) := by
  simp [step, h, hostStep, alignedWord, ha]

/-- An aligned register read at the host's turn. -/
theorem step_readReg {s : State} {o : BitVec 12} {more : List HostAction} (h : s.inputs = .readReg o 4 :: more)
    (ha : o.toNat % 4 = 0) : step s = .next (readRegister o.toNat { s with inputs := more }) := by
  simp [step, h, hostStep, alignedWord, ha]

/-- A CTRL write without SRST sets IE and, with START while idle, begins a run. -/
theorem writeCtrl_of_noReset {v : Word} (h : v.getLsbD 31 = false) (s : State) :
    writeCtrl v s = if v.getLsbD 0 && !s.busy then startRun { s with ie := v.getLsbD 1 }
      else { s with ie := v.getLsbD 1 } :=
  if_neg (Bool.eq_false_iff.mp h)

theorem writeCtrl_of_reset {v : Word} (h : v.getLsbD 31 = true) (s : State) : writeCtrl v s = resetEngine s :=
  if_pos h

/-- A write of another register than CTRL, STATUS and DLIST does nothing. -/
theorem writeRegister_other {o : BitVec 12} (h8 : o ≠ 0x008) (hC : o ≠ 0x00C) (h10 : o ≠ 0x010) (v : Word) (s : State) :
    writeRegister o.toNat v s = s := by
  have toNat_ne {k : BitVec 12} (h : o ≠ k) : o.toNat ≠ k.toNat := fun he => h (BitVec.eq_of_toNat_eq he)
  unfold writeRegister
  split
  · exact absurd ‹_› (toNat_ne h8)
  · exact absurd ‹_› (toNat_ne hC)
  · exact absurd ‹_› (toNat_ne h10)
  · rfl

/-- Settles O14: START begins the run that `startRun` describes, and any other write without SRST sets IE. -/
theorem startBeginsRun : Obligations.StartBeginsRun := by
  intro s v more h hreset
  have hstep : step s = .next (writeCtrl v { s with inputs := more }) := step_writeReg h (by decide)
  rw [hstep, writeCtrl_of_noReset hreset]
  refine ⟨fun hstart hidle => ?_, fun hstart hbusy => ?_, fun hstart => ?_⟩
  · simp only [hstart, hidle, Bool.not_false, Bool.and_self, if_true]
    rfl
  · simp only [hbusy, Bool.not_true, Bool.and_false, Bool.false_eq_true, if_false]
  · simp only [hstart, Bool.false_and, Bool.false_eq_true, if_false]

/-- Settles O18: a write reaches only CTRL, STATUS and, while idle, DLIST. -/
theorem writesIgnoredWhileBusy : Obligations.WritesIgnoredWhileBusy := by
  intro s o v more h ha h8 hC
  rw [step_writeReg h ha]
  refine ⟨fun hcase => ?_, fun hidle h10 => ?_⟩
  · by_cases h10 : o = 0x010
    · have hbusy : s.busy = true := hcase.resolve_right (not_not_intro h10)
      simp [h10, writeRegister, hbusy]
    · rw [writeRegister_other h8 hC h10]
  · simp [h10, writeRegister, hidle]

/-! ### Reset (10_state.md R20, R26) -/

/-- The registers in reset read as their reset values. -/
theorem registerValue_reset (o : Nat) : registerValue State.reset o =
    if o = 0 then 0x42575445#32 else if o = 4 then 0x00010000#32 else 0#32 := by
  unfold registerValue
  split <;> simp_all [State.reset, ctrlWord, statusWord, irqLevel, Config.idValue, Config.versionValue]

theorem registerValue_resetRegisters (s : State) (o : Nat) :
    registerValue (resetRegisters s) o = registerValue State.reset o := rfl

/-- The reset input and a CTRL write with SRST set do the same. -/
theorem step_reset {s : State} {v : Word} {more : List HostAction}
    (h : s.inputs = .resetPin :: more ∨ (s.inputs = .writeReg 0x008 4 v :: more ∧ v.getLsbD 31 = true)) :
    step s = .next (resetEngine { s with inputs := more }) := by
  rcases h with h | ⟨h, hreset⟩
  · simp [step, h, hostStep]
  · have hstep : step s = .next (writeCtrl v { s with inputs := more }) := step_writeReg h (by decide)
    rw [hstep, writeCtrl_of_reset hreset]

theorem resetEngine_of_idle {s : State} (h : s.busy = false) : resetEngine s = resetRegisters s := by
  simp [resetEngine, h]

theorem resetEngine_platform (s : State) : (resetEngine s).platform = s.platform := by
  unfold resetEngine
  split <;> simp

theorem resetEngine_inputs (s : State) : (resetEngine s).inputs = s.inputs := by
  unfold resetEngine
  split <;> simp

/-- Settles O15: reset ends in `resetRegisters`, whatever a run in progress leaves unspecified before it. -/
theorem resetReadsItsTable : Obligations.ResetReadsItsTable := by
  refine ⟨registerValue_reset, fun s v more h => ?_⟩
  rw [step_reset h]
  refine ⟨⟨_, rfl, fun o => ?_, rfl, rfl, resetEngine_platform _, resetEngine_inputs _⟩, fun hidle => ?_⟩
  · exact (registerValue_resetRegisters _ o).trans (registerValue_reset o)
  · exact congrArg Host.Outcome.next (resetEngine_of_idle (s := { s with inputs := more }) hidle)

/-! ### STATUS and CTRL bit by bit (10_state.md R23, R25) -/

/-- The bits of a word given by its low four. -/
theorem getLsbD_fourBits (b0 b1 b2 b3 : Bool) (j : Nat) :
    (BitVec.ofNat 32 (b0.toNat + 2 * b1.toNat + 4 * b2.toNat + 8 * b3.toNat)).getLsbD j =
      [b0, b1, b2, b3].getD j false := by
  match j with
  | 0 | 1 | 2 | 3 => revert b0 b1 b2 b3; decide
  | j + 4 =>
    have hlt : b0.toNat + 2 * b1.toNat + 4 * b2.toNat + 8 * b3.toNat < 2 ^ (j + 4) := by
      have := Bool.toNat_le b0
      have := Bool.toNat_le b1
      have := Bool.toNat_le b2
      have := Bool.toNat_le b3
      have := Nat.one_le_two_pow (n := j)
      rw [Nat.pow_add]
      omega
    simp [BitVec.getLsbD_ofNat, Nat.testBit_lt_two_pow hlt]

theorem statusWord_bit (s : State) (j : Nat) :
    (registerValue s 0x00C).getLsbD j = [s.busy, s.done, s.err, irqLevel s].getD j false :=
  getLsbD_fourBits _ _ _ _ j

theorem ctrlWord_bit (s : State) (j : Nat) :
    (registerValue s 0x008).getLsbD j = [false, s.ie, false, false].getD j false := by
  rw [← getLsbD_fourBits false s.ie false false j]
  simp [registerValue, ctrlWord]

/-- Settles O17: both words are sums of four bits, and a STATUS write is `writeStatus`. -/
theorem statusBits : Obligations.StatusBits := by
  refine ⟨fun s => ?_, fun s v more h => step_writeReg h (by decide)⟩
  simp only [statusWord_bit, ctrlWord_bit]
  refine ⟨rfl, rfl, rfl, rfl, rfl, fun j hj => ?_, rfl, fun j hj => ?_⟩
  · exact List.getD_eq_default _ _ (by simpa using hj)
  · match j with
    | 0 | 2 | 3 | _ + 4 => rfl

/-! ### Register reads (10_state.md R20, R37) -/

/-- An offset that the register map does not list reads 0. -/
theorem registerValue_reserved {s : State} {o : BitVec 12} (h : ∀ w, (o, w) ∉ registerTable s) :
    registerValue s o.toNat = 0 := by
  have hne : ∀ p ∈ registerTable s, o.toNat ≠ p.1.toNat := fun p hp he => h p.2 (BitVec.eq_of_toNat_eq he ▸ hp)
  simp only [registerTable, List.forall_mem_append, List.forall_mem_cons] at hne
  unfold registerValue
  split <;> simp_all

theorem unspecifiedWhileBusy_iff (o : BitVec 12) : unspecifiedWhileBusy o.toNat = true ↔ o ∈ hiddenWhileBusy := by
  simp [unspecifiedWhileBusy, hiddenWhileBusy, ← BitVec.toNat_inj]

/-- A read that the rules fix returns the register's value. -/
theorem readRegister_fixed {s : State} {o : BitVec 12} (h : s.busy = false ∨ o ∉ hiddenWhileBusy) :
    readRegister o.toNat s = { s with hostReg := registerValue s o.toNat } := by
  rw [← unspecifiedWhileBusy_iff] at h
  refine if_neg fun hc => ?_
  obtain ⟨hbusy, hhidden⟩ := Bool.and_eq_true_iff.mp hc
  exact h.elim (fun hidle => Bool.false_ne_true (hidle.symm.trans hbusy)) (· hhidden)

/-- Any read gives some value and changes no register. -/
theorem readRegister_value (offset : Nat) (s : State) :
    ∃ v f, readRegister offset s = { s with hostReg := v, fresh := f } := by
  unfold readRegister
  split
  · exact ⟨_, _, rfl⟩
  · exact ⟨_, s.fresh, rfl⟩

/-- Settles O19: a fixed read goes by the table, 0 where it lists nothing, and the error registers are 0 in a run. -/
theorem registerReads : Obligations.RegisterReads := by
  intro s o more h ha
  rw [step_readReg h ha]
  refine ⟨fun v hv hfixed => ?_, fun hbusy hs ho => ?_, fun hbusy => ?_⟩
  · have hvalue : registerValue s o.toNat = v := by
      rcases hv with hlisted | ⟨hreserved, rfl⟩
      · exact registerValue_of_table hlisted
      · exact registerValue_reserved hreserved
    rw [readRegister_fixed (s := { s with inputs := more }) hfixed, ← hvalue]
    rfl
  · obtain ⟨hcode, hinfo, hpos⟩ := hs.noRecord (.inl hbusy)
    have hshown : ∀ o ∈ [0x018#12, 0x01C#12, 0x020#12], o ∉ hiddenWhileBusy := by decide
    have hvalue : registerValue s o.toNat = 0 := by
      simp only [List.mem_cons, List.not_mem_nil, or_false] at ho
      rcases ho with rfl | rfl | rfl <;> simp [registerValue, hcode, hinfo, hpos]
    rw [readRegister_fixed (s := { s with inputs := more }) (.inr (hshown o ho)), ← hvalue]
    rfl
  · obtain ⟨v, f, he⟩ := readRegister_value o.toNat { s with inputs := more }
    exact ⟨v, f, by rw [he]⟩

end Sys2Proof.Machine

/-! SUPPORT. Operands in order pass the checks, what completion leaves, and BR_BITS. -/

namespace Sys2Proof.Machine

/-! ### Operands in order pass the checks (60_exceptions.md R320) -/

theorem apartAll_iff (sps : List Span) : apartAll sps = true ↔ sps.Pairwise fun x y => x.disjoint y = true := by
  induction sps with
  | nil => simp [apartAll]
  | cons x xs ih => simp [apartAll, ih]

theorem pairwiseCompatible_iff (rs : List OperandRange) :
    pairwiseCompatible rs = true ↔ rs.Pairwise fun x y => x.compatible y = true := by
  induction rs with
  | nil => simp [pairwiseCompatible]
  | cons x xs ih => simp [pairwiseCompatible, ih]

theorem mem_spansOf {p : Plan} {access : Access} {sp : Span} :
    sp ∈ p.spansOf access ↔ ∃ r ∈ p.ranges, r.access = access ∧ r.span = sp := by
  simp [Plan.spansOf, and_assoc]

/-- Ranges may stand together when the write ranges share no byte with one another nor with a read range. -/
theorem pairwiseCompatible_of_apart {rs : List OperandRange}
    (hw : (rs.filter fun r => r.access == .write).Pairwise fun x y => x.span.disjoint y.span = true)
    (hr : ∀ x ∈ rs, x.access = .read → ∀ y ∈ rs, y.access = .write → x.span.disjoint y.span = true) :
    pairwiseCompatible rs = true := by
  rw [pairwiseCompatible_iff]
  rw [List.pairwise_filter] at hw
  refine hw.imp_of_mem fun {x y} hx hy hxy => ?_
  have hread : x.access = .read → y.access = .write → x.span.disjoint y.span = true := fun hxa => hr x hx hxa y hy
  have hread' : y.access = .read → x.access = .write → x.span.disjoint y.span = true := fun hya hxa =>
    (span_disjoint_comm _ _).trans (hr y hy hya x hx hxa)
  cases hxa : x.access <;> cases hya : y.access <;> simp_all [OperandRange.compatible]

/-- A command with legal values passes its checks when its ranges are in order: the spans listed are its read and its
write ranges, those a descriptor word names among `reads`, `writes` and the WR area, and an INIT buffer is in order. -/
theorem check_of_operandsInOrder {i : Instr} {s : State} {reads writes cursorReads cursorWrites : List Span}
    {wr : Option Word} (hlegal : LegalValues i)
    (h : operandsInOrder s reads writes cursorReads cursorWrites wr = true)
    (hreads : readSpans i s = reads ++ cursorReads) (hwrites : writeSpans i s = writes ++ cursorWrites ++ wrSpans wr)
    (hnamed : ∀ r ∈ operandTable i s, r.access ≠ .probe → r.word ≠ 0 → r.span ∈ reads ++ writes ++ wrSpans wr)
    (hprobe : ∀ r ∈ operandTable i s, r.access = .probe → r.span.wraps = false ∧ s.platform.admitsSpan r.span = true) :
    (instrPlan i s).check s.platform = none := by
  simp only [operandsInOrder, Bool.and_eq_true, List.all_eq_true, Bool.not_eq_true', apartAll_iff] at h
  obtain ⟨⟨⟨hwrap, hadmit⟩, hapart⟩, hcross⟩ := h
  rw [← instrPlan_ranges] at hnamed hprobe
  have hread : ∀ r ∈ (instrPlan i s).ranges, r.access = .read → r.span ∈ reads ++ cursorReads := fun r hr ha =>
    hreads ▸ mem_spansOf.mpr ⟨r, hr, ha, rfl⟩
  have hwrite : ∀ r ∈ (instrPlan i s).ranges, r.access = .write → r.span ∈ writes ++ cursorWrites ++ wrSpans wr :=
    fun r hr ha => hwrites ▸ mem_spansOf.mpr ⟨r, hr, ha, rfl⟩
  refine check_none_iff.mpr ⟨(instrPlan_values_iff i s).mpr hlegal, fun r hr => ?_, ?_, fun r hr hword => ?_⟩
  · cases ha : r.access with
    | probe => exact (hprobe r hr ha).1
    | read => exact hwrap _ (by have := hread r hr ha; simp only [List.mem_append] at this ⊢; tauto)
    | write => exact hwrap _ (by have := hwrite r hr ha; simp only [List.mem_append] at this ⊢; tauto)
  · refine pairwiseCompatible_of_apart ?_ fun x hx hxa y hy hya => hcross _ (hread x hx hxa) _ (hwrite y hy hya)
    rw [← hwrites] at hapart
    exact List.pairwise_map.mp hapart
  · by_cases ha : r.access = .probe
    · exact (hprobe r hr ha).2
    · exact hadmit _ (hnamed r hr ha hword)

/-! ### Completion -/

theorem finish_completedNext (wr : Option Word) {s u : State} {r : Results} {w : WriterRegs} {b : ReaderRegs}
    {m : Memory} (h : u = { s with results := r, bw := w, br := b, mem := m }) : CompletedNext s (finish wr u) := by
  subst h
  refine ⟨⟨?_, ?_, ?_, ?_, ?_, ?_, ?_, ?_, ?_, ?_, ?_, ?_, ?_, ?_⟩, ?_, ?_⟩ <;> simp

/-- A command that stores nothing writes its WR area and nothing else. -/
theorem finish_stored_nothing (wr : Option Word) {s u : State} (h : u.mem = s.mem) : Stored s (finish wr u) [] wr := by
  refine ⟨by simp, ?_, fun a _ hwr => ?_⟩
  · rintro w rfl
    rw [finish_some_mem, finish_results, ← results_bytes_length u.results]
    exact readBytes_writeBytes_same ..
  · rw [finish_mem, complete_read_outside, h]
    intro w hw
    rw [Bool.eq_false_iff, Ne, Span.contains, Bool.and_eq_true, decide_eq_true_iff, decide_eq_true_iff]
    exact hwr w hw

/-! ### The bits BR_BITS returns (41_bitstream.md R151, R156) -/

theorem bitsMSB_getElem? {v n j : Nat} (h : j < n) : (bitsMSB v n)[j]? = some (v.testBit (n - 1 - j)) := by
  induction n generalizing j with
  | zero => cases h
  | succ n ih =>
    cases j with
    | zero => rfl
    | succ j => rw [bitsMSB, List.getElem?_cons_succ, ih (by omega), show n + 1 - 1 - (j + 1) = n - 1 - j by omega]

/-- The first bit of a string is the most significant one of its value. -/
theorem bitsValue_testBit {bs : List Bool} {j : Nat} (h : j < bs.length) :
    some ((bitsValue 0 bs).testBit (bs.length - 1 - j)) = bs[j]? := by
  rw [← bitsMSB_getElem? h, bitsMSB_bitsValue]

/-- The bits BR_BITS reads: `n` of the buffer from BR_POS on. -/
def brBitsRead (s : State) (n : Nat) : List Bool :=
  (List.range n).map fun i => bufferBit s.mem s.br.base.toNat (s.br.pos.toNat + i)

theorem brBitsRead_length (s : State) (n : Nat) : (brBitsRead s n).length = n := by simp [brBitsRead]

theorem brBitsRead_value_lt (s : State) (n : Nat) : bitsValue 0 (brBitsRead s n) < 2 ^ n := by
  simpa [brBitsRead_length] using bitsValue_lt 0 (brBitsRead s n)

/-- Bit `n - 1 - j` of RESULT0 is the `j`-th bit read. -/
theorem brBitsRead_value_bit (s : State) {n j : Nat} (hn : n ≤ 32) (hj : j < n) :
    (BitVec.ofNat 32 (bitsValue 0 (brBitsRead s n))).getLsbD (n - 1 - j) =
      bufferBit s.mem s.br.base.toNat (s.br.pos.toNat + j) := by
  have hbit := bitsValue_testBit (bs := brBitsRead s n) (j := j) (by rwa [brBitsRead_length])
  rw [brBitsRead_length] at hbit
  rw [BitVec.getLsbD_ofNat, decide_eq_true (by omega : n - 1 - j < 32), Bool.true_and]
  simpa [brBitsRead, hj] using hbit

/-- What BR_BITS does with its ranges in order. -/
theorem exec_brBits_of_inOrder {s : State} {n : Nat} {wr : Option Word} (hn : n ≤ 32)
    (h : operandsInOrder s [] [] [s.br.remainder] [] wr = true) :
    exec (.brBits n wr) s = .next (if s.br.pos.toNat + n ≤ 8 * s.br.len.toNat then
      finish wr (setResults (bitsValue 0 (brBitsRead s n)) (s.br.pos.toNat + n) 0 0 (putReaderPos (s.br.pos.toNat + n) s))
      else errorStop (truncatedInput s.br.pos.toNat) s) := by
  have hc : (instrPlan (.brBits n wr) s).check s.platform = none := by
    refine check_of_operandsInOrder hn h ?_ ?_ ?_ ?_
    · cases wr <;> rfl
    · cases wr <;> rfl
    · cases wr <;> simp [operandTable, resultOperand, wrSpans, resultSpan]
    · simp [operandTable, resultOperand]
  simp only [exec]
  exact guarded_of_none hc

/-- Settles O30: the value of the bits read has them as its binary digits. -/
theorem brBitsReads : Obligations.BrBitsReads := by
  intro s n wr hn h
  have hpos : BitVec.ofNat 32 (s.br.pos.toNat + n) = s.br.pos + BitVec.ofNat 32 n := by simp [BitVec.ofNat_add]
  rw [exec_brBits_of_inOrder hn h]
  refine ⟨fun hfit => ?_, fun hshort => ?_⟩
  · rw [if_pos hfit]
    refine ⟨_, rfl, finish_completedNext wr rfl, finish_stored_nothing wr rfl, ?_, ?_, ?_, fun j hj => ?_, ?_⟩
    · simp
    · simp [putReaderPos, hpos]
    · simp [hpos]
    · rw [finish_results]
      exact brBitsRead_value_bit s hn hj
    · rw [finish_results]
      exact (BitVec.toNat_ofNat ..).trans_le (Nat.mod_le _ _) |>.trans_lt (brBitsRead_value_lt s n)
  · rw [if_neg (by omega)]
    simp [errorStop, stopRecord, ErrorCode.number]

end Sys2Proof.Machine

/-! SUPPORT. Host memory: admission byte by byte, what a command leaves unchanged, and the host's duty during a run. -/

namespace Sys2Proof.Machine

/-! ### Admission byte by byte (20_memory.md R61, R64) -/

/-- An interval of addresses is covered exactly when every address of it lies in some region. -/
theorem coveredBy_iff (rs : List Region) (lo hi : Nat) :
    coveredBy rs lo hi = true ↔ ∀ a, lo ≤ a → a < hi → ∃ r ∈ rs, r.base ≤ a ∧ a < r.base + r.size := by
  induction rs generalizing lo hi with
  | nil =>
    simp only [coveredBy, decide_eq_true_eq, List.not_mem_nil, false_and, exists_false]
    exact ⟨fun h a hlo hhi => by omega, fun h => Nat.not_lt.mp fun hlt => h lo le_rfl hlt⟩
  | cons r rs ih =>
    simp only [coveredBy, Bool.or_eq_true, Bool.and_eq_true, decide_eq_true_eq, ih, List.exists_mem_cons_iff]
    constructor
    · rintro (hempty | ⟨hbelow, habove⟩) a hlo hhi
      · omega
      · rcases Nat.lt_or_ge a r.base with hlt | hge
        · exact .inr (hbelow a hlo (by omega))
        · rcases Nat.lt_or_ge a (r.base + r.size) with hin | hout
          · exact .inl ⟨hge, hin⟩
          · exact .inr (habove a (by omega) hhi)
    · refine fun h => .inr ⟨fun a hlo hhi => ?_, fun a hlo hhi => ?_⟩
      · exact (h a hlo (by omega)).resolve_left (by omega)
      · exact (h a (by omega) hhi).resolve_left (by omega)

/-- `MemAdmits`: in some region and outside the register window. -/
theorem admits_iff (p : Platform) (a : Nat) :
    p.admits a = true ↔ (∃ r ∈ p.regions, r.base ≤ a ∧ a < r.base + r.size) ∧ p.window.contains a = false := by
  simp [Platform.admits]

theorem contains_iff (sp : Span) (a : Nat) : sp.contains a = true ↔ sp.addr ≤ a ∧ a < sp.addr + sp.len := by
  simp [Span.contains]

theorem contains_eq_false_iff (sp : Span) (a : Nat) : sp.contains a = false ↔ a < sp.addr ∨ sp.addr + sp.len ≤ a := by
  rw [Bool.eq_false_iff, Ne, contains_iff]
  omega

/-- A span lies outside the register window exactly when each of its addresses does. -/
theorem disjoint_window_iff (p : Platform) (sp : Span) :
    sp.disjoint p.window = true ↔ ∀ a, sp.addr ≤ a → a < sp.addr + sp.len → p.window.contains a = false := by
  rw [span_disjoint_iff]
  simp only [not_and, Bool.not_eq_true, contains_iff sp, and_imp]

/-- Settles O21: a range lies in the regions, and keeps off the register window, address by address. -/
theorem admissionIsPerByte : Obligations.AdmissionIsPerByte := by
  intro p sp
  simp only [Platform.admitsSpan, Bool.or_eq_true, Bool.and_eq_true, beq_iff_eq, coveredBy_iff, disjoint_window_iff,
    admits_iff]
  constructor
  · rintro (hempty | ⟨hcover, hwindow⟩) a hlo hhi
    · omega
    · exact ⟨hcover a hlo hhi, hwindow a hlo hhi⟩
  · exact fun h => .inr ⟨fun a hlo hhi => (h a hlo hhi).1, fun a hlo hhi => (h a hlo hhi).2⟩

/-! ### What a command leaves unchanged (20_memory.md R69) -/

/-- A command's write ranges are the write rows of its table. -/
theorem mem_writeSpans_iff {i : Instr} {s : State} {sp : Span} :
    sp ∈ writeSpans i s ↔ ∃ r ∈ operandTable i s, r.access = .write ∧ r.span = sp := by
  rw [writeSpans, mem_spansOf, instrPlan_ranges]

section Frame
variable {i : Instr} {s : State} {a : Nat} (ha : ∀ sp ∈ writeSpans i s, sp.contains a = false)
include ha

theorem ownWrite_outside {sp : Span} (h : OwnWrite i s sp) : sp.contains a = false := by
  obtain ⟨word, -, hr⟩ := h
  exact ha sp (mem_writeSpans_iff.mpr ⟨_, hr, rfl, rfl⟩)

theorem inOwnWrite_outside {sp : Span} (h : InOwnWrite i s sp) : sp.contains a = false := by
  obtain ⟨w, hw, hlo, hhi⟩ := h
  have hout := (contains_eq_false_iff w a).mp (ownWrite_outside ha hw)
  simp only [Span.limit] at hhi
  rw [contains_eq_false_iff]
  omega

theorem resultSpan_outside {w : Word} (h : resultOperand i = some w) : (resultSpan w).contains a = false :=
  ha _ (mem_writeSpans_iff.mpr ⟨⟨.write, resultSpan w, 7⟩, by simp [operandTable, h, resultSpan], rfl, rfl⟩)

/-- A command's work stores only in its own write ranges. -/
theorem Work.read_outside {u : State} (h : Work i s u) : u.mem.read a = s.mem.read a := by
  induction h with
  | start | initWriter _ | initReader _ => rfl
  | results _ _ ih | seek _ _ _ _ ih => exact ih
  | store _ hown hfit ih =>
    have hout := (contains_eq_false_iff _ a).mp (ownWrite_outside ha hown)
    rw [storeBytes_mem, read_writeBytes_outside (by omega), ih]
  | append _ hown hwrite =>
    have hout := (contains_eq_false_iff _ a).mp (ownWrite_outside ha hown)
    obtain ⟨hstored, hcount⟩ := sink_bounds hwrite
    simp only [WriterRegs.freeSpan] at hout
    rw [putSink_mem, read_writeBytes_outside]
    rw [List.length_reverse]
    omega

/-- A command's end, too, changes memory only in the command's write ranges. -/
theorem CommandEnd.read_outside {t : State} (h : CommandEnd i s t) : t.mem.read a = s.mem.read a := by
  cases h with
  | finished hw => rw [finish_mem, complete_read_outside fun _ => resultSpan_outside ha, hw.read_outside ha]
  | jumped hi => exact complete_read_outside fun _ hwr => resultSpan_outside ha (by rw [hi]; exact hwr)
  | ended hi => exact complete_read_outside fun _ hwr => resultSpan_outside ha (by rw [hi]; exact hwr)
  | failed hw _ hspans =>
    exact (havocSpans_read_outside fun sp hsp => inOwnWrite_outside ha (hspans sp hsp)).trans (hw.read_outside ha)
  | failedAppend _ hown | failedRead _ hown => exact havocSpan_read_outside (ownWrite_outside ha hown)

end Frame

/-- Settles O22: a failing check writes nothing, and every end of a command keeps the bytes outside its write ranges. -/
theorem commandsWriteOnlyTheirRanges : Obligations.CommandsWriteOnlyTheirRanges := by
  intro i s t a h ha
  rcases exec_cases h with ⟨e, -, rfl⟩ | ⟨-, hend⟩
  · rfl
  · exact hend.read_outside fun sp hsp => by simpa only [← contains_iff, Bool.not_eq_true] using ha sp hsp

/-! ### The register window (20_memory.md R61, R71) -/

/-- The only write range that no descriptor word names is the bit writer's free part. -/
theorem unnamed_write_span (i : Instr) (s : State) :
    ∀ r ∈ operandTable i s, r.access = .write → r.word = 0 → r.span = s.bw.freeSpan := by
  cases i <;> simp [operandTable, WriterRegs.freeSpan, or_imp, forall_and]

/-- The free part of an admitted writer's buffer is admitted. -/
theorem freeSpan_admitted {s : State} (hs : Inv s) : s.platform.admitsSpan s.bw.freeSpan = true := by
  refine (admissionIsPerByte _ _).mpr fun a hlo hhi => (admissionIsPerByte _ _).mp hs.writerAdmitted a ?_ ?_ <;>
    simp only [WriterRegs.freeSpan] at hlo hhi ⊢ <;> omega

/-- Every write range of a command whose checks hold is admitted: the named ones by the check, the free part by the
invariant. -/
theorem writeSpans_admitted {i : Instr} {s : State} (hs : Inv s) (hc : (instrPlan i s).check s.platform = none)
    {sp : Span} (h : sp ∈ writeSpans i s) : s.platform.admitsSpan sp = true := by
  obtain ⟨r, hr, hw, rfl⟩ := mem_writeSpans_iff.mp h
  by_cases hword : r.word = 0
  · rw [unnamed_write_span i s r hr hw hword]
    exact freeSpan_admitted hs
  · exact (operandTable_checked hc hr).2 hword

/-- Settles O23: the write ranges are admitted, so none holds an address of the window. -/
theorem registerWindowUntouched : Obligations.RegisterWindowUntouched := by
  intro i s t a hs h hlo hhi
  rcases exec_cases h with ⟨e, -, rfl⟩ | ⟨hc, hend⟩
  · rfl
  · refine hend.read_outside fun sp hsp => Bool.eq_false_iff.mpr fun hin => ?_
    obtain ⟨hlo', hhi'⟩ := (contains_iff sp a).mp hin
    have hadmit := (admissionIsPerByte _ _).mp (writeSpans_admitted hs hc hsp) a hlo' hhi'
    have hwindow : s.platform.window.contains a = true := (contains_iff _ a).mpr ⟨hlo, hhi⟩
    rw [((admits_iff _ a).mp hadmit).2] at hwindow
    cases hwindow

/-! ### The host's duty during a run (20_memory.md R77, 70_reset_and_hazards.md R350) -/

/-- The byte is one of the run's: it lies in a range of the log, or a command that the engine comes to has it. -/
def ByteOfRun (log : List Span) (hasByte : State → Nat → Prop) (s : State) (a : Nat) : Prop :=
  touches log a ∨ ∃ n s', commandsAfter n s = some s' ∧ s'.busy = true ∧ hasByte s' a

theorem not_byteOfRun_iff {log : List Span} {hasByte : State → Nat → Prop} {s : State} {a : Nat} :
    ¬ ByteOfRun log hasByte s a ↔
      ¬ touches log a ∧ ∀ n s', commandsAfter n s = some s' → s'.busy = true → ¬ hasByte s' a := by
  simp only [ByteOfRun, not_or, not_exists, not_and]

/-- While BUSY, with memory in order, the bytes guarded are the run's: the look-ahead is exact. -/
theorem touches_guardedBytes_iff {s : State} (hb : s.busy = true) (hm : MemInOrder s) (a : Nat) :
    (touches (guardedBytes s).uses a ↔ ByteOfRun s.runLog.used UsesByte s a) ∧
    (touches (guardedBytes s).writes a ↔ ByteOfRun s.runLog.written WritesByte s a) := by
  obtain ⟨huses, hwrites⟩ := aheadFootprint_iff hb hm a
  simp only [guardedBytes, hb, if_true, touches_append, huses, hwrites, ByteOfRun, and_self]

/-- Only bytes of a run in progress are guarded, whatever the state. -/
theorem touches_guardedBytes_sound (s : State) (a : Nat) :
    (touches (guardedBytes s).uses a → s.busy = true ∧ ByteOfRun s.runLog.used UsesByte s a) ∧
    (touches (guardedBytes s).writes a → s.busy = true ∧ ByteOfRun s.runLog.written WritesByte s a) := by
  cases hb : s.busy with
  | false => simp [guardedBytes, hb]
  | true =>
    obtain ⟨huses, hwrites⟩ := aheadFootprint_sound hb a
    simp only [guardedBytes, hb, if_true, touches_append, true_and]
    exact ⟨Or.imp_right huses, Or.imp_right hwrites⟩

/-- A host access that touches a guarded byte has no step. -/
theorem hostAccess_of_touches {sp : Span} {sps : List Span} {s' s : State} {a : Nat} (hlo : sp.addr ≤ a)
    (hhi : a < sp.addr + sp.len) (h : touches sps a) (t : State) :
    hostAccess sp (sps.all sp.disjoint) s' s ≠ .next t := by
  rcases hostAccess_cases sp (sps.all sp.disjoint) s' s with ⟨-, -, hkeeps, -⟩ | ⟨-, he⟩ | ⟨-, he⟩ | ⟨-, he⟩
  · exact absurd h ((all_disjoint_iff _ _).mp hkeeps a hlo hhi)
  all_goals rw [he]; exact nofun

/-- A host access inside the address space that touches neither the register window nor a guarded byte is done. -/
theorem hostAccess_of_free {sp : Span} {sps : List Span} {s' s : State} (hspace : sp.addr + sp.len ≤ 4294967296)
    (hfree : ∀ a, sp.addr ≤ a → a < sp.addr + sp.len → s.platform.window.contains a = false ∧ ¬ touches sps a) :
    hostAccess sp (sps.all sp.disjoint) s' s = .next s' := by
  have hwraps : sp.wraps = false := decide_eq_false (Nat.not_lt.mpr hspace)
  have hwindow := (disjoint_window_iff s.platform sp).mpr fun a hlo hhi => (hfree a hlo hhi).1
  have hkeeps := (all_disjoint_iff sps sp).mpr fun a hlo hhi => (hfree a hlo hhi).2
  simp [hostAccess, hwraps, hwindow, hkeeps]

/-- A host memory write at the host's turn. -/
theorem step_writeMem {s : State} {addr : Word} {bytes : List Byte} {more : List HostAction}
    (h : s.inputs = .writeMem addr bytes :: more) :
    step s = hostAccess ⟨addr.toNat, bytes.length⟩
      ((guardedBytes { s with inputs := more }).uses.all (Span.mk addr.toNat bytes.length).disjoint)
      { s with inputs := more, mem := s.mem.writeBytes addr.toNat bytes } { s with inputs := more } := by
  rw [step, h]
  rfl

/-- A host memory read at the host's turn. -/
theorem step_readMem {s : State} {addr : Word} {len : Nat} {more : List HostAction}
    (h : s.inputs = .readMem addr len :: more) :
    step s = hostAccess ⟨addr.toNat, len⟩
      ((guardedBytes { s with inputs := more }).writes.all (Span.mk addr.toNat len).disjoint)
      { s with inputs := more, hostBuf := s.mem.readBytes addr.toNat len } { s with inputs := more } := by
  rw [step, h]
  rfl

/-- Settles O20: the bytes guarded at a host access are the run's, since the look-ahead finds them all and no other. -/
theorem hostDutyWhileBusy : Obligations.HostDutyWhileBusy := by
  refine ⟨fun s addr bytes more a hs h hb hlo hhi hrun t => ?_, fun s addr len more a hs h hb hlo hhi hrun t => ?_,
    fun s addr bytes more h hspace hfree => ?_, fun s addr len more h hspace hfree => ?_⟩
  · have hguard := touches_guardedBytes_iff (s := { s with inputs := more }) hb ⟨hs.memWf, hs.memInSpace⟩ a
    rw [step_writeMem h]
    exact hostAccess_of_touches hlo hhi (hguard.1.mpr hrun) t
  · have hguard := touches_guardedBytes_iff (s := { s with inputs := more }) hb ⟨hs.memWf, hs.memInSpace⟩ a
    rw [step_readMem h]
    exact hostAccess_of_touches hlo hhi (hguard.2.mpr hrun) t
  · rw [step_writeMem h]
    refine hostAccess_of_free hspace fun a hlo hhi => ⟨(hfree a hlo hhi).1, fun htouch => ?_⟩
    obtain ⟨hb, hrun⟩ := (touches_guardedBytes_sound _ a).1 htouch
    exact not_byteOfRun_iff.mpr ((hfree a hlo hhi).2 hb) hrun
  · rw [step_readMem h]
    refine hostAccess_of_free hspace fun a hlo hhi => ⟨(hfree a hlo hhi).1, fun htouch => ?_⟩
    obtain ⟨hb, hrun⟩ := (touches_guardedBytes_sound _ a).2 htouch
    exact not_byteOfRun_iff.mpr ((hfree a hlo hhi).2 hb) hrun

end Sys2Proof.Machine

/-! SUPPORT. Descriptors: their words as bytes, the fields of W0, and what the decoder makes of each row of the opcode map. -/

namespace Sys2Proof.Machine

/-! ### The words of a descriptor as bytes (30_encoding.md R90, 20_memory.md R63) -/

/-- The first word of bytes that begin with the four of `w`. -/
theorem wordAt_zero (w : Word) (rest : List Byte) : wordAt (leBytes 4 w.toNat ++ rest) 0 = w := by
  rw [wordAt, Nat.mul_zero, List.drop_zero, List.take_left' (leBytes_length ..), leNat_leBytes,
    Nat.mod_eq_of_lt (by exact w.isLt), BitVec.ofNat_toNat, BitVec.setWidth_eq]

/-- Past the first word the others follow. -/
theorem wordAt_succ (v i : Nat) (rest : List Byte) : wordAt (leBytes 4 v ++ rest) (i + 1) = wordAt rest i := by
  rw [wordAt, show 4 * (i + 1) = (leBytes 4 v).length + 4 * i by rw [leBytes_length]; omega,
    List.drop_length_add_append, wordAt]

/-- The words read from a descriptor's bytes are the descriptor's, whatever bytes follow. -/
theorem descriptorOfBytes_bytesOfDescriptor (d : Descriptor) (rest : List Byte) :
    descriptorOfBytes (bytesOfDescriptor d ++ rest) = d := by
  simp only [descriptorOfBytes, bytesOfDescriptor, List.append_assoc, wordAt_succ, wordAt_zero]

theorem bytesOfDescriptor_length (d : Descriptor) : (bytesOfDescriptor d).length = 32 := by
  simp [bytesOfDescriptor]

/-- Bytes that begin with a descriptor decode to its command and the bytes after it. -/
theorem decodeBytes_bytesOfDescriptor {d : Descriptor} {i : Instr} (h : decodeDescriptor d = .ok i) (rest : List Byte) :
    decodeBytes (bytesOfDescriptor d ++ rest) = .ok (i, rest) := by
  have hlen := bytesOfDescriptor_length d
  rw [decodeBytes, if_neg (by simp [hlen]), descriptorOfBytes_bytesOfDescriptor, h]
  simp [← hlen]

/-! ### The fields of W0 (30_encoding.md R91) -/

theorem opcField_packW0 {opc : Nat} (hopc : opc < 256) (wr : Bool) (opt : Nat) :
    opcField (packW0 opc wr opt) = opc := by
  simp only [opcField, bitField, packW0, BitVec.toNat_ofNat]
  omega

theorem optField_packW0 {opc opt : Nat} (hopc : opc < 256) (hopt : opt < 256) (wr : Bool) :
    optField (packW0 opc wr opt) = opt := by
  have hwr := Bool.toNat_lt wr
  simp only [optField, bitField, packW0, BitVec.toNat_ofNat]
  omega

theorem wrField_packW0 {opc : Nat} (hopc : opc < 256) (wr : Bool) (opt : Nat) :
    wrField (packW0 opc wr opt) = wr := by
  have hbit : bitField (packW0 opc wr opt) 8 1 = wr.toNat := by
    have hwr := Bool.toNat_lt wr
    simp only [bitField, packW0, BitVec.toNat_ofNat]
    omega
  rw [wrField, hbit]
  cases wr <;> rfl

/-- A bit field is 0 exactly when each of its bits is. -/
theorem bitField_eq_zero_iff (w : Word) (lo width : Nat) :
    bitField w lo width = 0 ↔ ∀ i, lo ≤ i → i < lo + width → w.getLsbD i = false := by
  constructor
  · intro h i hlo hhi
    have hbit := congrArg (·.testBit (i - lo)) h
    simpa [bitField, Nat.testBit_mod_two_pow, Nat.testBit_div_two_pow, Nat.sub_add_cancel hlo, show i - lo < width by omega,
      BitVec.testBit_toNat] using hbit
  · intro h
    refine Nat.eq_of_testBit_eq fun j => ?_
    simp only [bitField, Nat.testBit_mod_two_pow, Nat.testBit_div_two_pow, BitVec.testBit_toNat, Nat.zero_testBit,
      Bool.and_eq_false_iff, decide_eq_false_iff_not]
    by_cases hj : j < width
    · exact .inr (h (j + lo) (by omega) (by omega))
    · exact .inl hj

/-- The bits of W0 the mask looks at (30_encoding.md R91). -/
theorem reservedMask_bit : ∀ i < 32, reservedMask.getLsbD i = true ↔ (9 ≤ i ∧ i < 9 + 7) ∨ (24 ≤ i ∧ i < 24 + 8) := by
  decide

/-- The reserved bits are clear exactly when the mask finds none (30_encoding.md R91). -/
theorem reservedClear_iff (w0 : Word) : reservedClear w0 = true ↔ w0 &&& reservedMask = 0 := by
  rw [reservedClear, Bool.and_eq_true, beq_iff_eq, beq_iff_eq, bitField_eq_zero_iff, bitField_eq_zero_iff]
  constructor
  · rintro ⟨hlow, hhigh⟩
    refine BitVec.eq_of_getLsbD_eq fun i hi => ?_
    rw [BitVec.getLsbD_and, BitVec.ofNat_eq_ofNat, BitVec.getLsbD_zero, Bool.and_eq_false_iff]
    by_cases hmask : reservedMask.getLsbD i = true
    · exact .inl (((reservedMask_bit i hi).mp hmask).elim (fun h => hlow i h.1 h.2) fun h => hhigh i h.1 h.2)
    · exact .inr (Bool.eq_false_iff.mpr hmask)
  · intro h
    have hclear : ∀ i < 32, reservedMask.getLsbD i = true → w0.getLsbD i = false := fun i _ hmask => by
      simpa [hmask] using congrArg (·.getLsbD i) h
    exact ⟨fun i hlo hhi => hclear i (by omega) ((reservedMask_bit i (by omega)).mpr (.inl ⟨hlo, hhi⟩)),
      fun i hlo hhi => hclear i (by omega) ((reservedMask_bit i (by omega)).mpr (.inr ⟨hlo, hhi⟩))⟩

/-- WR is bit 8 of W0 (30_encoding.md R91). -/
theorem wrField_eq (w0 : Word) : wrField w0 = w0.getLsbD 8 := by
  rw [wrField, bitField, pow_one, ← BitVec.testBit_toNat, Nat.testBit_eq_decide_div_mod_eq]
  rfl

/-! ### Decoding by the opcode map (30_encoding.md R95, R97) -/

/-- A descriptor of a row of the map, with no reserved bit and no unused OPT bit set, is the row's command. -/
theorem decodeDescriptor_of_row {d : Descriptor} {used : Nat} {build : Descriptor → Instr} {i : Instr}
    (hrow : opcodeRow (opcField d.w0) = some (used, build)) (hreserved : reservedClear d.w0 = true)
    (hopt : optField d.w0 < 2 ^ used) (hi : build d = i) : decodeDescriptor d = .ok i := by
  simp [decodeDescriptor, hrow, hreserved, Nat.div_eq_of_lt hopt, hi]

/-- Settles O2: each word is a literal, whose fields evaluate to its row's OPC, its OPT bits and WR. -/
theorem opcodeWordsDecode : Obligations.OpcodeWordsDecode := by
  intro a b c d e f r
  and_intros
  all_goals
    simp [decodeDescriptor, opcodeRow, reservedClear, resultArea, optionOperand, opcField, wrField, optField, bitField]

/-! ### Decoding what is encoded -/

/-- The result area of an encoded descriptor is the command's (30_encoding.md R92). -/
theorem resultArea_pack {opc : Nat} (hopc : opc < 256) (opt : Nat) (wr : Option Word) (a b c d e f : Word) :
    resultArea (packDescriptor opc opt wr a b c d e f) = wr := by
  simp only [resultArea, packDescriptor, wrField_packW0 hopc]
  cases wr <;> rfl

/-- An operand under its option bit is the command's (30_encoding.md R93, R95). -/
theorem optionOperand_pack {opc : Nat} (hopc : opc < 256) {w : Word} (operand wr : Option Word) (a b c d e f : Word)
    (hw : w = operand.getD 0) : optionOperand (packDescriptor opc operand.isSome.toNat wr a b c d e f) w = operand := by
  have hopt : operand.isSome.toNat < 256 := (Bool.toNat_lt _).trans (by decide)
  simp only [optionOperand, packDescriptor, optField_packW0 hopc hopt, hw]
  cases operand <;> rfl

/-- A descriptor packed from a row's OPC and OPT bits the row uses is the row's command. -/
theorem decodeDescriptor_pack {opc opt used : Nat} {build : Descriptor → Instr} (wr : Option Word) (a b c d e f : Word)
    (hrow : opcodeRow opc = some (used, build)) (hopc : opc < 256) (hopt : opt < 2 ^ used) (hused : used ≤ 6) :
    decodeDescriptor (packDescriptor opc opt wr a b c d e f) = .ok (build (packDescriptor opc opt wr a b c d e f)) := by
  have hopt' : opt < 256 := hopt.trans_le ((Nat.pow_le_pow_right (by decide) hused).trans (by decide))
  refine decodeDescriptor_of_row (used := used) (build := build) ?_ (Laws.reservedClear_packW0 _ hopc hopt') ?_ rfl
  · rwa [packDescriptor, opcField_packW0 hopc]
  · rwa [packDescriptor, optField_packW0 hopc hopt']

/-- The descriptor of a well-formed command decodes to it: an operand under an option bit is there exactly when the bit is
set, and a sub-field of OPT fits the bits its row uses. -/
theorem decodeDescriptor_encode {i : Instr} (h : i.wellFormed = true) : decodeDescriptor (encode i) = .ok i := by
  cases i with
  | crc32 | bwtFwd | bwtInv =>
    refine (decodeDescriptor_pack _ _ _ _ _ _ _ rfl (by decide) (Bool.toNat_lt _) (by decide)).trans ?_
    rw [resultArea_pack (by decide), optionOperand_pack (by decide)]
    all_goals rfl
  | bwBits | brBits | hufEnc | hufDec | blkEnc | blkDec | streamEnc =>
    simp only [Instr.wellFormed, decide_eq_true_eq] at h
    refine (decodeDescriptor_pack _ _ _ _ _ _ _ rfl (by decide) h (by decide)).trans ?_
    rw [resultArea_pack (by decide), packDescriptor, optField_packW0 (by decide) (by omega)]
  | _ =>
    refine (decodeDescriptor_pack _ _ _ _ _ _ _ rfl (by decide) (by decide) (by decide)).trans ?_
    rw [resultArea_pack (by decide)]
    all_goals rfl

/-- Settles O1: the 32 bytes read as the descriptor's words, and the descriptor decodes to its command. -/
theorem decodeOfEncodeIsIdentity : Obligations.DecodeOfEncodeIsIdentity :=
  fun _ rest h => decodeBytes_bytesOfDescriptor (decodeDescriptor_encode h) rest

/-! ### The errors of decoding, in order (30_encoding.md R97) -/

/-- The rows of the map and their used OPT bits, over every value of the OPC field (30_encoding.md R95, R96). -/
theorem usedOptionBits_eq : ∀ opc < 256, usedOptionBits opc = (opcodeRow opc).map (·.1) := by
  decide +kernel

/-- The command of a row fits its OPT bits and has the descriptor's result area (30_encoding.md R92, R95). -/
theorem row_wellFormed {opc used : Nat} {build : Descriptor → Instr} (hrow : opcodeRow opc = some (used, build))
    {d : Descriptor} (hopt : optField d.w0 < 2 ^ used) :
    (build d).wellFormed = true ∧ resultOperand (build d) = resultArea d := by
  unfold opcodeRow at hrow
  split at hrow <;> cases hrow
  all_goals
    refine ⟨?_, rfl⟩
    simp only [Nat.reducePow] at hopt
    simp [Instr.wellFormed, hopt]

/-- Settles O3: the decoder asks the map for the row, then looks at the mask's bits, then at the OPT bits above the row's. -/
theorem decodeErrorsInOrder : Obligations.DecodeErrorsInOrder := by
  intro d
  have hopc : d.w0.toNat % 256 = opcField d.w0 := by simp [opcField, bitField]
  have hfield : d.w0.toNat / 65536 % 256 = optField d.w0 := rfl
  rw [usedOptionBits_eq _ (Nat.mod_lt _ (by decide)), hopc, hfield]
  cases hrow : opcodeRow (opcField d.w0) with
  | none => simp [decodeDescriptor, hrow]
  | some row =>
    obtain ⟨used, build⟩ := row
    simp only [Option.map_some]
    refine ⟨fun hres => ?_, fun hres hopt => ?_, fun hres hopt => ?_⟩
    · rw [Ne, ← reservedClear_iff, Bool.not_eq_true] at hres
      simp [decodeDescriptor, hrow, hres]
    · rw [← reservedClear_iff] at hres
      simp [decodeDescriptor, hrow, hres, hopt]
    · rw [← reservedClear_iff] at hres
      obtain ⟨hwf, harea⟩ := row_wellFormed hrow hopt
      refine ⟨build d, decodeDescriptor_of_row hrow hres hopt rfl, hwf, ?_⟩
      rw [harea, resultArea, wrField_eq]

end Sys2Proof.Machine

/-! SUPPORT. What the bit writer makes of a string: the bits it holds, and when the string fits. -/

namespace Sys2Proof.Machine

/-! ### The bits of a number -/

@[simp] theorem bitsMSB_zero (v : Nat) : bitsMSB v 0 = [] := rfl

/-- One bit more at the end of a number's bits. -/
theorem bitsMSB_snoc (v n : Nat) (b : Bool) : bitsMSB (2 * v + b.toNat) (n + 1) = bitsMSB v n ++ [b] := by
  have hhigh : ∀ n, (2 * v + b.toNat).testBit (n + 1) = v.testBit n := fun n => by
    rw [Nat.testBit_succ, show (2 * v + b.toNat) / 2 = v by have := Bool.toNat_lt b; omega]
  induction n with
  | zero => cases b <;> simp [bitsMSB]
  | succ n ih => rw [bitsMSB, ih, hhigh, bitsMSB, List.cons_append]

/-- Only the low `m` bits of a number count for a string of `n ≤ m` bits. -/
theorem bitsMSB_mod {n m : Nat} (h : n ≤ m) (v : Nat) : bitsMSB (v % 2 ^ m) n = bitsMSB v n := by
  induction n with
  | zero => rfl
  | succ n ih => rw [bitsMSB, bitsMSB, ih (by omega), Nat.testBit_mod_two_pow, decide_eq_true (by omega), Bool.true_and]

/-! ### Writing a string (41_bitstream.md R150) -/

/-- The bits a writer has taken and this command holds: those of the bytes it stored, then the pending ones. -/
def BitSink.taken (w : BitSink) : List Bool := bitsOfBytes w.stored.reverse ++ bitsMSB w.acc w.nbits

/-- `w'` is the writer `w` after it has taken the string. -/
structure Written (w : BitSink) (bits : List Bool) (w' : BitSink) : Prop where
  taken : w'.taken = w.taken ++ bits
  nbits : w'.nbits = (w.nbits + bits.length) % 8
  count : w'.count = w.count + (w.nbits + bits.length) / 8
  cap : w'.cap = w.cap

/-- Everything the writing of one bit can do: take it, or fail at a byte there is no room for. -/
theorem writeBit_written {w : BitSink} (hn : w.nbits < 8) (hc : w.count ≤ w.cap) (b : Bool) :
    (w.count + (w.nbits + 1) / 8 ≤ w.cap ∧ ∃ w', w.writeBit b = .ok w' ∧ Written w [b] w') ∨
    (w.cap < w.count + (w.nbits + 1) / 8 ∧ w.writeBit b = .error outputTooSmall) := by
  unfold BitSink.writeBit
  by_cases h8 : w.nbits + 1 = 8
  · have hbyte : bitsMSB (BitVec.ofNat 8 (2 * w.acc + b.toNat)).toNat 8 = bitsMSB w.acc w.nbits ++ [b] := by
      rw [BitVec.toNat_ofNat, bitsMSB_mod le_rfl, ← bitsMSB_snoc, h8]
    simp only [if_pos h8]
    by_cases hroom : w.count < w.cap
    · rw [if_pos hroom]
      refine .inl ⟨by omega, _, rfl, ⟨?_, ?_, ?_, rfl⟩⟩
      · simp only [BitSink.taken, List.reverse_cons, bitsOfBytes_append, bitsOfBytes, hbyte, bitsMSB_zero, List.append_nil,
          List.append_assoc]
      · simp only [List.length_singleton]; omega
      · simp only [List.length_singleton]; omega
    · rw [if_neg hroom]
      exact .inr ⟨by omega, rfl⟩
  · simp only [if_neg h8]
    refine .inl ⟨by omega, _, rfl, ⟨?_, ?_, ?_, rfl⟩⟩
    · simp only [BitSink.taken, bitsMSB_snoc, List.append_assoc]
    · simp only [List.length_singleton]; omega
    · simp only [List.length_singleton]; omega

/-- Everything the writing of a string can do: take it when its bytes fit, and fail when they do not. -/
theorem writeAll_cases {w : BitSink} (hn : w.nbits < 8) (hc : w.count ≤ w.cap) (bits : List Bool) :
    (w.count + (w.nbits + bits.length) / 8 ≤ w.cap ∧ ∃ w', w.writeAll bits = .ok w' ∧ Written w bits w') ∨
    (w.cap < w.count + (w.nbits + bits.length) / 8 ∧ w.writeAll bits = .error outputTooSmall) := by
  induction bits generalizing w with
  | nil => exact .inl ⟨by simp; omega, w, rfl, ⟨by simp, by simp; omega, by simp; omega, rfl⟩⟩
  | cons b bits ih =>
    simp only [List.length_cons, BitSink.writeAll]
    rcases writeBit_written hn hc b with ⟨hroom, w₁, h₁, htaken, hnbits, hcount, hcap⟩ | ⟨hfull, h₁⟩
    · rw [h₁]
      simp only [List.length_singleton] at hnbits hcount
      rcases ih (w := w₁) (by omega) (by omega) with ⟨hfit, w', h', htaken', hnbits', hcount', hcap'⟩ | ⟨hover, h'⟩
      · refine .inl ⟨by omega, w', h', ⟨by simp [htaken', htaken], ?_, ?_, hcap'.trans hcap⟩⟩
        · rw [List.length_cons]; omega
        · rw [List.length_cons]; omega
      · exact .inr ⟨by omega, h'⟩
    · rw [h₁]
      exact .inr ⟨by omega, rfl⟩

/-- A writer with no pending bits holds only bytes. -/
theorem taken_of_aligned {w : BitSink} (h : w.nbits = 0) : w.taken = bitsOfBytes w.stored.reverse := by
  rw [BitSink.taken, h, bitsMSB_zero, List.append_nil]

/-- Everything STREAM_ENC's own writer can do with a string: give its bytes, padded with zeros, when they fit, and fail when
they do not (47_block_stream.md R280). -/
theorem packStream_cases (cap : Nat) (bits : List Bool) :
    ((bits.length + 7) / 8 ≤ cap ∧ ∃ out, packStream cap bits = .ok out ∧ out.length = (bits.length + 7) / 8 ∧
      bitsOfBytes out = bits ++ List.replicate (8 * out.length - bits.length) false) ∨
    (cap < (bits.length + 7) / 8 ∧ packStream cap bits = .error outputTooSmall) := by
  unfold packStream
  rcases writeAll_cases (w := ⟨cap, 0, 0, 0, []⟩) (Nat.zero_lt_succ 7) (Nat.zero_le _) bits with
    ⟨hfit, w, hw, htaken, hnbits, hcount, hcap⟩ | ⟨hover, hw⟩
  · simp only [Nat.zero_add] at hfit hnbits hcount hcap
    rw [hw]
    simp only [BitSink.flush]
    have hpad : (List.replicate ((8 - w.nbits) % 8) false).length = (8 - w.nbits) % 8 := List.length_replicate
    rcases writeAll_cases (w := w) (by omega) (by omega) (List.replicate ((8 - w.nbits) % 8) false) with
      ⟨hfit', w', hw', htaken', hnbits', hcount', hcap'⟩ | ⟨hover', hw'⟩
    · rw [hw']
      rw [htaken, taken_of_aligned (by omega)] at htaken'
      replace htaken' : bitsOfBytes w'.stored.reverse = bits ++ List.replicate ((8 - w.nbits) % 8) false := htaken'
      have hlen := congrArg List.length htaken'
      rw [bitsOfBytes_length, List.length_append, hpad] at hlen
      refine .inl ⟨by omega, _, rfl, by omega, ?_⟩
      rw [htaken', show 8 * w'.stored.reverse.length - bits.length = (8 - w.nbits) % 8 by omega]
    · rw [hw']
      exact .inr ⟨by omega, rfl⟩
  · simp only [Nat.zero_add] at hover
    rw [hw]
    exact .inr ⟨by omega, rfl⟩

end Sys2Proof.Machine

/-! SUPPORT. The RLE1 chunks of an input, and how they are packed into blocks. -/

namespace Sys2Proof.Machine

/-! ### Chunks (43_rle1.md R180) -/

/-- A cutting is maximal when every two neighbouring chunks are. -/
theorem isChunks_iff_chain {bytes : List Byte} {cs : List Chunk} :
    IsChunks bytes cs ↔ cs.flatMap (fun c => List.replicate c.2 c.1) = bytes ∧ (∀ c ∈ cs, 1 ≤ c.2 ∧ c.2 ≤ 255) ∧
      cs.IsChain fun c d => c.1 = d.1 → c.2 = 255 := by
  rw [List.isChain_iff_forall_rel_of_append_cons_cons]
  exact ⟨fun ⟨hwhole, hbounds, hmaximal⟩ => ⟨hwhole, hbounds, fun c d before after => hmaximal before c d after⟩,
    fun ⟨hwhole, hbounds, hmaximal⟩ => ⟨hwhole, hbounds, fun before c d after h => hmaximal h⟩⟩

/-- The first chunk is of the byte it starts with. -/
theorem chunksFrom_head (b : Byte) (r : Nat) (xs : List Byte) : ∃ n cs, chunksFrom b r xs = (b, n) :: cs := by
  induction xs generalizing r with
  | nil => exact ⟨r, [], rfl⟩
  | cons x xs ih =>
    rw [chunksFrom]
    split
    · exact ih (r + 1)
    · exact ⟨r, _, rfl⟩

/-- The chunks from a started run on cut that run and the bytes after it. -/
theorem chunksFrom_isChunks {b : Byte} {r : Nat} (hr : 1 ≤ r) (hmax : r ≤ 255) (xs : List Byte) :
    IsChunks (List.replicate r b ++ xs) (chunksFrom b r xs) := by
  induction xs generalizing b r with
  | nil => exact isChunks_iff_chain.mpr ⟨by simp [chunksFrom], by simpa [chunksFrom] using ⟨hr, hmax⟩, .singleton _⟩
  | cons x xs ih =>
    rw [chunksFrom]
    split
    case isTrue h =>
      obtain ⟨rfl, hlt⟩ := h
      have hrun : List.replicate r x ++ x :: xs = List.replicate (r + 1) x ++ xs := by
        rw [List.replicate_succ', List.append_assoc]; rfl
      exact hrun ▸ ih (by omega) hlt
    case isFalse h =>
      obtain ⟨hwhole, hbounds, hchain⟩ := isChunks_iff_chain.mp (ih (b := x) (r := 1) le_rfl (by decide))
      refine isChunks_iff_chain.mpr ⟨by simp [hwhole], List.forall_mem_cons.mpr ⟨⟨hr, hmax⟩, hbounds⟩, ?_⟩
      obtain ⟨n, cs, hhead⟩ := chunksFrom_head x 1 xs
      rw [hhead] at hchain ⊢
      refine List.isChain_cons_cons.mpr ⟨fun heq => ?_, hchain⟩
      have hfull : ¬ r < 255 := fun hlt => h ⟨heq.symm, hlt⟩
      exact Nat.le_antisymm hmax (Nat.not_lt.mp hfull)

/-- `chunks` cuts the bytes as R180 says. -/
theorem chunks_isChunks (bytes : List Byte) : IsChunks bytes (chunks bytes) := by
  cases bytes with
  | nil => exact isChunks_iff_chain.mpr ⟨rfl, by simp [chunks], .nil⟩
  | cons x xs => exact chunksFrom_isChunks le_rfl (by decide) xs

/-- A chunk's code in the model and in the rule. -/
theorem chunkCode_eq (c : Chunk) : chunkCode c = runCode c := by
  simp only [chunkCode, runCode, ← Nat.lt_succ_iff]
  rfl

/-- A chunk's code has 1 to 5 bytes (43_rle1.md R180). -/
theorem runCode_length {c : Chunk} (hc : 1 ≤ c.2) : 1 ≤ (runCode c).length ∧ (runCode c).length ≤ 5 := by
  unfold runCode
  split
  · rw [List.length_replicate]; omega
  · simp

/-! ### Packing chunks into blocks (47_block_stream.md R278) -/

/-- A packing is greedy when every two neighbouring blocks are. -/
theorem isBlockSplit_iff_chain {lim : Nat} {cs : List Chunk} {groups : List (List Chunk)} :
    IsBlockSplit lim cs groups ↔ groups.flatten = cs ∧
      (∀ g ∈ groups, g ≠ [] ∧ (g.flatMap runCode).length ≤ lim) ∧
      groups.IsChain fun g h => ∀ c more, h = c :: more → lim < (g.flatMap runCode).length + (runCode c).length := by
  rw [List.isChain_iff_forall_rel_of_append_cons_cons]
  refine ⟨fun ⟨hwhole, hbounds, hgreedy⟩ => ⟨hwhole, hbounds, ?_⟩,
    fun ⟨hwhole, hbounds, hgreedy⟩ => ⟨hwhole, hbounds, fun before g c more after h => hgreedy h c more rfl⟩⟩
  rintro g _ before after h c more rfl
  exact hgreedy before g c more after h

/-- The first block begins with the started one. -/
theorem packFrom_head (lim : Nat) (cur : List Chunk) (len : Nat) (cs : List Chunk) :
    ∃ more groups, packFrom lim cur len cs = (cur.reverse ++ more) :: groups := by
  induction cs generalizing cur len with
  | nil => exact ⟨[], [], by simp [packFrom]⟩
  | cons c cs ih =>
    simp only [packFrom]
    split
    · obtain ⟨more, groups, h⟩ := ih (c :: cur) (len + (chunkCode c).length)
      exact ⟨c :: more, groups, by simp [h]⟩
    · exact ⟨[], packFrom lim [c] (chunkCode c).length cs, by simp⟩

/-- The packing of a started block and the chunks after it. -/
theorem packFrom_isBlockSplit {lim : Nat} {cur : List Chunk} {len : Nat} {cs : List Chunk} (hcur : cur ≠ [])
    (hlen : len = (cur.reverse.flatMap runCode).length) (hlim : len ≤ lim) (hcs : ∀ c ∈ cs, (runCode c).length ≤ lim) :
    IsBlockSplit lim (cur.reverse ++ cs) (packFrom lim cur len cs) := by
  have hstarted : cur.reverse ≠ [] ∧ (cur.reverse.flatMap runCode).length ≤ lim := ⟨by simpa using hcur, hlen ▸ hlim⟩
  induction cs generalizing cur len with
  | nil => exact isBlockSplit_iff_chain.mpr ⟨by simp [packFrom], List.forall_mem_singleton.mpr hstarted, .singleton _⟩
  | cons c cs ih =>
    rw [List.forall_mem_cons] at hcs
    simp only [packFrom, chunkCode_eq]
    split
    case isTrue hfit =>
      have hlen' : len + (runCode c).length = ((c :: cur).reverse.flatMap runCode).length := by simp [hlen]
      have hsplit := ih (by simp) hlen' hfit hcs.2 ⟨by simp, hlen' ▸ hfit⟩
      rwa [List.reverse_cons, List.append_assoc] at hsplit
    case isFalse hfull =>
      obtain ⟨hwhole, hbounds, hchain⟩ := isBlockSplit_iff_chain.mp
        (ih (cur := [c]) (by simp) (by simp) hcs.1 hcs.2 ⟨by simp, by simpa using hcs.1⟩)
      refine isBlockSplit_iff_chain.mpr ⟨by simp [hwhole], List.forall_mem_cons.mpr ⟨hstarted, hbounds⟩, ?_⟩
      obtain ⟨more, groups, hhead⟩ := packFrom_head lim [c] (runCode c).length cs
      rw [hhead] at hchain ⊢
      refine List.isChain_cons_cons.mpr ⟨?_, hchain⟩
      rintro _ _ ⟨⟩
      rw [← hlen]
      omega

/-- The blocks of an input pack its chunks as R278 says, when no chunk's code is longer than a block. -/
theorem splitBlocks_isBlockSplit {lim : Nat} {cs : List Chunk} (hcs : ∀ c ∈ cs, (runCode c).length ≤ lim) :
    IsBlockSplit lim cs (splitBlocks lim cs) := by
  cases cs with
  | nil => exact isBlockSplit_iff_chain.mpr ⟨rfl, by simp [splitBlocks], .nil⟩
  | cons c cs =>
    rw [List.forall_mem_cons] at hcs
    rw [splitBlocks, chunkCode_eq]
    exact packFrom_isBlockSplit (cur := [c]) (by simp) (by simp) hcs.1 hcs.2

end Sys2Proof.Machine

/-! SUPPORT. The order of a block's rotations, and their last column. -/

namespace Sys2Proof.Machine

/-! ### The order of rotations (44_bwt.md R190) -/

/-- The comparison of byte strings is the lexicographic order of their numbers. -/
theorem compareBytes_cases (xs ys : List Byte) :
    (compareBytes xs ys = .lt ∧ xs.map BitVec.toNat < ys.map BitVec.toNat) ∨ (compareBytes xs ys = .eq ∧ xs = ys) ∨
    (compareBytes xs ys = .gt ∧ ys.map BitVec.toNat < xs.map BitVec.toNat) := by
  induction xs generalizing ys with
  | nil => cases ys <;> simp [compareBytes]
  | cons x xs ih =>
    cases ys with
    | nil => simp [compareBytes]
    | cons y ys =>
      simp only [compareBytes, List.map_cons, List.cons_lt_cons_iff]
      rcases Nat.lt_trichotomy x.toNat y.toNat with h | h | h
      · simp [h]
      · obtain rfl := BitVec.eq_of_toNat_eq h
        simpa using ih ys
      · simp [h, Nat.lt_asymm h]

/-- A rotation with its index is not after another when it is before it, or equal with an index no greater. -/
theorem rotationLe_iff (p q : List Byte × Nat) : rotationLe p q = true ↔
    p.1.map BitVec.toNat < q.1.map BitVec.toNat ∨ (p.1 = q.1 ∧ p.2 ≤ q.2) := by
  unfold rotationLe
  rcases compareBytes_cases p.1 q.1 with ⟨h, hlt⟩ | ⟨h, heq⟩ | ⟨h, hgt⟩
  · simp [h, hlt]
  · rw [h]
    simp [heq]
  · have hne : p.1 ≠ q.1 := fun heq => lt_irrefl _ (heq ▸ hgt)
    simp [h, lt_asymm hgt, hne]

theorem rotationLe_total (p q : List Byte × Nat) : rotationLe p q = true ∨ rotationLe q p = true := by
  simp only [rotationLe_iff]
  rcases compareBytes_cases p.1 q.1 with ⟨-, h⟩ | ⟨-, h⟩ | ⟨-, h⟩
  · exact .inl (.inl h)
  · exact (Nat.le_total p.2 q.2).imp (fun hle => .inr ⟨h, hle⟩) fun hle => .inr ⟨h.symm, hle⟩
  · exact .inr (.inl h)

theorem rotationLe_trans (p q r : List Byte × Nat) (h : rotationLe p q = true) (h' : rotationLe q r = true) :
    rotationLe p r = true := by
  rw [rotationLe_iff] at *
  rcases h with h | ⟨heq, hle⟩ <;> rcases h' with h' | ⟨heq', hle'⟩
  · exact .inl (h.trans h')
  · exact .inl (heq' ▸ h)
  · exact .inl (heq ▸ h')
  · exact .inr ⟨heq.trans heq', hle.trans hle'⟩

/-- The sorted index array holds every start index once. -/
theorem sortedIndices_perm (block : List Byte) : (sortedIndices block).Perm (List.range block.length) := by
  have h := (sortBy_perm (le := rotationLe) ((List.range block.length).map fun i => (rotation block i, i))).map (·.2)
  rwa [List.map_map, show ((·.2) ∘ fun i => (rotation block i, i)) = id from rfl, List.map_id] at h

/-- The sorted index array is in the order of R190. -/
theorem sortedIndices_isRotationOrder (block : List Byte) : IsRotationOrder block (sortedIndices block) := by
  refine ⟨sortedIndices_perm block, List.pairwise_map.mpr ?_⟩
  have hnodup := List.pairwise_map.mp ((sortedIndices_perm block).nodup_iff.mpr List.nodup_range)
  have hsorted := sortBy_pairwise rotationLe_total rotationLe_trans
    ((List.range block.length).map fun i => (rotation block i, i))
  refine (hsorted.and hnodup).imp_of_mem fun {p q} hp hq ⟨hle, hne⟩ => ?_
  have hrotation : ∀ x ∈ sortBy rotationLe ((List.range block.length).map fun i => (rotation block i, i)),
      x.1 = rotation block x.2 := fun x hx => by
    obtain ⟨i, -, rfl⟩ := List.mem_map.mp ((sortBy_perm _).subset hx)
    rfl
  rw [rotationLe_iff, hrotation p hp, hrotation q hq] at hle
  exact hle.imp id fun ⟨heq, hle⟩ => ⟨heq, Nat.lt_of_le_of_ne hle hne⟩

/-- The origin row of a block is the row of rotation 0 (44_bwt.md R191). -/
theorem sortedIndices_originRow {block : List Byte} (h : block ≠ []) :
    (sortedIndices block)[originRow (sortedIndices block)]? = some 0 := by
  have hmem : 0 ∈ sortedIndices block :=
    (sortedIndices_perm block).mem_iff.mpr (List.mem_range.mpr (List.length_pos_iff.mpr h))
  exact List.getElem?_idxOf hmem

/-! ### The last column (44_bwt.md R191) -/

theorem lastColumn_isLastColumn {block : List Byte} {order : List Nat} (h : order.length = block.length) :
    IsLastColumn block order (lastColumn block order) := by
  refine ⟨by simp [h], fun k hk => ?_⟩
  have hlt : (order[k] + block.length - 1) % block.length < block.length := Nat.mod_lt _ (by omega)
  simp [lastColumn, h, hk, hlt]

/-- The last column has the bytes of the block. -/
theorem mem_lastColumn_iff {block : List Byte} {order : List Nat} (h : order.Perm (List.range block.length)) (b : Byte) :
    b ∈ lastColumn block order ↔ b ∈ block := by
  have hmem : ∀ i, i ∈ order ↔ i < block.length := fun i => h.mem_iff.trans List.mem_range
  simp only [lastColumn, List.mem_map, hmem]
  constructor
  · rintro ⟨i, hi, rfl⟩
    have hlt : (i + block.length - 1) % block.length < block.length := Nat.mod_lt _ (by omega)
    simp [hlt]
  · intro hb
    obtain ⟨j, hj, rfl⟩ := List.mem_iff_getElem.mp hb
    refine ⟨(j + 1) % block.length, Nat.mod_lt _ (by omega), ?_⟩
    have hback : ((j + 1) % block.length + block.length - 1) % block.length = j := by
      rcases Nat.lt_or_ge (j + 1) block.length with hlt | hge
      · rw [Nat.mod_eq_of_lt hlt, show j + 1 + block.length - 1 = j + block.length by omega, Nat.add_mod_right,
          Nat.mod_eq_of_lt hj]
      · rw [show j + 1 = block.length by omega, Nat.mod_self, show 0 + block.length - 1 = j by omega,
          Nat.mod_eq_of_lt hj]
    simp [hback, hj]

end Sys2Proof.Machine

/-! SUPPORT. The MTF + RLE2 encoder: its alphabet, its list positions and its run numerals. -/

namespace Sys2Proof.Machine

/-! ### The alphabet (45_mtf_rle2.md R210) -/

theorem mem_allBytes (b : Byte) : b ∈ allBytes :=
  List.mem_map.mpr ⟨b.toNat, List.mem_range.mpr b.isLt, by simp⟩

theorem mem_usedBytes_iff (xs : List Byte) (b : Byte) : b ∈ usedBytes xs ↔ b ∈ xs := by
  simp [usedBytes, mem_allBytes]

/-- The alphabet depends only on which bytes occur. -/
theorem usedBytes_congr {xs ys : List Byte} (h : ∀ b, b ∈ xs ↔ b ∈ ys) : usedBytes xs = usedBytes ys :=
  List.filter_congr fun b _ => by simp [h b]

theorem usedBytes_length_le (xs : List Byte) : (usedBytes xs).length ≤ 256 :=
  (List.length_filter_le _ _).trans (by simp [allBytes])

/-! ### List positions (45_mtf_rle2.md R211) -/

/-- The encoder's ranks are the list positions. -/
theorem mtfRanks_eq {lst bytes : List Byte} (h : ∀ b ∈ bytes, b ∈ lst) : mtfRanks lst bytes = frontPositions lst bytes := by
  induction bytes generalizing lst with
  | nil => rfl
  | cons b bytes ih =>
    rw [List.forall_mem_cons] at h
    rw [mtfRanks, frontPositions, moveFront_idxOf h.1, ih fun x hx => (mem_moveToFront h.1).mpr (h.2 x hx)]

/-! ### Runs (45_mtf_rle2.md R212) -/

/-- The digits of the numeral of `z + 1`, with fuel enough. -/
theorem runDigits_isRunCode {fuel z : Nat} (h : z < fuel) : IsRunCode (z + 1) (runDigits fuel z) := by
  induction fuel generalizing z with
  | zero => omega
  | succ fuel ih =>
    rw [runDigits]
    by_cases hz : z < 2
    · rw [if_pos hz]
      exact ⟨by simp; omega, by simp only [numeralValue]; omega⟩
    · rw [if_neg hz]
      obtain ⟨hdigits, hvalue⟩ := ih (z := (z - 2) / 2) (by omega)
      refine ⟨List.forall_mem_cons.mpr ⟨by omega, hdigits⟩, ?_⟩
      rw [numeralValue, hvalue]
      omega

theorem runSymbols_isRunCode (z : Nat) : IsRunCode z (runSymbols z) := by
  unfold runSymbols
  cases z with
  | zero => exact ⟨by simp, rfl⟩
  | succ z => exact runDigits_isRunCode (Nat.lt_succ_self z)

/-- The encoder's symbols are a coding of its ranks. -/
theorem rle2From_isRankCode (eob z : Nat) (ranks : List Nat) : IsRankCode eob z ranks (rle2From eob z ranks) := by
  induction ranks generalizing z with
  | nil => exact ⟨runSymbols z, runSymbols_isRunCode z, rfl⟩
  | cons j ranks ih =>
    cases j with
    | zero => exact ih (z + 1)
    | succ j => exact ⟨runSymbols z, rle2From eob 0 ranks, runSymbols_isRunCode z, rfl, ih 0⟩

/-- `mtf_enc` codes its bytes over their alphabet. -/
theorem mtfEnc_isMtfCode (l : List Byte) : IsMtfCode (usedBytes l) l (mtfEnc l) := by
  rw [IsMtfCode, mtfEnc, ← mtfRanks_eq fun b hb => (mem_usedBytes_iff l b).mpr hb]
  exact rle2From_isRankCode _ _ _

end Sys2Proof.Machine

/-! SUPPORT. The Huffman table builder: the queue's merging is that of R231, and a tree of depth `h` needs a weight of at
least the Fibonacci number of `h + 2`, which bounds the code lengths once the weights are small. -/

namespace Sys2Proof.Machine

/-! ### The queue (46_huffman.md R231) -/

theorem before_iff (x y : HufNode) :
    x.before y = true ↔ x.weight < y.weight ∨ (x.weight = y.weight ∧ x.seq < y.seq) := by
  simp [HufNode.before]

theorem enqueue_perm (x : HufNode) (q : List HufNode) : (enqueue x q).Perm (x :: q) := by
  induction q with
  | nil => exact .refl _
  | cons y q ih =>
    rw [enqueue]
    split
    · exact .refl _
    · exact (ih.cons y).trans (.swap x y q)

/-- A queue in increasing order, of nodes whose seq is below `next`. -/
structure QueueOk (next : Nat) (q : List HufNode) : Prop where
  sorted : q.Pairwise fun x y => x.before y = true
  fresh : ∀ x ∈ q, x.seq < next

/-- A node of another seq goes to its place. -/
theorem enqueue_sorted {x : HufNode} {q : List HufNode} (hq : q.Pairwise fun x y => x.before y = true)
    (hx : ∀ y ∈ q, y.seq ≠ x.seq) : (enqueue x q).Pairwise fun x y => x.before y = true := by
  induction q with
  | nil => exact List.pairwise_singleton _ _
  | cons y q ih =>
    obtain ⟨hy, hq'⟩ := List.pairwise_cons.mp hq
    obtain ⟨hxy, hx'⟩ := List.forall_mem_cons.mp hx
    rw [enqueue]
    split
    case isTrue h =>
      refine List.pairwise_cons.mpr ⟨List.forall_mem_cons.mpr ⟨h, fun z hz => ?_⟩, hq⟩
      have hyz := hy z hz
      rw [before_iff] at h hyz ⊢
      omega
    case isFalse h =>
      refine List.pairwise_cons.mpr ⟨fun z hz => ?_, ih hq' hx'⟩
      rcases List.mem_cons.mp ((enqueue_perm x q).subset hz) with rfl | hz
      · rw [before_iff] at h ⊢
        omega
      · exact hy z hz

theorem enqueueAll_perm (nodes : List HufNode) : (nodes.foldr enqueue []).Perm nodes := by
  induction nodes with
  | nil => exact .refl _
  | cons x nodes ih => exact (enqueue_perm x _).trans (ih.cons x)

theorem enqueueAll_sorted {nodes : List HufNode} (h : (nodes.map HufNode.seq).Nodup) :
    (nodes.foldr enqueue []).Pairwise fun x y => x.before y = true := by
  induction nodes with
  | nil => exact .nil
  | cons x nodes ih =>
    rw [List.map_cons, List.nodup_cons] at h
    refine enqueue_sorted (ih h.2) fun y hy heq => h.1 ?_
    exact heq ▸ List.mem_map_of_mem ((enqueueAll_perm nodes).subset hy)

theorem QueueOk.enqueue {next : Nat} {x : HufNode} {q : List HufNode} (hq : QueueOk next q) (hx : x.seq = next) :
    QueueOk (next + 1) (enqueue x q) := by
  refine ⟨enqueue_sorted hq.sorted fun y hy => ?_, fun y hy => ?_⟩
  · have := hq.fresh y hy
    omega
  · rcases List.mem_cons.mp ((enqueue_perm x q).subset hy) with rfl | hy
    · omega
    · have := hq.fresh y hy
      omega

theorem QueueOk.tail {next : Nat} {x : HufNode} {q : List HufNode} (hq : QueueOk next (x :: q)) : QueueOk next q :=
  ⟨(List.pairwise_cons.mp hq.sorted).2, fun y hy => hq.fresh y (List.mem_cons_of_mem x hy)⟩

/-! ### Merging (46_huffman.md R231) -/

/-- A node of the queue as a node of the set Q. -/
def HufNode.weighed (x : HufNode) : WeighedNode := ⟨x.weight, x.seq, leafDepths x.tree 0⟩

theorem weighed_below_iff (x y : HufNode) : x.weighed.below y.weighed ↔ x.before y = true := by
  rw [before_iff]
  rfl

/-- One level further down every leaf is one deeper. -/
theorem leafDepths_succ (t : HufTree) (d : Nat) : leafDepths t (d + 1) = (leafDepths t d).map fun p => (p.1, p.2 + 1) := by
  induction t generalizing d with
  | leaf sym => rfl
  | node l r ihl ihr => simp [leafDepths, ihl, ihr]

theorem weighed_merged (x y : HufNode) (next : Nat) :
    HufNode.weighed ⟨x.weight + y.weight, next, .node x.tree y.tree⟩ = ⟨x.weighed.weight + y.weighed.weight, next,
      (x.weighed.leaves ++ y.weighed.leaves).map fun p => (p.1, p.2 + 1)⟩ := by
  simp [HufNode.weighed, leafDepths, leafDepths_succ]

/-- The set Q has no order. -/
theorem Merges.perm {next : Nat} {q q' : List WeighedNode} {depths : List (Nat × Nat)} (h : Merges next q depths)
    (hq : q.Perm q') : Merges next q' depths := by
  cases h with
  | root next x =>
    rw [List.perm_singleton.mp hq.symm]
    exact .root next x
  | merge next q rest x y depths hmin hx hy h => exact .merge next q' rest x y depths (hq.symm.trans hmin) hx hy h

/-- Every leaf has a depth at the end. -/
theorem Merges.leaf {next : Nat} {q : List WeighedNode} {depths : List (Nat × Nat)} (h : Merges next q depths)
    {x : WeighedNode} (hx : x ∈ q) {p : Nat × Nat} (hp : p ∈ x.leaves) : ∃ l, (p.1, l) ∈ depths := by
  induction h generalizing x p with
  | root next y =>
    rw [List.mem_singleton.mp hx] at hp
    exact ⟨p.2, hp⟩
  | merge next q rest y z depths hmin _ _ _ ih =>
    rcases List.mem_cons.mp (hmin.subset hx) with rfl | hx
    · exact ih (List.mem_cons_self ..) (p := (p.1, p.2 + 1)) (List.mem_map.mpr ⟨p, List.mem_append_left _ hp, rfl⟩)
    · rcases List.mem_cons.mp hx with rfl | hx
      · exact ih (List.mem_cons_self ..) (p := (p.1, p.2 + 1)) (List.mem_map.mpr ⟨p, List.mem_append_right _ hp, rfl⟩)
      · exact ih (List.mem_cons_of_mem _ hx) hp

/-- The queue's merging ends in one tree, and is a merging of the set Q. -/
theorem mergeNodes_merges {fuel next : Nat} {q : List HufNode} (hne : q ≠ []) (hq : QueueOk next q)
    (hfuel : q.length ≤ fuel + 1) :
    ∃ t, mergeNodes fuel next q = some t ∧ Merges next (q.map HufNode.weighed) (leafDepths t 0) := by
  induction fuel generalizing next q with
  | zero =>
    obtain ⟨x, rfl⟩ := List.length_eq_one_iff.mp (Nat.le_antisymm hfuel (List.length_pos_iff.mpr hne))
    exact ⟨x.tree, rfl, .root next x.weighed⟩
  | succ fuel ih =>
    match q, hne with
    | [x], _ => exact ⟨x.tree, rfl, .root next x.weighed⟩
    | x :: y :: q, _ =>
      have hlen := (enqueue_perm ⟨x.weight + y.weight, next, .node x.tree y.tree⟩ q).length_eq
      obtain ⟨t, ht, hmerges⟩ := ih (q := enqueue ⟨x.weight + y.weight, next, .node x.tree y.tree⟩ q)
        (fun h => by simp [h] at hlen) (hq.tail.tail.enqueue rfl) (by simp at hlen hfuel; omega)
      refine ⟨t, ht, .merge next _ (q.map HufNode.weighed) x.weighed y.weighed _ (.refl _) ?_ ?_ ?_⟩
      · simpa [weighed_below_iff] using (List.pairwise_cons.mp hq.sorted).1
      · simpa [weighed_below_iff] using (List.pairwise_cons.mp hq.tail.sorted).1
      · rw [← weighed_merged]
        exact hmerges.perm ((enqueue_perm _ q).map _)

/-! ### Depth and weight -/

/-- The depth of a tree's deepest leaf. -/
def HufTree.height : HufTree → Nat
  | .leaf _ => 0
  | .node l r => max l.height r.height + 1

theorem leafDepths_le_height {t : HufTree} {d : Nat} {p : Nat × Nat} (hp : p ∈ leafDepths t d) : p.2 ≤ d + t.height := by
  induction t generalizing d with
  | leaf sym => simp_all [leafDepths]
  | node l r ihl ihr =>
    rw [HufTree.height]
    rcases List.mem_append.mp hp with hp | hp
    · have := ihl hp
      omega
    · have := ihr hp
      omega

/-- The weights of a queue grow with the heights: every node has at least the weight its own height asks for, and at least
that of every merged node's heavier child. -/
structure WeightOk (q : List HufNode) : Prop where
  own : ∀ x ∈ q, Nat.fib (x.tree.height + 2) ≤ x.weight
  child : ∀ x ∈ q, ∀ y ∈ q, Nat.fib (x.tree.height + 1) ≤ y.weight

theorem WeightOk.perm {q q' : List HufNode} (h : WeightOk q) (hq : q.Perm q') : WeightOk q' :=
  ⟨fun x hx => h.own x (hq.symm.subset hx), fun x hx y hy => h.child x (hq.symm.subset hx) y (hq.symm.subset hy)⟩

/-- The merging of the two lightest nodes keeps the weights in step with the heights. -/
theorem WeightOk.merged {next : Nat} {x y : HufNode} {q : List HufNode} (h : WeightOk (x :: y :: q))
    (hlight : ∀ z ∈ q, x.weight ≤ z.weight ∧ y.weight ≤ z.weight) :
    WeightOk (⟨x.weight + y.weight, next, .node x.tree y.tree⟩ :: q) := by
  have hx := h.own x (by simp)
  have hy := h.own y (by simp)
  have hnew : Nat.fib (max x.tree.height y.tree.height + 1 + 2) ≤ x.weight + y.weight ∧
      ∀ z ∈ q, Nat.fib (max x.tree.height y.tree.height + 1 + 1) ≤ z.weight := by
    rcases Nat.le_total x.tree.height y.tree.height with hle | hle
    · have hyx := h.child y (by simp) x (by simp)
      rw [max_eq_right hle, show y.tree.height + 1 + 2 = y.tree.height + 1 + 1 + 1 from rfl, Nat.fib_add_two]
      exact ⟨Nat.add_le_add hyx hy, fun z hz => hy.trans (hlight z hz).2⟩
    · have hxy := h.child x (by simp) y (by simp)
      rw [max_eq_left hle, Nat.add_comm x.weight, Nat.fib_add_two]
      exact ⟨Nat.add_le_add hxy hx, fun z hz => hx.trans (hlight z hz).1⟩
  obtain ⟨hown, hchild⟩ := hnew
  refine ⟨List.forall_mem_cons.mpr ⟨hown, fun z hz => h.own z (by simp [hz])⟩,
    List.forall_mem_cons.mpr ⟨List.forall_mem_cons.mpr ⟨Nat.fib_le_fib_succ.trans hown, hchild⟩, fun z hz => ?_⟩⟩
  refine List.forall_mem_cons.mpr ⟨?_, fun u hu => h.child z (by simp [hz]) u (by simp [hu])⟩
  exact (h.child z (by simp [hz]) x (by simp)).trans (Nat.le_add_right _ _)

/-- The tree's height asks for no more than the weight of all its leaves. -/
theorem mergeNodes_height {fuel next : Nat} {q : List HufNode} {t : HufTree} (hq : QueueOk next q) (hw : WeightOk q)
    (h : mergeNodes fuel next q = some t) : Nat.fib (t.height + 2) ≤ (q.map HufNode.weight).sum := by
  induction fuel generalizing next q with
  | zero =>
    match q with
    | [] => cases h
    | [x] => cases h; simpa using hw.own x (by simp)
    | _ :: _ :: _ => cases h
  | succ fuel ih =>
    match q with
    | [] => cases h
    | [x] => cases h; simpa using hw.own x (by simp)
    | x :: y :: q =>
      have hperm := enqueue_perm ⟨x.weight + y.weight, next, .node x.tree y.tree⟩ q
      have hlight : ∀ z ∈ q, x.weight ≤ z.weight ∧ y.weight ≤ z.weight := fun z hz => by
        have hx := (List.pairwise_cons.mp hq.sorted).1 z (List.mem_cons_of_mem y hz)
        have hy := (List.pairwise_cons.mp hq.tail.sorted).1 z hz
        rw [before_iff] at hx hy
        omega
      have hle := ih (hq.tail.tail.enqueue rfl) ((hw.merged hlight).perm hperm.symm) h
      rw [(hperm.map HufNode.weight).sum_eq] at hle
      simpa [Nat.add_assoc] using hle

/-! ### `depths(w)` (46_huffman.md R231) -/

theorem leafNodes_eq (w : List Nat) : leafNodes w = (List.range w.length).map fun i => ⟨w.getD i 0, i, .leaf i⟩ := by
  refine List.ext_getElem (by simp [leafNodes]) fun i hi _ => ?_
  have hlt : i < w.length := by simpa [leafNodes] using hi
  simp [leafNodes, hlt]

/-- The queue the merging starts with. -/
def startQueue (w : List Nat) : List HufNode := (leafNodes w).foldr enqueue []

theorem startQueue_perm (w : List Nat) : (startQueue w).Perm (leafNodes w) := enqueueAll_perm _

theorem startQueue_ok (w : List Nat) : QueueOk w.length (startQueue w) := by
  refine ⟨enqueueAll_sorted ?_, fun x hx => ?_⟩
  · rw [leafNodes_eq, List.map_map]
    simpa [Function.comp_def] using List.nodup_range
  · have hmem := (startQueue_perm w).subset hx
    rw [leafNodes_eq] at hmem
    obtain ⟨i, hi, rfl⟩ := List.mem_map.mp hmem
    exact List.mem_range.mp hi

theorem startQueue_weights (w : List Nat) : ((startQueue w).map HufNode.weight).sum = w.sum := by
  rw [((startQueue_perm w).map HufNode.weight).sum_eq]
  simp [leafNodes, Function.comp_def]

theorem startQueue_weightOk {w : List Nat} (hw : ∀ x ∈ w, 1 ≤ x) : WeightOk (startQueue w) := by
  have hleaf : ∀ x ∈ startQueue w, x.tree.height = 0 ∧ 1 ≤ x.weight := fun x hx => by
    have hmem := (startQueue_perm w).subset hx
    rw [leafNodes_eq] at hmem
    obtain ⟨i, hi, rfl⟩ := List.mem_map.mp hmem
    exact ⟨rfl, hw _ (getD_mem (List.mem_range.mp hi))⟩
  refine ⟨fun x hx => ?_, fun x hx y hy => ?_⟩
  · rw [(hleaf x hx).1]
    exact (hleaf x hx).2
  · rw [(hleaf x hx).1]
    exact (hleaf y hy).2

/-- The tree of a list of weights, with its merging. -/
theorem startQueue_tree {w : List Nat} (hw : w ≠ []) :
    ∃ t, mergeNodes w.length w.length (startQueue w) = some t ∧
      Merges w.length ((List.range w.length).map fun i => ⟨w.getD i 0, i, [(i, 0)]⟩) (leafDepths t 0) := by
  have hlen : (startQueue w).length = w.length := (startQueue_perm w).length_eq.trans (by simp [leafNodes])
  obtain ⟨t, ht, hmerges⟩ := mergeNodes_merges (fuel := w.length) (q := startQueue w)
    (fun h => hw (List.length_eq_zero_iff.mp (by rw [← hlen, h]; rfl))) (startQueue_ok w) (by omega)
  refine ⟨t, ht, hmerges.perm (((startQueue_perm w).map _).trans ?_)⟩
  rw [leafNodes_eq, List.map_map]
  exact .refl _

/-- A symbol that has a depth is found with one. -/
theorem lookup_of_mem {depths : List (Nat × Nat)} {i l : Nat} (h : (i, l) ∈ depths) :
    ∃ l', depths.lookup i = some l' ∧ (i, l') ∈ depths := by
  obtain ⟨l', hl'⟩ := Option.isSome_iff_exists.mp (List.lookup_isSome_iff.mpr ⟨(i, l), h, beq_self_eq_true i⟩)
  obtain ⟨before, after, rfl, -⟩ := List.lookup_eq_some_iff.mp hl'
  exact ⟨l', hl', by simp⟩

/-- The builder's depths are those of its tree's leaves. -/
theorem hufDepths_leaves {w : List Nat} (hw : w ≠ []) : ∃ t, mergeNodes w.length w.length (startQueue w) = some t ∧
    Merges w.length ((List.range w.length).map fun i => ⟨w.getD i 0, i, [(i, 0)]⟩) (leafDepths t 0) ∧
    (hufDepths w).length = w.length ∧ ∀ i, i < w.length → (i, (hufDepths w).getD i 0) ∈ leafDepths t 0 := by
  obtain ⟨t, ht, hmerges⟩ := startQueue_tree hw
  have hdepths : hufDepths w = (List.range w.length).map fun i => ((leafDepths t 0).lookup i).getD 0 := by
    rw [hufDepths, ← startQueue, ht]
  refine ⟨t, ht, hmerges, by simp [hdepths], fun i hi => ?_⟩
  obtain ⟨l, hl⟩ := hmerges.leaf (List.mem_map_of_mem (List.mem_range.mpr hi)) (List.mem_singleton_self (i, 0))
  obtain ⟨l', hlookup, hmem⟩ := lookup_of_mem hl
  simpa [hdepths, hi, hlookup] using hmem

/-- The builder's depths are `depths(w)`. -/
theorem hufDepths_isDepths {w : List Nat} (hw : w ≠ []) : IsDepths w (hufDepths w) := by
  obtain ⟨t, -, hmerges, hlen, hleaves⟩ := hufDepths_leaves hw
  exact ⟨hlen, leafDepths t 0, hmerges, hleaves⟩

/-- A depth asks for a total weight of at least a Fibonacci number. -/
theorem fib_le_sum_of_mem_hufDepths {w : List Nat} (hpos : ∀ x ∈ w, 1 ≤ x) {l : Nat} (hl : l ∈ hufDepths w) :
    Nat.fib (l + 2) ≤ w.sum := by
  have hw : w ≠ [] := by
    rintro rfl
    cases hl
  obtain ⟨t, ht, -, hlen, hleaves⟩ := hufDepths_leaves hw
  obtain ⟨i, hi, rfl⟩ := List.mem_iff_getElem.mp hl
  have hheight := leafDepths_le_height (hleaves i (hlen ▸ hi))
  rw [List.getD_eq_getElem _ _ hi, Nat.zero_add] at hheight
  calc Nat.fib ((hufDepths w)[i] + 2) ≤ Nat.fib (t.height + 2) := Nat.fib_mono (Nat.add_le_add_right hheight 2)
    _ ≤ ((startQueue w).map HufNode.weight).sum := mergeNodes_height (startQueue_ok w) (startQueue_weightOk hpos) ht
    _ = w.sum := startQueue_weights w

/-! ### The rounds of `huf_len` (46_huffman.md R231) -/

/-- After `r` rounds every weight is at least 1 and at most 2 more than the largest weight halved `r` times. -/
theorem weightsAfter_bounds (f : List Nat) (r : Nat) :
    ∀ x ∈ weightsAfter f r, 1 ≤ x ∧ x ≤ 2 + maxOf (f.map fun x => max x 1) / 2 ^ r := by
  induction r with
  | zero =>
    intro x hx
    have hle : x ≤ maxOf (f.map fun x => max x 1) := maxOf_le _ x hx
    obtain ⟨y, -, rfl⟩ := List.mem_map.mp hx
    exact ⟨Nat.le_max_right y 1, by simp only [pow_zero, Nat.div_one]; omega⟩
  | succ r ih =>
    intro x hx
    obtain ⟨y, hy, rfl⟩ := List.mem_map.mp hx
    have hle := (ih y hy).2
    rw [pow_succ, ← Nat.div_div_eq_div_mul]
    omega

theorem weightsAfter_length (f : List Nat) (r : Nat) : (weightsAfter f r).length = f.length := by
  induction r with
  | zero => exact List.length_map ..
  | succ r ih => exact (List.length_map ..).trans ih

/-- With at most 258 symbols the depths are within 20 once the rounds have brought the weights down to 2. -/
theorem hufDepths_le_of_rounds {f : List Nat} (hlen : f.length ≤ 258) {r : Nat}
    (hr : (maxOf (f.map fun x => max x 1)).log2 + 2 ≤ r) : ∀ l ∈ hufDepths (weightsAfter f r), l ≤ 20 := by
  intro l hl
  have hsmall : maxOf (f.map fun x => max x 1) / 2 ^ r = 0 :=
    Nat.div_eq_of_lt (Nat.lt_log2_self.trans_le (Nat.pow_le_pow_right (by decide) (by omega)))
  have hbound := weightsAfter_bounds f r
  rw [hsmall] at hbound
  have hfib := fib_le_sum_of_mem_hufDepths (fun x hx => (hbound x hx).1) hl
  have hsum := List.sum_le_card_nsmul (weightsAfter f r) 2 fun x hx => (hbound x hx).2
  rw [weightsAfter_length, smul_eq_mul] at hsum
  by_contra hgt
  have hmono : Nat.fib 23 ≤ Nat.fib (l + 2) := Nat.fib_mono (by omega)
  have h23 : Nat.fib 23 = 28657 := by decide +kernel
  omega

/-- The loop of `huf_len` stops at the first round whose depths stay within 20. -/
theorem hufLenLoop_isBuilt {f : List Nat} (hne : f ≠ []) (hlen : f.length ≤ 258) {fuel r : Nat}
    (hfuel : (maxOf (f.map fun x => max x 1)).log2 + 2 ≤ r + fuel)
    (hbefore : ∀ r', r' < r → ∃ d, IsDepths (weightsAfter f r') d ∧ ∃ l ∈ d, 20 < l) :
    IsBuilt f (hufLenLoop fuel r (weightsAfter f r)).1 (hufLenLoop fuel r (weightsAfter f r)).2 := by
  have hdepths : ∀ r, IsDepths (weightsAfter f r) (hufDepths (weightsAfter f r)) := fun r => hufDepths_isDepths fun h => by
    have hlen' := weightsAfter_length f r
    rw [h] at hlen'
    exact hne (List.length_eq_zero_iff.mp hlen'.symm)
  induction fuel generalizing r with
  | zero => exact ⟨hdepths r, hufDepths_le_of_rounds hlen hfuel, hbefore⟩
  | succ fuel ih =>
    simp only [hufLenLoop]
    split
    case isTrue hmax => exact ⟨hdepths r, fun l hl => (maxOf_le _ l hl).trans hmax, hbefore⟩
    case isFalse hmax =>
      refine ih (r := r + 1) (by omega) fun r' hr' => ?_
      rcases Nat.lt_succ_iff_lt_or_eq.mp hr' with hlt | rfl
      · exact hbefore r' hlt
      · refine ⟨_, hdepths r', maxOf _, maxOf_mem fun h => hmax ?_, Nat.not_le.mp hmax⟩
        rw [h]
        exact Nat.zero_le _

/-- `huf_len` builds the lengths as R231 says. -/
theorem hufLen_isBuilt {f : List Nat} (hne : f ≠ []) (hlen : f.length ≤ 258) : IsBuilt f (hufLen f).1 (hufLen f).2 :=
  hufLenLoop_isBuilt hne hlen (r := 0) (by omega) fun _ h => absurd h (Nat.not_lt_zero _)

end Sys2Proof.Machine

/-! SUPPORT. The canonical codes are those of the loop of R233, and the bits of coded symbols. -/

namespace Sys2Proof.Machine

/-! ### The loop of `huf_codes` (46_huffman.md R233) -/

/-- What one symbol of the loop does. -/
def assignCode (lens : List Nat) (n : Nat) (acc : Nat × List Nat) (i : Nat) : Nat × List Nat :=
  if lens.getD i 0 = n then (acc.1 + 1, acc.2.set i acc.1) else acc

theorem assignLength_eq (lens : List Nat) (n : Nat) (st : Nat × List Nat) : assignLength lens n st =
    (2 * ((List.range lens.length).foldl (assignCode lens n) st).1,
      ((List.range lens.length).foldl (assignCode lens n) st).2) := rfl

/-- The first `m` symbols of the loop at length `n`: those of that length take codes in index order. -/
theorem assignCode_foldl (lens : List Nat) (n : Nat) (st : Nat × List Nat) (hst : st.2.length = lens.length) {m : Nat}
    (hm : m ≤ lens.length) :
    ((List.range m).foldl (assignCode lens n) st).1 = st.1 + (lens.take m).count n ∧
    ((List.range m).foldl (assignCode lens n) st).2.length = lens.length ∧
    ∀ i, ((List.range m).foldl (assignCode lens n) st).2.getD i 0 =
      if i < m ∧ lens.getD i 0 = n then st.1 + (lens.take i).count n else st.2.getD i 0 := by
  induction m with
  | zero => simp [hst]
  | succ m ih =>
    obtain ⟨hval, hlen, hcodes⟩ := ih (by omega)
    rw [List.range_succ, List.foldl_append, List.foldl_cons, List.foldl_nil, assignCode]
    have hget : lens.getD m 0 = lens[m] := List.getD_eq_getElem _ _ (by omega)
    have hcount : (lens.take (m + 1)).count n = (lens.take m).count n + if lens.getD m 0 = n then 1 else 0 := by
      rw [List.take_succ_eq_append_getElem (by omega), List.count_append, hget, List.count_singleton]
      simp
    have hother : ∀ {i}, i ≠ m → (i < m + 1 ↔ i < m) := by omega
    split
    case isTrue hn =>
      rw [if_pos hn] at hcount
      refine ⟨by simp only [hval, hcount, Nat.add_assoc], by simp [hlen], fun i => ?_⟩
      rcases eq_or_ne i m with rfl | hne
      · rw [if_pos ⟨Nat.lt_succ_self i, hn⟩, List.getD_eq_getElem _ _ (by simp; omega), List.getElem_set_self, hval]
      · simp only [hother hne, ← hcodes i]
        simp only [List.getD_eq_getElem?_getD, List.getElem?_set_ne (Ne.symm hne)]
    case isFalse hn =>
      rw [if_neg hn] at hcount
      refine ⟨by omega, hlen, fun i => ?_⟩
      rcases eq_or_ne i m with rfl | hne
      · rw [hcodes i, if_neg fun h => hn h.2, if_neg fun h => hn h.2]
      · simp only [hother hne, hcodes i]

/-- One length of the loop. -/
theorem assignLength_spec (lens : List Nat) (n : Nat) (st : Nat × List Nat) (hst : st.2.length = lens.length) :
    (assignLength lens n st).1 = 2 * (st.1 + lens.count n) ∧ (assignLength lens n st).2.length = lens.length ∧
    ∀ i, i < lens.length → (assignLength lens n st).2.getD i 0 =
      if lens.getD i 0 = n then st.1 + (lens.take i).count n else st.2.getD i 0 := by
  obtain ⟨hval, hlen, hcodes⟩ := assignCode_foldl lens n st hst le_rfl
  rw [List.take_length] at hval
  rw [assignLength_eq]
  exact ⟨congrArg (2 * ·) hval, hlen, fun i hi => by simpa only [hi, true_and] using hcodes i⟩

/-- No code is given before the smallest length. -/
theorem firstCode_eq_zero {lens : List Nat} {n : Nat} (h : ∀ l ∈ lens, n ≤ l) : firstCode lens n = 0 := by
  induction n with
  | zero => rfl
  | succ n ih =>
    have hnone : lens.count n = 0 := List.count_eq_zero.mpr fun hmem => by
      have := h n hmem
      omega
    rw [firstCode, ih fun l hl => by have := h l hl; omega, hnone]

theorem minOf_le {lens : List Nat} {l : Nat} (hl : l ∈ lens) : minOf lens ≤ l := by
  unfold minOf
  cases hmin : lens.min? with
  | none => exact Nat.zero_le _
  | some m => exact (List.min?_eq_some_iff.mp hmin).2 l hl

theorem minOf_mem {lens : List Nat} (h : lens ≠ []) : minOf lens ∈ lens := by
  unfold minOf
  cases hmin : lens.min? with
  | none => exact absurd (List.min?_eq_none_iff.mp hmin) h
  | some m => exact (List.min?_eq_some_iff.mp hmin).1

/-- The loop after `k` lengths from the smallest on: its value is the first code of the next length, and the symbols of
smaller lengths have their codes. -/
theorem canonicalLoop_spec (lens : List Nat) (k : Nat) :
    let st := (List.range' (minOf lens) k).foldl (fun st n => assignLength lens n st) (0, List.replicate lens.length 0)
    st.1 = firstCode lens (minOf lens + k) ∧ st.2.length = lens.length ∧
    ∀ i, i < lens.length → lens.getD i 0 < minOf lens + k → st.2.getD i 0 = codeOf lens i := by
  induction k with
  | zero =>
    refine ⟨(firstCode_eq_zero fun l hl => minOf_le hl).symm, by simp, fun i hi hlt => ?_⟩
    have := minOf_le (getD_mem hi)
    omega
  | succ k ih =>
    obtain ⟨hval, hlen, hcodes⟩ := ih
    obtain ⟨hval', hlen', hcodes'⟩ := assignLength_spec lens (minOf lens + k) _ hlen
    simp only [List.range'_concat, List.foldl_append, List.foldl_cons, List.foldl_nil, Nat.one_mul]
    refine ⟨by rw [hval', hval]; rfl, hlen', fun i hi hlt => ?_⟩
    rw [hcodes' i hi]
    split
    case isTrue heq => rw [hval, ← heq, codeOf]
    case isFalse hne => exact hcodes i hi (by omega)

/-- The model's codes are those of the loop. -/
theorem hufCodes_eq_canonicalCodes (lens : List Nat) : hufCodes lens = canonicalCodes lens := by
  obtain ⟨-, hlen, hcodes⟩ := canonicalLoop_spec lens (maxOf lens + 1 - minOf lens)
  refine List.ext_getElem ((hufCodes_length lens).trans hlen.symm) fun i hi hi' => ?_
  have hlt : i < lens.length := hufCodes_length lens ▸ hi
  have hmax := maxOf_le lens _ (getD_mem hlt)
  have hcode : (canonicalCodes lens).getD i 0 = codeOf lens i := hcodes i hlt (by omega)
  rw [List.getD_eq_getElem _ _ hi'] at hcode
  simpa [hufCodes] using hcode.symm

/-! ### The bits of coded symbols (46_huffman.md R236) -/

/-- A symbol's bits are its canonical code; a symbol outside the table has none. -/
theorem symbolBits_codeTable (lens : List Nat) (x : Nat) : symbolBits (codeTable lens) x = symbolCode lens x := by
  unfold symbolBits symbolCode codeTable
  rw [← hufCodes_eq_canonicalCodes]
  by_cases hx : x < lens.length
  · have hentry : (lens.zip (hufCodes lens))[x]? = some (lens[x], (hufCodes lens)[x]'(by simpa using hx)) := by
      rw [List.getElem?_zip_eq_some]
      simp [hx]
    rw [hentry, List.getD_eq_getElem _ _ hx, List.getD_eq_getElem _ _ (by simpa using hx)]
  · have hlen := Nat.not_lt.mp hx
    rw [List.getElem?_eq_none (by simpa using hlen), List.getD_eq_default _ _ hlen]
    rfl

/-- The symbols of the first group have the first selector's table. -/
theorem groupCodedBits_group (tables : List (List Nat)) (t : Nat) (sel : List Nat) {group : List Nat}
    (h : group.length ≤ 50) :
    groupCodedBits tables (t :: sel) group = group.flatMap (symbolCode (tables.getD t [])) := by
  induction group using List.reverseRecOn with
  | nil => rfl
  | append_singleton group x ih =>
    rw [List.length_append, List.length_singleton] at h
    rw [groupCodedBits_snoc, ih (by omega), List.flatMap_append, Nat.div_eq_of_lt (by omega)]
    simp

/-- After a full group the others have the selectors after the first. -/
theorem groupCodedBits_fullGroup (tables : List (List Nat)) (t : Nat) (sel : List Nat) {group : List Nat}
    (h : group.length = 50) (syms : List Nat) :
    groupCodedBits tables (t :: sel) (group ++ syms) =
      groupCodedBits tables (t :: sel) group ++ groupCodedBits tables sel syms := by
  induction syms using List.reverseRecOn with
  | nil => simp [groupCodedBits]
  | append_singleton syms x ih =>
    have hgroup : (group ++ syms).length / 50 = syms.length / 50 + 1 := by rw [List.length_append]; omega
    rw [← List.append_assoc, groupCodedBits_snoc, ih, groupCodedBits_snoc, hgroup, List.getD_cons_succ, List.append_assoc]

/-- The bits of the first group and of the others. -/
theorem groupCodedBits_cons (tables : List (List Nat)) (t : Nat) (sel syms : List Nat) :
    groupCodedBits tables (t :: sel) syms =
      (syms.take 50).flatMap (symbolCode (tables.getD t [])) ++ groupCodedBits tables sel (syms.drop 50) := by
  rcases Nat.le_total syms.length 50 with hle | hge
  · rw [List.take_of_length_le hle, List.drop_of_length_le hle, groupCodedBits_group _ _ _ hle]
    exact (List.append_nil _).symm
  · have hfull : (syms.take 50).length = 50 := by simpa using hge
    conv_lhs => rw [← List.take_append_drop 50 syms]
    rw [groupCodedBits_fullGroup _ _ _ hfull, groupCodedBits_group _ _ _ hfull.le]

/-- The encoder's bits are the symbols' codes, each with its group's table, when the selectors reach. -/
theorem hufEncBits_eq_groupCodedBits {tables : List (List Nat)} {sel syms : List Nat}
    (h : syms.length ≤ 50 * sel.length) :
    hufEncBits (tables.map codeTable) sel syms = groupCodedBits tables sel syms := by
  induction sel generalizing syms with
  | nil =>
    obtain rfl : syms = [] := List.length_eq_zero_iff.mp (Nat.le_zero.mp h)
    rfl
  | cons t sel ih =>
    have htable : (tables.map codeTable).getD t [] = codeTable (tables.getD t []) := by
      simp only [List.getD_eq_getElem?_getD, List.getElem?_map]
      cases tables[t]? <;> rfl
    have hcode : symbolBits (codeTable (tables.getD t [])) = symbolCode (tables.getD t []) :=
      funext (symbolBits_codeTable _)
    have hrest : (syms.drop 50).length ≤ 50 * sel.length := by
      rw [List.length_cons] at h
      rw [List.length_drop]
      omega
    rw [hufEncBits, groupCodedBits_cons, htable, hcode, ← ih hrest]

end Sys2Proof.Machine

/-! SUPPORT. The encoder's plan: its groups, its tables and its assignments are those of R242. -/

namespace Sys2Proof.Machine

/-! ### Groups (46_huffman.md R236) -/

theorem symbolGroups_eq (n : Nat) (syms : List Nat) : symbolGroups n syms = (List.range n).map (symbolGroup syms) := by
  induction n generalizing syms with
  | zero => rfl
  | succ n ih =>
    have hnext : ∀ g, symbolGroup (syms.drop 50) g = symbolGroup syms (g + 1) := fun g => by
      rw [symbolGroup, symbolGroup, List.drop_drop, Nat.mul_add_one, Nat.add_comm]
    rw [symbolGroups, ih, List.range_succ_eq_map, List.map_cons, List.map_map]
    exact congrArg (_ :: ·) (List.map_congr_left fun g _ => hnext g)

/-- The groups with their selectors. -/
theorem groups_zip (syms sel : List Nat) : (symbolGroups sel.length syms).zip sel =
    (List.range sel.length).map fun g => (symbolGroup syms g, sel.getD g 0) := by
  rw [symbolGroups_eq]
  refine List.ext_getElem (by simp) fun g hg _ => ?_
  have hlt : g < sel.length := by simpa using hg
  simp [hlt]

/-! ### Tables and assignments (46_huffman.md R242) -/

/-- The symbols of the groups that select table `t`. -/
def tableSymbols (syms sel : List Nat) (t : Nat) : List Nat :=
  (((symbolGroups sel.length syms).zip sel).filter fun p => p.2 == t).flatMap (·.1)

/-- How often each symbol occurs in the groups that select table `t`. -/
def tableFrequencies (a : Nat) (syms sel : List Nat) (t : Nat) : List Nat :=
  (List.range a).map fun x => (tableSymbols syms sel t).count x

theorem planTables_eq (a nGroups : Nat) (syms sel : List Nat) : planTables a nGroups (symbolGroups sel.length syms) sel =
    (List.range nGroups).map fun t => (hufLen (tableFrequencies a syms sel t)).1 := rfl

/-- The occurrences of a symbol are summed over the groups. -/
theorem count_tableSymbols (syms sel : List Nat) (t x : Nat) : (tableSymbols syms sel t).count x =
    (((List.range sel.length).filter fun g => sel.getD g 0 == t).map fun g => (symbolGroup syms g).count x).sum := by
  rw [tableSymbols, List.count_flatMap, groups_zip, List.filter_map, List.map_map]
  rfl

/-- The tables are built from the occurrences in the groups that select them. -/
theorem planTables_isTables {a : Nat} (ha : 1 ≤ a) (ha' : a ≤ 258) (nGroups : Nat) (syms sel : List Nat) :
    IsTables syms a nGroups sel (planTables a nGroups (symbolGroups sel.length syms) sel) := by
  rw [planTables_eq]
  refine ⟨by simp, fun t ht => ⟨tableFrequencies a syms sel t, (hufLen (tableFrequencies a syms sel t)).2, ?_, ?_, ?_⟩⟩
  · simp [tableFrequencies]
  · intro x hx
    rw [← count_tableSymbols]
    simp [tableFrequencies, hx]
  · have hlen : (tableFrequencies a syms sel t).length = a := by simp [tableFrequencies]
    have hbuilt := hufLen_isBuilt (f := tableFrequencies a syms sel t)
      (List.length_pos_iff.mp (by omega)) (by omega)
    simpa [ht] using hbuilt

/-- The lowest index of a least element. -/
theorem indexOfMin_spec {xs : List Nat} (h : xs ≠ []) : indexOfMin xs < xs.length ∧
    (∀ u, u < xs.length → xs.getD (indexOfMin xs) 0 ≤ xs.getD u 0) ∧
    ∀ u, u < indexOfMin xs → xs.getD (indexOfMin xs) 0 < xs.getD u 0 := by
  have hlt : indexOfMin xs < xs.length := List.idxOf_lt_length_iff.mpr (minOf_mem h)
  have hmin : xs.getD (indexOfMin xs) 0 = minOf xs := by
    rw [List.getD_eq_getElem _ _ hlt]
    exact List.getElem_idxOf hlt
  refine ⟨hlt, fun u hu => hmin ▸ minOf_le (getD_mem hu), fun u hu => ?_⟩
  have hlen : u < xs.length := hu.trans hlt
  rw [hmin]
  refine Nat.lt_of_le_of_ne (minOf_le (getD_mem hlen)) fun heq => ?_
  have hfirst := List.not_of_lt_findIdx (p := (· == minOf xs)) hu
  rw [List.getD_eq_getElem _ _ hlen] at heq
  simp [← heq] at hfirst

/-- The bits a group costs with each table. -/
def tableCosts (tables : List (List Nat)) (group : List Nat) : List Nat := tables.map fun lens => groupCost lens group

theorem tableCosts_getD {tables : List (List Nat)} {u : Nat} (hu : u < tables.length) (syms : List Nat) (g : Nat) :
    (tableCosts tables (symbolGroup syms g)).getD u 0 = groupBits syms tables g u := by
  simp [tableCosts, groupBits, groupCost, hu]

/-- Each group goes to its cheapest table, the lowest of several. -/
theorem reassign_isAssignment {nGroups : Nat} (hn : 1 ≤ nGroups) (syms : List Nat) {tables : List (List Nat)}
    (ht : tables.length = nGroups) : IsAssignment syms nGroups tables
      (reassign (symbolGroups (groupCount syms.length) syms) tables) := by
  have hlen : (reassign (symbolGroups (groupCount syms.length) syms) tables).length = groupCount syms.length := by
    simp [reassign, symbolGroups_eq]
  refine ⟨hlen, fun g hg => ?_⟩
  have hcosts : (tableCosts tables (symbolGroup syms g)).length = nGroups := by simp [tableCosts, ht]
  have hsel : (reassign (symbolGroups (groupCount syms.length) syms) tables).getD g 0 =
      indexOfMin (tableCosts tables (symbolGroup syms g)) := by
    rw [hlen] at hg
    simp [reassign, symbolGroups_eq, hg, tableCosts]
  have hcost : ∀ u, u < nGroups → (tableCosts tables (symbolGroup syms g)).getD u 0 = groupBits syms tables g u :=
    fun u hu => tableCosts_getD (ht ▸ hu) syms g
  obtain ⟨hlt, hle, hfirst⟩ := indexOfMin_spec (xs := tableCosts tables (symbolGroup syms g)) (List.length_pos_iff.mp (by omega))
  rw [hcosts] at hlt hle
  rw [hsel]
  refine ⟨hlt, fun u hu => ?_, fun u hu => ?_⟩
  · rw [← hcost _ hlt, ← hcost u hu]
    exact hle u hu
  · rw [← hcost _ hlt, ← hcost u (hu.trans hlt)]
    exact hfirst u hu

/-! ### Refinement (46_huffman.md R242) -/

/-- The passes of the plan are those of the rule, and select tables there are. -/
theorem refinePlan_isRefined {a nGroups : Nat} (ha : 1 ≤ a) (ha' : a ≤ 258) (hn : 1 ≤ nGroups) (syms : List Nat) (n : Nat)
    {sel : List Nat} (hlen : sel.length = groupCount syms.length) (hsel : ∀ x ∈ sel, x < nGroups) :
    let sel' := refinePlan a nGroups (symbolGroups (groupCount syms.length) syms) n sel
    IsRefined syms a nGroups n sel sel' ∧ sel'.length = groupCount syms.length ∧ ∀ x ∈ sel', x < nGroups := by
  induction n generalizing sel with
  | zero => exact ⟨rfl, hlen, hsel⟩
  | succ n ih =>
    have htables := planTables_isTables ha ha' nGroups syms sel
    rw [hlen] at htables
    have hassigned := reassign_isAssignment hn syms htables.1
    have ⟨hlen', hbest⟩ := hassigned
    obtain ⟨hrefined, hends⟩ := ih hlen' fun x hx => by
      obtain ⟨g, hg, rfl⟩ := List.mem_iff_getElem.mp hx
      have hlt := (hbest g hg).1
      rwa [List.getD_eq_getElem _ _ hg] at hlt
    exact ⟨⟨_, _, htables, hassigned, hrefined⟩, hends⟩

theorem planGroupCount_bounds (n : Nat) : 2 ≤ planGroupCount n ∧ planGroupCount n ≤ 6 := by
  unfold planGroupCount
  split_ifs <;> omega

/-- `huf_plan` plans as R242 says. -/
theorem hufPlan_isPlan {a : Nat} (ha : 1 ≤ a) (ha' : a ≤ 258) (syms : List Nat) :
    let plan := hufPlan syms a
    IsPlan syms a plan.1 plan.2.1 plan.2.2 ∧ plan.2.1.length = groupCount syms.length ∧ ∀ x ∈ plan.2.1, x < plan.1 := by
  have hn := planGroupCount_bounds syms.length
  have hstart : ∀ x ∈ (List.range (groupCount syms.length)).map
      fun g => g * planGroupCount syms.length / groupCount syms.length, x < planGroupCount syms.length := by
    intro x hx
    obtain ⟨g, hg, rfl⟩ := List.mem_map.mp hx
    have hlt := List.mem_range.mp hg
    rw [Nat.div_lt_iff_lt_mul (by omega), Nat.mul_comm]
    exact Nat.mul_lt_mul_of_pos_left hlt (by omega)
  obtain ⟨hrefined, hlen, hlow⟩ := refinePlan_isRefined ha ha' (by omega) syms Config.nIters (by simp) hstart
  refine ⟨⟨rfl, hrefined, ?_⟩, hlen, hlow⟩
  have htables := planTables_isTables ha ha' (planGroupCount syms.length) syms (hufPlan syms a).2.1
  rwa [show (hufPlan syms a).2.1.length = groupCount syms.length from hlen] at htables

end Sys2Proof.Machine

/-! SUPPORT. The fields of a block and of a stream: the assembler's bits are those of the wire format, and STREAM_ENC. -/

namespace Sys2Proof.Machine

/-! ### The used map (30_encoding.md R113) -/

/-- A value is used when a byte of the block has it. -/
theorem usedBytes_contains (block : List Byte) {n : Nat} (hn : n < 256) :
    (usedBytes block).contains (BitVec.ofNat 8 n) = block.any fun b => b.toNat == n := by
  rw [Bool.eq_iff_iff, List.contains_iff_mem, mem_usedBytes_iff, List.any_eq_true]
  constructor
  · intro h
    exact ⟨_, h, by simp [Nat.mod_eq_of_lt hn]⟩
  · rintro ⟨b, hb, heq⟩
    rw [← beq_iff_eq.mp heq]
    simpa using hb

theorem usedRangeBits_eq (block : List Byte) {i : Nat} (hi : i < 16) : usedRangeBits (usedBytes block) i =
    (List.range 16).map fun j => block.any fun b => b.toNat == 16 * i + j :=
  List.map_congr_left fun j hj => usedBytes_contains block (by have := List.mem_range.mp hj; omega)

/-- A range has a value that is used when a byte of the block lies in it. -/
theorem usedRangeBits_any (block : List Byte) {i : Nat} (hi : i < 16) :
    (usedRangeBits (usedBytes block) i).any id = block.any fun b => b.toNat / 16 == i := by
  rw [usedRangeBits_eq block hi, Bool.eq_iff_iff]
  simp only [List.any_map, List.any_eq_true, List.mem_range, Function.comp_apply, id_eq, beq_iff_eq]
  constructor
  · rintro ⟨j, hj, b, hb, heq⟩
    exact ⟨b, hb, by omega⟩
  · rintro ⟨b, hb, heq⟩
    exact ⟨b.toNat % 16, Nat.mod_lt _ (by decide), b, hb, by omega⟩

/-- The used map the assembler writes is that of the wire format. -/
theorem usedBits_usedBytes (block : List Byte) : usedBits (usedBytes block) = usedRanges block ++ usedValues block := by
  have hany : ∀ i ∈ List.range 16, (usedRangeBits (usedBytes block) i).any id = block.any fun b => b.toNat / 16 == i :=
    fun i hi => usedRangeBits_any block (List.mem_range.mp hi)
  simp only [usedBits, usedRanges, usedValues, List.map_map, List.filter_map, List.flatMap]
  refine congrArg₂ (· ++ ·) (List.map_congr_left hany) (congrArg List.flatten ?_)
  rw [show (fun r : List Bool => r.any id) ∘ usedRangeBits (usedBytes block) =
    fun i => (usedRangeBits (usedBytes block) i).any id from rfl, List.filter_congr hany]
  exact List.map_congr_left fun i hi => usedRangeBits_eq block (List.mem_range.mp (List.mem_of_mem_filter hi))

/-! ### Selectors and code lengths (30_encoding.md R114, R115) -/

theorem bitsMSB_ones (j : Nat) : bitsMSB (2 ^ j - 1) j = List.replicate j true := by
  induction j with
  | zero => rfl
  | succ j ih =>
    have hpos := Nat.one_le_two_pow (n := j)
    rw [show 2 ^ (j + 1) - 1 = 2 * (2 ^ j - 1) + true.toNat by rw [pow_succ, Bool.toNat_true]; omega, bitsMSB_snoc, ih,
      List.replicate_succ']

theorem bitsMSB_unary (j : Nat) : bitsMSB (2 ^ (j + 1) - 2) (j + 1) = List.replicate j true ++ [false] := by
  have hpos := Nat.one_le_two_pow (n := j)
  rw [show 2 ^ (j + 1) - 2 = 2 * (2 ^ j - 1) + false.toNat by rw [pow_succ, Bool.toNat_false]; omega, bitsMSB_snoc,
    bitsMSB_ones]

theorem selectorBitsFrom_eq {lst sel : List Nat} (h : ∀ x ∈ sel, x ∈ lst) :
    selectorBitsFrom lst sel = unaryPositions lst sel := by
  induction sel generalizing lst with
  | nil => rfl
  | cons x sel ih =>
    rw [List.forall_mem_cons] at h
    rw [selectorBitsFrom, unaryPositions_cons, bitsMSB_unary, moveFront_idxOf h.1,
      ih fun y hy => (mem_moveToFront h.1).mpr (h.2 y hy), List.append_assoc]
    rfl

/-- The selectors the assembler writes are those of the wire format. -/
theorem selectorBits_eq {nGroups : Nat} {sel : List Nat} (h : ∀ x ∈ sel, x < nGroups) :
    selectorBits nGroups sel = selectorField nGroups sel :=
  selectorBitsFrom_eq fun x hx => List.mem_range.mpr (h x hx)

theorem lengthBitsFrom_eq (cur : Nat) (lens : List Nat) :
    lengthBitsFrom cur lens = ((cur :: lens).zip lens).flatMap fun p => stepBits p.1 p.2 := by
  induction lens generalizing cur with
  | nil => rfl
  | cons l lens ih => rw [lengthBitsFrom, ih, List.zip_cons_cons, List.flatMap_cons]

/-- The code lengths the assembler writes are those of the wire format. -/
theorem lengthBits_eq (lens : List Nat) : lengthBits lens = lengthField lens := by
  rw [lengthBits, lengthBitsFrom_eq]
  rfl

/-! ### The block (30_encoding.md R112) -/

/-- The assembler's bits are the fields of the block, with what it reports. -/
theorem blockCode_isBlockBits {block : List Byte} (h : block ≠ []) (crc : Word) :
    let code := blockCode block crc
    IsBlockBits block crc code.bits code.origPtr code.nGroups code.nSel := by
  have horder := sortedIndices_isRotationOrder block
  have hlast := lastColumn_isLastColumn (sortedIndices_length block)
  have hused : usedBytes (lastColumn block (sortedIndices block)) = usedBytes block :=
    usedBytes_congr (mem_lastColumn_iff horder.1)
  have hmtf := mtfEnc_isMtfCode (lastColumn block (sortedIndices block))
  rw [hused] at hmtf
  obtain ⟨hplan, hnSel, hsel⟩ := hufPlan_isPlan (a := (usedBytes block).length + 2) (by omega)
    (by have := usedBytes_length_le block; omega) (mtfEnc (lastColumn block (sortedIndices block)))
  refine ⟨_, _, _, _, _, horder, hlast, sortedIndices_originRow h, hmtf, hplan, ?_, ?_⟩
  · simp only [blockCode, hused]
  · have hgroups : (mtfEnc (lastColumn block (sortedIndices block))).length ≤
        50 * (hufPlan (mtfEnc (lastColumn block (sortedIndices block))) ((usedBytes block).length + 2)).2.1.length := by
      rw [hnSel, groupCount]
      omega
    simp only [blockCode, hused, usedBits_usedBytes, selectorBits_eq hsel, hufEncBits_eq_groupCodedBits hgroups,
      List.append_assoc]
    rw [show lengthBits = lengthField from funext lengthBits_eq]

/-! ### The stream (30_encoding.md R110, 47_block_stream.md R280) -/

/-- The bits of a block of chunks. -/
def pieceBits (g : List Chunk) : List Bool := (blockCode (g.flatMap runCode) (chunksCrc g)).bits

/-- The bits of the blocks follow one another, and their CRCs are folded in order. -/
theorem blocksCode_eq (comb : Word) (groups : List (List Chunk)) : blocksCode comb groups =
    ((groups.map pieceBits).flatten,
      groups.foldl (fun (c : Word) g => ((c <<< 1) ||| (c >>> 31)) ^^^ chunksCrc g) comb) := by
  induction groups generalizing comb with
  | nil => rfl
  | cons g groups ih =>
    rw [blocksCode, ih, show chunkCode = runCode from funext chunkCode_eq]
    rfl

/-- A chunk of a block is a chunk of the input, so that no block is empty. -/
theorem block_ne_nil {bytes : List Byte} {cs : List Chunk} {groups : List (List Chunk)} {lim : Nat}
    (hcs : IsChunks bytes cs) (hgroups : IsBlockSplit lim cs groups) {g : List Chunk} (hg : g ∈ groups) :
    g.flatMap runCode ≠ [] := by
  obtain ⟨c, hc⟩ := List.exists_mem_of_ne_nil g (hgroups.bounds g hg).1
  have hbounds := hcs.bounds c (hgroups.whole ▸ List.mem_flatten_of_mem hg hc)
  intro hnil
  have hcode := List.flatMap_eq_nil_iff.mp hnil c hc
  have hlen := (runCode_length hbounds.1).1
  rw [hcode] at hlen
  exact absurd hlen (by decide)

/-- 'B' 'Z' 'h' (30_encoding.md R110). -/
theorem headerBits_eq : bitsMSB 0x425A68 24 = bitsMSB 0x42 8 ++ bitsMSB 0x5A 8 ++ bitsMSB 0x68 8 := by decide

/-- The encoder's stream is the stream of the bytes. -/
theorem streamCode_isStreamBits (bytes : List Byte) {k : Nat} (hk : 1 ≤ k) :
    let code := streamCode bytes k
    IsStreamBits bytes k code.1 code.2.1 code.2.2 := by
  have hchunks := chunks_isChunks bytes
  have hsplit := splitBlocks_isBlockSplit (lim := blockMax k) (cs := chunks bytes) fun c hc =>
    (runCode_length (hchunks.bounds c hc).1).2.trans (by simp only [blockMax, Config.blockUnit]; omega)
  refine ⟨chunks bytes, splitBlocks (blockMax k) (chunks bytes), (splitBlocks (blockMax k) (chunks bytes)).map pieceBits,
    hchunks, hsplit, rfl, List.length_map _, fun j hj => ?_, ?_, ?_⟩
  · have hlt : j < (splitBlocks (blockMax k) (chunks bytes)).length := hj
    rw [List.getD_eq_getElem _ _ hlt, List.getD_eq_getElem _ _ (by simpa using hlt), List.getElem_map]
    exact ⟨_, _, _, blockCode_isBlockBits (block_ne_nil hchunks hsplit (List.getElem_mem hlt)) _⟩
  · simp only [streamCode, blocksCode_eq]
  · simp only [streamCode, blocksCode_eq, headerBits_eq]

/-! ### STREAM_ENC (47_block_stream.md R280) -/

/-- A command that stores one byte string stores it, its WR area and nothing else, when the string keeps off the area. -/
theorem finish_stored_bytes {s u : State} {wr : Option Word} {a : Nat} {bytes : List Byte}
    (hmem : u.mem = s.mem.writeBytes a bytes)
    (hwr : ∀ w, wr = some w → (Span.mk a bytes.length).disjoint (resultSpan w) = true) :
    Stored s (finish wr u) [(a, bytes)] wr := by
  have hrest := finish_stored_nothing wr (s := u) rfl
  refine ⟨fun p hp => ?_, hrest.resultArea, fun b hb hwrb => ?_⟩
  · obtain rfl := List.mem_singleton.mp hp
    have hkeep : (finish wr u).mem.readBytes a bytes.length = u.mem.readBytes a bytes.length :=
      readBytes_congr fun i hi => hrest.frame _ (by simp) fun w hw hin =>
        (disjoint_iff _ _).mp (hwr w hw) (a + i) ⟨⟨Nat.le_add_right a i, Nat.add_lt_add_left hi a⟩, hin⟩
    rw [hkeep, hmem, readBytes_writeBytes_same]
  · have hout := hb _ (List.mem_singleton_self _)
    rw [hrest.frame b (by simp) hwrb, hmem, read_writeBytes_outside (by simp only at hout; omega)]

/-- What STREAM_ENC does with its ranges in order. -/
theorem exec_streamEnc_of_inOrder {s : State} {k : Nat} {src len dst cap : Word} {wr : Option Word} (hk : 1 ≤ k)
    (hk' : k ≤ 9) (h : operandsInOrder s [wordSpan src len] [wordSpan dst cap] [] [] wr = true) :
    exec (.streamEnc k src len dst cap wr) s = .next
      (match packStream cap.toNat (streamCode (s.mem.readBytes src.toNat len.toNat) k).1 with
      | .ok out => finish wr (setResults out.length (streamCode (s.mem.readBytes src.toNat len.toNat) k).2.1
          (streamCode (s.mem.readBytes src.toNat len.toNat) k).2.2.toNat 0 (storeBytes dst.toNat out s))
      | .error e => failSpans [⟨dst.toNat, cap.toNat⟩] e s) := by
  have hc : (instrPlan (.streamEnc k src len dst cap wr) s).check s.platform = none := by
    refine check_of_operandsInOrder ⟨hk, hk'⟩ h ?_ ?_ ?_ ?_
    · cases wr <;> rfl
    · cases wr <;> rfl
    · cases wr <;> simp [operandTable, resultOperand, wrSpans, resultSpan]
    · simp [operandTable, resultOperand]
  simp only [exec]
  exact guarded_of_none hc

/-- The error stop that leaves spans unspecified. -/
theorem failSpans_failedWith (spans : List Span) (e : EngineError) (s : State) :
    FailedWith s (failSpans spans e s) e.code.number (BitVec.ofNat 32 e.info) (BitVec.ofNat 32 e.pos) spans := by
  have hframe : ∀ a, (∀ sp ∈ spans, ¬(sp.addr ≤ a ∧ a < sp.addr + sp.len)) →
      (failSpans spans e s).mem.read a = s.mem.read a := fun a ha =>
    havocSpans_read_outside fun sp hsp => (contains_eq_false_iff sp a).mpr (by have := ha sp hsp; omega)
  exact ⟨⟨by simp, by simp, by simp, by simp, by simp, by simp, by simp, by simp⟩, by simp, by simp, by simp, hframe⟩

/-- The bytes a command stores at its destination keep off its WR area. -/
theorem stored_disjoint_resultSpan {s : State} {src len dst cap : Word} {wr : Option Word}
    (h : operandsInOrder s [wordSpan src len] [wordSpan dst cap] [] [] wr = true) {n : Nat} (hn : n ≤ cap.toNat)
    {w : Word} (hw : wr = some w) : (Span.mk dst.toNat n).disjoint (resultSpan w) = true := by
  subst hw
  simp only [operandsInOrder, Bool.and_eq_true, apartAll_iff] at h
  obtain ⟨⟨-, hapart⟩, -⟩ := h
  have hdst : (wordSpan dst cap).disjoint (resultSpan w) = true :=
    (List.pairwise_cons.mp hapart).1 _ (by simp [wrSpans])
  rw [disjoint_iff] at hdst ⊢
  intro a ha
  exact hdst a ⟨⟨ha.1.1, ha.1.2.trans_le (Nat.add_le_add_left hn _)⟩, ha.2⟩

/-- Settles O57: the stream code is the stream of the bytes, and packing it stores it or finds it too long. -/
theorem streamEncWrites : Obligations.StreamEncWrites := by
  intro s k src len dst cap wr hk hk' h
  refine ⟨_, _, _, streamCode_isStreamBits _ hk, ?_⟩
  rw [exec_streamEnc_of_inOrder hk hk' h]
  rcases packStream_cases cap.toNat (streamCode (s.mem.readBytes src.toNat len.toNat) k).1 with
    ⟨hfit, out, hout, hlen, hbits⟩ | ⟨hlong, hout⟩
  · refine ⟨fun _ => ?_, fun hlong => absurd hfit (Nat.not_le.mpr hlong)⟩
    rw [hout]
    refine ⟨_, out, rfl, finish_completedNext wr rfl, hlen, hbits, ?_, ?_, ?_, ?_⟩
    · exact finish_stored_bytes rfl fun w hw => stored_disjoint_resultSpan h (hlen.trans_le hfit) hw
    · simp [setResults]
    · rw [finish_bw]; rfl
    · rw [finish_br]; rfl
  · refine ⟨fun hfit => absurd hfit (Nat.not_le.mpr hlong), fun _ => ?_⟩
    rw [hout]
    exact ⟨_, rfl, failSpans_failedWith ..⟩

end Sys2Proof.Machine

/-! SUPPORT. The control commands: NOP, END and JUMP complete, and a JUMP to its own address. -/

namespace Sys2Proof.Machine

/-! ### NOP, END and JUMP complete (40_control.md R140, R141, R142) -/

/-- A command whose only range is its WR area passes its checks when the area is in order. -/
theorem planNone_check_of_inOrder {s : State} {wr : Option Word} (h : operandsInOrder s [] [] [] [] wr = true) :
    (planNone.withResults wr).check s.platform = none := by
  refine check_of_operandsInOrder (i := .nop wr) trivial h ?_ ?_ ?_ ?_
  · cases wr <;> rfl
  · cases wr <;> rfl
  · cases wr <;> simp [operandTable, resultOperand, wrSpans, resultSpan]
  · simp [operandTable, resultOperand]

theorem exec_nop_of_inOrder {s : State} {wr : Option Word} (h : operandsInOrder s [] [] [] [] wr = true) :
    exec (.nop wr) s = .next (finish wr s) := by
  simp only [exec]
  exact guarded_of_none (planNone_check_of_inOrder h)

theorem exec_endRun_of_inOrder {s : State} {wr : Option Word} (h : operandsInOrder s [] [] [] [] wr = true) :
    exec (.endRun wr) s = .next (stopDone (complete wr s)) := by
  simp only [exec]
  exact guarded_of_none (planNone_check_of_inOrder h)

theorem exec_jump_of_inOrder {s : State} {wr : Option Word} (target : Word)
    (h : operandsInOrder s [] [] [] [] wr = true) :
    exec (.jump target wr) s = .next (jumpTo target (complete wr s)) := by
  simp only [exec]
  exact guarded_of_none (planNone_check_of_inOrder h)

/-- Only memory and RESULT decide what a command has stored. -/
theorem Stored.of_eq {s t t' : State} {pieces : List (Nat × List Byte)} {wr : Option Word} (h : Stored s t pieces wr)
    (hmem : t'.mem = t.mem) (hresults : t'.results = t.results) : Stored s t' pieces wr := by
  refine ⟨?_, ?_, ?_⟩ <;> rw [hmem]
  · exact h.stored
  · rw [hresults]; exact h.resultArea
  · exact h.frame

/-- The common completion steps store the RESULT words in the WR area and nothing else. -/
theorem complete_stored_nothing (wr : Option Word) (s : State) : Stored s (complete wr s) [] wr :=
  (finish_stored_nothing wr rfl).of_eq (finish_mem wr s).symm (by simp)

/-- Settles O26: the checks pass, so each command runs the common completion steps and its own effect on DP, DONE, BUSY. -/
theorem controlCommandsComplete : Obligations.ControlCommandsComplete := by
  intro s wr target h
  have hstored := complete_stored_nothing wr s
  refine ⟨⟨_, exec_nop_of_inOrder h, ?nop⟩, ⟨_, exec_endRun_of_inOrder h, ?endRun⟩,
    ⟨_, exec_jump_of_inOrder target h, ?jump⟩⟩
  case nop => exact ⟨finish_completedNext wr rfl, finish_stored_nothing wr rfl, by simp⟩
  case endRun =>
    have hcompleted : Completed s (stopDone (complete wr s)) s.dp := by constructor <;> simp
    exact ⟨hcompleted, rfl, rfl, hstored.of_eq rfl rfl, by simp⟩
  case jump =>
    have hcompleted : Completed s (jumpTo target (complete wr s)) target := by constructor <;> simp
    exact ⟨hcompleted, by simp, by simp, hstored.of_eq rfl rfl, by simp⟩

/-! ### A JUMP to its own address (40_control.md R142) -/

/-- A fetch in order answers the command that the descriptor at DP decodes to (60_exceptions.md R310). -/
theorem fetchCommand_of_inOrder {s : State} {i : Instr} {rest : List Byte} (h : FetchInOrder s)
    (hdecode : decodeBytes (s.mem.readBytes s.dp.toNat 32) = .ok (i, rest)) : fetchCommand s = .ok i := by
  obtain ⟨haligned, hspace, hadmits⟩ := h
  have hwraps : (descriptorSpan s).wraps = false := decide_eq_false hspace.not_gt
  have hadmitted : s.platform.admitsSpan (descriptorSpan s) = true := (admissionIsPerByte _ _).mpr hadmits
  simp [fetchCommand, haligned, hwraps, hadmitted, hdecode]

/-- A command without ranges leaves the run's log as it is. -/
theorem noteCommand_of_noRanges {s : State} (h : commandRanges s = ⟨[], []⟩) : noteCommand s = s := by
  rw [noteCommand, h]
  rfl

theorem step_of_noInputs {s : State} (h : s.inputs = []) : step s = engineStep s := by
  rw [step, h]

/-- A JUMP to DP without WR is counted and changes nothing else. -/
theorem step_jump_to_itself {s : State} (hbusy : s.busy = true) (hinputs : s.inputs = [])
    (hfetch : fetchCommand s = .ok (.jump s.dp none)) : step s = .next { s with cmdcount := s.cmdcount + 1 } := by
  have hnote : noteCommand s = s := noteCommand_of_noRanges (commandRanges_of_fetch hfetch)
  rw [step_of_noInputs hinputs, engineStep, if_pos hbusy, hfetch]
  simp only [hnote]
  exact exec_jump_of_inOrder (wr := none) s.dp rfl

theorem run_succ_of_step {M : Host.Core} {s t : M.State} (h : M.step s = .next t) (n : Nat) :
    M.run (n + 1) s = M.run n t := by
  rw [Host.Core.run, h]

/-- Each step of the loop meets the same JUMP, since the fetch does not depend on CMDCOUNT. -/
theorem run_jump_to_itself {s : State} (hbusy : s.busy = true) (hinputs : s.inputs = [])
    (hfetch : fetchCommand s = .ok (.jump s.dp none)) (n : Nat) :
    Host.Core.run Sys2Proof.core n s = .next { s with cmdcount := s.cmdcount + BitVec.ofNat 32 n } := by
  induction n generalizing s with
  | zero => simp [Host.Core.run]
  | succ n ih =>
    have hstep : Sys2Proof.core.step s = .next { s with cmdcount := s.cmdcount + 1 } :=
      step_jump_to_itself hbusy hinputs hfetch
    have hcount : s.cmdcount + BitVec.ofNat 32 (n + 1) = s.cmdcount + 1 + BitVec.ofNat 32 n := by
      rw [BitVec.add_assoc, Nat.add_comm n 1, BitVec.ofNat_add]
      rfl
    rw [hcount]
    refine (run_succ_of_step hstep n).trans ?_
    exact ih (s := { s with cmdcount := s.cmdcount + 1 }) hbusy hinputs hfetch

/-- Settles O11: the fetch finds the JUMP at every step, so every step is the one before, counted. -/
theorem jumpToItselfNeverStops : Obligations.JumpToItselfNeverStops := by
  intro s rest hbusy hinputs hfetch hdecode n
  exact ⟨_, run_jump_to_itself hbusy hinputs (fetchCommand_of_inOrder hfetch hdecode) n, rfl⟩

end Sys2Proof.Machine

/-! SUPPORT. The bit writer and reader commands: INIT, and what an append leaves when it fits and when it does not. -/

namespace Sys2Proof.Machine

/-! ### BW_INIT and BR_INIT (41_bitstream.md R152, R155) -/

/-- A command that only probes one buffer passes its checks when the buffer and the WR area are in order. -/
theorem probe_check_of_inOrder {s : State} {i : Instr} {base len : Word} {wr : Option Word} (hlegal : LegalValues i)
    (htable : operandTable i s = ⟨.probe, wordSpan base len, 1⟩ :: wr.toList.map fun w => ⟨.write, resultSpan w, 7⟩)
    (h : operandsInOrder s [] [] [] [] wr = true) (hwrap : base.toNat + len.toNat ≤ 4294967296)
    (hadmit : ∀ a, base.toNat ≤ a → a < base.toNat + len.toNat → s.platform.admits a = true) :
    (instrPlan i s).check s.platform = none := by
  refine check_of_operandsInOrder hlegal h ?_ ?_ ?_ ?_
  · rw [readSpans, Plan.spansOf, instrPlan_ranges, htable]
    cases wr <;> rfl
  · rw [writeSpans, Plan.spansOf, instrPlan_ranges, htable]
    cases wr <;> rfl
  · rw [htable]
    cases wr <;> simp [wrSpans]
  · rw [htable]
    intro r hr haccess
    rcases List.mem_cons.mp hr with rfl | hr
    · exact ⟨decide_eq_false hwrap.not_gt, (admissionIsPerByte _ _).mpr hadmit⟩
    · obtain ⟨w, -, rfl⟩ := List.mem_map.mp hr
      cases haccess

/-- Settles O27: the probed buffer is in order, so each INIT sets its cursor and completes. -/
theorem initCommandsSetCursors : Obligations.InitCommandsSetCursors := by
  intro s base len wr h hwrap hadmit
  have hbw : exec (.bwInit base len wr) s = .next (finish wr { s with bw := ⟨base, len, 0, 0, 0⟩ }) := by
    simp only [exec]
    exact guarded_of_none (probe_check_of_inOrder (i := .bwInit base len wr) trivial rfl h hwrap hadmit)
  have hbr (hlen : len.toNat < 2 ^ 29) :
      exec (.brInit base len wr) s = .next (finish wr { s with br := ⟨base, len, 0⟩ }) := by
    simp only [exec]
    exact guarded_of_none (probe_check_of_inOrder (i := .brInit base len wr) hlen rfl h hwrap hadmit)
  exact ⟨⟨_, hbw, finish_completedNext wr rfl, finish_stored_nothing wr rfl, by simp⟩,
    fun hlen => ⟨_, hbr hlen, finish_completedNext wr rfl, finish_stored_nothing wr rfl, by simp⟩⟩

/-! ### Appending to the bit writer (41_bitstream.md R150, R153, R154) -/

/-- The bit writer's free part keeps off the WR area of a command whose ranges are in order. -/
theorem freeSpan_disjoint_resultSpan {s : State} {reads writes cursorReads : List Span} {wr : Option Word}
    (h : operandsInOrder s reads writes cursorReads [s.bw.freeSpan] wr = true) {w : Word} (hw : wr = some w) :
    s.bw.freeSpan.disjoint (resultSpan w) = true := by
  subst hw
  simp only [operandsInOrder, Bool.and_eq_true, apartAll_iff] at h
  obtain ⟨⟨-, hapart⟩, -⟩ := h
  exact (List.pairwise_append.mp hapart).2.2 _ (by simp) _ (by simp [wrSpans])

/-- Everything an append to the BW registers can do: take the string when there is room, and fail when there is none. -/
theorem append_cases {s : State} (hcount : s.bw.count.toNat ≤ s.bw.cap.toNat) (bits : List Bool) :
    (hasRoom s bits.length = true ∧ ∃ w, s.bw.sink.writeAll bits = .ok w ∧ Written s.bw.sink bits w) ∨
    (hasRoom s bits.length = false ∧ s.bw.sink.writeAll bits = .error outputTooSmall) := by
  rcases writeAll_cases (w := s.bw.sink) s.bw.nbits.isLt hcount bits with ⟨hfit, hw⟩ | ⟨hfull, hw⟩
  · exact .inl ⟨decide_eq_true hfit, hw⟩
  · exact .inr ⟨decide_eq_false hfull.not_ge, hw⟩

/-- The bytes that taking a string stores. -/
theorem Written.stored_length {s : State} {bits : List Bool} {w : BitSink} (h : Written s.bw.sink bits w) :
    w.stored.reverse.length = appendedBytes s bits.length := by
  have htaken := congrArg List.length h.taken
  have hnbits := h.nbits
  simp only [BitSink.taken, WriterRegs.sink, List.length_append, bitsOfBytes_length, bitsMSB_length, List.reverse_nil,
    List.length_nil] at htaken hnbits
  rw [appendedBytes]
  omega

/-- The number of pending bits fits BW_NBITS. -/
theorem Written.putSink_nbits {s : State} {bits : List Bool} {w : BitSink} (h : Written s.bw.sink bits w) :
    (putSink w s).bw.nbits.toNat = w.nbits := by
  have hnbits := h.nbits
  rw [putSink_bw_nbits, BitVec.toNat_ofNat]
  omega

/-- With room in the buffer, the number of stored bytes fits BW_COUNT. -/
theorem Written.putSink_count {s : State} {bits : List Bool} {w : BitSink} (h : Written s.bw.sink bits w)
    (hroom : hasRoom s bits.length = true) :
    (putSink w s).bw.count.toNat = s.bw.count.toNat + appendedBytes s bits.length := by
  have hcount : w.count = s.bw.count.toNat + appendedBytes s bits.length := h.count
  have hfit : s.bw.count.toNat + appendedBytes s bits.length ≤ s.bw.cap.toNat := of_decide_eq_true hroom
  have hcap := s.bw.cap.isLt
  rw [putSink_bw_count, BitVec.toNat_ofNat, hcount]
  omega

/-- A span that the free part keeps off is kept off by the bytes of a string there is room for. -/
theorem appended_disjoint {s : State} {n : Nat} (hroom : hasRoom s n = true) {sp : Span}
    (h : s.bw.freeSpan.disjoint sp = true) :
    (Span.mk (s.bw.base.toNat + s.bw.count.toNat) (appendedBytes s n)).disjoint sp = true := by
  have hfit : s.bw.count.toNat + appendedBytes s n ≤ s.bw.cap.toNat := of_decide_eq_true hroom
  rw [disjoint_iff] at h ⊢
  intro a ha
  exact h a ⟨by simp only [WriterRegs.freeSpan] at ha ⊢; omega, ha.2⟩

/-- A command that completes after its string is taken has appended it. -/
theorem finish_appended {s u : State} {bits : List Bool} {w : BitSink} {wr : Option Word}
    (hw : Written s.bw.sink bits w) (hroom : hasRoom s bits.length = true) (hmem : u.mem = (putSink w s).mem)
    (hbw : u.bw = (putSink w s).bw) (hwr : ∀ a, wr = some a → s.bw.freeSpan.disjoint (resultSpan a) = true) :
    Appended s (finish wr u) bits wr := by
  have hlen := hw.stored_length
  have hstored := finish_stored_bytes (wr := wr) (hmem.trans (putSink_mem w s)) fun a ha =>
    hlen ▸ appended_disjoint hroom (hwr a ha)
  have hbytes := hstored.stored _ (List.mem_singleton_self _)
  have hregs : (finish wr u).bw = (putSink w s).bw := (finish_bw wr u).trans hbw
  have hpending : bitsMSB (putSink w s).bw.acc.toNat w.nbits = bitsMSB w.acc w.nbits := by
    have hnbits := hw.nbits
    rw [putSink_bw_acc, BitVec.toNat_ofNat, bitsMSB_mod (by omega)]
  refine ⟨?base, ?cap, ?count, ?nbits, ?stream, hstored.resultArea, fun a ha => hstored.frame a ?outside⟩
  case base => rw [hregs, putSink_bw_base]
  case cap => rw [hregs, putSink_bw_cap]
  case count => rw [hregs, hw.putSink_count hroom]
  case nbits => exact (hregs ▸ hw.putSink_nbits).trans hw.nbits
  case stream =>
    rw [← hlen, hbytes, hregs, hw.putSink_nbits, hpending]
    exact hw.taken
  case outside =>
    intro p hp
    obtain rfl := List.mem_singleton.mp hp
    rwa [hlen]

/-- Unspecified BW registers stay within the invariants of 10_state.md R32. -/
theorem havocWriter_bounds (s : State) : (havocWriter s).bw.count.toNat ≤ s.bw.cap.toNat ∧
    (havocWriter s).bw.acc.toNat < 2 ^ (havocWriter s).bw.nbits.toNat := by
  simp only [havocWriter, BitVec.toNat_ofNat, Nat.reducePow, Nat.mod_mod]
  exact ⟨(Nat.mod_le _ _).trans (Nat.lt_succ_iff.mp (Nat.mod_lt _ (Nat.succ_pos _))),
    (Nat.mod_le _ _).trans_lt (Nat.mod_lt _ (Nat.two_pow_pos _))⟩

/-- An append to the bit writer that does not fit leaves the BW registers within their invariants, the free part of the
buffer unspecified, and nothing else changed. -/
theorem failAppend_failedAppend (s : State) : FailedAppend s (failAppend s.bw.freeSpan outputTooSmall s) := by
  obtain ⟨hcount, hpending⟩ := havocWriter_bounds (havocSpan s.bw.freeSpan s)
  refine ⟨by constructor <;> simp [ErrorCode.number], by simp, by simp, rfl, rfl, hcount, hpending, fun a ha => ?_⟩
  refine havocSpan_read_outside ((contains_eq_false_iff _ _).mpr ?_)
  simp only [WriterRegs.freeSpan]
  omega

/-- A command whose only range is the bit writer's free part passes its checks when it and the WR area are in order. -/
theorem append_check_of_inOrder {s : State} {i : Instr} {wr : Option Word} (hlegal : LegalValues i)
    (htable : operandTable i s = appendRange s :: wr.toList.map fun w => ⟨.write, resultSpan w, 7⟩)
    (h : operandsInOrder s [] [] [] [s.bw.freeSpan] wr = true) : (instrPlan i s).check s.platform = none := by
  refine check_of_operandsInOrder hlegal h ?_ ?_ ?_ ?_
  · rw [readSpans, Plan.spansOf, instrPlan_ranges, htable]
    cases wr <;> rfl
  · rw [writeSpans, Plan.spansOf, instrPlan_ranges, htable]
    cases wr <;> rfl
  · rw [htable]
    cases wr <;> simp [wrSpans, appendRange]
  · rw [htable]
    cases wr <;> simp [appendRange]

/-! ### BW_BITS (41_bitstream.md R153) -/

/-- The bits BW_BITS appends are the low `n` bits of its value, bit n-1 first. -/
theorem bitsMSB_toNat (value : Word) (n : Nat) :
    bitsMSB value.toNat n = (List.range n).map fun j => value.getLsbD (n - 1 - j) := by
  refine List.ext_getElem? fun j => ?_
  rcases Nat.lt_or_ge j n with hj | hj
  · rw [bitsMSB_getElem? hj]
    simp [hj, BitVec.getLsbD]
  · simp [hj]

/-- Settles O28: the checks pass, and the string of the value's low bits is taken or finds no room. -/
theorem bwBitsAppends : Obligations.BwBitsAppends := by
  intro s n value wr hn hcount h
  have hc := append_check_of_inOrder (i := .bwBits n value wr) hn rfl h
  rcases append_cases hcount (bitsMSB value.toNat n) with ⟨hroom, w, hwrite, hw⟩ | ⟨hfull, hwrite⟩
  · have hexec : exec (.bwBits n value wr) s = .next (finish wr (putSink w s)) := by
      simp only [exec]
      exact (guarded_of_none hc).trans (by simp only [hwrite])
    have happended := finish_appended hw hroom rfl rfl fun _ => freeSpan_disjoint_resultSpan h
    rw [bitsMSB_length] at hroom
    rw [bitsMSB_toNat] at happended
    exact ⟨fun _ => ⟨_, hexec, finish_completedNext wr rfl, happended, by simp⟩,
      fun hfull => (nomatch hroom.symm.trans hfull)⟩
  · have hexec : exec (.bwBits n value wr) s = .next (failAppend s.bw.freeSpan outputTooSmall s) := by
      simp only [exec]
      exact (guarded_of_none hc).trans (by simp only [hwrite])
    rw [bitsMSB_length] at hfull
    exact ⟨fun hroom => (nomatch hroom.symm.trans hfull), fun _ => ⟨_, hexec, failAppend_failedAppend s⟩⟩

/-! ### BW_FLUSH (41_bitstream.md R154) -/

/-- Padding leaves no pending bit. -/
theorem Written.nbits_of_padding {w w' : BitSink} (hn : w.nbits < 8)
    (h : Written w (List.replicate ((8 - w.nbits) % 8) false) w') : w'.nbits = 0 := by
  have hnbits := h.nbits
  rw [List.length_replicate] at hnbits
  omega

/-- Settles O29: the padding is a string like any other, and it ends at a byte boundary. -/
theorem bwFlushPads : Obligations.BwFlushPads := by
  intro s wr hcount h
  have hc := append_check_of_inOrder (i := .bwFlush wr) trivial rfl h
  have hcases := append_cases hcount (List.replicate ((8 - s.bw.nbits.toNat) % 8) false)
  rw [List.length_replicate] at hcases
  rcases hcases with ⟨hroom, w, hwrite, hw⟩ | ⟨hfull, hwrite⟩
  · have hflush : s.bw.sink.flush = .ok w := hwrite
    have hexec : exec (.bwFlush wr) s = .next (finish wr (setResults w.count 0 0 0 (putSink w s))) := by
      simp only [exec]
      exact (guarded_of_none hc).trans (by simp only [hflush])
    have hnbits : w.nbits = 0 := hw.nbits_of_padding s.bw.nbits.isLt
    refine ⟨fun _ => ⟨_, hexec, finish_completedNext wr rfl, ?appended, ?nbits, fun hacc => ?acc, by simp⟩,
      fun hfull => (nomatch hroom.symm.trans hfull)⟩
    case appended =>
      refine finish_appended hw ?_ rfl rfl fun _ => freeSpan_disjoint_resultSpan h
      rwa [List.length_replicate]
    case nbits => simp [hnbits]
    case acc =>
      obtain ⟨-, hlt⟩ := writeAll_pendingOk (w := s.bw.sink) ⟨s.bw.nbits.isLt, hacc⟩ hwrite
      rw [hnbits, Nat.pow_zero, Nat.lt_one_iff] at hlt
      simp [hlt]
  · have hflush : s.bw.sink.flush = .error outputTooSmall := hwrite
    have hexec : exec (.bwFlush wr) s = .next (failAppend s.bw.freeSpan outputTooSmall s) := by
      simp only [exec]
      exact (guarded_of_none hc).trans (by simp only [hflush])
    exact ⟨fun hroom => (nomatch hroom.symm.trans hfull), fun _ => ⟨_, hexec, failAppend_failedAppend s⟩⟩

end Sys2Proof.Machine

/-! SUPPORT. The checksum commands: the CRC32 register as bit-serial division, CRC32 and CRC_COMBINE. -/

namespace Sys2Proof.Machine

/-! ### The register takes its bits one at a time (42_crc32.md R170) -/

/-- One step of the bit-serial division by `CRC_POLY`: the message bit meets the bit that leaves the register. -/
def crcBit (r : Word) (b : Bool) : Word :=
  if (r.getLsbD 31 != b) then (r <<< 1) ^^^ 0x04C11DB7#32 else r <<< 1

/-- A word added to the register before a shift acts as its top bit does in the division; its other bits move up. -/
theorem crcShift_xor (r x : Word) : crcShift (r ^^^ x) = crcBit r (x.getLsbD 31) ^^^ (x <<< 1) := by
  have hshift : (r ^^^ x) <<< 1 = (r <<< 1) ^^^ (x <<< 1) := BitVec.shiftLeft_xor_distrib ..
  simp only [crcShift, crcBit, BitVec.getLsbD_xor, hshift, bne]
  split
  · rw [BitVec.xor_assoc, BitVec.xor_comm (x <<< 1), ← BitVec.xor_assoc]
  · rfl

/-- Dividing by the low `n` bits of `v` one at a time is `n` shifts of the register with these bits added at its top. -/
theorem foldl_crcBit_bitsMSB (v : Nat) {n : Nat} (hn : n ≤ 32) (r : Word) :
    (bitsMSB v n).foldl crcBit r = crcShift^[n] (r ^^^ (BitVec.ofNat 32 v <<< (32 - n))) := by
  induction n generalizing r with
  | zero => simp [bitsMSB, BitVec.shiftLeft_eq_zero]
  | succ n ih =>
    have htop : (BitVec.ofNat 32 v <<< (32 - (n + 1))).getLsbD 31 = v.testBit n := by
      rw [BitVec.getLsbD_shiftLeft, BitVec.getLsbD_ofNat, show 31 - (32 - (n + 1)) = n by omega,
        decide_eq_false (by omega : ¬ 31 < 32 - (n + 1)), decide_eq_true (by omega : n < 32)]
      simp
    have hrest : BitVec.ofNat 32 v <<< (32 - (n + 1)) <<< 1 = BitVec.ofNat 32 v <<< (32 - n) := by
      rw [← BitVec.shiftLeft_add, show 32 - (n + 1) + 1 = 32 - n by omega]
    rw [bitsMSB, List.foldl_cons, ih (by omega), Function.iterate_succ_apply, crcShift_xor, htop, hrest]

theorem crcByte_eq_foldl (r : Word) (b : Byte) : crcByte r b = (bitsMSB b.toNat 8).foldl crcBit r := by
  rw [foldl_crcBit_bitsMSB _ (by decide), BitVec.ofNat_toNat]
  rfl

theorem crcUpdate_eq_foldl (r : Word) (bytes : List Byte) : crcUpdate r bytes = (bitsOfBytes bytes).foldl crcBit r := by
  induction bytes generalizing r with
  | nil => rfl
  | cons b bs ih =>
    rw [bitsOfBytes, List.foldl_append, ← crcByte_eq_foldl, ← ih]
    rfl

theorem crcUpdate_append (r : Word) (xs ys : List Byte) : crcUpdate r (xs ++ ys) = crcUpdate (crcUpdate r xs) ys :=
  List.foldl_append

/-! ### CRC32 and CRC_COMBINE complete (42_crc32.md R171, R172) -/

theorem crcFold_eq (c b : Word) : crcFold c b = ((c <<< 1) ||| (c >>> 31)) ^^^ b := by
  rw [crcFold, BitVec.rotateLeft_def]

/-- What CRC32 does with its ranges in order. -/
theorem exec_crc32_of_inOrder {s : State} (cont : Option Word) {src len : Word} {wr : Option Word}
    (h : operandsInOrder s [wordSpan src len] [] [] [] wr = true) :
    exec (.crc32 cont src len wr) s = .next (finish wr (setResults
      (crcUpdate (cont.getD Config.crcInit) (s.mem.readBytes src.toNat len.toNat) ^^^ Config.crcXorOut).toNat
      (crcUpdate (cont.getD Config.crcInit) (s.mem.readBytes src.toNat len.toNat)).toNat 0 0 s)) := by
  have hc : (instrPlan (.crc32 cont src len wr) s).check s.platform = none := by
    refine check_of_operandsInOrder trivial h ?_ ?_ ?_ ?_
    · cases wr <;> rfl
    · cases wr <;> rfl
    · cases wr <;> simp [operandTable, resultOperand, wrSpans, resultSpan]
    · simp [operandTable, resultOperand]
  simp only [exec]
  exact guarded_of_none hc

/-- What CRC_COMBINE does with its WR area in order. -/
theorem exec_crcCombine_of_inOrder {s : State} (combined blockCrc : Word) {wr : Option Word}
    (h : operandsInOrder s [] [] [] [] wr = true) :
    exec (.crcCombine combined blockCrc wr) s =
      .next (finish wr (setResults (crcFold combined blockCrc).toNat 0 0 0 s)) := by
  simp only [exec]
  exact guarded_of_none (planNone_check_of_inOrder h)

/-- Settles O31: both commands only set RESULT and complete, and a byte's eight shifts are eight steps of the division. -/
theorem checksumCommandsReport : Obligations.ChecksumCommandsReport := by
  refine ⟨fun s cont src len wr h => ?crc32, crcUpdate_append, crcUpdate_eq_foldl,
    fun s combined blockCrc wr h => ?combine⟩
  case crc32 =>
    exact ⟨_, exec_crc32_of_inOrder cont h, finish_completedNext wr rfl, finish_stored_nothing wr rfl, by simp, by simp,
      by simp⟩
  case combine =>
    exact ⟨_, exec_crcCombine_of_inOrder combined blockCrc h, finish_completedNext wr rfl, finish_stored_nothing wr rfl,
      by simp, by simp, by simp [← crcFold_eq]⟩

end Sys2Proof.Machine

/-! SUPPORT. RLE1: a sequence has one cutting into runs; the decoder is the loop of R182 and undoes each run's code. -/

namespace Sys2Proof.Machine

/-! ### The cutting of R180 is unique -/

/-- The chunks from a started run on, when the bytes complete it: it is then full, or those after it begin another. -/
theorem chunksFrom_run {b : Byte} {r n : Nat} {xs : List Byte} (hmax : r + n ≤ 255)
    (hend : xs.head? = some b → r + n = 255) :
    chunksFrom b r (List.replicate n b ++ xs) = (b, r + n) :: chunks xs := by
  induction n generalizing r with
  | zero =>
    cases xs with
    | nil => rfl
    | cons x xs =>
      have hstop : ¬ (x = b ∧ r < 255) := fun ⟨hx, hlt⟩ => hlt.ne (hend (congrArg some hx))
      exact if_neg hstop
  | succ n ih =>
    have hgo : b = b ∧ r < 255 := ⟨rfl, by omega⟩
    rw [List.replicate_succ, List.cons_append, chunksFrom, if_pos hgo, ih (by omega) fun h => by have := hend h; omega,
      Nat.add_assoc, Nat.add_comm 1 n]

/-- The first of some bytes is that of their first chunk. -/
theorem head?_of_isChunks {x : Byte} {bytes : List Byte} {cs : List Chunk} (h : IsChunks bytes cs)
    (hx : bytes.head? = some x) : ∃ d ds, cs = d :: ds ∧ d.1 = x := by
  obtain ⟨rfl, hbounds, -⟩ := h
  cases cs with
  | nil => simp at hx
  | cons d ds =>
    obtain ⟨n, hn⟩ := Nat.exists_eq_add_of_le' (hbounds d List.mem_cons_self).1
    rw [List.flatMap_cons, hn, List.replicate_succ, List.cons_append, List.head?_cons] at hx
    exact ⟨d, ds, rfl, Option.some.inj hx⟩

/-- Any cutting of the bytes as R180 says is that of `chunks`. -/
theorem isChunks_unique {bytes : List Byte} {cs : List Chunk} (h : IsChunks bytes cs) : cs = chunks bytes := by
  induction cs generalizing bytes with
  | nil =>
    obtain ⟨rfl, -, -⟩ := h
    rfl
  | cons c cs ih =>
    obtain ⟨rfl, hbounds, hchain⟩ := isChunks_iff_chain.mp h
    obtain ⟨⟨hpos, hmax⟩, hbounds⟩ := List.forall_mem_cons.mp hbounds
    have hrest : IsChunks (cs.flatMap fun c => List.replicate c.2 c.1) cs :=
      isChunks_iff_chain.mpr ⟨rfl, hbounds, hchain.tail⟩
    have hend : (cs.flatMap fun c => List.replicate c.2 c.1).head? = some c.1 → c.2 = 255 := fun hhead => by
      obtain ⟨d, ds, rfl, hd⟩ := head?_of_isChunks hrest hhead
      exact (List.isChain_cons_cons.mp hchain).1 hd.symm
    obtain ⟨b, r⟩ := c
    obtain ⟨n, rfl⟩ := Nat.exists_eq_add_of_le hpos
    rw [List.flatMap_cons, Nat.add_comm 1 n, List.replicate_succ, List.cons_append, chunks,
      chunksFrom_run (by omega) fun hhead => hend hhead, ← ih hrest, Nat.add_comm]

/-- The encoding of R180 is the encoder's. -/
theorem isRle1Code_iff {bytes out : List Byte} : IsRle1Code bytes out ↔ out = rle1Enc bytes := by
  have hcode : rle1Enc bytes = (chunks bytes).flatMap runCode := by
    rw [rle1Enc, show chunkCode = runCode from funext chunkCode_eq]
  constructor
  · rintro ⟨cs, hcs, rfl⟩
    rw [hcode, ← isChunks_unique hcs]
  · rintro rfl
    exact ⟨chunks bytes, chunks_isChunks bytes, hcode⟩

/-! ### The decoder is the loop of R182 -/

/-- The run the loop is in and its count, as the decoder keeps them. -/
def Rle1Vars.openRun (v : Rle1Vars) : Option Chunk := v.prev.map (·, v.cnt)

/-- Outside a run the loop's count is 0. -/
def Rle1Vars.CountsRun (v : Rle1Vars) : Prop := v.prev = none → v.cnt = 0

/-- In a run of less than 4 the next byte is copied, and continues the run or begins another. -/
theorem rle1DecFrom_cons_copied {prev : Byte} {cnt : Nat} (h : cnt ≠ 4) (x : Byte) (xs : List Byte) :
    rle1DecFrom (some (prev, cnt)) (x :: xs) =
      (rle1DecFrom (some (x, if prev = x then cnt + 1 else 1)) xs).map (x :: ·) := by
  rw [rle1DecFrom]
  · by_cases hx : x = prev
    · subst hx; simp
    · simp [hx, Ne.symm hx]
  · exact h

/-- Two maps over an answer are one. -/
theorem except_map_map {ε α β γ : Type} (g : β → γ) (f : α → β) (e : Except ε α) :
    (e.map f).map g = e.map (g ∘ f) := by cases e <;> rfl

theorem rle1Turn_countsRun {v : Rle1Vars} (x : Byte) : (rle1Turn v x).CountsRun := by
  unfold rle1Turn
  split
  · exact fun _ => rfl
  · exact nofun

/-- One byte in the decoder is one turn of the loop. -/
theorem rle1DecFrom_cons_turn {v : Rle1Vars} (hv : v.CountsRun) (x : Byte) (xs : List Byte) :
    (rle1DecFrom v.openRun (x :: xs)).map (v.out ++ ·) =
      (rle1DecFrom (rle1Turn v x).openRun xs).map ((rle1Turn v x).out ++ ·) := by
  obtain ⟨out, prev, cnt⟩ := v
  cases prev with
  | none =>
    obtain rfl : cnt = 0 := hv rfl
    simp [Rle1Vars.openRun, rle1Turn, rle1DecFrom, except_map_map, Function.comp_def]
  | some p =>
    by_cases h4 : cnt = 4
    · subst h4
      simp [Rle1Vars.openRun, rle1Turn, rle1DecFrom, except_map_map, Function.comp_def]
    · simp [Rle1Vars.openRun, rle1Turn, rle1DecFrom_cons_copied h4, h4, except_map_map, Function.comp_def]

/-- The end of the bytes is an error exactly in a run of 4. -/
theorem rle1DecFrom_nil {v : Rle1Vars} (hv : v.CountsRun) :
    rle1DecFrom v.openRun [] = if v.cnt = 4 then .error { code := .malformedRunLength } else .ok [] := by
  obtain ⟨out, prev, cnt⟩ := v
  cases prev with
  | none =>
    obtain rfl : cnt = 0 := hv rfl
    rfl
  | some p =>
    by_cases h4 : cnt = 4
    · subst h4; rfl
    · simp [Rle1Vars.openRun, rle1DecFrom, h4]

/-- The decoder from inside the loop on answers what the rest of the loop puts out. -/
theorem rle1DecFrom_eq_foldl {v : Rle1Vars} (hv : v.CountsRun) (bytes : List Byte) :
    (rle1DecFrom v.openRun bytes).map (v.out ++ ·) =
      if (bytes.foldl rle1Turn v).cnt = 4 then .error { code := .malformedRunLength }
      else .ok (bytes.foldl rle1Turn v).out := by
  induction bytes generalizing v with
  | nil =>
    rw [rle1DecFrom_nil hv, List.foldl_nil]
    split
    · rfl
    · exact congrArg Except.ok (List.append_nil _)
  | cons x xs ih => rw [rle1DecFrom_cons_turn hv, ih (rle1Turn_countsRun x), List.foldl_cons]

/-- The decoder answers what the loop puts out, or an error when the loop ends inside a run marker. -/
theorem rle1Dec_eq_rle1Vars (bytes : List Byte) : rle1Dec bytes =
    if (rle1Vars bytes).cnt = 4 then .error { code := .malformedRunLength } else .ok (rle1Vars bytes).out :=
  (congrFun Except.map_id _).symm.trans (rle1DecFrom_eq_foldl (v := ⟨[], none, 0⟩) (fun _ => rfl) bytes)

theorem rle1Dec_eq_ok_iff {bytes out : List Byte} :
    rle1Dec bytes = .ok out ↔ (rle1Vars bytes).cnt ≠ 4 ∧ out = (rle1Vars bytes).out := by
  rw [rle1Dec_eq_rle1Vars]
  by_cases h4 : (rle1Vars bytes).cnt = 4
  · simp [h4]
  · simp [h4, eq_comm]

/-! ### The decoder undoes a run's code (43_rle1.md R184) -/

/-- The run the decoder is in after the code of a chunk: none after a count byte. -/
def runAfter (d : Chunk) : Option Chunk := if d.2 < 4 then some d else none

theorem rle1DecFrom_runAfter_nil (d : Chunk) : rle1DecFrom (runAfter d) [] = .ok [] := by
  unfold runAfter
  split
  case isTrue hlt => exact (rle1DecFrom_nil (v := ⟨[], some d.1, d.2⟩) nofun).trans (if_neg hlt.ne)
  case isFalse => rfl

/-- A byte that cannot continue the chunk before begins a run. -/
theorem rle1DecFrom_runAfter_cons {d : Chunk} {b : Byte} (h : d.1 = b → d.2 = 255) (xs : List Byte) :
    rle1DecFrom (runAfter d) (b :: xs) = (rle1DecFrom (some (b, 1)) xs).map (b :: ·) := by
  unfold runAfter
  split
  case isTrue hlt =>
    have hne : d.1 ≠ b := fun heq => by have := h heq; omega
    rw [rle1DecFrom_cons_copied (by omega), if_neg hne]
  case isFalse => rfl

/-- A run of up to 4 is copied. -/
theorem rle1DecFrom_replicate {b : Byte} {r n : Nat} (h : r + n ≤ 4) (xs : List Byte) :
    rle1DecFrom (some (b, r)) (List.replicate n b ++ xs) =
      (rle1DecFrom (some (b, r + n)) xs).map (List.replicate n b ++ ·) := by
  induction n generalizing r with
  | zero => exact (congrFun Except.map_id _).symm
  | succ n ih =>
    rw [List.replicate_succ, List.cons_append, rle1DecFrom_cons_copied (by omega), if_pos rfl, ih (by omega),
      except_map_map, Nat.add_assoc, Nat.add_comm 1 n]
    rfl

/-- A run of 1 to 4 after a chunk it does not continue is copied. -/
theorem rle1DecFrom_runAfter_replicate {d : Chunk} {b : Byte} (h : d.1 = b → d.2 = 255) {n : Nat} (hpos : 1 ≤ n)
    (hn : n ≤ 4) (xs : List Byte) : rle1DecFrom (runAfter d) (List.replicate n b ++ xs) =
      (rle1DecFrom (some (b, n)) xs).map (List.replicate n b ++ ·) := by
  obtain ⟨m, rfl⟩ := Nat.exists_eq_add_of_le hpos
  rw [Nat.add_comm 1 m, List.replicate_succ, List.cons_append, rle1DecFrom_runAfter_cons h,
    rle1DecFrom_replicate (by omega), except_map_map, Nat.add_comm 1 m]
  rfl

/-- A chunk's code after the code of the chunk before decodes to the chunk's run. -/
theorem rle1DecFrom_runCode {d c : Chunk} (h : d.1 = c.1 → d.2 = 255) (hpos : 1 ≤ c.2) (hmax : c.2 ≤ 255)
    (xs : List Byte) : rle1DecFrom (runAfter d) (runCode c ++ xs) =
      (rle1DecFrom (runAfter c) xs).map (List.replicate c.2 c.1 ++ ·) := by
  by_cases hlt : c.2 < 4
  · rw [runCode, if_pos hlt, rle1DecFrom_runAfter_replicate h hpos hlt.le, runAfter, if_pos hlt]
  · have hcount : (BitVec.ofNat 8 (c.2 - 4)).toNat = c.2 - 4 := by simp; omega
    have hmarker : rle1DecFrom (some (c.1, 4)) (BitVec.ofNat 8 (c.2 - 4) :: xs) =
        (rle1DecFrom none xs).map (List.replicate (c.2 - 4) c.1 ++ ·) := by rw [rle1DecFrom, hcount]
    have hrun : List.replicate c.2 c.1 = List.replicate 4 c.1 ++ List.replicate (c.2 - 4) c.1 := by
      rw [List.replicate_append_replicate, Nat.add_sub_cancel' (Nat.not_lt.mp hlt)]
    have hcode : runCode c ++ xs = List.replicate 4 c.1 ++ BitVec.ofNat 8 (c.2 - 4) :: xs := by
      rw [runCode, if_neg hlt]
      rfl
    rw [hcode, rle1DecFrom_runAfter_replicate h (by decide) le_rfl, hmarker, except_map_map, hrun,
      show runAfter c = none from if_neg hlt]
    simp only [Function.comp_def, List.append_assoc]

/-- The codes of a maximal cutting decode to its runs, after the chunk before them. -/
theorem rle1DecFrom_flatMap_runCode {d : Chunk} {cs : List Chunk} (hbounds : ∀ c ∈ cs, 1 ≤ c.2 ∧ c.2 ≤ 255)
    (hchain : (d :: cs).IsChain fun c d => c.1 = d.1 → c.2 = 255) :
    rle1DecFrom (runAfter d) (cs.flatMap runCode) = .ok (cs.flatMap fun c => List.replicate c.2 c.1) := by
  induction cs generalizing d with
  | nil => exact rle1DecFrom_runAfter_nil d
  | cons c cs ih =>
    obtain ⟨⟨hpos, hmax⟩, hbounds⟩ := List.forall_mem_cons.mp hbounds
    obtain ⟨hd, hchain⟩ := List.isChain_cons_cons.mp hchain
    rw [List.flatMap_cons, rle1DecFrom_runCode hd hpos hmax, ih hbounds hchain]
    rfl

/-- The decoder starts in no run, as it is after a full chunk, so that the encoding decodes chunk by chunk. -/
theorem rle1Dec_rle1Enc (bytes : List Byte) : rle1Dec (rle1Enc bytes) = .ok bytes := by
  obtain ⟨cs, hcs, hcode⟩ := isRle1Code_iff.mpr (Eq.refl (rle1Enc bytes))
  obtain ⟨rfl, hbounds, hchain⟩ := isChunks_iff_chain.mp hcs
  rw [hcode]
  exact rle1DecFrom_flatMap_runCode (d := (0, 255)) hbounds (hchain.cons fun _ _ _ => rfl)

/-- Settles O34: the cutting is unique, each chunk's code decodes to its run, and the decoder is the loop. -/
theorem rle1RoundTrip : Obligations.Rle1RoundTrip :=
  fun bytes => ⟨rle1Dec_rle1Enc bytes, fun _ => isRle1Code_iff, fun _ => rle1Dec_eq_ok_iff⟩

end Sys2Proof.Machine

/-! SUPPORT. The RLE1 commands: their checks pass, and they end by storing one byte string or in an error stop. -/

namespace Sys2Proof.Machine

/-- The RLE1 commands pass their checks when source, destination and WR area are in order (43_rle1.md R181, R183). -/
theorem planRle1_check_of_inOrder {s : State} {src len dst cap : Word} {wr : Option Word}
    (h : operandsInOrder s [wordSpan src len] [wordSpan dst cap] [] [] wr = true) :
    ((planRle1 src len dst cap).withResults wr).check s.platform = none := by
  refine check_of_operandsInOrder (i := .rle1Enc src len dst cap wr) trivial h ?_ ?_ ?_ ?_
  · cases wr <;> rfl
  · cases wr <;> rfl
  · cases wr <;> simp [operandTable, resultOperand, wrSpans, resultSpan]
  · simp [operandTable, resultOperand]

theorem exec_rle1Enc_of_inOrder {s : State} {src len dst cap : Word} {wr : Option Word}
    (h : operandsInOrder s [wordSpan src len] [wordSpan dst cap] [] [] wr = true) :
    exec (.rle1Enc src len dst cap wr) s =
      .next (finishBytes dst cap (rle1Enc (s.mem.readBytes src.toNat len.toNat)) wr s) := by
  simp only [exec]
  exact guarded_of_none (planRle1_check_of_inOrder h)

/-- What RLE1_DEC does with its ranges in order, in terms of the loop of R182. -/
theorem exec_rle1Dec_of_inOrder {s : State} {src len dst cap : Word} {wr : Option Word}
    (h : operandsInOrder s [wordSpan src len] [wordSpan dst cap] [] [] wr = true) :
    exec (.rle1Dec src len dst cap wr) s = .next
      (if (rle1Vars (s.mem.readBytes src.toNat len.toNat)).cnt = 4 then
        failSpans [wordSpan dst cap] { code := .malformedRunLength } s
      else finishBytes dst cap (rle1Vars (s.mem.readBytes src.toNat len.toNat)).out wr s) := by
  simp only [exec, execRle1Dec, guarded_of_none (planRle1_check_of_inOrder h), rle1Dec_eq_rle1Vars]
  by_cases h4 : (rle1Vars (s.mem.readBytes src.toNat len.toNat)).cnt = 4
  · simp only [if_pos h4]
  · simp only [if_neg h4]

/-- A byte string that fits is stored at the destination with its length as the result. -/
theorem finishBytes_of_fits {s : State} {src len dst cap : Word} {wr : Option Word} {out : List Byte}
    (h : operandsInOrder s [wordSpan src len] [wordSpan dst cap] [] [] wr = true) (hfit : out.length ≤ cap.toNat) :
    CompletedNext s (finishBytes dst cap out wr s) ∧ Stored s (finishBytes dst cap out wr s) [(dst.toNat, out)] wr ∧
      (finishBytes dst cap out wr s).results = ⟨BitVec.ofNat 32 out.length, 0, 0, 0⟩ ∧
      (finishBytes dst cap out wr s).bw = s.bw ∧ (finishBytes dst cap out wr s).br = s.br := by
  rw [finishBytes, if_pos hfit]
  exact ⟨finish_completedNext wr rfl, finish_stored_bytes rfl fun w hw => stored_disjoint_resultSpan h hfit hw,
    by simp, by simp, by simp⟩

/-- A byte string that does not fit is the error stop for want of room. -/
theorem finishBytes_of_long {dst cap : Word} {out : List Byte} (hlong : cap.toNat < out.length) (wr : Option Word)
    (s : State) : FailedWith s (finishBytes dst cap out wr s) 3 0 0 [wordSpan dst cap] := by
  rw [finishBytes, if_neg hlong.not_ge]
  exact failSpans_failedWith ..

/-- Settles O32: the encoder's bytes are the encoding, stored when they fit. -/
theorem rle1EncWrites : Obligations.Rle1EncWrites := by
  intro s src len dst cap wr h
  rw [exec_rle1Enc_of_inOrder h]
  exact ⟨_, isRle1Code_iff.mpr rfl, fun hfit => ⟨_, rfl, finishBytes_of_fits h hfit⟩,
    fun hlong => ⟨_, rfl, finishBytes_of_long hlong wr s⟩⟩

/-- Settles O33: the decoder ends inside a run marker, or stores the loop's output when it fits. -/
theorem rle1DecWrites : Obligations.Rle1DecWrites := by
  rintro s src len dst cap wr v h rfl
  rw [exec_rle1Dec_of_inOrder h]
  refine ⟨fun hcnt hfit => ⟨_, rfl, ?fits⟩, fun hcnt hlong => ⟨_, rfl, ?long⟩, fun hcnt => ⟨_, rfl, ?malformed⟩⟩
  case fits =>
    rw [if_neg hcnt]
    exact finishBytes_of_fits h hfit
  case long =>
    rw [if_neg hcnt]
    exact finishBytes_of_long hlong wr s
  case malformed =>
    rw [if_pos hcnt]
    exact failSpans_failedWith ..

end Sys2Proof.Machine

/-! SUPPORT. The sorted index array is unique, and the last column reorders the block. -/

namespace Sys2Proof.Machine

/-! ### The order is unique (44_bwt.md R190) -/

theorem rotationBefore_antisymm {block : List Byte} {i j : Nat} (h : RotationBefore block i j)
    (h' : RotationBefore block j i) : i = j := by
  unfold RotationBefore at h h'
  rcases h with h | ⟨heq, h⟩ <;> rcases h' with h' | ⟨heq', h'⟩
  · exact absurd h' (lt_asymm h)
  · exact absurd h (heq' ▸ lt_irrefl _)
  · exact absurd h' (heq ▸ lt_irrefl _)
  · omega

/-- A block has one sorted index array. -/
theorem isRotationOrder_iff {block : List Byte} {order : List Nat} :
    IsRotationOrder block order ↔ order = sortedIndices block := by
  constructor
  · rintro ⟨hperm, horder⟩
    obtain ⟨hperm', horder'⟩ := sortedIndices_isRotationOrder block
    exact List.Perm.eq_of_pairwise (fun _ _ _ _ => rotationBefore_antisymm) horder horder' (hperm.trans hperm'.symm)
  · rintro rfl
    exact sortedIndices_isRotationOrder block

/-- Settles O35: the model's array is in the order, and a strict order has one list of given elements. -/
theorem sortedIndexArray : Obligations.SortedIndexArray := fun block =>
  ⟨sortedIndices_isRotationOrder block, fun _ => isRotationOrder_iff.mp⟩

/-! ### The last column reorders the block (44_bwt.md R192) -/

/-- Every index is one place after one other. -/
theorem range_map_pred (n : Nat) :
    (List.range n).map (fun i => (i + n - 1) % n) = (List.range n).rotate (n - 1) := by
  refine List.ext_getElem (by simp) fun i hi _ => ?_
  have hn : i < n := by simpa using hi
  rw [List.getElem_rotate]
  simp [Nat.add_sub_assoc (show 1 ≤ n by omega)]

/-- The last column holds the block's bytes, each as often as the block does. -/
theorem lastColumn_perm {block : List Byte} {order : List Nat} (h : order.Perm (List.range block.length)) :
    (lastColumn block order).Perm block := by
  have hblock : (List.range block.length).map (fun i => block.toArray.getD i 0) = block :=
    List.ext_getElem (by simp) fun i _ hi => by simp [hi]
  calc lastColumn block order
    _ = (order.map fun i => (i + block.length - 1) % block.length).map fun i => block.toArray.getD i 0 := by
        rw [List.map_map]; rfl
    List.Perm _ (((List.range block.length).map fun i => (i + block.length - 1) % block.length).map
        fun i => block.toArray.getD i 0) := (h.map _).map _
    List.Perm _ ((List.range block.length).map fun i => block.toArray.getD i 0) := by
        rw [range_map_pred]
        exact (List.rotate_perm _ _).map _
    _ = block := hblock

theorem sortedIndices_originRow_lt {block : List Byte} (h : block ≠ []) :
    originRow (sortedIndices block) < block.length := by
  simpa using (List.getElem?_eq_some_iff.mp (sortedIndices_originRow h)).1

/-- Settles O37: the bytes one place back from every index are the block's bytes. -/
theorem lastColumnPermutes : Obligations.LastColumnPermutes := by
  intro block
  have hperm := lastColumn_perm (sortedIndices_perm block)
  exact ⟨hperm, usedBytes_congr fun _ => hperm.mem_iff, sortedIndices_originRow_lt⟩

end Sys2Proof.Machine

/-! SUPPORT. The next-character vector as a stable counting sort, and the walk along it. -/

namespace Sys2Proof.Machine

/-! ### The counting sort (44_bwt.md R194) -/

/-- Position `i` of the last column comes before position `j` in the stable sort by byte value. -/
abbrev PositionBefore (l : List Byte) (i j : Nat) : Prop :=
  (l.getD i 0).toNat < (l.getD j 0).toNat ∨ (l.getD i 0 = l.getD j 0 ∧ i < j)

theorem allBytes_pairwise : allBytes.Pairwise fun b c => b.toNat < c.toNat := by
  refine List.pairwise_map.mpr (List.pairwise_lt_range.imp_of_mem fun {i j} hi hj hij => ?_)
  rw [List.mem_range] at hi hj
  simpa [Nat.mod_eq_of_lt hi, Nat.mod_eq_of_lt hj] using hij

theorem positionsOf_eq_map (c : Byte) (i : Nat) (l : List Byte) :
    positionsOf c i l = ((l.zipIdx i).filter (·.1 = c)).map (·.2) := by
  induction l generalizing i with
  | nil => rfl
  | cons x xs ih => by_cases h : x = c <;> simp [positionsOf, List.zipIdx_cons, h, ih]

theorem mem_positionsOf_iff {c : Byte} {l : List Byte} {j : Nat} : j ∈ positionsOf c 0 l ↔ l[j]? = some c := by
  simp [positionsOf_eq_map, List.mk_mem_zipIdx_iff_getElem?]

theorem positionsOf_pairwise (c : Byte) (i : Nat) (l : List Byte) : (positionsOf c i l).Pairwise (· < ·) := by
  rw [positionsOf_eq_map]
  refine List.Pairwise.sublist (List.filter_sublist.map _) ?_
  rw [List.zipIdx_map_snd]
  exact List.pairwise_lt_range'

theorem mem_nextVector_iff {l : List Byte} {j : Nat} : j ∈ nextVector l ↔ j < l.length := by
  simp only [nextVector, List.mem_flatMap, mem_positionsOf_iff]
  exact ⟨fun ⟨_, _, h⟩ => (List.getElem?_eq_some_iff.mp h).1,
    fun h => ⟨l[j], mem_allBytes _, List.getElem?_eq_getElem h⟩⟩

/-- The next-character vector is in the order of the stable sort. -/
theorem nextVector_pairwise (l : List Byte) : (nextVector l).Pairwise (PositionBefore l) := by
  have hgetD : ∀ {c j}, j ∈ positionsOf c 0 l → l.getD j 0 = c := fun {c j} hj => by
    rw [List.getD_eq_getElem?_getD, mem_positionsOf_iff.mp hj, Option.getD_some]
  refine List.pairwise_flatMap.mpr ⟨fun c _ => ?_, allBytes_pairwise.imp fun hbc i hi j hj => ?_⟩
  · exact (positionsOf_pairwise c 0 l).imp_of_mem fun hi hj hij => .inr ⟨(hgetD hi).trans (hgetD hj).symm, hij⟩
  · exact .inl (by rwa [hgetD hi, hgetD hj])

theorem PositionBefore.asymm {l : List Byte} {i j : Nat} (h : PositionBefore l i j) : ¬ PositionBefore l j i := by
  rcases h with h | ⟨heq, h⟩ <;> rintro (h' | ⟨heq', h'⟩)
  · omega
  · exact lt_irrefl _ (heq' ▸ h)
  · exact lt_irrefl _ (heq ▸ h')
  · omega

/-- The next-character vector holds every position once. -/
theorem nextVector_perm (l : List Byte) : (nextVector l).Perm (List.range l.length) := by
  have hnodup : (nextVector l).Nodup := (nextVector_pairwise l).imp fun {i j} h heq => by
    subst heq
    exact h.asymm h
  exact (List.perm_ext_iff_of_nodup hnodup List.nodup_range).mpr fun j => by rw [mem_nextVector_iff, List.mem_range]

/-- In a list in strict order, each element stands at the number of elements before it. -/
theorem getElem?_countP_before {α : Type} {r : α → α → Prop} [DecidableRel r] (hasymm : ∀ a b, r a b → ¬ r b a)
    {t : List α} (ht : t.Pairwise r) {x : α} (hx : x ∈ t) : t[t.countP fun y => r y x]? = some x := by
  induction t with
  | nil => cases hx
  | cons y ys ih =>
    obtain ⟨hy, hys⟩ := List.pairwise_cons.mp ht
    rcases List.mem_cons.mp hx with rfl | hmem
    · have hnone : (x :: ys).countP (fun y => r y x) = 0 := List.countP_eq_zero.mpr fun z hz => by
        rcases List.mem_cons.mp hz with rfl | hz
        · simpa using fun h => hasymm z z h h
        · simpa using hasymm x z (hy z hz)
      rw [hnone, List.getElem?_cons_zero]
    · rw [List.countP_cons_of_pos (by simpa using hy x hmem), List.getElem?_cons_succ, ih hys hmem]

/-- A stable sort puts before position `i`, if that holds `c`, the positions of smaller bytes and those of an equal byte
further to the left. -/
theorem countP_range_before (l : List Byte) (c : Byte) (i : Nat) :
    (List.range l.length).countP (fun j => (l.getD j 0).toNat < c.toNat ∨ (l.getD j 0 = c ∧ j < i)) =
      l.countP (fun x => x.toNat < c.toNat) + (l.take i).count c := by
  induction l generalizing i with
  | nil => simp
  | cons x xs ih =>
    simp only [List.length_cons, List.range_succ_eq_map, List.countP_cons, List.countP_map, Function.comp_def,
      List.getD_cons_zero, List.getD_cons_succ, Nat.succ_eq_add_one]
    cases i with
    | zero => simpa using ih 0
    | succ i =>
      simp only [Nat.add_lt_add_iff_right, ih i, List.take_succ_cons, List.count_cons, Nat.succ_pos, and_true]
      rcases lt_trichotomy x.toNat c.toNat with h | h | h
      · have hne : x ≠ c := fun heq => lt_irrefl _ (heq ▸ h)
        simp [h, hne]
        omega
      · obtain rfl := BitVec.eq_of_toNat_eq h
        simp
        omega
      · have hne : x ≠ c := fun heq => lt_irrefl _ (heq ▸ h)
        simp [h.not_gt, hne]

/-- The next-character vector has the positions of the counting sort. -/
theorem nextVector_isNextVector (l : List Byte) : IsNextVector l (nextVector l) := by
  refine ⟨nextVector_length l, fun i hi => ?_⟩
  rw [← countP_range_before, ← (nextVector_perm l).countP_eq]
  exact getElem?_countP_before (fun _ _ h => h.asymm) (nextVector_pairwise l) (mem_nextVector_iff.mpr hi)

/-! ### The walk (44_bwt.md R195) -/

/-- The model's arrays are read as its lists. -/
theorem toArray_getD {α : Type} (l : List α) (i : Nat) (d : α) : l.toArray.getD i d = l.getD i d := by
  simp [Array.getD_eq_getD_getElem?]

/-- Byte `k` of the walk stands at the position that `k` steps lead to. -/
theorem walk_getElem? (l : Array Byte) (t : Array Nat) {n k : Nat} (hk : k < n) (p : Nat) :
    (walk l t n p)[k]? = some (l.getD ((fun q => t.getD q 0)^[k] p) 0) := by
  induction n generalizing k p with
  | zero => cases hk
  | succ n ih =>
    cases k with
    | zero => rfl
    | succ k => rw [walk, List.getElem?_cons_succ, ih (by omega), Function.iterate_succ_apply]

/-- The row that `k` steps along the next-character vector lead to from the origin row. -/
def rowAfter (l : List Byte) (origPtr k : Nat) : Nat := (fun q => (nextVector l).getD q 0)^[k] origPtr

theorem rowAfter_succ (l : List Byte) (origPtr k : Nat) :
    rowAfter l origPtr (k + 1) = (nextVector l).getD (rowAfter l origPtr k) 0 := Function.iterate_succ_apply' ..

theorem getElem?_nextVector {l : List Byte} {q : Nat} (hq : q < l.length) :
    (nextVector l)[q]? = some ((nextVector l).getD q 0) := by
  simp [hq]

theorem nextVector_getD_lt {l : List Byte} {q : Nat} (hq : q < l.length) : (nextVector l).getD q 0 < l.length :=
  mem_nextVector_iff.mp (List.mem_of_getElem? (getElem?_nextVector hq))

theorem rowAfter_lt {l : List Byte} {origPtr : Nat} (h : origPtr < l.length) (k : Nat) :
    rowAfter l origPtr k < l.length := by
  induction k with
  | zero => exact h
  | succ k ih =>
    rw [rowAfter_succ]
    exact nextVector_getD_lt ih

/-- Byte `k` of the block stands in the last column at the row after `k + 1` steps. -/
theorem bwtInverse_getElem? {l : List Byte} {origPtr k : Nat} (h : origPtr < l.length) (hk : k < l.length) :
    (bwtInverse l origPtr)[k]? = l[rowAfter l origPtr (k + 1)]? := by
  have hlt := rowAfter_lt h (k + 1)
  have hrow : rowAfter l origPtr (k + 1) =
      (fun q => (nextVector l).toArray.getD q 0)^[k] ((nextVector l).toArray.getD origPtr 0) := by
    simp only [rowAfter, Function.iterate_succ_apply, toArray_getD]
  rw [bwtInverse, walk_getElem? _ _ hk, ← hrow, toArray_getD, List.getD_eq_getElem l 0 hlt,
    List.getElem?_eq_getElem hlt]

theorem getElem?_nextVector_rowAfter {l : List Byte} {origPtr : Nat} (h : origPtr < l.length) (k : Nat) :
    (nextVector l)[rowAfter l origPtr k]? = some (rowAfter l origPtr (k + 1)) := by
  rw [rowAfter_succ, getElem?_nextVector (rowAfter_lt h k)]

end Sys2Proof.Machine

/-! SUPPORT. The inverse transform: rows moved one place back, stably sorted by their first byte, are the rows again. -/

namespace Sys2Proof.Machine

/-! ### Rotations as words -/

/-- The order of byte strings by their unsigned bytes (44_bwt.md R190). -/
def BytesLe (u v : List Byte) : Prop := u.map BitVec.toNat ≤ v.map BitVec.toNat

theorem bytesLe_antisymm {u v : List Byte} (h : BytesLe u v) (h' : BytesLe v u) : u = v :=
  List.map_injective_iff.mpr (fun _ _ => BitVec.eq_of_toNat_eq) (le_antisymm h h')

theorem bytesLe_cons_iff {a b : Byte} {u v : List Byte} :
    BytesLe (a :: u) (b :: v) ↔ a.toNat < b.toNat ∨ (a = b ∧ BytesLe u v) := by
  simp only [BytesLe, List.map_cons]
  rw [← not_lt, List.not_lt, List.cons_le_cons_iff, ← List.not_lt, not_lt, BitVec.toNat_inj]

/-- Strings of one length that end alike are in the order of what comes before. -/
theorem bytesLe_of_append_singleton {u v : List Byte} {c : Byte} (hlen : u.length = v.length)
    (h : BytesLe (u ++ [c]) (v ++ [c])) : BytesLe u v := by
  induction u generalizing v with
  | nil => exact (List.eq_nil_of_length_eq_zero hlen.symm) ▸ le_refl _
  | cons a u ih =>
    cases v with
    | nil => cases hlen
    | cons b v =>
      exact bytesLe_cons_iff.mpr ((bytesLe_cons_iff.mp h).imp_right fun ⟨hab, h⟩ => ⟨hab, ih (Nat.succ.inj hlen) h⟩)

/-- The last byte of rotation `i`. -/
def lastByte (block : List Byte) (i : Nat) : Byte := block.getD ((i + block.length - 1) % block.length) 0

section
variable {block : List Byte} {order : List Nat}

theorem rotate_pred_rotate_one (hne : block ≠ []) (i : Nat) :
    (block.rotate (i + block.length - 1)).rotate 1 = block.rotate i := by
  have hpos := List.length_pos_iff.mpr hne
  rw [List.rotate_rotate, show i + block.length - 1 + 1 = i + block.length by omega, ← List.rotate_mod,
    Nat.add_mod_right, List.rotate_mod]

/-- The rotation one place before rotation `i` has the last byte of rotation `i` in front. -/
theorem rotate_pred_eq_cons (hne : block ≠ []) (i : Nat) :
    ∃ u, block.rotate (i + block.length - 1) = lastByte block i :: u ∧ block.rotate i = u ++ [lastByte block i] := by
  obtain ⟨c, u, hcons⟩ := List.exists_cons_of_ne_nil (l := block.rotate (i + block.length - 1)) (by simpa using hne)
  have hhead := List.getElem?_rotate (n := i + block.length - 1) (List.length_pos_iff.mpr hne)
  rw [hcons, List.getElem?_cons_zero, Nat.zero_add] at hhead
  have hc : lastByte block i = c := by rw [lastByte, List.getD_eq_getElem?_getD, ← hhead, Option.getD_some]
  refine ⟨u, by rw [hcons, hc], ?_⟩
  rw [← rotate_pred_rotate_one hne, hcons, hc, List.rotate_cons_succ, List.rotate_zero]

/-- Rotations moved one place back are in order when their first bytes are, or these are equal and the rotations are. -/
theorem rotate_pred_bytesLe (hne : block ≠ []) {i j : Nat}
    (h : (lastByte block i).toNat < (lastByte block j).toNat ∨
      (lastByte block i = lastByte block j ∧ BytesLe (block.rotate i) (block.rotate j))) :
    BytesLe (block.rotate (i + block.length - 1)) (block.rotate (j + block.length - 1)) := by
  obtain ⟨u, hi, hui⟩ := rotate_pred_eq_cons hne i
  obtain ⟨v, hj, hvj⟩ := rotate_pred_eq_cons hne j
  have hu := congrArg List.length hi
  have hv := congrArg List.length hj
  rw [List.length_rotate, List.length_cons] at hu hv
  rw [hi, hj, bytesLe_cons_iff]
  refine h.imp_right fun ⟨hc, hle⟩ => ⟨hc, ?_⟩
  rw [hui, hvj, hc] at hle
  exact bytesLe_of_append_singleton (Nat.succ.inj (hu.symm.trans hv)) hle

/-! ### The sorted rows -/

theorem IsRotationOrder.length_eq (h : IsRotationOrder block order) : order.length = block.length := by
  simpa using h.1.length_eq

theorem IsRotationOrder.pairwise_bytesLe (h : IsRotationOrder block order) :
    order.Pairwise fun i j => BytesLe (block.rotate i) (block.rotate j) := by
  refine h.2.imp_of_mem fun {i j} hi hj hij => ?_
  have hle : ∀ k ∈ order, k ≤ block.length := fun k hk => (List.mem_range.mp (h.1.subset hk)).le
  rw [List.rotate_eq_drop_append_take (hle i hi), List.rotate_eq_drop_append_take (hle j hj)]
  exact hij.elim le_of_lt fun ⟨heq, _⟩ => (congrArg _ heq).le

theorem lastColumn_getD (h : IsRotationOrder block order) {k : Nat} (hk : k < block.length) :
    (lastColumn block order).getD k 0 = lastByte block (order.getD k 0) := by
  rw [lastByte, List.getD_eq_getElem?_getD, (lastColumn_isLastColumn h.length_eq).2 k hk, ← List.getD_eq_getElem?_getD]

/-- Why the next-character vector inverts the transform (44_bwt.md R196): the sorted rows moved one place back begin
with the bytes of the last column, so its stable sort puts them in order, and in order they are the sorted rows again. -/
theorem map_nextVector_rotate (hne : block ≠ []) (h : IsRotationOrder block order) :
    (nextVector (lastColumn block order)).map (fun k => block.rotate (order.getD k 0 + block.length - 1)) =
      order.map block.rotate := by
  refine List.Perm.eq_of_pairwise (fun _ _ _ _ => bytesLe_antisymm) (List.pairwise_map.mpr ?sorted)
    (List.pairwise_map.mpr h.pairwise_bytesLe) ?perm
  case sorted =>
    refine (nextVector_pairwise _).imp_of_mem fun {i j} hi hj hij => rotate_pred_bytesLe hne ?_
    rw [mem_nextVector_iff, lastColumn_length, h.length_eq] at hi hj
    rw [← lastColumn_getD h hi, ← lastColumn_getD h hj]
    refine hij.imp_right fun ⟨heq, hlt⟩ => ⟨heq, ?_⟩
    rw [List.getD_eq_getElem _ _ (h.length_eq ▸ hi), List.getD_eq_getElem _ _ (h.length_eq ▸ hj)]
    exact List.pairwise_iff_getElem.mp h.pairwise_bytesLe i j _ _ hlt
  case perm =>
    have horder : (List.range order.length).map (fun k => order.getD k 0) = order :=
      List.ext_getElem (by simp) fun i _ hi => by simp [hi]
    calc (nextVector (lastColumn block order)).map (fun k => block.rotate (order.getD k 0 + block.length - 1))
      List.Perm _ ((List.range order.length).map fun k => block.rotate (order.getD k 0 + block.length - 1)) := by
        simpa using (nextVector_perm (lastColumn block order)).map _
      _ = order.map fun i => block.rotate ((i + block.length - 1) % block.length) := by
        conv_rhs => rw [← horder, List.map_map]
        exact List.map_congr_left fun k _ => (List.rotate_mod ..).symm
      List.Perm _ (((List.range block.length).map fun i => (i + block.length - 1) % block.length).map
          block.rotate) := by
        rw [List.map_map]
        exact h.1.map _
      List.Perm _ (order.map block.rotate) := by
        rw [range_map_pred]
        exact ((List.rotate_perm _ _).trans h.1.symm).map _

/-- A step along the next-character vector leads to a row that the row before is one place back from. -/
theorem rotate_nextVector (hne : block ≠ []) (h : IsRotationOrder block order) {k : Nat} (hk : k < block.length) :
    block.rotate (order.getD ((nextVector (lastColumn block order)).getD k 0) 0 + block.length - 1) =
      block.rotate (order.getD k 0) := by
  have hlast : k < (lastColumn block order).length := by rwa [lastColumn_length, h.length_eq]
  have hrow := congrArg (·[k]?) (map_nextVector_rotate hne h)
  simp only [List.getElem?_map, getElem?_nextVector hlast,
    List.getElem?_eq_getElem (h.length_eq ▸ hk : k < order.length), Option.map_some, Option.some.injEq] at hrow
  rw [hrow, List.getD_eq_getElem]

/-- `k + 1` steps from the origin row lead to a row that is rotation `k` when moved one place back. -/
theorem rotate_rowAfter (hne : block ≠ []) (h : IsRotationOrder block order) {origPtr : Nat}
    (horig : order[origPtr]? = some 0) (k : Nat) :
    block.rotate (order.getD (rowAfter (lastColumn block order) origPtr (k + 1)) 0 + block.length - 1) =
      block.rotate k := by
  have hrow : ∀ k, rowAfter (lastColumn block order) origPtr k < block.length := fun k => by
    simpa [h.length_eq] using rowAfter_lt (l := lastColumn block order)
      (by simpa using (List.getElem?_eq_some_iff.mp horig).1) k
  rw [rowAfter_succ, rotate_nextVector hne h (hrow k)]
  induction k with
  | zero => simp [rowAfter, horig]
  | succ k ih =>
    rw [← rotate_pred_rotate_one hne, rowAfter_succ, rotate_nextVector hne h (hrow k), ih, List.rotate_rotate]

/-- The inverse transform of the last column of the sorted rotations and the row of rotation 0 is the block. -/
theorem bwtInverse_lastColumn (hne : block ≠ []) (h : IsRotationOrder block order) {origPtr : Nat}
    (horig : order[origPtr]? = some 0) : bwtInverse (lastColumn block order) origPtr = block := by
  have hlen : (lastColumn block order).length = block.length := by rw [lastColumn_length, h.length_eq]
  have hlt : origPtr < (lastColumn block order).length := by
    simpa using (List.getElem?_eq_some_iff.mp horig).1
  have hfirst : ∀ m, (block.rotate m)[0]? = block[m % block.length]? := fun m => by
    simpa using List.getElem?_rotate (n := m) (List.length_pos_iff.mpr hne)
  refine List.ext_getElem? fun k => ?_
  rcases Nat.lt_or_ge k block.length with hk | hk
  · calc (bwtInverse (lastColumn block order) origPtr)[k]?
      _ = (lastColumn block order)[rowAfter (lastColumn block order) origPtr (k + 1)]? :=
        bwtInverse_getElem? hlt (hlen ▸ hk)
      _ = (block.rotate (order.getD (rowAfter (lastColumn block order) origPtr (k + 1)) 0 + block.length - 1))[0]? := by
        rw [hfirst, (lastColumn_isLastColumn h.length_eq).2 _ (hlen ▸ rowAfter_lt hlt _)]
      _ = block[k]? := by rw [rotate_rowAfter hne h horig, hfirst, Nat.mod_eq_of_lt hk]
  · rw [List.getElem?_eq_none hk, List.getElem?_eq_none (by simpa [h.length_eq] using hk)]

end

/-- Settles O39: the walk starts at the row of rotation 0, and each step goes on to the next rotation. -/
theorem bwtRoundTrip : Obligations.BwtRoundTrip := fun block hne =>
  bwtInverse_lastColumn hne (sortedIndices_isRotationOrder block) (sortedIndices_originRow hne)

end Sys2Proof.Machine

/-! SUPPORT. Commands that store several byte strings, and the checks and ends of the BWT commands. -/

namespace Sys2Proof.Machine

/-! ### Several byte strings stored one after the other (20_memory.md R69, R70) -/

/-- The memory after the byte strings are stored at their addresses. -/
def writePieces (m : Memory) (pieces : List (Nat × List Byte)) : Memory :=
  pieces.foldl (fun m p => m.writeBytes p.1 p.2) m

/-- The range a byte string is stored in. -/
def pieceSpan (p : Nat × List Byte) : Span := ⟨p.1, p.2.length⟩

theorem read_writePieces_outside {pieces : List (Nat × List Byte)} {a : Nat}
    (h : ∀ p ∈ pieces, ¬(p.1 ≤ a ∧ a < p.1 + p.2.length)) (m : Memory) : (writePieces m pieces).read a = m.read a := by
  induction pieces generalizing m with
  | nil => rfl
  | cons p ps ih =>
    obtain ⟨hp, hps⟩ := List.forall_mem_cons.mp h
    exact (ih hps _).trans (read_writeBytes_outside (by omega))

/-- Byte strings in ranges that share no byte are all read back. -/
theorem readBytes_writePieces {pieces : List (Nat × List Byte)}
    (h : (pieces.map pieceSpan).Pairwise fun x y => x.disjoint y = true) (m : Memory) :
    ∀ p ∈ pieces, (writePieces m pieces).readBytes p.1 p.2.length = p.2 := by
  induction pieces generalizing m with
  | nil => simp
  | cons p ps ih =>
    obtain ⟨hp, hps⟩ := List.pairwise_cons.mp h
    refine List.forall_mem_cons.mpr ⟨?_, ih hps _⟩
    have hkeep : (writePieces m (p :: ps)).readBytes p.1 p.2.length =
        (m.writeBytes p.1 p.2).readBytes p.1 p.2.length := readBytes_congr fun i hi =>
      read_writePieces_outside (fun q hq hin => (disjoint_iff _ _).mp (hp _ (List.mem_map_of_mem hq)) (p.1 + i)
        ⟨⟨Nat.le_add_right .., Nat.add_lt_add_left hi _⟩, hin⟩) _
    rw [hkeep, readBytes_writeBytes_same]

/-- A command that stores byte strings stores them, its WR area and nothing else, when their ranges and the area share
no byte. -/
theorem finish_stored_pieces {s u : State} {wr : Option Word} {pieces : List (Nat × List Byte)}
    (hmem : u.mem = writePieces s.mem pieces)
    (hapart : (pieces.map pieceSpan ++ wrSpans wr).Pairwise fun x y => x.disjoint y = true) :
    Stored s (finish wr u) pieces wr := by
  obtain ⟨hpieces, -, hwr⟩ := List.pairwise_append.mp hapart
  have hrest := finish_stored_nothing wr (s := u) rfl
  refine ⟨fun p hp => ?_, hrest.resultArea, fun a ha hwra => ?_⟩
  · have hkeep : (finish wr u).mem.readBytes p.1 p.2.length = u.mem.readBytes p.1 p.2.length :=
      readBytes_congr fun i hi => hrest.frame _ (by simp) fun w hw hin =>
        (disjoint_iff _ _).mp (hwr _ (List.mem_map_of_mem hp) (resultSpan w) (by simp [wrSpans, hw])) (p.1 + i)
          ⟨⟨Nat.le_add_right .., Nat.add_lt_add_left hi _⟩, hin⟩
    rw [hkeep, hmem, readBytes_writePieces hpieces _ p hp]
  · rw [hrest.frame a (by simp) hwra, hmem, read_writePieces_outside ha]

/-! ### The BWT commands (44_bwt.md R191, R195) -/

/-- A BWT command that stores its bytes and its optional array completes. -/
theorem finish_completedNext_array {s : State} (dst : Nat) (a wr : Option Word) (bytes : List Byte) (vs : List Nat)
    (r0 r1 r2 r3 : Nat) :
    CompletedNext s (finish wr (setResults r0 r1 r2 r3 (storeWords a vs (storeBytes dst bytes s)))) := by
  cases a <;> exact finish_completedNext wr rfl

section
variable {s : State} {src n dst : Word} {a wr : Option Word}
  (h : operandsInOrder s [wordSpan src n] (wordSpan dst n :: a.toList.map fun x => ⟨x.toNat, 4 * n.toNat⟩) [] [] wr =
    true)
include h

/-- A byte string and an optional u32 array, stored by a BWT command at its addresses. -/
theorem finish_stored_array {bytes : List Byte} {vs : List Nat} (hbytes : bytes.length = n.toNat)
    (hvs : vs.length = n.toNat) (r0 r1 r2 r3 : Nat) :
    Stored s (finish wr (setResults r0 r1 r2 r3 (storeWords a vs (storeBytes dst.toNat bytes s))))
      ((dst.toNat, bytes) :: a.toList.map fun d => (d.toNat, arrayBytes 4 vs)) wr := by
  simp only [operandsInOrder, Bool.and_eq_true, apartAll_iff] at h
  obtain ⟨⟨-, hapart⟩, -⟩ := h
  refine finish_stored_pieces (by cases a <;> rfl) ?_
  cases a <;> simpa [pieceSpan, hbytes, hvs] using hapart

/-- What BWT_FWD does with its ranges in order. -/
theorem exec_bwtFwd_of_inOrder (hn : 1 ≤ n.toNat) (hn' : n.toNat ≤ 900000) {block : List Byte}
    (hblock : block = s.mem.readBytes src.toNat n.toNat) :
    exec (.bwtFwd src n dst a wr) s = .next (finish wr (setResults (originRow (sortedIndices block)) n.toNat 0 0
      (storeWords a (sortedIndices block) (storeBytes dst.toNat (lastColumn block (sortedIndices block)) s)))) := by
  have hc : (instrPlan (.bwtFwd src n dst a wr) s).check s.platform = none := by
    refine check_of_operandsInOrder ⟨hn, hn'⟩ h ?_ ?_ ?_ ?_
    · cases a <;> cases wr <;> rfl
    · cases a <;> cases wr <;> rfl
    · cases a <;> cases wr <;> simp [operandTable, resultOperand, wrSpans, resultSpan]
    · cases a <;> simp [operandTable, resultOperand]
  subst hblock
  simp only [exec]
  exact guarded_of_none hc

/-- What BWT_INV does with its ranges in order. -/
theorem exec_bwtInv_of_inOrder (origPtr : Word) (hn : n.toNat ≤ 900000) {l : List Byte}
    (hl : l = s.mem.readBytes src.toNat n.toNat) :
    exec (.bwtInv src n origPtr dst a wr) s = .next (if origPtr.toNat < n.toNat then
      finish wr (setResults n.toNat 0 0 0
        (storeWords a (nextVector l) (storeBytes dst.toNat (bwtInverse l origPtr.toNat) s)))
      else errorStop { code := .invalidOriginPointer } s) := by
  have hc : (instrPlan (.bwtInv src n origPtr dst a wr) s).check s.platform = none := by
    refine check_of_operandsInOrder hn h ?_ ?_ ?_ ?_
    · cases a <;> cases wr <;> rfl
    · cases a <;> cases wr <;> rfl
    · cases a <;> cases wr <;> simp [operandTable, resultOperand, wrSpans, resultSpan]
    · cases a <;> simp [operandTable, resultOperand]
  subst hl
  simp only [exec]
  exact guarded_of_none hc

end

/-- Settles O36: the model's sorted index array is the order, and its row of rotation 0 fits a RESULT word. -/
theorem bwtFwdWrites : Obligations.BwtFwdWrites := by
  intro s src n dst sa wr block hn hn' h hblock
  have hlen : block.length = n.toNat := by simp [hblock]
  have hne : block ≠ [] := List.length_pos_iff.mp (by omega)
  have horder := sortedIndices_length block
  have hrow := sortedIndices_originRow_lt hne
  refine ⟨_, sortedIndices block, lastColumn block (sortedIndices block), exec_bwtFwd_of_inOrder h hn hn' hblock,
    finish_completedNext_array .., sortedIndices_isRotationOrder block, by simp [hlen], ?_,
    finish_stored_array h (by simp [hlen]) (horder.trans hlen) .., ?_, by simp, by simp, by simp⟩
  · exact hlen ▸ (lastColumn_isLastColumn horder).2
  · rw [finish_results, setResults_results, BitVec.toNat_ofNat, Nat.mod_eq_of_lt (by omega)]
    exact sortedIndices_originRow hne

/-- Settles O38: the inverse transform is the walk, and the origin pointer is looked at before the first write. -/
theorem bwtInvWrites : Obligations.BwtInvWrites := by
  intro s src n origPtr dst tv wr l hn h hl
  have hlen : l.length = n.toNat := by simp [hl]
  rw [exec_bwtInv_of_inOrder h origPtr hn hl]
  refine ⟨fun hlt => ?_, fun hge => ?_⟩
  · rw [if_pos hlt]
    have hrow : origPtr.toNat < l.length := hlen.symm ▸ hlt
    exact ⟨_, nextVector l, bwtInverse l origPtr.toNat, fun k => rowAfter l origPtr.toNat (k + 1), rfl,
      finish_completedNext_array .., nextVector_isNextVector l, by simp [hlen], getElem?_nextVector_rowAfter hrow 0,
      fun k hk => ⟨bwtInverse_getElem? hrow (hlen ▸ hk), getElem?_nextVector_rowAfter hrow (k + 1)⟩,
      finish_stored_array h (by simp [hlen]) (by simp [hlen]) .., by simp, by simp, by simp⟩
  · rw [if_neg (by omega)]
    simp [errorStop, stopRecord, ErrorCode.number]

end Sys2Proof.Machine

/-! SUPPORT. MTF + RLE2: a coding is the only one of its bytes, and a decoding ends as its first deciding symbol says. -/

namespace Sys2Proof.Machine

/-! ### The coding is unique (45_mtf_rle2.md R212) -/

/-- A number has one bijective base-2 numeral. -/
theorem eq_of_numeralValue_eq {xs ys : List Nat} (hx : ∀ d ∈ xs, d ≤ 1) (hy : ∀ d ∈ ys, d ≤ 1)
    (h : numeralValue xs = numeralValue ys) : xs = ys := by
  induction xs generalizing ys with
  | nil =>
    cases ys with
    | nil => rfl
    | cons e ys => simp only [numeralValue] at h; omega
  | cons d xs ih =>
    cases ys with
    | nil => simp only [numeralValue] at h; omega
    | cons e ys =>
      obtain ⟨hd, hxs⟩ := List.forall_mem_cons.mp hx
      obtain ⟨he, hys⟩ := List.forall_mem_cons.mp hy
      simp only [numeralValue] at h
      rw [ih hxs hys (by omega), show d = e by omega]

theorem isRunCode_iff {z : Nat} {syms : List Nat} : IsRunCode z syms ↔ syms = runSymbols z := by
  obtain ⟨hdigits, hvalue⟩ := runSymbols_isRunCode z
  refine ⟨fun ⟨hd, hv⟩ => eq_of_numeralValue_eq hd hdigits (hv.trans hvalue.symm), ?_⟩
  rintro rfl
  exact ⟨hdigits, hvalue⟩

theorem isRankCode_iff {eob z : Nat} {ranks syms : List Nat} :
    IsRankCode eob z ranks syms ↔ syms = rle2From eob z ranks := by
  induction ranks generalizing z syms with
  | nil => simp [IsRankCode, rle2From, isRunCode_iff]
  | cons j ranks ih =>
    cases j with
    | zero => exact ih
    | succ j => simp [IsRankCode, rle2From, isRunCode_iff, ih]

/-- The symbols of `mtf_enc` are the only coding of its bytes over their alphabet. -/
theorem isMtfCode_iff {l : List Byte} {syms : List Nat} : IsMtfCode (usedBytes l) l syms ↔ syms = mtfEnc l := by
  rw [IsMtfCode, mtfEnc, ← mtfRanks_eq fun b hb => (mem_usedBytes_iff l b).mpr hb]
  exact isRankCode_iff

theorem usedBytes_pairwise (l : List Byte) : (usedBytes l).Pairwise fun u v => u.toNat < v.toNat :=
  allBytes_pairwise.filter _

theorem allBytes_nodup : allBytes.Nodup := allBytes_pairwise.imp fun hlt heq => hlt.ne (congrArg _ heq)

theorem rle2From_eq_append_eob (eob z : Nat) (ranks : List Nat) : ∃ seen, rle2From eob z ranks = seen ++ [eob] := by
  induction ranks generalizing z with
  | nil => exact ⟨runSymbols z, rfl⟩
  | cons j ranks ih =>
    cases j with
    | zero => exact ih (z + 1)
    | succ j =>
      obtain ⟨seen, hseen⟩ := ih 0
      exact ⟨runSymbols z ++ (j + 2) :: seen, by simp [rle2From, hseen]⟩

/-- The symbols of `mtf_enc` before EOB have put out its bytes. -/
theorem mtfEnc_eq_append_eob (l : List Byte) :
    ∃ seen, mtfEnc l = seen ++ [(usedBytes l).length + 1] ∧ IsMtfPrefix (usedBytes l) l seen := by
  obtain ⟨seen, hseen⟩ := rle2From_eq_append_eob ((usedBytes l).length + 1) 0 (mtfRanks (usedBytes l) l)
  exact ⟨seen, hseen, isMtfCode_iff.mpr hseen.symm, fun b hb => (mem_usedBytes_iff l b).mpr hb⟩

/-! ### The symbol that decides (45_mtf_rle2.md R214) -/

section
variable {used : List Byte} (hu : used ≠ []) (hnd : used.Nodup)
include hu hnd

/-- More symbols put out the same bytes first. -/
theorem IsMtfPrefix.begins {bytes bytes' : List Byte} {seen more : List Nat} (h : IsMtfPrefix used bytes seen)
    (h' : IsMtfPrefix used bytes' (seen ++ more)) : bytes <+: bytes' :=
  comes_unique (List.length_pos_iff.mpr hu) seen 0 (mtfStart used) [] more bytes bytes' (mtfPending_start hu hnd 0)
    ((isMtfPrefix_iff ..).mp h) ((isMtfPrefix_iff ..).mp h')

theorem IsMtfPrefix.unique {bytes bytes' : List Byte} {seen : List Nat} (h : IsMtfPrefix used bytes seen)
    (h' : IsMtfPrefix used bytes' seen) : bytes = bytes' := by
  have hpre : bytes <+: bytes' := h.begins hu hnd (by rwa [List.append_nil])
  have hpre' : bytes' <+: bytes := h'.begins hu hnd (by rwa [List.append_nil])
  exact hpre.eq_of_length (hpre.length_le.antisymm hpre'.length_le)

theorem IsMtfPrefix.lt_eob {bytes : List Byte} {seen : List Nat} (h : IsMtfPrefix used bytes seen) {x : Nat}
    (hx : x ∈ seen) : x < used.length + 1 :=
  comes_symbols (List.length_pos_iff.mpr hu) seen 0 (mtfStart used) [] bytes (mtfPending_start hu hnd 0)
    ((isMtfPrefix_iff ..).mp h) x hx

end

/-- What the rest of the symbols makes of a decoding whose symbols `seen` have put out `bytes`, when its first symbol
decides (45_mtf_rle2.md R214). -/
def mtfVerdict (used : List Byte) (limitError : EngineError) (seen : List Nat) (bytes : List Byte) :
    List Nat → Except EngineError (List Byte × Nat)
  | [] => .error (formatError 9)
  | x :: _ =>
    if x = used.length + 1 then .ok (bytes, seen.length + 1)
    else if used.length + 1 < x then .error { code := .invalidSymbol }
    else .error limitError

/-- The symbols `seen` have put out `bytes` within the limit, and with the first of the rest no sequence does. -/
structure MtfDecided (used : List Byte) (lim : Nat) (seen rest : List Nat) (bytes : List Byte) : Prop where
  putOut : IsMtfPrefix used bytes seen
  within : bytes.length ≤ lim
  longer : ∀ x ∈ rest.head?, ∀ tail bytes', IsMtfPrefix used bytes' (seen ++ x :: tail) → lim < bytes'.length

theorem mtfDec_eq_outcome (syms : List Nat) (used : List Byte) (lim : Nat) (limitError : EngineError) :
    mtfDec syms used lim limitError =
      mtfOutcome (mtfDecFrom (used.length + 1) lim limitError 0 (mtfStart used) syms) := by
  unfold mtfDec
  cases mtfDecFrom (used.length + 1) lim limitError 0 (mtfStart used) syms <;> rfl

section
variable {used : List Byte} {lim : Nat} {limitError : EngineError} {syms : List Nat}
  {out out' : Except EngineError (List Byte × Nat)} (hu : used ≠ []) (hnd : used.Nodup)
include hu hnd

/-- A symbol that is none of those below EOB decides. -/
theorem mtfDecided_of_eob_le {seen more : List Nat} {bytes : List Byte} {x : Nat} (hseen : IsMtfPrefix used bytes seen)
    (hlim : bytes.length ≤ lim) (hx : used.length + 1 ≤ x) : MtfDecided used lim seen (x :: more) bytes := by
  refine ⟨hseen, hlim, fun y hy tail bytes' hb => ?_⟩
  obtain rfl : x = y := by simpa using hy
  exact absurd (hb.lt_eob hu hnd (by simp)) hx.not_gt

/-- A decoding has symbols within the limit, then the symbol, or the end, that decides. -/
theorem IsMtfDec.decided (h : IsMtfDec used lim limitError syms out) : ∃ seen rest bytes, syms = seen ++ rest ∧
    MtfDecided used lim seen rest bytes ∧ out = mtfVerdict used limitError seen bytes rest := by
  cases h with
  | done seen more bytes hsyms hseen hlim =>
    exact ⟨_, _, _, hsyms, mtfDecided_of_eob_le hu hnd hseen hlim le_rfl, by simp [mtfVerdict]⟩
  | noSymbol seen more bytes x hsyms hseen hlim hx =>
    exact ⟨_, _, _, hsyms, mtfDecided_of_eob_le hu hnd hseen hlim hx.le, by simp [mtfVerdict, hx, hx.ne']⟩
  | limit seen more bytes bytes' x hsyms hseen hlim hnext hlong =>
    have hx : x < used.length + 1 := hnext.lt_eob hu hnd (by simp)
    refine ⟨_, _, _, hsyms, ⟨hseen, hlim, fun y hy tail bytes'' hb => ?_⟩, by simp [mtfVerdict, hx.ne, hx.not_gt]⟩
    obtain rfl : x = y := by simpa using hy
    exact hlong.trans_le (hnext.begins hu hnd (by simpa using hb)).length_le
  | noEob bytes hseen hlim => exact ⟨_, [], _, (List.append_nil _).symm, ⟨hseen, hlim, by simp⟩, rfl⟩

/-- Of two places that decide the later one is the earlier one. -/
theorem MtfDecided.verdict_eq {seen more rest : List Nat} {bytes bytes' : List Byte}
    (h : MtfDecided used lim seen (more ++ rest) bytes) (h' : MtfDecided used lim (seen ++ more) rest bytes') :
    mtfVerdict used limitError seen bytes (more ++ rest) = mtfVerdict used limitError (seen ++ more) bytes' rest := by
  cases more with
  | nil =>
    rw [List.append_nil] at h' ⊢
    rw [h.putOut.unique hu hnd h'.putOut, List.nil_append]
  | cons x more => exact absurd (h.longer x rfl more bytes' h'.putOut) h'.within.not_gt

/-- A decoding has one end. -/
theorem IsMtfDec.unique (h : IsMtfDec used lim limitError syms out) (h' : IsMtfDec used lim limitError syms out') :
    out = out' := by
  obtain ⟨seen, rest, bytes, hsyms, hd, rfl⟩ := h.decided hu hnd
  obtain ⟨seen', rest', bytes', hsyms', hd', rfl⟩ := h'.decided hu hnd
  rcases List.append_eq_append_iff.mp (hsyms.symm.trans hsyms') with ⟨more, rfl, rfl⟩ | ⟨more, rfl, rfl⟩
  · exact hd.verdict_eq hu hnd hd'
  · exact (hd'.verdict_eq hu hnd hd).symm

/-- The decoder comes to an end of R214. -/
theorem mtfDec_isMtfDec (lim : Nat) (limitError : EngineError) (syms : List Nat) :
    IsMtfDec used lim limitError syms (mtfDec syms used lim limitError) := by
  rw [mtfDec_eq_outcome]
  have hends := mtfDecFrom_ends limitError (List.length_pos_iff.mpr hu) syms 0 _ [] (mtfPending_start hu hnd lim)
  simp only [MtfEnds, mtfStart, ← isMtfPrefix_iff, List.reverse_nil, List.nil_append, Nat.zero_add] at hends
  rcases hends with ⟨seen, more, bytes, hsyms, hseen, hlim, hout⟩ | ⟨seen, more, bytes, x, hsyms, hseen, hlim, hx, hout⟩ |
    ⟨seen, more, bytes, bytes', x, hsyms, hseen, hlim, hnext, hlong, hout⟩ | ⟨bytes, hseen, hlim, hout⟩
  · exact hout ▸ .done seen more bytes hsyms hseen hlim
  · exact hout ▸ .noSymbol seen more bytes x hsyms hseen hlim hx
  · exact hout ▸ .limit seen more bytes bytes' x hsyms hseen hlim hnext hlong
  · exact hout ▸ .noEob bytes hseen hlim

theorem mtfDec_eq_iff : mtfDec syms used lim limitError = out ↔ IsMtfDec used lim limitError syms out :=
  ⟨fun h => h ▸ mtfDec_isMtfDec hu hnd lim limitError syms, (mtfDec_isMtfDec hu hnd lim limitError syms).unique hu hnd⟩

end

/-- The symbols of `mtf_enc` decode to its bytes, its length the limit (45_mtf_rle2.md R217). -/
theorem mtfDec_mtfEnc {l : List Byte} (hl : l ≠ []) (limitError : EngineError) :
    mtfDec (mtfEnc l) (usedBytes l) l.length limitError = .ok (l, (mtfEnc l).length) := by
  have hu : usedBytes l ≠ [] := List.ne_nil_of_mem ((mem_usedBytes_iff l _).mpr (List.head_mem hl))
  obtain ⟨seen, hsyms, hseen⟩ := mtfEnc_eq_append_eob l
  rw [mtfDec_eq_iff hu (allBytes_nodup.filter _), hsyms, List.length_append]
  exact .done seen [] l rfl hseen le_rfl

/-- Settles O42: the coding is unique, so the decoder, whose end is unique, comes to the end the coding has. -/
theorem mtfRoundTrip : Obligations.MtfRoundTrip :=
  ⟨fun _ limitError hl => mtfDec_mtfEnc hl limitError, fun _ _ => isMtfCode_iff,
    fun l => ⟨mem_usedBytes_iff l, usedBytes_pairwise l⟩, fun _ _ _ _ _ hu hnd => mtfDec_eq_iff hu hnd⟩

end Sys2Proof.Machine

/-! SUPPORT. The MTF commands: the used map bit by bit, their checks, and the ends MTF_ENC and MTF_DEC come to. -/

namespace Sys2Proof.Machine

/-! ### The used map (45_mtf_rle2.md R216) -/

/-- The number made of the powers of two with a given property, below `2 ^ n`, has exactly their bits. -/
theorem sum_two_pow_testBit (p : Nat → Bool) (n : Nat) :
    ((List.range n).map fun j => if p j then 2 ^ j else 0).sum < 2 ^ n ∧
      ∀ k, k < n → ((List.range n).map fun j => if p j then 2 ^ j else 0).sum.testBit k = p k := by
  induction n with
  | zero => simp
  | succ n ih =>
    obtain ⟨hlt, hbits⟩ := ih
    rw [List.range_succ, List.map_append, List.sum_append, List.map_singleton, List.sum_singleton, pow_succ]
    generalize ((List.range n).map fun j => if p j then 2 ^ j else 0).sum = low at hlt hbits ⊢
    refine ⟨by split <;> omega, fun k hk => ?_⟩
    rw [Nat.add_comm]
    rcases Nat.lt_succ_iff_lt_or_eq.mp hk with hk | rfl
    · rw [← hbits k hk]
      split
      · exact Nat.testBit_two_pow_add_gt hk low
      · rw [Nat.zero_add]
    · cases hp : p k with
      | true => simp [Nat.testBit_two_pow_add_eq, Nat.testBit_lt_two_pow hlt]
      | false => simp [Nat.testBit_lt_two_pow hlt]

/-- A used map marks the values of its list. -/
theorem usedMap_getLsbD (used : List Byte) (v : Byte) :
    ((usedMap used).getD (v.toNat / 8) 0).getLsbD (v.toNat % 8) = used.contains v := by
  have hv := v.isLt
  have hbit : v.toNat % 8 < 8 := Nat.mod_lt _ (by decide)
  have hbyte : (usedMap used).getD (v.toNat / 8) 0 = usedMapByte used (v.toNat / 8) := by
    have : v.toNat / 8 < 32 := by omega
    simp [usedMap, List.getD, this]
  rw [hbyte, usedMapByte, BitVec.getLsbD_ofNat, (sum_two_pow_testBit _ 8).2 _ hbit, Nat.div_add_mod]
  simp [hbit]

/-- The values a used map in memory marks. -/
theorem markedBytes_readBytes (m : Memory) (a : Nat) : markedBytes (m.readBytes a 32) =
    allBytes.filter fun v => (m.read (a + v.toNat / 8)).getLsbD (v.toNat % 8) :=
  List.filter_congr fun v _ => by rw [readBytes_getD _ _ _ _ (by have := v.isLt; omega)]

/-! ### Stored bytes keep off the WR area (20_memory.md R70) -/

/-- The bytes stored at the start of a range share none with what the range shares none with. -/
theorem disjoint_of_len_le {a n len : Nat} {sp : Span} (h : (Span.mk a len).disjoint sp = true) (hn : n ≤ len) :
    (Span.mk a n).disjoint sp = true := by
  rw [disjoint_iff] at h ⊢
  exact fun b hb => h b ⟨⟨hb.1.1, hb.1.2.trans_le (Nat.add_le_add_left hn a)⟩, hb.2⟩

theorem operandsInOrder_apart {s : State} {reads writes cursorReads cursorWrites : List Span} {wr : Option Word}
    (h : operandsInOrder s reads writes cursorReads cursorWrites wr = true) :
    (writes ++ cursorWrites ++ wrSpans wr).Pairwise fun x y => x.disjoint y = true := by
  simp only [operandsInOrder, Bool.and_eq_true, apartAll_iff] at h
  obtain ⟨⟨-, hapart⟩, -⟩ := h
  exact hapart

/-- The bytes stored at the only destination keep off the WR area, whatever the ranges read. -/
theorem destination_disjoint_resultSpan {s : State} {reads : List Span} {dst cap : Word} {wr : Option Word}
    (h : operandsInOrder s reads [wordSpan dst cap] [] [] wr = true) {len : Nat} (hlen : len ≤ cap.toNat) {w : Word}
    (hw : wr = some w) : (Span.mk dst.toNat len).disjoint (resultSpan w) = true := by
  obtain ⟨hdst, -⟩ := List.pairwise_cons.mp (operandsInOrder_apart h)
  exact disjoint_of_len_le (hdst _ (by simp [wrSpans, hw])) hlen

/-! ### MTF_ENC (45_mtf_rle2.md R213) -/

section
variable {s : State} {src n dst cap map : Word} {wr : Option Word}
  (h : operandsInOrder s [wordSpan src n] [⟨dst.toNat, 2 * cap.toNat⟩, ⟨map.toNat, 32⟩] [] [] wr = true)
include h

/-- What MTF_ENC does with its ranges in order. -/
theorem exec_mtfEnc_of_inOrder (hn : 1 ≤ n.toNat) (hn' : n.toNat ≤ 900000) {x : List Byte}
    (hx : x = s.mem.readBytes src.toNat n.toNat) :
    exec (.mtfEnc src n dst cap map wr) s = .next (if (mtfEnc x).length ≤ cap.toNat then
      finish wr (setResults (mtfEnc x).length (usedBytes x).length ((usedBytes x).length + 1) 0
        (storeBytes map.toNat (usedMap (usedBytes x)) (storeBytes dst.toNat (arrayBytes 2 (mtfEnc x)) s)))
      else failSpans [⟨dst.toNat, 2 * cap.toNat⟩, ⟨map.toNat, 32⟩] outputTooSmall s) := by
  have hc : (instrPlan (.mtfEnc src n dst cap map wr) s).check s.platform = none := by
    refine check_of_operandsInOrder ⟨hn, hn'⟩ h ?_ ?_ ?_ ?_
    · cases wr <;> rfl
    · cases wr <;> rfl
    · cases wr <;> simp [operandTable, resultOperand, wrSpans, resultSpan]
    · simp [operandTable, resultOperand]
  subst hx
  simp only [exec]
  exact guarded_of_none hc

/-- Symbols that fit and a used map, stored by MTF_ENC at their addresses, keep off each other and the WR area. -/
theorem mtfEnc_pieces_apart {syms : List Nat} {marks : List Byte} (hsyms : syms.length ≤ cap.toNat)
    (hmarks : marks.length = 32) :
    ([(dst.toNat, arrayBytes 2 syms), (map.toNat, marks)].map pieceSpan ++ wrSpans wr).Pairwise
      fun x y => x.disjoint y = true := by
  obtain ⟨hdst, hrest⟩ := List.pairwise_cons.mp (operandsInOrder_apart h)
  rw [List.map_cons, List.map_singleton, pieceSpan, pieceSpan, hmarks]
  exact List.pairwise_cons.mpr ⟨fun sp hsp => disjoint_of_len_le (hdst sp hsp) (by simpa using hsyms), hrest⟩

end

/-- Settles O40: the encoder's symbols are the coding, and they fit or not. -/
theorem mtfEncWrites : Obligations.MtfEncWrites := by
  intro s src n dst cap map wr x used hn hn' h hx hused hsorted
  obtain rfl : used = usedBytes x :=
    sorted_ext hsorted (usedBytes_pairwise x) fun v => (hused v).trans (mem_usedBytes_iff x v).symm
  refine ⟨mtfEnc x, mtfEnc_isMtfCode x, ?_⟩
  rw [exec_mtfEnc_of_inOrder h hn hn' hx]
  have hmarks : (usedMap (usedBytes x)).length = 32 := by simp [usedMap]
  refine ⟨fun hfit => ?_, fun hlong => ?_⟩
  · rw [if_pos hfit]
    refine ⟨_, usedMap (usedBytes x), rfl, finish_completedNext wr rfl, hmarks, fun v => ?_,
      finish_stored_pieces rfl (mtfEnc_pieces_apart h hfit hmarks), by simp, by simp, by simp⟩
    rw [usedMap_getLsbD, Bool.eq_iff_iff, List.contains_iff_mem, List.contains_iff_mem, mem_usedBytes_iff]
  · rw [if_neg hlong.not_ge]
    exact ⟨_, rfl, failSpans_failedWith ..⟩

/-! ### MTF_DEC (45_mtf_rle2.md R215) -/

/-- What MTF_DEC does with its ranges in order. -/
theorem exec_mtfDec_of_inOrder {s : State} {src count map dst cap : Word} {wr : Option Word}
    (h : operandsInOrder s [⟨src.toNat, 2 * count.toNat⟩, ⟨map.toNat, 32⟩] [wordSpan dst cap] [] [] wr = true)
    {used : List Byte} {syms : List Nat}
    (hused : used = allBytes.filter fun v => (s.mem.read (map.toNat + v.toNat / 8)).getLsbD (v.toNat % 8))
    (hsyms : syms = (List.range count.toNat).map fun k => s.mem.readNat (src.toNat + 2 * k) 2) :
    exec (.mtfDec src count map dst cap wr) s = .next
      (match if used = [] then .error (formatError 3) else mtfDec syms used cap.toNat outputTooSmall with
      | .ok (out, k) => finish wr (setResults out.length k 0 0 (storeBytes dst.toNat out s))
      | .error e => failSpans [wordSpan dst cap] e s) := by
  have hc : (instrPlan (.mtfDec src count map dst cap wr) s).check s.platform = none := by
    refine check_of_operandsInOrder trivial h ?_ ?_ ?_ ?_
    · cases wr <;> rfl
    · cases wr <;> rfl
    · cases wr <;> simp [operandTable, resultOperand, wrSpans, resultSpan]
    · simp [operandTable, resultOperand]
  subst hused hsyms
  rw [← markedBytes_readBytes]
  simp only [exec]
  exact guarded_of_none hc

theorem IsMtfDec.error_pos {used : List Byte} {lim : Nat} {syms : List Nat} {e : EngineError}
    (h : IsMtfDec used lim outputTooSmall syms (.error e)) : e.pos = 0 := by
  cases h <;> rfl

theorem IsMtfDec.length_le {used out : List Byte} {lim k : Nat} {limitError : EngineError} {syms : List Nat}
    (h : IsMtfDec used lim limitError syms (.ok (out, k))) : out.length ≤ lim := by
  cases h
  assumption

/-- Settles O41: an empty map is looked at first, and then the decoder comes to the one end of R214. -/
theorem mtfDecWrites : Obligations.MtfDecWrites := by
  intro s src count map dst cap wr used syms h hused hsyms
  have hexec := exec_mtfDec_of_inOrder h hused hsyms
  have hnd : used.Nodup := hused ▸ allBytes_nodup.filter _
  refine ⟨fun hu => ⟨_, hexec, ?empty⟩, fun hu => ⟨_, mtfDec_isMtfDec hu hnd ..⟩, fun out k hu hd => ⟨_, hexec, ?done⟩,
    fun e hu hd => ⟨_, hexec, ?failed⟩⟩
  case empty =>
    rw [if_pos hu]
    exact failSpans_failedWith ..
  case done =>
    rw [if_neg hu, (mtfDec_eq_iff hu hnd).mpr hd]
    exact ⟨finish_completedNext wr rfl, finish_stored_bytes rfl fun w hw => destination_disjoint_resultSpan h hd.length_le hw,
      by simp, by simp, by simp⟩
  case failed =>
    rw [if_neg hu, (mtfDec_eq_iff hu hnd).mpr hd]
    simpa [hd.error_pos] using failSpans_failedWith [wordSpan dst cap] e s

end Sys2Proof.Machine

/-! SUPPORT. Canonical codes, left-aligned to 20 bits, are intervals side by side in the order of (length, symbol): each
code fits its length and none begins another. So decoding inverts encoding. -/

namespace Sys2Proof.Machine

/-! ### The first codes of the lengths (46_huffman.md R233) -/

/-- What one more symbol of length `l` adds to the first code of length `n`. -/
theorem firstCode_cons (l : Nat) (lens : List Nat) (n : Nat) :
    firstCode (l :: lens) n = (if l < n then 2 ^ (n - l) else 0) + firstCode lens n := by
  induction n with
  | zero => rfl
  | succ n ih =>
    rw [firstCode, firstCode, ih, List.count_cons]
    rcases Nat.lt_trichotomy l n with hlt | rfl | hgt
    · simp only [if_pos hlt, if_pos (Nat.lt_succ_of_lt hlt), beq_iff_eq, if_neg hlt.ne, Nat.succ_sub hlt.le, pow_succ]
      ring
    · simp only [Nat.lt_irrefl, if_false, BEq.rfl, if_true, Nat.lt_succ_self, Nat.succ_sub le_rfl, Nat.sub_self]
      ring
    · simp only [if_neg hgt.not_gt, if_neg (Nat.succ_le_of_lt hgt).not_gt, beq_iff_eq, if_neg hgt.ne', Nat.zero_add,
        Nat.add_zero]

/-- The first code past length 20 is twice the Kraft sum. -/
theorem firstCode_past_longest {lens : List Nat} (h : ∀ l ∈ lens, l ≤ 20) :
    firstCode lens 21 = 2 * (lens.map fun l => 2 ^ (20 - l)).sum := by
  induction lens with
  | nil => rfl
  | cons l lens ih =>
    obtain ⟨hl, hlens⟩ := List.forall_mem_cons.mp h
    rw [firstCode_cons, ih hlens, if_pos (by omega), List.map_cons, List.sum_cons, Nat.mul_add, Nat.succ_sub hl,
      pow_succ']

/-- A code of length below `n` ends, extended to `n` bits, before the first code of length `n`. -/
theorem codeOf_succ_mul_le_firstCode {lens : List Nat} {i n : Nat} (hi : i < lens.length) (hn : lens.getD i 0 < n) :
    (codeOf lens i + 1) * 2 ^ (n - lens.getD i 0) ≤ firstCode lens n := by
  induction n, (hn : lens.getD i 0 + 1 ≤ n) using Nat.le_induction with
  | base =>
    have hmem : lens.getD i 0 ∈ lens.drop i := by
      rw [List.getD_eq_getElem _ _ hi, List.drop_eq_getElem_cons hi]
      exact List.mem_cons_self
    have hcount : lens.count (lens.getD i 0) =
        (lens.take i).count (lens.getD i 0) + (lens.drop i).count (lens.getD i 0) := by
      rw [← List.count_append, List.take_append_drop]
    have hpos := List.count_pos_iff.mpr hmem
    rw [Nat.succ_sub le_rfl, Nat.sub_self, pow_one, firstCode, codeOf]
    omega
  | succ n hn ih =>
    rw [Nat.succ_sub (by omega), pow_succ, ← Nat.mul_assoc, firstCode]
    omega

/-- Of two symbols of one length, the lower has the smaller code. -/
theorem codeOf_lt_codeOf {lens : List Nat} {i j : Nat} (hi : i < lens.length) (hij : i < j)
    (hlen : lens.getD i 0 = lens.getD j 0) : codeOf lens i < codeOf lens j := by
  have hprefix : lens.take (i + 1) <+: lens.take j := List.take_prefix_take_left hij
  have hcount := hprefix.sublist.count_le (lens.getD j 0)
  rw [List.take_succ_eq_append_getElem hi, List.count_append, List.count_singleton, ← hlen,
    List.getD_eq_getElem _ _ hi, if_pos BEq.rfl] at hcount
  rw [codeOf, codeOf, ← hlen, List.getD_eq_getElem _ _ hi]
  exact Nat.add_lt_add_left (by omega) _

/-- Left-aligned to 20 bits, a code's interval ends before that of a longer code, or of a higher symbol of the same
length, begins. -/
theorem codeOf_intervals_apart {lens : List Nat} (hmax : ∀ l ∈ lens, l ≤ 20) {i j : Nat} (hi : i < lens.length)
    (hj : j < lens.length) (h : lens.getD i 0 < lens.getD j 0 ∨ (lens.getD i 0 = lens.getD j 0 ∧ i < j)) :
    (codeOf lens i + 1) * 2 ^ (20 - lens.getD i 0) ≤ codeOf lens j * 2 ^ (20 - lens.getD j 0) := by
  rcases h with hlt | ⟨heq, hij⟩
  · have hj20 := hmax _ (getD_mem hj)
    have hsplit : 20 - lens.getD i 0 = (lens.getD j 0 - lens.getD i 0) + (20 - lens.getD j 0) := by omega
    rw [hsplit, pow_add, ← Nat.mul_assoc]
    exact Nat.mul_le_mul_right _ ((codeOf_succ_mul_le_firstCode hi hlt).trans (Nat.le_add_right _ _))
  · rw [heq]
    exact Nat.mul_le_mul_right _ (codeOf_lt_codeOf hi hij heq)

/-- A code of a valid table is below 2 to its length. -/
theorem codeOf_lt {lens : List Nat} (h : ValidTable lens) {i : Nat} (hi : i < lens.length) :
    codeOf lens i < 2 ^ lens.getD i 0 := by
  obtain ⟨hlens, hkraft⟩ := h
  have hmax : ∀ l ∈ lens, l ≤ 20 := fun l hl => (hlens l hl).2
  have hi20 := hmax _ (getD_mem hi)
  have hle := codeOf_succ_mul_le_firstCode hi (Nat.lt_succ_of_le hi20)
  rw [firstCode_past_longest hmax] at hle
  have hbound : (codeOf lens i + 1) * 2 ^ (21 - lens.getD i 0) ≤ 2 ^ lens.getD i 0 * 2 ^ (21 - lens.getD i 0) := by
    rw [← pow_add, Nat.add_sub_cancel' (by omega)]
    exact hle.trans (Nat.mul_le_mul_left 2 hkraft)
  exact Nat.le_of_mul_le_mul_right hbound (Nat.two_pow_pos _)

/-- The loop's codes, one by one. -/
theorem canonicalCodes_getD {lens : List Nat} {i : Nat} (hi : i < lens.length) :
    (canonicalCodes lens).getD i 0 = codeOf lens i := by
  rw [← hufCodes_eq_canonicalCodes, List.getD_eq_getElem _ _ (by simpa using hi)]
  simp [hufCodes]

/-! ### No code begins another (46_huffman.md R233) -/

/-- A number that more bits follow is at least itself shifted by them. -/
theorem le_bitsValue (v : Nat) (bs : List Bool) : v * 2 ^ bs.length ≤ bitsValue v bs := by
  induction bs generalizing v with
  | nil => simp [bitsValue]
  | cons b bs ih =>
    calc v * 2 ^ (bs.length + 1) = 2 * v * 2 ^ bs.length := by ring
      _ ≤ (2 * v + b.toNat) * 2 ^ bs.length := Nat.mul_le_mul_right _ (Nat.le_add_right _ _)
      _ ≤ bitsValue (2 * v + b.toNat) bs := ih _

/-- A code that begins with another code lies in the other's interval. -/
theorem interval_of_bitsMSB_prefix {v v' l l' : Nat} (hv : v < 2 ^ l) (hv' : v' < 2 ^ l') (hl' : l' ≤ 20)
    (h : bitsMSB v l <+: bitsMSB v' l') :
    l ≤ l' ∧ v * 2 ^ (20 - l) ≤ v' * 2 ^ (20 - l') ∧ v' * 2 ^ (20 - l') < (v + 1) * 2 ^ (20 - l) := by
  obtain ⟨rest, hrest⟩ := h
  have hlen := congrArg List.length hrest
  have hval := congrArg (bitsValue 0) hrest
  rw [List.length_append, bitsMSB_length, bitsMSB_length] at hlen
  rw [bitsValue_append, bitsValue_bitsMSB hv, bitsValue_bitsMSB hv'] at hval
  have hshift : 2 ^ (20 - l) = 2 ^ rest.length * 2 ^ (20 - l') := by rw [← pow_add]; congr 1; omega
  rw [hshift, ← Nat.mul_assoc, ← Nat.mul_assoc, ← hval]
  exact ⟨by omega, Nat.mul_le_mul_right _ (le_bitsValue v rest),
    Nat.mul_lt_mul_of_pos_right (bitsValue_lt v rest) (Nat.two_pow_pos _)⟩

/-- No symbol's code begins another's, since their intervals are apart. -/
theorem symbolCode_prefixFree {lens : List Nat} (h : ValidTable lens) {i j : Nat} (hi : i < lens.length)
    (hj : j < lens.length) (hne : i ≠ j) : ¬ symbolCode lens i <+: symbolCode lens j := by
  intro hprefix
  have hmax : ∀ l ∈ lens, l ≤ 20 := fun l hl => (h.1 l hl).2
  rw [symbolCode, symbolCode, canonicalCodes_getD hi, canonicalCodes_getD hj] at hprefix
  obtain ⟨hle, hlow, hhigh⟩ :=
    interval_of_bitsMSB_prefix (codeOf_lt h hi) (codeOf_lt h hj) (hmax _ (getD_mem hj)) hprefix
  by_cases hbefore : lens.getD i 0 < lens.getD j 0 ∨ (lens.getD i 0 = lens.getD j 0 ∧ i < j)
  · exact absurd hhigh (codeOf_intervals_apart hmax hi hj hbefore).not_gt
  · have hlt := codeOf_intervals_apart hmax hj hi (by omega)
    exact absurd (hlt.trans hlow) (Nat.mul_lt_mul_of_pos_right (Nat.lt_succ_self _) (Nat.two_pow_pos _)).not_ge

/-- The codes of a valid table are sound. -/
theorem codesSound_of_validTable {lens : List Nat} (h : ValidTable lens) : CodesSound lens where
  valid := h
  eq := hufCodes_eq_canonicalCodes lens
  lt _ hi := canonicalCodes_getD hi ▸ codeOf_lt h hi
  free _ _ hi hj hne := symbolCode_prefixFree h hi hj hne

/-- Settles O46: the codes' intervals lie side by side below 2^20, so each fits its length and none begins another. -/
theorem canonicalCodes_spec : Obligations.CanonicalCodes := by
  intro lens h
  have hsound := codesSound_of_validTable h
  refine ⟨hsound.eq, hsound.lt, hsound.free, fun i j hi hj hbefore => ?_⟩
  rw [canonicalCodes_getD hi, canonicalCodes_getD hj]
  calc codeOf lens i * 2 ^ (20 - lens.getD i 0)
      < (codeOf lens i + 1) * 2 ^ (20 - lens.getD i 0) :=
        Nat.mul_lt_mul_of_pos_right (Nat.lt_succ_self _) (Nat.two_pow_pos _)
    _ ≤ codeOf lens j * 2 ^ (20 - lens.getD j 0) := codeOf_intervals_apart (fun l hl => (h.1 l hl).2) hi hj hbefore

/-! ### Decoding inverts encoding (46_huffman.md R236, R241) -/

/-- A decoding that ends reads no selector further. -/
theorem hufDec_append_sel {σ : Type} {emit : σ → Nat → Except EngineError σ} {eob : Nat} {tables : List CodeTable}
    {sel : List Nat} {st : σ} {r : BitReader} {out : σ × BitReader} (h : hufDec emit eob tables sel st r = .ok out)
    (more : List Nat) : hufDec emit eob tables (sel ++ more) st r = .ok out := by
  induction sel generalizing st r with
  | nil => cases h
  | cons t sel ih =>
    rw [hufDec] at h
    rw [List.cons_append, hufDec]
    split at h
    · cases h
    · exact h
    · exact ih h

/-- The consumer that keeps every symbol takes every sequence. -/
theorem keepConsumer (eob : Nat) (refusal : EngineError) :
    HufConsumer (fun (st : List Nat) x => .ok (st ++ [x])) eob (fun _ => True) refusal [] fun body st => st = body where
  start := rfl
  nil := trivial
  accept _ st x _ _ hst _ _ := ⟨st ++ [x], rfl, congrArg (· ++ [x]) hst⟩
  refuse _ _ _ _ _ _ _ h := absurd trivial h
  mono _ _ _ _ := trivial

/-- Settles O50: the coded sequence is one end of the decoding, which has no other. -/
theorem huffmanRoundTrip : Obligations.HuffmanRoundTrip := by
  intro lens a sel body more pos rest hlens hsel ha hbody hlen
  have hsound : ∀ t ∈ lens, CodesSound t ∧ t.length = a - 1 + 1 := fun t ht =>
    ⟨codesSound_of_validTable (hlens t ht).1, by have := (hlens t ht).2; omega⟩
  have hc := keepConsumer (a - 1) outputTooSmall
  have hdone : IsHufDec lens sel (a - 1) (fun _ => True) outputTooSmall pos
      (groupCodedBits lens sel (body ++ [a - 1]) ++ rest) (.ok (body ++ [a - 1],
        pos + (groupCodedBits lens sel (body ++ [a - 1])).length, rest)) :=
    .done body rest rfl hbody (by omega) trivial trivial
  refine hufDec_append_sel ?_ more
  rcases hufDec_whole hc hsound hsel ⟨pos, groupCodedBits lens sel (body ++ [a - 1]) ++ rest⟩ with
    ⟨syms, st, r, hdec, hst, hend⟩ | ⟨e, -, hend⟩
  · have hsame := isHufDec_unique hc hsound hsel hend hdone
    cases r
    cases hsame
    exact hst ▸ hdec
  · cases isHufDec_unique hc hsound hsel hend hdone

end Sys2Proof.Machine

/-! SUPPORT. How deep the nodes of the merging of R231 end up: a heavier node is no deeper, and the tree is full. And
HUF_LEN. -/

namespace Sys2Proof.Machine

/-! ### The depths of the nodes (46_huffman.md R231, R232) -/

/-- What the depths of the set Q's nodes in the final tree obey. -/
structure NodeDepths (q : List WeighedNode) (depth : WeighedNode → Nat) : Prop where
  /-- A node is no deeper than one that comes before it. -/
  antitone : ∀ x ∈ q, ∀ z ∈ q, x.below z → depth z ≤ depth x
  /-- A node is at most one level deeper than one that is no heavier than any parent it can get. -/
  near : ∀ u ∈ q, ∀ z ∈ q, (∀ z' ∈ q, z' ≠ z → u.weight ≤ z.weight + z'.weight) → depth z ≤ depth u + 1
  /-- Only a node alone is the root. -/
  positive : 2 ≤ q.length → ∀ x ∈ q, 1 ≤ depth x
  /-- The tree above the nodes is full. -/
  full : ∀ k, (∀ x ∈ q, depth x ≤ k) → (q.map fun x => 2 ^ (k - depth x)).sum = 2 ^ k

theorem NodeDepths.perm {q q' : List WeighedNode} {depth : WeighedNode → Nat} (h : NodeDepths q depth)
    (hq : q.Perm q') : NodeDepths q' depth where
  antitone x hx z hz := h.antitone x (hq.mem_iff.mpr hx) z (hq.mem_iff.mpr hz)
  near u hu z hz hw := h.near u (hq.mem_iff.mpr hu) z (hq.mem_iff.mpr hz) fun z' hz' => hw z' (hq.mem_iff.mp hz')
  positive hlen x hx := h.positive (hq.length_eq ▸ hlen) x (hq.mem_iff.mpr hx)
  full k hk := (hq.map fun x => 2 ^ (k - depth x)).sum_eq ▸ h.full k fun x hx => hk x (hq.mem_iff.mp hx)

theorem nodeDepths_root (x : WeighedNode) : NodeDepths [x] fun _ => 0 where
  antitone _ _ _ _ _ := le_rfl
  near _ _ _ _ _ := Nat.zero_le _
  positive hlen := absurd hlen (by simp)
  full k _ := by simp

/-- The depths before the nodes `x` and `y` became the children of `parent`. -/
def childDepth (parent x y : WeighedNode) (depth : WeighedNode → Nat) (z : WeighedNode) : Nat :=
  if z = x ∨ z = y then depth parent + 1 else depth z

theorem below_ne {x z : WeighedNode} (h : x.below z) : z ≠ x := by
  rintro rfl
  exact h.elim (Nat.lt_irrefl _) fun h => Nat.lt_irrefl _ h.2

section
variable {rest : List WeighedNode} {x y parent : WeighedNode} {depth : WeighedNode → Nat}
  (hx : ∀ z ∈ y :: rest, x.below z) (hy : ∀ z ∈ rest, y.below z)
include hx hy

theorem childDepth_rest {z : WeighedNode} (hz : z ∈ rest) : childDepth parent x y depth z = depth z :=
  if_neg (not_or.mpr ⟨below_ne (hx z (List.mem_cons_of_mem y hz)), below_ne (hy z hz)⟩)

/-- The two lightest nodes are the children, and the others keep their depth. -/
theorem childDepth_cases {z : WeighedNode} (hz : z ∈ x :: y :: rest) :
    ((z = x ∨ z = y) ∧ childDepth parent x y depth z = depth parent + 1) ∨
    (z ∈ rest ∧ childDepth parent x y depth z = depth z) := by
  rw [List.mem_cons, List.mem_cons, ← or_assoc] at hz
  rcases hz with hz | hz
  · exact .inl ⟨hz, if_pos hz⟩
  · exact .inr ⟨hz, childDepth_rest hx hy hz⟩

theorem lightest_le {z : WeighedNode} (hz : z ∈ rest) : x.weight ≤ z.weight ∧ y.weight ≤ z.weight := by
  have hxz := hx z (List.mem_cons_of_mem y hz)
  have hyz := hy z hz
  simp only [WeighedNode.below] at hxz hyz
  omega

theorem childDepth_full (h : NodeDepths (parent :: rest) depth) (k : Nat)
    (hk : ∀ z ∈ x :: y :: rest, childDepth parent x y depth z ≤ k) :
    ((x :: y :: rest).map fun z => 2 ^ (k - childDepth parent x y depth z)).sum = 2 ^ k := by
  have hxd : childDepth parent x y depth x = depth parent + 1 := if_pos (.inl rfl)
  have hyd : childDepth parent x y depth y = depth parent + 1 := if_pos (.inr rfl)
  have hparent : depth parent + 1 ≤ k := hxd ▸ hk x List.mem_cons_self
  have hfull := h.full k (List.forall_mem_cons.mpr ⟨by omega, fun z hz =>
    (childDepth_rest hx hy hz).symm.trans_le (hk z (by simp [hz]))⟩)
  have hsame : (rest.map fun z => 2 ^ (k - childDepth parent x y depth z)) = rest.map fun z => 2 ^ (k - depth z) :=
    List.map_congr_left fun z hz => by rw [childDepth_rest hx hy hz]
  have hsplit : 2 ^ (k - depth parent) = 2 ^ (k - (depth parent + 1)) + 2 ^ (k - (depth parent + 1)) := by
    rw [← Nat.two_mul, ← pow_succ', Nat.sub_add_eq, Nat.sub_add_cancel (by omega)]
  rw [List.map_cons, List.sum_cons, hsplit] at hfull
  rw [List.map_cons, List.sum_cons, List.map_cons, List.sum_cons, hsame, hxd, hyd, ← Nat.add_assoc, hfull]

section
variable (hweight : parent.weight = x.weight + y.weight) (h : NodeDepths (parent :: rest) depth)
include hweight h

/-- A later node is at most as deep as the two lightest: its own parent is at least as heavy as theirs. -/
theorem depth_le_child {z : WeighedNode} (hz : z ∈ rest) : depth z ≤ depth parent + 1 := by
  refine h.near parent List.mem_cons_self z (List.mem_cons_of_mem _ hz) fun z' hz' _ => ?_
  have hlight := lightest_le hx hy hz
  rcases List.mem_cons.mp hz' with rfl | hz'
  · omega
  · have := lightest_le hx hy hz'
    omega

theorem childDepth_antitone {u z : WeighedNode} (hu : u ∈ x :: y :: rest) (hz : z ∈ x :: y :: rest)
    (huz : u.below z) : childDepth parent x y depth z ≤ childDepth parent x y depth u := by
  rcases childDepth_cases (parent := parent) (depth := depth) hx hy hz with ⟨hzxy, hzd⟩ | ⟨hz, hzd⟩ <;>
    rcases childDepth_cases (parent := parent) (depth := depth) hx hy hu with ⟨-, hud⟩ | ⟨hu, hud⟩
  · omega
  · have hxu := hx u (List.mem_cons_of_mem y hu)
    have hyu := hy u hu
    simp only [WeighedNode.below] at hxu hyu huz
    rcases hzxy with rfl | rfl <;> omega
  · have := depth_le_child hx hy hweight h hz
    omega
  · have := h.antitone u (List.mem_cons_of_mem _ hu) z (List.mem_cons_of_mem _ hz) huz
    omega

theorem childDepth_near (hseq : ∀ z ∈ rest, z.seq < parent.seq) {u z : WeighedNode} (hu : u ∈ x :: y :: rest)
    (hz : z ∈ x :: y :: rest) (hle : ∀ z' ∈ x :: y :: rest, z' ≠ z → u.weight ≤ z.weight + z'.weight) :
    childDepth parent x y depth z ≤ childDepth parent x y depth u + 1 := by
  rcases childDepth_cases (parent := parent) (depth := depth) hx hy hz with ⟨hzxy, hzd⟩ | ⟨hz, hzd⟩ <;>
    rcases childDepth_cases (parent := parent) (depth := depth) hx hy hu with ⟨-, hud⟩ | ⟨hu, hud⟩
  · omega
  · have hxy : x.below y := hx y List.mem_cons_self
    have hparent : u.weight ≤ parent.weight := by
      rcases hzxy with rfl | rfl
      · have := hle y (by simp) (below_ne hxy)
        omega
      · have := hle x (by simp) (below_ne hxy).symm
        omega
    have := h.antitone u (List.mem_cons_of_mem _ hu) parent List.mem_cons_self
      (hparent.lt_or_eq.imp_right fun heq => ⟨heq, hseq u hu⟩)
    omega
  · have := depth_le_child hx hy hweight h hz
    omega
  · have hparent : parent ≠ z → u.weight ≤ z.weight + parent.weight := fun _ => by
      have := hle x (by simp) (below_ne (hx z (List.mem_cons_of_mem y hz))).symm
      omega
    have := h.near u (List.mem_cons_of_mem _ hu) z (List.mem_cons_of_mem _ hz) <|
      List.forall_mem_cons.mpr ⟨hparent, fun z' hz' => hle z' (by simp [hz'])⟩
    omega

/-- The depths one merging earlier. -/
theorem NodeDepths.unmerge (hseq : ∀ z ∈ rest, z.seq < parent.seq) :
    NodeDepths (x :: y :: rest) (childDepth parent x y depth) where
  antitone _ hu _ hz huz := childDepth_antitone hx hy hweight h hu hz huz
  near _ hu _ hz hle := childDepth_near hx hy hweight h hseq hu hz hle
  positive _ z hz := by
    rcases childDepth_cases (parent := parent) (depth := depth) hx hy hz with ⟨-, hzd⟩ | ⟨hz, hzd⟩
    · omega
    · have hlen : 2 ≤ (parent :: rest).length := Nat.succ_le_succ (List.length_pos_of_mem hz)
      have := h.positive hlen z (List.mem_cons_of_mem _ hz)
      omega
  full := childDepth_full hx hy h

end
end

/-- The depths of the nodes in the final tree, and of the leaves below them. -/
theorem Merges.nodeDepths {next : Nat} {q : List WeighedNode} {depths : List (Nat × Nat)} (h : Merges next q depths)
    (hfresh : ∀ x ∈ q, x.seq < next) : ∃ depth, NodeDepths q depth ∧
      ∀ p ∈ depths, ∃ x ∈ q, ∃ leaf ∈ x.leaves, p = (leaf.1, leaf.2 + depth x) := by
  induction h with
  | root next x => exact ⟨fun _ => 0, nodeDepths_root x, fun p hp => ⟨x, List.mem_singleton_self x, p, hp, rfl⟩⟩
  | merge next q rest x y depths hq hx hy _ ih =>
    have hbelow : ∀ z ∈ rest, z.seq < next := fun z hz => hfresh z (hq.mem_iff.mpr (by simp [hz]))
    obtain ⟨depth, hdepth, hleaves⟩ := ih <| List.forall_mem_cons.mpr
      ⟨Nat.lt_succ_self next, fun z hz => (hbelow z hz).trans (Nat.lt_succ_self next)⟩
    refine ⟨_, (hdepth.unmerge hx hy rfl hbelow).perm hq.symm, fun p hp => ?_⟩
    obtain ⟨z, hz, leaf, hleaf, rfl⟩ := hleaves p hp
    rcases List.mem_cons.mp hz with rfl | hz
    · obtain ⟨leaf, hchild, rfl⟩ := List.mem_map.mp hleaf
      rcases List.mem_append.mp hchild with hleaf | hleaf
      · refine ⟨x, hq.mem_iff.mpr (by simp), leaf, hleaf, ?_⟩
        rw [childDepth, if_pos (.inl rfl), Nat.add_right_comm, Nat.add_assoc]
      · refine ⟨y, hq.mem_iff.mpr (by simp), leaf, hleaf, ?_⟩
        rw [childDepth, if_pos (.inr rfl), Nat.add_right_comm, Nat.add_assoc]
    · refine ⟨z, hq.mem_iff.mpr (by simp [hz]), leaf, hleaf, ?_⟩
      rw [childDepth_rest hx hy hz]

/-! ### `depths(w)` (46_huffman.md R231, R232) -/

/-- The leaf of symbol `i`. -/
def leafNode (w : List Nat) (i : Nat) : WeighedNode := ⟨w.getD i 0, i, [(i, 0)]⟩

/-- The depths of a list of weights are those of its leaves. -/
theorem IsDepths.nodeDepths {w d : List Nat} (h : IsDepths w d) : ∃ depth,
    NodeDepths ((List.range w.length).map (leafNode w)) depth ∧
      d = (List.range w.length).map fun i => depth (leafNode w i) := by
  obtain ⟨hlen, depths, hmerges, hd⟩ := h
  obtain ⟨depth, hdepth, hleaves⟩ := hmerges.nodeDepths (by simp)
  refine ⟨depth, hdepth, List.ext_getElem (by simpa using hlen) fun i hi _ => ?_⟩
  obtain ⟨x, hx, leaf, hleaf, heq⟩ := hleaves _ (hd i (hlen ▸ hi))
  obtain ⟨j, -, rfl⟩ := List.mem_map.mp hx
  obtain rfl := List.mem_singleton.mp hleaf
  obtain ⟨rfl, hdi⟩ := Prod.mk.inj heq
  rw [List.getD_eq_getElem _ _ hi, Nat.zero_add] at hdi
  rw [hdi, List.getElem_map, List.getElem_range, leafNode]

/-- With two weights or more no leaf is the root. -/
theorem IsDepths.one_le {w d : List Nat} (h : IsDepths w d) (hw : 2 ≤ w.length) : ∀ l ∈ d, 1 ≤ l := by
  obtain ⟨depth, hdepth, rfl⟩ := h.nodeDepths
  intro l hl
  obtain ⟨i, hi, rfl⟩ := List.mem_map.mp hl
  exact hdepth.positive (by simpa using hw) _ (List.mem_map_of_mem hi)

/-- The tree is full. -/
theorem IsDepths.sum_two_pow {w d : List Nat} (h : IsDepths w d) {k : Nat} (hk : ∀ l ∈ d, l ≤ k) :
    (d.map fun l => 2 ^ (k - l)).sum = 2 ^ k := by
  obtain ⟨depth, hdepth, rfl⟩ := h.nodeDepths
  have hfull := hdepth.full k <| List.forall_mem_map.mpr fun i hi => hk _ (List.mem_map_of_mem hi)
  rwa [List.map_map] at hfull ⊢

/-- A heavier symbol is no deeper. -/
theorem IsDepths.antitone {w d : List Nat} (h : IsDepths w d) {i j : Nat} (hi : i < w.length) (hj : j < w.length)
    (hlt : w.getD i 0 < w.getD j 0) : d.getD j 0 ≤ d.getD i 0 := by
  obtain ⟨depth, hdepth, rfl⟩ := h.nodeDepths
  have hmem {i} (hi : i < w.length) := List.mem_map_of_mem (f := leafNode w) (List.mem_range.mpr hi)
  simpa [hi, hj] using hdepth.antitone _ (hmem hi) _ (hmem hj) (.inl hlt)

/-- Settles O43: the lengths are the depths of a merging, whose tree is full and whose lighter nodes lie no higher. -/
theorem builtTablesAreFull : Obligations.BuiltTablesAreFull := by
  intro f hf hf'
  have hbuilt := hufLen_isBuilt (List.length_pos_iff.mp (by omega)) hf'
  have ⟨hdepths, hmax, _⟩ := hbuilt
  have hweights := weightsAfter_length f (hufLen f).2
  refine ⟨hdepths.1.trans hweights, fun l hl => ⟨hdepths.one_le (hweights.symm ▸ hf) l hl, hmax l hl⟩,
    hdepths.sum_two_pow hmax, fun hzero i j hi hj hlt => ?_, hbuilt⟩
  rw [hzero] at hdepths
  exact hdepths.antitone (by rwa [weightsAfter_length]) (by rwa [weightsAfter_length])
    (by simpa [weightsAfter, Nat.repeat, hi, hj] using hlt)

/-! ### HUF_LEN (46_huffman.md R231) -/

/-- Numbers stored one byte each. -/
theorem arrayBytes_one (vs : List Nat) : arrayBytes 1 vs = vs.map (BitVec.ofNat 8) := by
  rw [arrayBytes, List.map_eq_flatMap]
  rfl

/-- What HUF_LEN does with its ranges in order. -/
theorem exec_hufLen_of_inOrder {s : State} {freq alphaSize dst : Word} {wr : Option Word} (ha : 2 ≤ alphaSize.toNat)
    (ha' : alphaSize.toNat ≤ 258)
    (h : operandsInOrder s [⟨freq.toNat, 4 * alphaSize.toNat⟩] [wordSpan dst alphaSize] [] [] wr = true) {f : List Nat}
    (hf : f = (List.range alphaSize.toNat).map fun i => s.mem.readNat (freq.toNat + 4 * i) 4) :
    exec (.hufLen freq alphaSize dst wr) s = .next (finish wr (setResults (maxOf (hufLen f).1) (hufLen f).2 0 0
      (storeBytes dst.toNat (arrayBytes 1 (hufLen f).1) s))) := by
  have hc : (instrPlan (.hufLen freq alphaSize dst wr) s).check s.platform = none := by
    refine check_of_operandsInOrder ⟨ha, ha'⟩ h ?_ ?_ ?_ ?_
    · cases wr <;> rfl
    · cases wr <;> rfl
    · cases wr <;> simp [operandTable, resultOperand, wrSpans, resultSpan]
    · simp [operandTable, resultOperand]
  subst hf
  simp only [exec]
  exact guarded_of_none hc

/-- Settles O44: HUF_LEN stores what the builder gives, which is built as R231 says. -/
theorem hufLenWrites : Obligations.HufLenWrites := by
  intro s freq alphaSize dst wr f ha ha' h hf
  have hlen : f.length = alphaSize.toNat := by simp [hf]
  obtain ⟨hcount, -, -, -, hbuilt⟩ := builtTablesAreFull f (by omega) (by omega)
  refine ⟨_, (hufLen f).1, (hufLen f).2, hbuilt, exec_hufLen_of_inOrder ha ha' h hf, finish_completedNext wr rfl, ?_,
    by simp [maxOf], by simp, by simp⟩
  refine finish_stored_bytes (by rw [← arrayBytes_one]; rfl) fun w hw =>
    destination_disjoint_resultSpan h (by simp [hcount, hlen]) hw

end Sys2Proof.Machine

/-! SUPPORT. The checks of tables, selectors and symbols in order; HUF_CODES, HUF_ENC and HUF_DEC. -/

namespace Sys2Proof.Machine

/-! ### Tables and selectors in memory (46_huffman.md R237) -/

/-- An array of single bytes. -/
theorem readArray_one (m : Memory) (a n : Nat) : m.readArray a 1 n = (m.readBytes a n).map BitVec.toNat := by
  simp [Memory.readArray, Memory.readNat, Memory.readBytes, leNat]

theorem readTableSet_eq (m : Memory) (addr g a : Nat) :
    readTableSet m addr g a = (List.range g).map fun t => (m.readBytes (addr + t * a) a).map BitVec.toNat := by
  simp only [readTableSet, readArray_one]

/-! ### The checks (46_huffman.md R230, R238, R240) -/

theorem checkTable_of_badLength {lens : List Nat} (h : ∃ l ∈ lens, ¬(1 ≤ l ∧ l ≤ 20)) :
    checkTable lens = some { code := .huffmanOverflow } := by
  obtain ⟨l, hl, hbad⟩ := h
  have hall : lens.all lengthOk = false := List.all_eq_false.mpr ⟨l, hl, fun hok => hbad ((lengthOk_iff l).mp hok)⟩
  simp [checkTable, hall]

theorem checkTable_of_kraft {lens : List Nat} (h : ∀ l ∈ lens, 1 ≤ l ∧ l ≤ 20)
    (hsum : 2 ^ 20 < (lens.map fun l => 2 ^ (20 - l)).sum) :
    checkTable lens = some { code := .invalidHuffmanCode } := by
  have hall : lens.all lengthOk = true := List.all_eq_true.mpr fun l hl => (lengthOk_iff l).mpr (h l hl)
  rw [checkTable, hall, Bool.not_true, if_neg Bool.false_ne_true]
  exact if_pos hsum

theorem checkTables_of_valid {lens : List (List Nat)} (h : ∀ t ∈ lens, ValidTable t) : checkTables lens = none := by
  induction lens with
  | nil => rfl
  | cons t lens ih =>
    obtain ⟨ht, hlens⟩ := List.forall_mem_cons.mp h
    rw [checkTables, (checkTable_none_iff t).mpr ht]
    exact ih hlens

/-- The check's error is that of the first bad table. -/
theorem checkTables_of_isTableError {lens : List (List Nat)} {e : EngineError} (h : IsTableError lens e) :
    checkTables lens = some e := by
  obtain ⟨good, bad, more, rfl, hgood, hbad⟩ := h
  have herror : checkTable bad = some e := by
    rcases hbad with ⟨hlen, rfl⟩ | ⟨hlens, hsum, rfl⟩
    · exact checkTable_of_badLength hlen
    · exact checkTable_of_kraft hlens hsum
  induction good with
  | nil => rw [List.nil_append, checkTables, herror]
  | cons t good ih =>
    obtain ⟨ht, hgood⟩ := List.forall_mem_cons.mp hgood
    rw [List.cons_append, checkTables, (checkTable_none_iff t).mpr ht]
    exact ih hgood

theorem checkSelectors_of_lt {g : Nat} {sel : List Nat} (h : ∀ x ∈ sel, x < g) : checkSelectors g sel = none :=
  if_pos (List.all_eq_true.mpr fun x hx => decide_eq_true (h x hx))

theorem checkSelectors_of_ge {g : Nat} {sel : List Nat} (h : ∃ x ∈ sel, g ≤ x) :
    checkSelectors g sel = some (invalidParameter 1) := by
  obtain ⟨x, hx, hge⟩ := h
  exact if_neg fun hall => hge.not_gt (of_decide_eq_true (List.all_eq_true.mp hall x hx))

/-- A table error has neither sub-code nor position. -/
theorem IsTableError.info_pos {lens : List (List Nat)} {e : EngineError} (h : IsTableError lens e) :
    e.info = 0 ∧ e.pos = 0 := by
  obtain ⟨-, -, -, -, -, ⟨-, rfl⟩ | ⟨-, -, rfl⟩⟩ := h <;> exact ⟨rfl, rfl⟩

/-- The only destination keeps off the WR area. -/
theorem write_disjoint_resultSpan {s : State} {reads cursorReads : List Span} {dst : Span} {wr : Option Word}
    (h : operandsInOrder s reads [dst] cursorReads [] wr = true) {w : Word} (hw : wr = some w) :
    dst.disjoint (resultSpan w) = true :=
  (List.pairwise_cons.mp (operandsInOrder_apart h)).1 _ (by simp [wrSpans, hw])

/-! ### HUF_CODES (46_huffman.md R234) -/

/-- What HUF_CODES does with its ranges in order. -/
theorem exec_hufCodes_of_inOrder {s : State} {lengths alphaSize dst : Word} {wr : Option Word} {lens : List Nat}
    (ha : 2 ≤ alphaSize.toNat) (ha' : alphaSize.toNat ≤ 258)
    (h : operandsInOrder s [wordSpan lengths alphaSize] [⟨dst.toNat, 4 * alphaSize.toNat⟩] [] [] wr = true)
    (hlens : lens = (s.mem.readBytes lengths.toNat alphaSize.toNat).map BitVec.toNat) :
    exec (.hufCodes lengths alphaSize dst wr) s = .next (match checkTable lens with
    | none => finish wr (setResults (minOf lens) (maxOf lens) 0 0
        (storeBytes dst.toNat (arrayBytes 4 (canonicalCodes lens)) s))
    | some e => failSpans [⟨dst.toNat, 4 * alphaSize.toNat⟩] e s) := by
  have hc : (instrPlan (.hufCodes lengths alphaSize dst wr) s).check s.platform = none := by
    refine check_of_operandsInOrder ⟨ha, ha'⟩ h ?_ ?_ ?_ ?_
    · cases wr <;> rfl
    · cases wr <;> rfl
    · cases wr <;> simp [operandTable, resultOperand, wrSpans, resultSpan]
    · simp [operandTable, resultOperand]
  rw [hlens, ← readArray_one, ← hufCodes_eq_canonicalCodes]
  simp only [exec]
  exact guarded_of_none hc

/-- Settles O45: the table is checked first, and a valid table's codes fill the destination. -/
theorem hufCodesWrites : Obligations.HufCodesWrites := by
  intro s lengths alphaSize dst wr lens ha ha' h hlens
  have hlen : (canonicalCodes lens).length = alphaSize.toNat := by
    rw [← hufCodes_eq_canonicalCodes, hufCodes_length, hlens, List.length_map, readBytes_length]
  rw [exec_hufCodes_of_inOrder ha ha' h hlens]
  refine ⟨fun hvalid => ?valid, fun hbad => ?length, fun hok hsum => ?kraft⟩
  case valid =>
    rw [(checkTable_none_iff lens).mpr hvalid]
    exact ⟨_, rfl, finish_completedNext wr rfl, finish_stored_bytes rfl fun w hw =>
      disjoint_of_len_le (write_disjoint_resultSpan h hw) (by simp [hlen]), by simp, by simp, by simp⟩
  case length =>
    rw [checkTable_of_badLength hbad]
    exact ⟨_, rfl, failSpans_failedWith ..⟩
  case kraft =>
    rw [checkTable_of_kraft hok hsum]
    exact ⟨_, rfl, failSpans_failedWith ..⟩

/-! ### HUF_ENC (46_huffman.md R238) -/

/-- The number of bits a string adds to a writer. -/
theorem Written.bitCount {w w' : BitSink} {bits : List Bool} (h : Written w bits w') :
    w'.bitCount = w.bitCount + bits.length := by
  rw [BitSink.bitCount, BitSink.bitCount, h.count, h.nbits]
  omega

/-- The register of a count that fits it holds the count. -/
theorem bitCountResult_of_lt {n : Nat} (h : n < 4294967296) : bitCountResult n = BitVec.ofNat 32 n := if_pos h

/-- HUF_ENC's checks pass up to its symbols. -/
theorem checkHufEnc_of_valid {g a : Nat} {lens : List (List Nat)} {sel : List Nat} (hvalid : ∀ t ∈ lens, ValidTable t)
    (hsel : ∀ x ∈ sel, x < g) (syms : List Nat) :
    checkHufEnc g a lens sel syms = if syms.all (· < a) then none else some { code := .invalidSymbol } := by
  rw [checkHufEnc, checkTables_of_valid hvalid, checkSelectors_of_lt hsel]

section
variable {s : State} {g : Nat} {syms count tables selectors alphaSize : Word} {wr : Option Word}
  {lens : List (List Nat)} {sel symbols : List Nat}
  (hg : 1 ≤ g) (hg' : g ≤ 6) (ha : 2 ≤ alphaSize.toNat) (ha' : alphaSize.toNat ≤ 258)
  (h : operandsInOrder s [⟨syms.toNat, 2 * count.toNat⟩, ⟨tables.toNat, g * alphaSize.toNat⟩,
    ⟨selectors.toNat, (count.toNat + 49) / 50⟩] [] [] [s.bw.freeSpan] wr = true)
  (hlens : lens = (List.range g).map fun t =>
    (s.mem.readBytes (tables.toNat + t * alphaSize.toNat) alphaSize.toNat).map BitVec.toNat)
  (hsel : sel = (s.mem.readBytes selectors.toNat ((count.toNat + 49) / 50)).map BitVec.toNat)
  (hsymbols : symbols = (List.range count.toNat).map fun k => s.mem.readNat (syms.toNat + 2 * k) 2)
include hg hg' ha ha' h hlens hsel hsymbols

/-- What HUF_ENC does with its ranges in order. -/
theorem exec_hufEnc_of_inOrder : exec (.hufEnc g syms count tables selectors alphaSize wr) s = .next
    (match checkHufEnc g alphaSize.toNat lens sel symbols with
    | some e => errorStop e s
    | none =>
      match s.bw.sink.writeAll (hufEncBits (lens.map codeTable) sel symbols) with
      | .ok w => finish wr (setResults (bitCountResult (w.bitCount - s.bw.sink.bitCount)).toNat 0 0 0 (putSink w s))
      | .error e => failAppend s.bw.freeSpan e s) := by
  have hc : (instrPlan (.hufEnc g syms count tables selectors alphaSize wr) s).check s.platform = none := by
    refine check_of_operandsInOrder ⟨hg, hg', ha, ha'⟩ h ?_ ?_ ?_ ?_
    · cases wr <;> rfl
    · cases wr <;> rfl
    · cases wr <;> simp [operandTable, resultOperand, wrSpans, resultSpan]
    · simp [operandTable, resultOperand]
  rw [hlens, hsel, hsymbols, ← readTableSet_eq, ← readArray_one]
  simp only [exec]
  exact guarded_of_none hc

/-- A failing value check of HUF_ENC is an error stop and nothing else. -/
theorem exec_hufEnc_rejected {e : EngineError} (he : checkHufEnc g alphaSize.toNat lens sel symbols = some e) :
    exec (.hufEnc g syms count tables selectors alphaSize wr) s = .next (errorStop e s) := by
  rw [exec_hufEnc_of_inOrder hg hg' ha ha' h hlens hsel hsymbols, he]

end

/-- Settles O47: the checks pass, and the symbols' codes are a string that is taken or finds no room. -/
theorem hufEncAppends : Obligations.HufEncAppends := by
  intro s g syms count tables selectors alphaSize wr lens sel symbols bits hg hg' ha ha' hcount h hlens hsel hsymbols
    hvalid hselOk hsymbolsOk hbits
  have hcheck : checkHufEnc g alphaSize.toNat lens sel symbols = none := by
    rw [checkHufEnc_of_valid hvalid hselOk]
    exact if_pos (List.all_eq_true.mpr fun x hx => decide_eq_true (hsymbolsOk x hx))
  have hgroups : symbols.length ≤ 50 * sel.length := by
    simp only [hsel, hsymbols, List.length_map, List.length_range, readBytes_length]
    omega
  have hexec := exec_hufEnc_of_inOrder hg hg' ha ha' h hlens hsel hsymbols
  rw [hcheck, hufEncBits_eq_groupCodedBits hgroups, ← hbits] at hexec
  rcases append_cases hcount bits with ⟨hroom, w, hwrite, hw⟩ | ⟨hfull, hwrite⟩
  · rw [hwrite] at hexec
    have hnumber : w.bitCount - s.bw.sink.bitCount = bits.length := by rw [hw.bitCount, Nat.add_sub_cancel_left]
    refine ⟨fun _ => ⟨_, hexec, finish_completedNext wr rfl,
      finish_appended hw hroom rfl rfl fun _ => freeSpan_disjoint_resultSpan h, by simp, fun hlt => ?_, by simp⟩,
      fun hfull => nomatch hroom.symm.trans hfull⟩
    simp [hnumber, bitCountResult_of_lt hlt, Nat.mod_eq_of_lt hlt]
  · rw [hwrite] at hexec
    exact ⟨fun hroom => (nomatch hroom.symm.trans hfull), fun _ => ⟨_, hexec, failAppend_failedAppend s⟩⟩

/-- Settles O48: the first check to fail is HUF_ENC's error stop. -/
theorem hufEncRejects : Obligations.HufEncRejects := by
  intro s g syms count tables selectors alphaSize wr lens sel symbols hg hg' ha ha' h hlens hsel hsymbols
  have hreject {e} (he : checkHufEnc g alphaSize.toNat lens sel symbols = some e) :=
    exec_hufEnc_rejected hg hg' ha ha' h hlens hsel hsymbols he
  have htables {e} (he : IsTableError lens e) : checkHufEnc g alphaSize.toNat lens sel symbols = some e := by
    rw [checkHufEnc, checkTables_of_isTableError he]
  refine ⟨fun good bad more hsplit hgood hbad => ?length, fun good bad more hsplit hgood hok hsum => ?kraft,
    fun hvalid hbad => ?selector, fun hvalid hselOk hbad => ?symbol⟩
  case length => exact hreject (htables ⟨good, bad, more, hsplit, hgood, .inl ⟨hbad, rfl⟩⟩)
  case kraft => exact hreject (htables ⟨good, bad, more, hsplit, hgood, .inr ⟨hok, hsum, rfl⟩⟩)
  case selector =>
    refine hreject (e := invalidParameter 1) ?_
    rw [checkHufEnc, checkTables_of_valid hvalid, checkSelectors_of_ge hbad]
  case symbol =>
    obtain ⟨x, hx, hge⟩ := hbad
    refine hreject (e := { code := .invalidSymbol }) ?_
    rw [checkHufEnc_of_valid hvalid hselOk]
    exact if_neg fun hall => hge.not_gt (of_decide_eq_true (List.all_eq_true.mp hall x hx))

/-! ### The bits ahead of the reader (10_state.md R33, 20_memory.md R65) -/

theorem bitsOfBytes_getElem? {bytes : List Byte} {j : Nat} (h : j < 8 * bytes.length) :
    (bitsOfBytes bytes)[j]? = some ((bytes.getD (j / 8) 0).getLsbD (7 - j % 8)) := by
  induction bytes generalizing j with
  | nil => cases h
  | cons b bytes ih =>
    rw [bitsOfBytes]
    rcases Nat.lt_or_ge j 8 with hj | hj
    · rw [List.getElem?_append_left (by simpa using hj), bitsMSB_getElem? hj, Nat.div_eq_of_lt hj, Nat.mod_eq_of_lt hj]
      rfl
    · rw [List.length_cons] at h
      rw [List.getElem?_append_right (by simpa using hj), bitsMSB_length, ih (by omega),
        show j / 8 = (j - 8) / 8 + 1 by omega, show (j - 8) % 8 = j % 8 by omega, List.getD_cons_succ]

/-- The reader of the BR registers has the bits ahead of BR_POS. -/
theorem registerReader_rest (s : State) : (registerReader s).rest = bitsAhead s := by
  refine List.ext_getElem? fun j => ?_
  simp only [registerReader, bitsAhead, ReaderRegs.remainder, List.getElem?_drop]
  rcases Nat.lt_or_ge j (8 * s.br.len.toNat - s.br.pos.toNat) with hj | hj
  · have hbyte : s.br.base.toNat + s.br.pos.toNat / 8 + (s.br.pos.toNat % 8 + j) / 8 =
        s.br.base.toNat + (s.br.pos.toNat + j) / 8 := by omega
    rw [bitsOfBytes_getElem? (by rw [readBytes_length]; omega), readBytes_getD _ _ _ _ (by omega), hbyte,
      show (s.br.pos.toNat % 8 + j) % 8 = (s.br.pos.toNat + j) % 8 by omega]
    simp [hj]
  · rw [List.getElem?_eq_none (by simp; omega), List.getElem?_eq_none (by simpa using hj)]

/-! ### HUF_DEC (46_huffman.md R240) -/

section
variable {g cap eob : Nat} {lens : List (List Nat)} {sel : List Nat} {r : BitReader}
  (hlens : ∀ t ∈ lens, ValidTable t ∧ t.length = eob + 1) (hg : lens.length = g) (hsel : ∀ x ∈ sel, x < g)
include hlens hg hsel

/-- What HUF_DEC computes over valid tables and selectors in range is an end of the decoding. -/
theorem hufDecode_isHufDec : IsHufDec lens sel eob (fun syms => syms.length ≤ cap) outputTooSmall r.pos r.rest
    ((hufDecode g cap eob lens sel r).map fun x => (x.1, x.2.pos, x.2.rest)) := by
  rw [hufDecode, checkTables_of_valid fun t ht => (hlens t ht).1, checkSelectors_of_lt hsel]
  rcases hufDec_whole (storeConsumer cap eob) (fun t ht => (hlens t ht).imp_left codesSound_of_validTable)
    (hg ▸ hsel) r with ⟨syms, st, r', hdec, rfl, hend⟩ | ⟨e, hdec, hend⟩
  · simpa [hdec, Except.map] using hend
  · simpa [hdec, Except.map] using hend

/-- It is the only one. -/
theorem hufDecode_eq_of_isHufDec {out : BitsRead (List Nat)}
    (h : IsHufDec lens sel eob (fun syms => syms.length ≤ cap) outputTooSmall r.pos r.rest out) :
    hufDecode g cap eob lens sel r = out.map fun x => (x.1, ⟨x.2.1, x.2.2⟩) := by
  rw [← isHufDec_unique (storeConsumer cap eob) (fun t ht => (hlens t ht).imp_left codesSound_of_validTable) (hg ▸ hsel)
    (hufDecode_isHufDec hlens hg hsel) h]
  cases hufDecode g cap eob lens sel r <;> rfl

end

/-- What HUF_DEC does with its ranges in order. -/
theorem exec_hufDec_of_inOrder {s : State} {g : Nat} {dst cap tables selectors alphaSize nSel : Word} {wr : Option Word}
    {lens : List (List Nat)} {sel : List Nat} (hg : 1 ≤ g) (hg' : g ≤ 6) (ha : 2 ≤ alphaSize.toNat)
    (ha' : alphaSize.toNat ≤ 258)
    (h : operandsInOrder s [⟨tables.toNat, g * alphaSize.toNat⟩, wordSpan selectors nSel] [⟨dst.toNat, 2 * cap.toNat⟩]
      [s.br.remainder] [] wr = true)
    (hlens : lens = (List.range g).map fun t =>
      (s.mem.readBytes (tables.toNat + t * alphaSize.toNat) alphaSize.toNat).map BitVec.toNat)
    (hsel : sel = (s.mem.readBytes selectors.toNat nSel.toNat).map BitVec.toNat) :
    exec (.hufDec g dst cap tables selectors alphaSize nSel wr) s = .next
      (match hufDecode g cap.toNat (alphaSize.toNat - 1) lens sel (registerReader s) with
      | .ok (symbols, r) => finish wr (setResults symbols.length (r.pos - s.br.pos.toNat) 0 0
          (putReaderPos r.pos (storeBytes dst.toNat (arrayBytes 2 symbols) s)))
      | .error e => failRead ⟨dst.toNat, 2 * cap.toNat⟩ e s) := by
  have hc : (instrPlan (.hufDec g dst cap tables selectors alphaSize nSel wr) s).check s.platform = none := by
    refine check_of_operandsInOrder ⟨hg, hg', ha, ha'⟩ h ?_ ?_ ?_ ?_
    · cases wr <;> rfl
    · cases wr <;> rfl
    · cases wr <;> simp [operandTable, resultOperand, wrSpans, resultSpan]
    · simp [operandTable, resultOperand]
  rw [hlens, hsel, ← readTableSet_eq, ← readArray_one]
  simp only [exec]
  exact guarded_of_none hc

/-- The error stop of a decoder leaves BR_POS within its bound and the destination unspecified. -/
theorem failRead_failedRead (s : State) (dst : Span) (e : EngineError) :
    FailedRead s (failRead dst e s) e.code.number (BitVec.ofNat 32 e.info) (BitVec.ofNat 32 e.pos) dst := by
  refine ⟨by constructor <;> simp, by simp, by simp, rfl, rfl, ?_, fun a ha => ?_⟩
  · have hpos : (failRead dst e s).br.pos.toNat ≤
        Config.freeNat (havocSpan dst s).fresh % (8 * s.br.len.toNat + 1) :=
      (BitVec.toNat_ofNat ..).trans_le (Nat.mod_le _ _)
    exact hpos.trans (Nat.lt_succ_iff.mp (Nat.mod_lt _ (Nat.succ_pos _)))
  · exact havocSpan_read_outside ((contains_eq_false_iff _ _).mpr (by omega))

/-- Settles O49: the checks come first, and then the decoder comes to the one end of R236. -/
theorem hufDecWrites : Obligations.HufDecWrites := by
  intro s g dst cap tables selectors alphaSize nSel wr lens sel hg hg' ha ha' _ h hlens hsel
  have hexec := exec_hufDec_of_inOrder hg hg' ha ha' h hlens hsel
  have hfail := failRead_failedRead s ⟨dst.toNat, 2 * cap.toNat⟩
  have hlength : ∀ t ∈ lens, t.length = alphaSize.toNat - 1 + 1 := fun t ht => by
    obtain ⟨i, -, rfl⟩ := List.mem_map.mp (hlens ▸ ht)
    rw [List.length_map, readBytes_length]
    omega
  rw [← registerReader_rest]
  refine ⟨fun e he => ?table, fun hvalid hbad => ?selector, fun hvalid hselOk => ?decode⟩
  case table =>
    rw [hufDecode, checkTables_of_isTableError he] at hexec
    obtain ⟨hinfo, hpos⟩ := he.info_pos
    exact ⟨_, hexec, by simpa [hinfo, hpos] using hfail e⟩
  case selector =>
    rw [hufDecode, checkTables_of_valid hvalid, checkSelectors_of_ge hbad] at hexec
    exact ⟨_, hexec, hfail (invalidParameter 1)⟩
  case decode =>
    have htables := fun t ht => And.intro (hvalid t ht) (hlength t ht)
    have hgroups : lens.length = g := by simp [hlens]
    refine ⟨⟨_, hufDecode_isHufDec htables hgroups hselOk (r := registerReader s)⟩, fun symbols pos rest hd => ?done,
      fun e hd => ?failed⟩
    case done =>
      have hdec : hufDecode g cap.toNat (alphaSize.toNat - 1) lens sel (registerReader s) = .ok (symbols, ⟨pos, rest⟩) :=
        hufDecode_eq_of_isHufDec htables hgroups hselOk (r := registerReader s) (out := .ok (symbols, pos, rest)) hd
      have hfit := hufDecode_length hdec
      rw [hdec] at hexec
      exact ⟨_, hexec, finish_completedNext wr rfl, finish_stored_bytes rfl fun w hw =>
        disjoint_of_len_le (write_disjoint_resultSpan h hw) (by simpa using hfit), by simp, by simp,
        by simp [putReaderPos]⟩
    case failed =>
      have hdec : hufDecode g cap.toNat (alphaSize.toNat - 1) lens sel (registerReader s) = .error e :=
        hufDecode_eq_of_isHufDec htables hgroups hselOk (r := registerReader s) (out := .error e) hd
      rw [hdec] at hexec
      exact ⟨_, hexec, hfail e⟩

end Sys2Proof.Machine

/-! SUPPORT. The block reader is the reading of R271, field by field and with the errors of R276. -/

namespace Sys2Proof.Machine

/-! ### The inverse transform is the only one (44_bwt.md R194, R195) -/

/-- A last column has one next-character vector. -/
theorem isNextVector_iff {l : List Byte} {v : List Nat} : IsNextVector l v ↔ v = nextVector l := by
  constructor
  · rintro ⟨hlen, hv⟩
    obtain ⟨hlen', hw⟩ := nextVector_isNextVector l
    have hnodup : (nextVector l).Nodup := (nextVector_perm l).nodup_iff.mpr List.nodup_range
    refine List.ext_getElem (hlen.trans hlen'.symm) fun k hk hk' => ?_
    have hi : (nextVector l)[k] < l.length := mem_nextVector_iff.mp (List.getElem_mem hk')
    obtain ⟨hlt, hpos⟩ := List.getElem?_eq_some_iff.mp (hw _ hi)
    have hfound := hv _ hi
    rw [hnodup.getElem_inj_iff.mp hpos, List.getElem?_eq_getElem hk] at hfound
    exact Option.some.inj hfound
  · rintro rfl
    exact nextVector_isNextVector l

/-- The walk of the next-character vector from a row of the last column gives the model's block and no other. -/
theorem isInverse_iff {l out : List Byte} {origPtr : Nat} (h : origPtr < l.length) :
    IsInverse l origPtr out ↔ out = bwtInverse l origPtr := by
  constructor
  · rintro ⟨v, p, hv, hlen, hstart, hwalk⟩
    obtain rfl := isNextVector_iff.mp hv
    have hp : ∀ k, k ≤ l.length → p k = rowAfter l origPtr (k + 1) := by
      intro k hk
      induction k with
      | zero => exact Option.some.inj (hstart.symm.trans (getElem?_nextVector_rowAfter h 0))
      | succ k ih =>
        have hnext := (hwalk k hk).2
        rw [ih (by omega), getElem?_nextVector_rowAfter h] at hnext
        exact (Option.some.inj hnext).symm
    refine List.ext_getElem? fun k => ?_
    rcases Nat.lt_or_ge k l.length with hk | hk
    · rw [(hwalk k hk).1, hp k hk.le, bwtInverse_getElem? h hk]
    · rw [List.getElem?_eq_none (by omega), List.getElem?_eq_none (by simpa using hk)]
  · rintro rfl
    exact ⟨nextVector l, fun k => rowAfter l origPtr (k + 1), nextVector_isNextVector l, bwtInverse_length l origPtr,
      getElem?_nextVector_rowAfter h 0, fun k hk => ⟨bwtInverse_getElem? h hk, getElem?_nextVector_rowAfter h (k + 1)⟩⟩

/-! ### The block reader (47_block_stream.md R271, R276) -/

/-- What follows the symbols of a block: the checks of the origin row and the capacity, and the inverse transform. -/
def readBlockEnd (cap crc origPtr : Nat) (last : List Byte) (r : BitReader) :
    Except EngineError (BlockRead × BitReader) :=
  require (origPtr < last.length) { code := .invalidOriginPointer } >>= fun _ =>
    require (last.length ≤ cap) outputTooSmall >>= fun _ => .ok (.block (bwtInverse last origPtr) crc origPtr, r)

/-- The reading of a block after its last column is known (47_block_stream.md R271). -/
def blockEndOf (cap crc origPtr : Nat) (last : List Byte) : Reading BlockRead :=
  (checked (origPtr < last.length) { code := .invalidOriginPointer }).andThen fun _ =>
    (checked (last.length ≤ cap) outputTooSmall).andThen fun _ pos rest out =>
      ∃ block, IsInverse last origPtr block ∧ out = .ok (.block block crc origPtr, pos, rest)

theorem agrees_readBlockEnd (cap crc origPtr : Nat) (last : List Byte) :
    Agrees (readBlockEnd cap crc origPtr last) (blockEndOf cap crc origPtr last) := by
  refine Agrees.check decide_eq_true_iff fun hrow => Agrees.check decide_eq_true_iff fun _ r out => ?_
  simp [isInverse_iff hrow, eq_comm]

/-- The reader after the block magic does what R271 says. -/
theorem agrees_readBlockBody (k cap : Nat) : Agrees (fun r => readBlockBody r k cap) (blockOf k cap) := by
  refine (agrees_field 32).bind fun crc => (agrees_field 1).bind fun randomized =>
    Agrees.check (by simp) fun _ => (agrees_field 24).bind fun origPtr =>
    agrees_readUsed.bindOn (fun _ _ _ _ _ h => usedMap_nodup h) fun used hnodup =>
    Agrees.check (by simp [Nat.one_le_iff_ne_zero]) fun hused => (agrees_field 3).bind fun nGroups =>
    Agrees.check (by simp) fun _ => (agrees_field 15).bind fun nSel =>
    Agrees.check (by simp) fun _ =>
    (agrees_readSelectors nSel nGroups).bindOn (Q := fun sel => ∀ x ∈ sel, x < nGroups) ?_ fun sel hsel =>
    (agrees_readTables (used.length + 2) nGroups).bindOn (fun _ _ _ _ _ h => tables_ok h) fun lens hlens => ?_
  · rintro pos bits sel pos' rest (⟨x, read, rest', hsel, -, hout⟩ | ⟨_, _, _, -, -, hout⟩ | ⟨-, hout⟩)
    · cases hout
      exact hsel.2.1
    · cases hout
    · cases hout
  · obtain ⟨hcount, htables⟩ := hlens
    have hcodes : ∀ t ∈ lens, CodesSound t ∧ t.length = used.length + 2 := fun t ht =>
      (htables t ht).imp_left codesSound_of_validTable
    exact agrees_hufDec hused hnodup hcodes (hcount.symm ▸ hsel) (agrees_readBlockEnd cap crc origPtr)

/-- The block reader does what R271 says. -/
theorem agrees_readBlock (k cap : Nat) : Agrees (fun r => readBlock r k cap) (blockOrFooter k cap) := by
  refine (agrees_field 48).bind fun magic r out => ?_
  by_cases hmagic : magic = 0x177245385090
  · subst hmagic
    have hfooter : Agrees (fun r => r.readBits 32 >>= fun x => .ok (BlockRead.eos x.1, x.2))
        ((fieldOf 32).andThen fun combined => result (BlockRead.eos combined)) :=
      (agrees_field 32).bind fun combined => Agrees.pure (BlockRead.eos combined)
    exact (hfooter r out).trans (by simp)
  · have hblock : Agrees
        (fun r => require (magic == Config.blockMagic) (formatError 2) >>= fun _ => readBlockBody r k cap)
        ((checked (magic = 0x314159265359) (formatError 2)).andThen fun _ => blockOf k cap) :=
      Agrees.check (by simp [Config.blockMagic]) fun _ => agrees_readBlockBody k cap
    simpa [hmagic] using hblock r out

end Sys2Proof.Machine

/-! SUPPORT. What is written is read back: a reading finds the value whose bits stand there, whatever follows them. The
metadata of a block. -/

namespace Sys2Proof.Machine

/-! ### Readings of written bits -/

/-- The reading finds the value where its bits stand, whatever bits follow, and ends right after them. -/
def ReadsBack {α : Type} (R : Reading α) (x : α) (bits : List Bool) : Prop :=
  ∀ pos rest, R pos (bits ++ rest) (.ok (x, pos + bits.length, rest))

/-- A reader that agrees with the reading gives the value. -/
theorem ReadsBack.reader {α : Type} {R : Reading α} {x : α} {bits : List Bool} (h : ReadsBack R x bits)
    {p : BitReader → Except EngineError (α × BitReader)} (hp : Agrees p R) (pos : Nat) (rest : List Bool) :
    p ⟨pos, bits ++ rest⟩ = .ok (x, ⟨pos + bits.length, rest⟩) :=
  outcome_eq_ok.mp ((hp _ _).mpr (h pos rest))

theorem ReadsBack.andThen {α β : Type} {R : Reading α} {S : α → Reading β} {x : α} {y : β} {bits bits' : List Bool}
    (h : ReadsBack R x bits) (h' : ReadsBack (S x) y bits') : ReadsBack (R.andThen S) y (bits ++ bits') := by
  intro pos rest
  have hrest := h' (pos + bits.length) rest
  rw [Nat.add_assoc, ← List.length_append] at hrest
  refine .inr ⟨x, pos + bits.length, bits' ++ rest, ?_, hrest⟩
  rw [List.append_assoc]
  exact h pos (bits' ++ rest)

theorem ReadsBack.check {β : Type} {P : Prop} {e : EngineError} {S : Unit → Reading β} {y : β} {bits : List Bool}
    (h : P) (h' : ReadsBack (S ()) y bits) : ReadsBack ((checked P e).andThen S) y bits :=
  ReadsBack.andThen (bits := []) (fun _ _ => .inl ⟨h, rfl⟩) h'

theorem readsBack_result {α : Type} (x : α) : ReadsBack (result x) x [] := fun _ _ => rfl

theorem readsBack_field {v n : Nat} (h : v < 2 ^ n) : ReadsBack (fieldOf n) v (bitsMSB v n) := fun pos rest =>
  .inl ⟨v, rest, h, rfl, by rw [bitsMSB_length]⟩

theorem readsBack_bitwise {α : Type} {full : α → List Bool → Prop} {bad : EngineError → List Bool → Prop} {x : α}
    {bits : List Bool} (h : full x bits) : ReadsBack (bitwise full bad) x bits := fun _ rest =>
  .inl ⟨x, bits, rest, h, rfl, rfl⟩

/-! ### The used map (30_encoding.md R113) -/

/-- A marked element stands, among the marked ones, at the count of the marks before it. -/
theorem getElem?_filter_count {α : Type} {p : α → Bool} {xs : List α} {i : Nat} {x : α} (hx : xs[i]? = some x)
    (hp : p x = true) : (xs.filter p)[((xs.map p).take i).count true]? = some x := by
  induction xs generalizing i with
  | nil => cases hx
  | cons y ys ih =>
    cases i with
    | zero =>
      obtain rfl : y = x := Option.some.inj hx
      simp [hp]
    | succ i => cases hy : p y <;> simpa [hy] using ih hx

/-- The rows of 16 bits of field 6 of a block, one for each range with a byte of the block (30_encoding.md R113). -/
def usedRows (block : List Byte) : List (List Bool) :=
  ((List.range 16).filter fun i => block.any fun b => b.toNat / 16 == i).map fun i =>
    (List.range 16).map fun j => block.any fun b => b.toNat == 16 * i + j

theorem usedValues_eq_flatten (block : List Byte) : usedValues block = (usedRows block).flatten := rfl

theorem usedRanges_getElem? (block : List Byte) (v : Byte) :
    (usedRanges block)[v.toNat / 16]? = some (block.any fun b => b.toNat / 16 == v.toNat / 16) := by
  have hv := v.isLt
  simp [usedRanges, show v.toNat / 16 < 16 by omega]

/-- The bit of a value stands in the row of its range. -/
theorem usedRows_getElem? {block : List Byte} {v : Byte}
    (h : (block.any fun b => b.toNat / 16 == v.toNat / 16) = true) :
    ((usedRows block).getD (((usedRanges block).take (v.toNat / 16)).count true) [])[v.toNat % 16]? =
      some (block.any fun b => b.toNat == v.toNat) := by
  have hv := v.isLt
  have hrange : (List.range 16)[v.toNat / 16]? = some (v.toNat / 16) := List.getElem?_range (by omega)
  rw [List.getD_eq_getElem?_getD, usedRows, List.getElem?_map, usedRanges, getElem?_filter_count hrange h]
  simp [Nat.mod_lt, Nat.div_add_mod]

/-- The used map of a block marks its bytes. -/
theorem isUsedMap_usedBytes (block : List Byte) :
    IsUsedMap (usedBytes block) (usedRanges block ++ usedValues block) := by
  refine ⟨usedRanges block, usedRows block, by simp [usedRanges], ?count, ?width, rfl, usedBytes_pairwise block,
    fun v => ?mem⟩
  case count =>
    rw [usedRows, List.length_map, usedRanges, List.count, List.countP_map, List.countP_eq_length_filter]
    simp [Function.comp_def]
  case width =>
    intro row hrow
    obtain ⟨i, -, rfl⟩ := List.mem_map.mp hrow
    simp
  case mem =>
    rw [mem_usedBytes_iff, usedRanges_getElem?, Option.some.injEq]
    constructor
    · intro hmem
      have hrow : (block.any fun b => b.toNat / 16 == v.toNat / 16) = true := List.any_eq_true.mpr ⟨v, hmem, by simp⟩
      exact ⟨hrow, by rw [usedRows_getElem? hrow]; simpa using ⟨v, hmem, rfl⟩⟩
    · rintro ⟨hrow, hbit⟩
      rw [usedRows_getElem? hrow] at hbit
      simpa [BitVec.toNat_inj] using hbit

/-! ### Code lengths (30_encoding.md R115) -/

/-- Steps up from a legal length to another. -/
theorem isSteps_up {l n : Nat} (hl : 1 ≤ l) (hn : l + n ≤ 20) :
    IsSteps l (l + n) (List.replicate n [true, false]).flatten := by
  induction n generalizing l with
  | zero => exact .stay l
  | succ n ih =>
    have h := ih (l := l + 1) (by omega) (by omega)
    rw [show l + 1 + n = l + (n + 1) by omega] at h
    exact .up l _ _ hl (by omega) h

/-- Steps down from a legal length to another. -/
theorem isSteps_down {l n : Nat} (hl : 1 ≤ l) (hn : l + n ≤ 20) :
    IsSteps (l + n) l (List.replicate n [true, true]).flatten := by
  induction n with
  | zero => exact .stay l
  | succ n ih => exact .down (l + (n + 1)) _ _ (by omega) hn (ih (by omega))

/-- The step sequence of a length is the steps to it and a 0. -/
theorem stepBits_isSteps {l l' : Nat} (hl : 1 ≤ l ∧ l ≤ 20) (hl' : 1 ≤ l' ∧ l' ≤ 20) :
    ∃ steps, IsSteps l l' steps ∧ stepBits l l' = steps ++ [false] := by
  rcases Nat.le_total l l' with h | h
  · obtain ⟨n, rfl⟩ := Nat.exists_eq_add_of_le h
    refine ⟨_, isSteps_up hl.1 hl'.2, ?_⟩
    simp [stepBits]
  · obtain ⟨n, rfl⟩ := Nat.exists_eq_add_of_le h
    refine ⟨_, isSteps_down hl'.1 hl.2, ?_⟩
    simp [stepBits]

/-- The step sequences of legal lengths are their lengths' coding. -/
theorem isLengths_lengthBitsFrom {l : Nat} {lens : List Nat} (hl : 1 ≤ l ∧ l ≤ 20) (h : ∀ x ∈ lens, 1 ≤ x ∧ x ≤ 20) :
    IsLengths l lens (lengthBitsFrom l lens) := by
  induction lens generalizing l with
  | nil => exact .none l
  | cons l' lens ih =>
    obtain ⟨hl', hlens⟩ := List.forall_mem_cons.mp h
    obtain ⟨steps, hsteps, hbits⟩ := stepBits_isSteps hl hl'
    rw [lengthBitsFrom, hbits, List.append_assoc]
    exact .next l l' lens steps _ hsteps hl'.1 hl'.2 (ih hl' hlens)

/-- The coded lengths of a table are read back. -/
theorem readsBack_lengths {lens : List Nat} (h : ∀ l ∈ lens, 1 ≤ l ∧ l ≤ 20) :
    ReadsBack (lengthsOf lens.length) lens (lengthBits lens) := by
  cases lens with
  | nil => exact (readsBack_field (by decide)).andThen (readsBack_bitwise ⟨rfl, .none 0⟩)
  | cons l lens =>
    have hl := h l List.mem_cons_self
    exact (readsBack_field (by simp only [List.headD_cons]; omega)).andThen
      (readsBack_bitwise ⟨rfl, isLengths_lengthBitsFrom hl h⟩)

/-- The coded tables of a block are read back. -/
theorem readsBack_tables {a : Nat} {tables : List (List Nat)} (h : ∀ t ∈ tables, ValidTable t ∧ t.length = a) :
    ReadsBack (tablesOf a tables.length) tables (tables.flatMap lengthBits) := by
  induction tables with
  | nil => exact readsBack_result []
  | cons t tables ih =>
    obtain ⟨⟨⟨hlens, hkraft⟩, hlen⟩, htables⟩ := List.forall_mem_cons.mp h
    have hfirst := readsBack_lengths hlens
    rw [hlen] at hfirst
    rw [List.flatMap_cons, ← List.append_nil (tables.flatMap lengthBits)]
    exact hfirst.andThen (.check hkraft ((ih htables).andThen (readsBack_result (t :: tables))))

/-! ### The metadata readers (47_block_stream.md R261, R272) -/

theorem readsBack_used (block : List Byte) :
    ReadsBack (bitwise IsUsedMap fun _ _ => False) (usedBytes block) (usedBits (usedBytes block)) := by
  rw [usedBits_usedBytes]
  exact readsBack_bitwise (isUsedMap_usedBytes block)

theorem readsBack_selectors {g : Nat} {sel : List Nat} (h : ∀ x ∈ sel, x < g) :
    ReadsBack (bitwise (IsSelectors sel.length g) (IsBadSelector sel.length g)) sel (selectorBits g sel) := by
  rw [selectorBits_eq h]
  exact readsBack_bitwise ⟨rfl, h, rfl⟩

/-- Settles O53: the written bits are those of a value of the reading the reader agrees with. -/
theorem metadataReadersInvertWriters : Obligations.MetadataReadersInvertWriters :=
  ⟨fun bytes => (readsBack_used bytes).reader agrees_readUsed,
    fun g sel pos rest h => (readsBack_selectors h).reader (agrees_readSelectors sel.length g) pos rest,
    fun lens pos rest h => (readsBack_lengths h).reader (agrees_readLengths lens.length) pos rest⟩

end Sys2Proof.Machine

/-! SUPPORT. A block is read back: the plan's tables are valid, its numbers fit their fields, and its symbols are taken. -/

namespace Sys2Proof.Machine

/-! ### The plan's tables (46_huffman.md R231, R242) -/

/-- The built lengths of two symbols or more are a valid table. -/
theorem IsBuilt.validTable {f d : List Nat} {rounds : Nat} (h : IsBuilt f d rounds) (hf : 2 ≤ f.length) :
    ValidTable d ∧ d.length = f.length := by
  obtain ⟨hdepths, hmax, -⟩ := h
  have hweights := weightsAfter_length f rounds
  exact ⟨⟨fun l hl => ⟨hdepths.one_le (hweights.symm ▸ hf) l hl, hmax l hl⟩, (hdepths.sum_two_pow hmax).le⟩,
    hdepths.1.trans hweights⟩

/-- The tables of a plan are valid. -/
theorem IsTables.validTable {syms sel : List Nat} {a nGroups : Nat} {tables : List (List Nat)}
    (h : IsTables syms a nGroups sel tables) (ha : 2 ≤ a) : ∀ t ∈ tables, ValidTable t ∧ t.length = a := by
  intro t ht
  obtain ⟨i, hi, rfl⟩ := List.mem_iff_getElem.mp ht
  obtain ⟨f, rounds, hlen, -, hbuilt⟩ := h.2 i (h.1 ▸ hi)
  rw [List.getD_eq_getElem _ _ hi] at hbuilt
  exact hlen ▸ hbuilt.validTable (hlen.symm ▸ ha)

/-- What the reader checks of a plan (47_block_stream.md R271, R276). -/
theorem hufPlan_checked {a : Nat} (ha : 2 ≤ a) (ha' : a ≤ 258) (syms : List Nat) :
    let plan := hufPlan syms a
    (2 ≤ plan.1 ∧ plan.1 ≤ 6) ∧ plan.2.1.length = groupCount syms.length ∧ (∀ x ∈ plan.2.1, x < plan.1) ∧
      plan.2.2.length = plan.1 ∧ ∀ t ∈ plan.2.2, ValidTable t ∧ t.length = a := by
  obtain ⟨⟨-, -, htables⟩, hnSel, hsel⟩ := hufPlan_isPlan (by omega) ha' syms
  exact ⟨planGroupCount_bounds syms.length, hnSel, hsel, htables.1, htables.validTable ha⟩

/-! ### The number of symbols (45_mtf_rle2.md R212) -/

theorem runDigits_length_le (fuel z : Nat) : (runDigits fuel z).length ≤ fuel := by
  induction fuel generalizing z with
  | zero => exact le_rfl
  | succ fuel ih =>
    rw [runDigits, List.length_cons]
    split
    · exact Nat.succ_le_succ (Nat.zero_le _)
    · exact Nat.succ_le_succ (ih _)

theorem runSymbols_length_le (z : Nat) : (runSymbols z).length ≤ z := by
  unfold runSymbols
  split
  · exact Nat.zero_le _
  · exact runDigits_length_le z _

/-- A run has no more symbols than ranks, so that the sequence is no longer than the ranks and EOB. -/
theorem rle2From_length_le (eob z : Nat) (ranks : List Nat) : (rle2From eob z ranks).length ≤ z + ranks.length + 1 := by
  induction ranks generalizing z with
  | nil => simpa [rle2From] using runSymbols_length_le z
  | cons j ranks ih =>
    cases j with
    | zero =>
      have h := ih (z + 1)
      simp only [rle2From, List.length_cons]
      omega
    | succ j =>
      have hrest := ih 0
      have hrun := runSymbols_length_le z
      simp only [rle2From, List.length_append, List.length_cons]
      omega

theorem mtfRanks_length (lst l : List Byte) : (mtfRanks lst l).length = l.length := by
  induction l generalizing lst with
  | nil => rfl
  | cons b l ih => simp [mtfRanks, ih]

theorem mtfEnc_length_le (l : List Byte) : (mtfEnc l).length ≤ l.length + 1 := by
  have h := rle2From_length_le ((usedBytes l).length + 1) 0 (mtfRanks (usedBytes l) l)
  rwa [mtfRanks_length, Nat.zero_add] at h

/-! ### The symbols (46_huffman.md R236, 47_block_stream.md R271) -/

theorem usedBytes_ne_nil {l : List Byte} (h : l ≠ []) : usedBytes l ≠ [] :=
  List.ne_nil_of_mem ((mem_usedBytes_iff l _).mpr (List.head_mem h))

/-- The reading of a block's symbols and what follows them (47_block_stream.md R271). -/
def symbolsOf (k cap crc origPtr : Nat) (used : List Byte) (lens : List (List Nat)) (sel : List Nat) :
    Reading BlockRead :=
  Reading.andThen (IsHufDec lens sel (used.length + 1) (TakesWithin used (100000 * k)) (formatError 8))
    fun syms pos rest out => ∃ last, IsMtfCode used last syms ∧ (∀ b ∈ last, b ∈ used) ∧
      blockEndOf cap crc origPtr last pos rest out

/-- The coded symbols of a last column are read back, when the selectors reach and the column keeps the limit. -/
theorem readsBack_symbols {k cap crc origPtr : Nat} {l : List Byte} (hl : l ≠ []) (hlim : l.length ≤ 100000 * k)
    {tables : List (List Nat)} {sel : List Nat} (hsel : (mtfEnc l).length ≤ 50 * sel.length) {b : BlockRead}
    (hend : ReadsBack (blockEndOf cap crc origPtr l) b []) :
    ReadsBack (symbolsOf k cap crc origPtr (usedBytes l) tables sel) b
      (hufEncBits (tables.map codeTable) sel (mtfEnc l)) := by
  obtain ⟨seen, hsyms, hseen⟩ := mtfEnc_eq_append_eob l
  have hlow : ∀ x ∈ seen, x < (usedBytes l).length + 1 := fun _ =>
    hseen.lt_eob (usedBytes_ne_nil hl) (allBytes_nodup.filter _)
  have hcoded : ReadsBack (IsHufDec tables sel ((usedBytes l).length + 1) (TakesWithin (usedBytes l) (100000 * k))
      (formatError 8)) (mtfEnc l) (groupCodedBits tables sel (mtfEnc l)) := by
    intro pos rest
    rw [hsyms, List.length_append, List.length_singleton] at hsel
    rw [hsyms]
    exact .done seen rest rfl hlow (by omega) (.inr ⟨l, hseen, hlim⟩) (.inl (by simp))
  rw [hufEncBits_eq_groupCodedBits hsel, ← List.append_nil (groupCodedBits tables sel (mtfEnc l))]
  exact hcoded.andThen fun pos rest =>
    ⟨l, isMtfCode_iff.mpr rfl, fun b hb => (mem_usedBytes_iff l b).mpr hb, hend pos rest⟩

/-- After its symbols a block ends in the inverse transform of its last column. -/
theorem readsBack_blockEnd {block : List Byte} (hne : block ≠ []) {cap : Nat} (hcap : block.length ≤ cap) (crc : Nat) :
    ReadsBack (blockEndOf cap crc (originRow (sortedIndices block)) (lastColumn block (sortedIndices block)))
      (.block block crc (originRow (sortedIndices block))) [] := by
  have hlen : (lastColumn block (sortedIndices block)).length = block.length := by simp
  have hrow := hlen.symm ▸ sortedIndices_originRow_lt hne
  exact .check hrow (.check (hlen.symm ▸ hcap) fun _ _ =>
    ⟨block, (isInverse_iff hrow).mpr (bwtRoundTrip block hne).symm, rfl⟩)

/-! ### The block (47_block_stream.md R277) -/

/-- The bits of a block are read back. -/
theorem readsBack_block {k cap : Nat} {block : List Byte} (crc : Word) (hk : k ≤ 9) (hne : block ≠ [])
    (hlen : block.length ≤ 100000 * k) (hcap : block.length ≤ cap) :
    ReadsBack (blockOrFooter k cap) (.block block crc.toNat (originRow (sortedIndices block)))
      (blockCode block crc).bits := by
  have hend := readsBack_blockEnd hne hcap crc.toNat
  have hrow := sortedIndices_originRow_lt hne
  have hlength : (lastColumn block (sortedIndices block)).length = block.length := by simp
  simp only [blockCode, List.append_assoc]
  generalize lastColumn block (sortedIndices block) = l at hend hlength ⊢
  have hl : l ≠ [] := List.length_pos_iff.mp (hlength ▸ List.length_pos_iff.mpr hne)
  have hsyms := mtfEnc_length_le l
  have hpos : 1 ≤ (mtfEnc l).length := by
    obtain ⟨seen, hseen, -⟩ := mtfEnc_eq_append_eob l
    simp [hseen]
  obtain ⟨hnGroups, hnSel, hsel, hcount, htables⟩ := hufPlan_checked (a := (usedBytes l).length + 2) (by omega)
    (by have := usedBytes_length_le l; omega) (mtfEnc l)
  generalize hufPlan (mtfEnc l) ((usedBytes l).length + 2) = plan at hnGroups hnSel hsel hcount htables ⊢
  rw [groupCount] at hnSel
  have hlens := readsBack_tables htables
  rw [hcount] at hlens
  have hbody : ReadsBack (blockOf k cap) _ _ :=
    (readsBack_field crc.isLt).andThen <| (readsBack_field (v := 0) (n := 1) (by decide)).andThen <| .check rfl <|
    (readsBack_field (n := 24) (by omega)).andThen <| (readsBack_used l).andThen <| .check (usedBytes_ne_nil hl) <|
    (readsBack_field (n := 3) (by omega)).andThen <| .check hnGroups <|
    (readsBack_field (n := 15) (by omega)).andThen <| .check (by omega) <|
    (readsBack_selectors hsel).andThen <| hlens.andThen <|
    readsBack_symbols hl (hlength.trans_le hlen) (by omega) hend
  exact (readsBack_field (by decide)).andThen fun pos rest => .inr ⟨by decide, ReadsBack.check rfl hbody pos rest⟩

/-- Settles O54: the written bits are those of a block, and the reader is the reading that finds it there. -/
theorem blockRoundTrip : Obligations.BlockRoundTrip := by
  refine ⟨fun r k cap out => agrees_readBlock k cap r out, fun k block crc cap pos rest hk hk' hpos hlen hcap => ?_⟩
  have hne : block ≠ [] := List.length_pos_iff.mp hpos
  exact ⟨(readsBack_block crc hk' hne hlen hcap).reader (agrees_readBlock k cap) pos rest,
    blockCode_isBlockBits hne crc⟩

end Sys2Proof.Machine

/-! SUPPORT. The stream decoder is the reading of R285, and it reads back what the encoder made. -/

namespace Sys2Proof.Machine

/-! ### The header (47_block_stream.md R285) -/

theorem agrees_readHeader : Agrees readHeader headerOf := by
  refine (agrees_field 8).bind fun b => Agrees.check (by simp) fun _ => (agrees_field 8).bind fun z =>
    Agrees.check (by simp) fun _ => (agrees_field 8).bind fun h => Agrees.check (by simp) fun _ =>
    (agrees_field 8).bind fun d => Agrees.check (by simp) fun _ => Agrees.pure (d - 0x30)

/-! ### The block loop (47_block_stream.md R285) -/

/-- Every block takes bits from the reader, the 48 of its magic at least. -/
theorem readBlock_rest_lt {r r' : BitReader} {k cap : Nat} {b : BlockRead} (h : readBlock r k cap = .ok (b, r')) :
    r'.rest.length < r.rest.length := by
  unfold readBlock at h
  obtain ⟨⟨magic, r₁⟩, hmagic, h⟩ := bind_ok h
  have hadvances : r₁.Advances r' := by
    dsimp only at h
    split at h
    · obtain ⟨⟨combined, r₂⟩, hcombined, h⟩ := bind_ok h
      cases h
      exact readBits_advances hcombined
    · obtain ⟨-, -, h⟩ := bind_ok h
      exact readBlockBody_advances h
  obtain ⟨read, hread, -⟩ := hadvances
  rcases readBits_cases r 48 with ⟨field, rest, hrest, hlen, hfield⟩ | ⟨-, hshort⟩
  · rw [hfield] at hmagic
    cases hmagic
    simp only at hread
    rw [hrest, hread]
    simp only [List.length_append]
    omega
  · rw [hshort] at hmagic
    cases hmagic

/-- What the block reader reads in the block loop, as the reading says. -/
theorem readBlock_eq_iff {k pos : Nat} {bits : List Bool} {out : BitsRead BlockRead} :
    outcome (readBlock ⟨pos, bits⟩ k (blockMax k)) = out ↔ blockOrFooter k (100000 * k) pos bits out :=
  agrees_readBlock k (blockMax k) ⟨pos, bits⟩ out

section
variable {k cap fuel : Nat} {o : StreamOut} {r r' : BitReader}

theorem decodeBlocks_of_error {e : EngineError} (h : readBlock r k (blockMax k) = .error e) :
    decodeBlocks k cap (fuel + 1) o r = .failed e o r.pos := by rw [decodeBlocks, h]

theorem decodeBlocks_of_footer {stored : Nat} (h : readBlock r k (blockMax k) = .ok (.eos stored, r')) :
    decodeBlocks k cap (fuel + 1) o r =
      if stored = o.comb.toNat then .finished o r'.pos else .failed (checksumMismatch 1 o.blocks) o r'.pos := by
  rw [decodeBlocks, h]

/-- A block in the block loop, in terms of the loop of R182. -/
theorem decodeBlocks_of_block {bytes : List Byte} {crc origPtr : Nat}
    (h : readBlock r k (blockMax k) = .ok (.block bytes crc origPtr, r')) :
    decodeBlocks k cap (fuel + 1) o r =
      if (rle1Vars bytes).cnt = 4 then .failed { code := .malformedRunLength } o r'.pos
      else if o.raw.length + (rle1Vars bytes).out.length ≤ cap then
        if crc = (crcOf (rle1Vars bytes).out).toNat then
          decodeBlocks k cap fuel
            ⟨o.raw ++ (rle1Vars bytes).out, crcFold o.comb (BitVec.ofNat 32 crc), o.blocks + 1⟩ r'
        else .failed (checksumMismatch 0 o.blocks) { o with raw := o.raw ++ (rle1Vars bytes).out } r'.pos
      else .failed outputTooSmall o r'.pos := by
  simp only [decodeBlocks, h, rle1Dec_eq_rle1Vars]
  by_cases hcnt : (rle1Vars bytes).cnt = 4
  · simp only [if_pos hcnt]
  · by_cases hcrc : crc = (crcOf (rle1Vars bytes).out).toNat
    · subst hcrc
      simp [hcnt]
    · simp [hcnt, hcrc, Ne.symm hcrc]

end

/-- The decoder comes to an end of the block loop. -/
theorem decodeBlocks_isBlockLoop {k cap fuel : Nat} (o : StreamOut) {r : BitReader} (h : r.rest.length < fuel) :
    IsBlockLoop k cap o r.pos r.rest (decodeBlocks k cap fuel o r) := by
  induction fuel generalizing o r with
  | zero => cases h
  | succ fuel ih =>
    cases hread : readBlock r k (blockMax k) with
    | error e =>
      rw [decodeBlocks_of_error hread]
      exact .readError o r.pos r.rest e (readBlock_eq_iff.mp (outcome_eq_error.mpr hread))
    | ok x =>
      obtain ⟨b, r'⟩ := x
      have hends := readBlock_eq_iff.mp (outcome_eq_ok.mpr hread)
      cases b with
      | eos stored =>
        rw [decodeBlocks_of_footer hread]
        split
        case isTrue heq => exact .footer o r.pos r'.pos stored r.rest r'.rest hends heq
        case isFalse hne => exact .footerMismatch o r.pos r'.pos stored r.rest r'.rest hends hne
      | block bytes crc origPtr =>
        have hlt := readBlock_rest_lt hread
        rw [decodeBlocks_of_block hread]
        split_ifs with hcnt hfit hcrc
        · exact .runError o r.pos r'.pos crc origPtr r.rest r'.rest bytes hends hcnt
        · exact .block o r.pos r'.pos crc origPtr r.rest r'.rest bytes _ hends hcnt hfit hcrc (ih _ (by omega))
        · exact .crcMismatch o r.pos r'.pos crc origPtr r.rest r'.rest bytes hends hcnt hfit hcrc
        · exact .noRoom o r.pos r'.pos crc origPtr r.rest r'.rest bytes hends hcnt (Nat.not_le.mp hfit)

/-- No end of the block loop but the decoder's. -/
theorem IsBlockLoop.decodeBlocks_eq {k cap pos : Nat} {o : StreamOut} {bits : List Bool} {out : StreamEnd}
    (h : IsBlockLoop k cap o pos bits out) {fuel : Nat} (hfuel : bits.length < fuel) :
    decodeBlocks k cap fuel o ⟨pos, bits⟩ = out := by
  obtain ⟨fuel, rfl⟩ := Nat.exists_eq_succ_of_ne_zero (Nat.ne_zero_of_lt hfuel)
  induction h generalizing fuel with
  | readError o pos bits e hend =>
    exact decodeBlocks_of_error (outcome_eq_error.mp (readBlock_eq_iff.mpr hend))
  | footer o pos pos' stored bits rest hend heq =>
    rw [decodeBlocks_of_footer (outcome_eq_ok.mp (readBlock_eq_iff.mpr hend)), if_pos heq]
  | footerMismatch o pos pos' stored bits rest hend hne =>
    rw [decodeBlocks_of_footer (outcome_eq_ok.mp (readBlock_eq_iff.mpr hend)), if_neg hne]
  | runError o pos pos' crc origPtr bits rest block hend hcnt =>
    rw [decodeBlocks_of_block (outcome_eq_ok.mp (readBlock_eq_iff.mpr hend)), if_pos hcnt]
  | noRoom o pos pos' crc origPtr bits rest block hend hcnt hlong =>
    rw [decodeBlocks_of_block (outcome_eq_ok.mp (readBlock_eq_iff.mpr hend)), if_neg hcnt, if_neg hlong.not_ge]
  | crcMismatch o pos pos' crc origPtr bits rest block hend hcnt hfit hcrc =>
    rw [decodeBlocks_of_block (outcome_eq_ok.mp (readBlock_eq_iff.mpr hend)), if_neg hcnt, if_pos hfit]
    exact if_neg hcrc
  | block o pos pos' crc origPtr bits rest block out hend hcnt hfit hcrc _ ih =>
    have hread := outcome_eq_ok.mp (readBlock_eq_iff.mpr hend)
    have hlt : rest.length < bits.length := readBlock_rest_lt hread
    obtain ⟨fuel, rfl⟩ := Nat.exists_eq_succ_of_ne_zero (show fuel ≠ 0 by omega)
    rw [decodeBlocks_of_block hread, if_neg hcnt, if_pos hfit]
    exact (if_pos hcrc).trans (ih fuel (by omega))

/-- The decoder is the reading of R285, with its errors. -/
theorem decodeStream_eq_iff {bytes : List Byte} {cap : Nat} {out : StreamEnd} :
    decodeStream bytes cap = out ↔ IsStreamRead bytes cap out := by
  have hheader := agrees_readHeader ⟨0, bitsOfBytes bytes⟩
  simp only [decodeStream, IsStreamRead]
  constructor
  · rintro rfl
    cases hread : readHeader ⟨0, bitsOfBytes bytes⟩ with
    | error e => exact .inl ⟨e, (hheader _).mp (outcome_eq_error.mpr hread), rfl⟩
    | ok x =>
      exact .inr ⟨x.1, x.2.pos, x.2.rest, (hheader _).mp (outcome_eq_ok.mpr hread),
        decodeBlocks_isBlockLoop _ (Nat.lt_succ_self _)⟩
  · rintro (⟨e, hend, rfl⟩ | ⟨k, pos, rest, hend, hloop⟩)
    · rw [outcome_eq_error.mp ((hheader _).mpr hend)]
    · rw [outcome_eq_ok.mp ((hheader _).mpr hend)]
      exact hloop.decodeBlocks_eq (Nat.lt_succ_self _)

/-! ### The stream is read back (47_block_stream.md R288) -/

/-- 'B' 'Z' 'h' and the digit of the multiplier (30_encoding.md R110). -/
def headerBits (k : Nat) : List Bool :=
  bitsMSB 0x42 8 ++ (bitsMSB 0x5A 8 ++ (bitsMSB 0x68 8 ++ bitsMSB (0x30 + k) 8))

/-- The footer magic and the combined CRC (30_encoding.md R118). -/
def footerBits (combined : Word) : List Bool := bitsMSB Config.eosMagic 48 ++ bitsMSB combined.toNat 32

theorem headerBits_length (k : Nat) : (headerBits k).length = 32 := by simp [headerBits]

theorem footerBits_length (combined : Word) : (footerBits combined).length = 80 := by simp [footerBits]

theorem streamCode_bits (bytes : List Byte) (k : Nat) :
    (streamCode bytes k).1 = headerBits k ++ ((blocksCode 0 (splitBlocks (blockMax k) (chunks bytes))).1 ++
      footerBits (streamCode bytes k).2.2) := by
  simp [streamCode, headerBits_eq, headerBits, footerBits]

theorem readsBack_header {k : Nat} (hk : 1 ≤ k) (hk' : k ≤ 9) : ReadsBack headerOf k (headerBits k) := by
  have hdigit : ReadsBack (result (0x30 + k - 0x30)) k [] := by
    rw [Nat.add_sub_cancel_left]
    exact readsBack_result k
  have hlast : ReadsBack ((fieldOf 8).andThen fun d => (checked (0x31 ≤ d ∧ d ≤ 0x39) (formatError 1)).andThen fun _ =>
      result (d - 0x30)) k (bitsMSB (0x30 + k) 8 ++ []) :=
    (readsBack_field (by omega)).andThen (.check (by omega) hdigit)
  rw [List.append_nil] at hlast
  exact (readsBack_field (by decide)).andThen <| .check rfl <| (readsBack_field (by decide)).andThen <| .check rfl <|
    (readsBack_field (by decide)).andThen <| .check rfl hlast

theorem readsBack_footer {k cap : Nat} (combined : Word) :
    ReadsBack (blockOrFooter k cap) (.eos combined.toNat) (footerBits combined) := by
  have hcombined : ReadsBack ((fieldOf 32).andThen fun combined => result (BlockRead.eos combined))
      (.eos combined.toNat) (bitsMSB combined.toNat 32 ++ []) :=
    (readsBack_field combined.isLt).andThen (readsBack_result _)
  rw [List.append_nil] at hcombined
  exact (readsBack_field (by decide)).andThen fun pos rest => .inl ⟨rfl, hcombined pos rest⟩

/-- The runs of a block of chunks are decoded from their codes. -/
theorem rle1Vars_of_isChunks {bytes : List Byte} {g : List Chunk} (h : IsChunks bytes g) :
    (rle1Vars (g.flatMap runCode)).cnt ≠ 4 ∧ bytes = (rle1Vars (g.flatMap runCode)).out := by
  rw [← rle1Dec_eq_ok_iff, isRle1Code_iff.mp ⟨g, h, rfl⟩]
  exact rle1Dec_rle1Enc bytes

/-- The chunks of a block that BLK_ENC can write: those of its bytes, with a code of 1 to 100000 k bytes. -/
structure IsBlockChunks (k : Nat) (g : List Chunk) : Prop where
  whole : IsChunks (chunksRaw g) g
  nonempty : g.flatMap runCode ≠ []
  fits : (g.flatMap runCode).length ≤ 100000 * k

/-- The chunks of a block are those of its bytes. -/
theorem isChunks_of_mem {bytes : List Byte} {groups : List (List Chunk)} (h : IsChunks bytes groups.flatten)
    {g : List Chunk} (hg : g ∈ groups) : IsChunks (chunksRaw g) g := by
  obtain ⟨-, hbounds, hchain⟩ := isChunks_iff_chain.mp h
  obtain ⟨before, after, hsplit⟩ := List.infix_of_mem_flatten hg
  rw [← hsplit] at hchain
  exact isChunks_iff_chain.mpr ⟨rfl, fun c hc => hbounds c (List.mem_flatten_of_mem hg hc),
    hchain.left_of_append.right_of_append⟩

/-- The blocks of an input hold its bytes, each with the chunks of its own. -/
theorem splitBlocks_blocks (bytes : List Byte) {k : Nat} (hk : 1 ≤ k) :
    (splitBlocks (blockMax k) (chunks bytes)).flatMap chunksRaw = bytes ∧
    ∀ g ∈ splitBlocks (blockMax k) (chunks bytes), IsBlockChunks k g := by
  have hchunks := chunks_isChunks bytes
  have hsplit := splitBlocks_isBlockSplit (lim := blockMax k) (cs := chunks bytes) fun c hc =>
    (runCode_length (hchunks.bounds c hc).1).2.trans (by simp only [blockMax, Config.blockUnit]; omega)
  refine ⟨?_, fun g hg => ⟨isChunks_of_mem (hsplit.whole.symm ▸ hchunks) hg, block_ne_nil hchunks hsplit hg,
    (hsplit.bounds g hg).2⟩⟩
  calc (splitBlocks (blockMax k) (chunks bytes)).flatMap chunksRaw
    _ = (splitBlocks (blockMax k) (chunks bytes)).flatten.flatMap fun c => List.replicate c.2 c.1 := by
      rw [← List.flatMap_id, List.flatMap_assoc]
      rfl
    _ = bytes := by rw [hsplit.whole, hchunks.whole]

/-- The blocks of a stream and its footer are read back, each block's runs put out and its CRC folded. -/
theorem isBlockLoop_blocksCode {k cap : Nat} (hk : k ≤ 9) {groups : List (List Chunk)} {bytes : List Byte}
    (hgroups : ∀ g ∈ groups, IsBlockChunks k g) (hbytes : groups.flatMap chunksRaw = bytes) {o : StreamOut}
    (hcap : o.raw.length + bytes.length ≤ cap) {code : List Bool × Word} (hcode : blocksCode o.comb groups = code)
    (pos : Nat) (rest : List Bool) :
    IsBlockLoop k cap o pos (code.1 ++ (footerBits code.2 ++ rest))
      (.finished ⟨o.raw ++ bytes, code.2, o.blocks + groups.length⟩ (pos + (code.1.length + 80))) := by
  induction groups generalizing o pos bytes code with
  | nil =>
    obtain rfl : [] = bytes := hbytes
    obtain rfl : ([], o.comb) = code := hcode
    have hfooter := readsBack_footer (k := k) (cap := 100000 * k) o.comb pos rest
    simpa [footerBits_length] using IsBlockLoop.footer (cap := cap) o pos _ _ _ rest hfooter rfl
  | cons g groups ih =>
    obtain ⟨⟨hchunks, hne, hlen⟩, hgroups⟩ := List.forall_mem_cons.mp hgroups
    obtain ⟨hcnt, hout⟩ := rle1Vars_of_isChunks hchunks
    rw [List.flatMap_cons] at hbytes
    subst hbytes
    rw [List.length_append] at hcap
    rw [blocksCode, show chunkCode = runCode from funext chunkCode_eq] at hcode
    generalize hmore : blocksCode (crcFold o.comb (crcOf (chunksRaw g))) groups = more at hcode
    subst hcode
    have hrest := ih hgroups rfl (o := ⟨o.raw ++ chunksRaw g, crcFold o.comb (crcOf (chunksRaw g)), o.blocks + 1⟩)
      (by rw [List.length_append]; omega) hmore
      (pos + (blockCode (g.flatMap runCode) (crcOf (chunksRaw g))).bits.length)
    have hend := readsBack_block (crcOf (chunksRaw g)) hk hne hlen hlen pos (more.1 ++ (footerBits more.2 ++ rest))
    have hloop := IsBlockLoop.block (cap := cap) o pos _ _ _ _ _ (g.flatMap runCode) _ hend hcnt (by rw [← hout]; omega)
      (by rw [← hout]; rfl) (by rw [← hout, BitVec.ofNat_toNat, BitVec.setWidth_eq, ← crcFold_eq]; exact hrest)
    simpa [Nat.add_assoc, Nat.add_comm 1] using hloop

/-- The stream of an input is read back, whatever bits follow it. -/
theorem streamCode_isStreamRead {k cap : Nat} {bytes out : List Byte} (hk : 1 ≤ k) (hk' : k ≤ 9)
    (hcap : bytes.length ≤ cap) {padding : List Bool} (hout : bitsOfBytes out = (streamCode bytes k).1 ++ padding) :
    IsStreamRead out cap (.finished ⟨bytes, (streamCode bytes k).2.2, (streamCode bytes k).2.1⟩
      (streamCode bytes k).1.length) := by
  obtain ⟨hbytes, hgroups⟩ := splitBlocks_blocks bytes hk
  have hloop := isBlockLoop_blocksCode hk' hgroups hbytes (o := ⟨[], 0, 0⟩) (by simpa using hcap) rfl
    (0 + (headerBits k).length) padding
  have hheader := readsBack_header hk hk' 0
  rw [streamCode_bits, List.append_assoc, List.append_assoc] at hout
  refine .inr ⟨k, _, _, hout ▸ hheader _, ?_⟩
  rw [streamCode_bits]
  simpa [headerBits_length, footerBits_length, streamCode] using hloop

/-- Settles O60: the encoder's stream is read back, and the decoder is the reading that reads it. -/
theorem streamRoundTrip : Obligations.StreamRoundTrip := by
  refine ⟨fun _ _ _ => decodeStream_eq_iff, fun k bytes out cap cap' hk hk' hcap hpack =>
    ⟨streamCode_isStreamBits bytes hk, (streamCode bytes k).1.length, ?_⟩⟩
  rcases packStream_cases cap' (streamCode bytes k).1 with ⟨-, out', hout, hlen, hbits⟩ | ⟨-, hout⟩
  · cases hout.symm.trans hpack
    exact ⟨decodeStream_eq_iff.mpr (streamCode_isStreamRead hk hk' hcap hbits), hlen.symm⟩
  · cases hout.symm.trans hpack

end Sys2Proof.Machine

/-! SUPPORT. The block commands: their checks pass, and they end as the writer or the reading does. -/

namespace Sys2Proof.Machine

/-! ### BLK_ENC (47_block_stream.md R270) -/

section
variable {s : State} {k : Nat} {src n blockCrc : Word} {wr : Option Word} (hk : 1 ≤ k) (hk' : k ≤ 9) (hn : 1 ≤ n.toNat)
  (hn' : n.toNat ≤ 100000 * k) (h : operandsInOrder s [wordSpan src n] [] [] [s.bw.freeSpan] wr = true)
include hk hk' hn hn' h

/-- What BLK_ENC does with its ranges in order. -/
theorem exec_blkEnc_of_inOrder {code : BlockCode}
    (hcode : blockCode (s.mem.readBytes src.toNat n.toNat) blockCrc = code) :
    exec (.blkEnc k src n blockCrc wr) s = .next
      (match s.bw.sink.writeAll code.bits with
      | .ok w =>
        finish wr (setResults code.origPtr code.nGroups code.nSel (w.bitCount - s.bw.sink.bitCount) (putSink w s))
      | .error e => failAppend s.bw.freeSpan e s) := by
  have hc : (instrPlan (.blkEnc k src n blockCrc wr) s).check s.platform = none := by
    refine check_of_operandsInOrder ⟨hk, hk', hn, hn'⟩ h ?_ ?_ ?_ ?_
    · cases wr <;> rfl
    · cases wr <;> rfl
    · cases wr <;> simp [operandTable, resultOperand, wrSpans, resultSpan]
    · simp [operandTable, resultOperand]
  subst hcode
  simp only [exec]
  exact guarded_of_none hc

end

/-- Settles O51: the block's bits are a string that is taken or finds no room. -/
theorem blkEncAppends : Obligations.BlkEncAppends := by
  intro s k src n blockCrc wr hk hk' hn hn' hcount h
  have hne : s.mem.readBytes src.toNat n.toNat ≠ [] := List.length_pos_iff.mp (by rw [readBytes_length]; omega)
  refine ⟨_, _, _, _, blockCode_isBlockBits hne blockCrc, ?_⟩
  have hexec := exec_blkEnc_of_inOrder (blockCrc := blockCrc) hk hk' hn hn' h rfl
  generalize blockCode (s.mem.readBytes src.toNat n.toNat) blockCrc = code at hexec ⊢
  rcases append_cases hcount code.bits with ⟨hroom, w, hwrite, hw⟩ | ⟨hfull, hwrite⟩
  · rw [hwrite] at hexec
    have hnumber : w.bitCount - s.bw.sink.bitCount = code.bits.length := by rw [hw.bitCount, Nat.add_sub_cancel_left]
    exact ⟨fun _ => ⟨_, hexec, finish_completedNext wr rfl,
      finish_appended hw hroom rfl rfl fun _ => freeSpan_disjoint_resultSpan h, by simp [hnumber], by simp⟩,
      fun hfull => nomatch hroom.symm.trans hfull⟩
  · rw [hwrite] at hexec
    exact ⟨fun hroom => (nomatch hroom.symm.trans hfull), fun _ => ⟨_, hexec, failAppend_failedAppend s⟩⟩

/-! ### BLK_DEC (47_block_stream.md R275) -/

/-- What BLK_DEC does with its ranges in order. -/
theorem exec_blkDec_of_inOrder {s : State} {k : Nat} {dst cap : Word} {wr : Option Word} (hk : 1 ≤ k) (hk' : k ≤ 9)
    (h : operandsInOrder s [] [wordSpan dst cap] [s.br.remainder] [] wr = true) :
    exec (.blkDec k dst cap wr) s = .next
      (match readBlock (registerReader s) k cap.toNat with
      | .ok (.eos combined, r) => finish wr (setResults 0 combined 0 0 (putReaderPos r.pos s))
      | .ok (.block bytes crc origPtr, r) =>
        finish wr (setResults bytes.length crc origPtr 1 (putReaderPos r.pos (storeBytes dst.toNat bytes s)))
      | .error e => failRead ⟨dst.toNat, cap.toNat⟩ e s) := by
  have hc : (instrPlan (.blkDec k dst cap wr) s).check s.platform = none := by
    refine check_of_operandsInOrder ⟨hk, hk'⟩ h ?_ ?_ ?_ ?_
    · cases wr <;> rfl
    · cases wr <;> rfl
    · cases wr <;> simp [operandTable, resultOperand, wrSpans, resultSpan]
    · simp [operandTable, resultOperand]
  simp only [exec]
  exact guarded_of_none hc

/-- Settles O52: the reader of the BR registers comes to the one end of the reading of the bits ahead. -/
theorem blkDecWrites : Obligations.BlkDecWrites := by
  intro s k dst cap wr hk hk' _ h
  have hexec := exec_blkDec_of_inOrder hk hk' h
  have hread out : outcome (readBlock (registerReader s) k cap.toNat) = out ↔
      blockOrFooter k cap.toNat s.br.pos.toNat (bitsAhead s) out :=
    registerReader_rest s ▸ agrees_readBlock k cap.toNat (registerReader s) out
  refine ⟨⟨_, (hread _).mp rfl⟩, fun combined pos rest hend => ?footer, fun bytes crc origPtr pos rest hend => ?block,
    fun e hend => ?failed⟩
  case footer =>
    rw [outcome_eq_ok.mp ((hread _).mpr hend)] at hexec
    exact ⟨_, hexec, finish_completedNext wr rfl, finish_stored_nothing wr rfl, by simp, by simp,
      by simp [putReaderPos]⟩
  case block =>
    have hblock := outcome_eq_ok.mp ((hread _).mpr hend)
    have hfit := readBlock_length hblock
    rw [hblock] at hexec
    exact ⟨_, hexec, finish_completedNext wr rfl, finish_stored_bytes rfl fun w hw =>
      disjoint_of_len_le (write_disjoint_resultSpan h hw) hfit, by simp, by simp, by simp [putReaderPos]⟩
  case failed =>
    rw [outcome_eq_error.mp ((hread _).mpr hend)] at hexec
    exact ⟨_, hexec, failRead_failedRead s ⟨dst.toNat, cap.toNat⟩ e⟩

end Sys2Proof.Machine

/-! SUPPORT. The errors that reading a block can raise, and STREAM_DEC, which ends as the block loop does. -/

namespace Sys2Proof.Machine

/-! ### The errors of the block reader (47_block_stream.md R276) -/

/-- The codes of the errors of R276. -/
def blockErrorCodes : List ErrorCode :=
  [.truncatedInput, .formatError, .unsupportedLegacyFeature, .huffmanOverflow, .invalidHuffmanCode,
    .invalidOriginPointer, .outputBufferTooSmall]

/-- The reading ends in no error but those of R276. -/
def RaisesBlockErrors {α : Type} (R : Reading α) : Prop :=
  ∀ pos bits e, R pos bits (.error e) → e.code ∈ blockErrorCodes

theorem RaisesBlockErrors.andThen {α β : Type} {R : Reading α} {S : α → Reading β} (h : RaisesBlockErrors R)
    (h' : ∀ x, RaisesBlockErrors (S x)) : RaisesBlockErrors (R.andThen S) := by
  rintro pos bits e (⟨e', hfirst, heq⟩ | ⟨x, pos', rest, -, hnext⟩)
  · cases heq
    exact h pos bits _ hfirst
  · exact h' x pos' rest e hnext

theorem raises_checked {P : Prop} {e : EngineError} (h : e.code ∈ blockErrorCodes) :
    RaisesBlockErrors (checked P e) := by
  rintro pos bits e' (⟨-, heq⟩ | ⟨-, heq⟩)
  · cases heq
  · cases heq
    exact h

theorem raises_result {α : Type} (x : α) : RaisesBlockErrors (result x) := nofun

theorem raises_field (n : Nat) : RaisesBlockErrors (fieldOf n) := by
  rintro pos bits e (⟨v, rest, -, -, heq⟩ | ⟨-, heq⟩)
  · cases heq
  · cases heq
    exact List.mem_cons_self

theorem raises_bitwise {α : Type} {full : α → List Bool → Prop} {bad : EngineError → List Bool → Prop}
    (h : ∀ e bits, bad e bits → e.code ∈ blockErrorCodes) : RaisesBlockErrors (bitwise full bad) := by
  rintro pos bits e (⟨x, read, rest, -, -, heq⟩ | ⟨e', read, rest, hbad, -, heq⟩ | ⟨-, heq⟩)
  · cases heq
  · cases heq
    exact h _ read hbad
  · cases heq
    exact List.mem_cons_self

theorem raises_lengths (a : Nat) : RaisesBlockErrors (lengthsOf a) :=
  (raises_field 5).andThen fun _ => raises_bitwise fun _ _ ⟨_, _, _, _, _, _, _, _, _, he⟩ => he ▸ by decide

theorem raises_tables (a n : Nat) : RaisesBlockErrors (tablesOf a n) := by
  induction n with
  | zero => exact raises_result []
  | succ n ih =>
    exact (raises_lengths a).andThen fun _ => (raises_checked (by decide)).andThen fun _ => ih.andThen fun _ =>
      raises_result _

theorem raises_symbols (lens : List (List Nat)) (sel : List Nat) (eob : Nat) (takes : List Nat → Prop) :
    RaisesBlockErrors (IsHufDec lens sel eob takes (formatError 8)) := by
  intro pos bits e h
  cases h with
  | refused | exhausted | noCode => decide
  | short => exact List.mem_cons_self

theorem raises_blockEnd (cap crc origPtr : Nat) (last : List Byte) :
    RaisesBlockErrors (blockEndOf cap crc origPtr last) :=
  (raises_checked (by decide)).andThen fun _ => (raises_checked (by decide)).andThen fun _ _ _ _ ⟨_, _, heq⟩ =>
    nomatch heq

theorem raises_block (k cap : Nat) : RaisesBlockErrors (blockOf k cap) :=
  (raises_field 32).andThen fun crc => (raises_field 1).andThen fun _ => (raises_checked (by decide)).andThen fun _ =>
    (raises_field 24).andThen fun origPtr => (raises_bitwise fun _ _ h => h.elim).andThen fun _ =>
    (raises_checked (by decide)).andThen fun _ => (raises_field 3).andThen fun _ =>
    (raises_checked (by decide)).andThen fun _ => (raises_field 15).andThen fun _ =>
    (raises_checked (by decide)).andThen fun _ =>
    (raises_bitwise fun _ _ ⟨_, _, _, _, he⟩ => he ▸ by decide).andThen fun _ =>
    (raises_tables _ _).andThen fun _ => (raises_symbols _ _ _ _).andThen fun _ pos rest e ⟨last, _, _, hend⟩ =>
    raises_blockEnd cap crc origPtr last pos rest e hend

theorem raises_blockOrFooter (k cap : Nat) : RaisesBlockErrors (blockOrFooter k cap) := by
  refine (raises_field 48).andThen fun magic pos rest e => ?_
  rintro (⟨-, hfooter⟩ | ⟨-, hblock⟩)
  · exact ((raises_field 32).andThen fun _ => raises_result _) pos rest e hfooter
  · exact ((raises_checked (by decide)).andThen fun _ => raises_block k cap) pos rest e hblock

theorem raises_header : RaisesBlockErrors headerOf :=
  (raises_field 8).andThen fun _ => (raises_checked (by decide)).andThen fun _ =>
    (raises_field 8).andThen fun _ => (raises_checked (by decide)).andThen fun _ =>
    (raises_field 8).andThen fun _ => (raises_checked (by decide)).andThen fun _ =>
    (raises_field 8).andThen fun _ => (raises_checked (by decide)).andThen fun _ => raises_result _

/-! ### STREAM_DEC (47_block_stream.md R285 to R287) -/

/-- A checksum that differs names its kind and the blocks that matched (47_block_stream.md R287). -/
def NamesChecksum (e : EngineError) (o : StreamOut) : Prop :=
  e.code = .checksumMismatch → (e.info = 0 ∨ e.info = 1) ∧ e.pos = o.blocks

theorem namesChecksum_of_blockError {e : EngineError} (h : e.code ∈ blockErrorCodes) (o : StreamOut) :
    NamesChecksum e o := by
  intro hcode
  rw [hcode] at h
  exact absurd h (by decide)

theorem IsBlockLoop.namesChecksum {k cap pos pos' : Nat} {o o' : StreamOut} {bits : List Bool} {e : EngineError}
    (h : IsBlockLoop k cap o pos bits (.failed e o' pos')) : NamesChecksum e o' := by
  generalize hout : StreamEnd.failed e o' pos' = out at h
  induction h with
  | readError o pos bits e hend =>
    cases hout
    exact namesChecksum_of_blockError (raises_blockOrFooter k _ _ _ _ hend) _
  | footer => cases hout
  | footerMismatch =>
    cases hout
    exact fun _ => ⟨.inr rfl, rfl⟩
  | runError | noRoom =>
    cases hout
    exact nofun
  | crcMismatch =>
    cases hout
    exact fun _ => ⟨.inl rfl, rfl⟩
  | block _ _ _ _ _ _ _ _ _ _ _ _ _ _ ih => exact ih hout

theorem IsStreamRead.namesChecksum {bytes : List Byte} {cap pos : Nat} {o : StreamOut} {e : EngineError}
    (h : IsStreamRead bytes cap (.failed e o pos)) : NamesChecksum e o := by
  rcases h with ⟨e', hheader, heq⟩ | ⟨k, pos', rest, -, hloop⟩
  · cases heq
    exact namesChecksum_of_blockError (raises_header _ _ _ hheader) _
  · exact hloop.namesChecksum

/-- What STREAM_DEC does with its ranges in order. -/
theorem exec_streamDec_of_inOrder {s : State} {src len dst cap : Word} {wr : Option Word} (hlen : len.toNat < 2 ^ 29)
    (h : operandsInOrder s [wordSpan src len] [wordSpan dst cap] [] [] wr = true) :
    exec (.streamDec src len dst cap wr) s = .next
      (match decodeStream (s.mem.readBytes src.toNat len.toNat) cap.toNat with
      | .finished o pos => finish wr (setStreamResults o pos (storeBytes dst.toNat o.raw s))
      | .failed e o pos =>
        if e.code = .checksumMismatch then failChecksum dst cap e o pos s else failStream dst cap e o s) := by
  have hc : (instrPlan (.streamDec src len dst cap wr) s).check s.platform = none := by
    refine check_of_operandsInOrder hlen h ?_ ?_ ?_ ?_
    · cases wr <;> rfl
    · cases wr <;> rfl
    · cases wr <;> simp [operandTable, resultOperand, wrSpans, resultSpan]
    · simp [operandTable, resultOperand]
  simp only [exec]
  exact guarded_of_none hc

/-- Any error of STREAM_DEC but the checksum's keeps the bytes outside the destination. -/
theorem failStream_failedWith (dst cap : Word) (e : EngineError) (o : StreamOut) (s : State) :
    FailedWith s (failStream dst cap e o s) e.code.number (BitVec.ofNat 32 e.info) (BitVec.ofNat 32 e.pos)
      [wordSpan dst cap] := by
  unfold failStream
  split
  case isTrue =>
    have hkept := failSpans_failedWith [] e s
    exact { hkept with frame := fun a _ => hkept.frame a nofun }
  case isFalse => exact failSpans_failedWith [wordSpan dst cap] e s

/-- Settles O58: the decoder comes to the one end of the reading, and stores what it has put out. -/
theorem streamDecWrites : Obligations.StreamDecWrites := by
  intro s src len dst cap wr hlen h
  have hexec := exec_streamDec_of_inOrder hlen h
  refine ⟨⟨_, decodeStream_eq_iff.mp rfl⟩, fun out pos hend => ?finished, fun e out pos hend hcode => ?failed⟩
  case finished =>
    have hdecode := decodeStream_eq_iff.mpr hend
    rw [hdecode] at hexec
    exact ⟨_, hexec, finish_completedNext wr rfl, finish_stored_bytes rfl fun w hw =>
      stored_disjoint_resultSpan h (decodeStream_length hdecode) hw, by simp [setStreamResults],
      by simp [setStreamResults], by simp [setStreamResults]⟩
  case failed =>
    rw [decodeStream_eq_iff.mpr hend] at hexec
    exact ⟨_, hexec.trans (congrArg _ (if_neg hcode)), failStream_failedWith dst cap e out s⟩

/-- The error stop of CHECKSUM_MISMATCH keeps the output so far, which the unspecified bytes come after. -/
theorem failChecksum_mem {dst cap : Word} {o : StreamOut} (hfit : o.raw.length ≤ cap.toNat) (e : EngineError)
    (pos : Nat) (s : State) :
    (failChecksum dst cap e o pos s).mem.readBytes dst.toNat o.raw.length = o.raw ∧
      ∀ a, ¬(dst.toNat ≤ a ∧ a < dst.toNat + cap.toNat) →
        (failChecksum dst cap e o pos s).mem.read a = s.mem.read a := by
  have hstop := failSpans_failedWith (undefinedTail dst cap o.raw) e
    (setStreamResults o pos (storeBytes dst.toNat o.raw s))
  have htail : ∀ sp ∈ undefinedTail dst cap o.raw, sp = ⟨dst.toNat + o.raw.length, cap.toNat - o.raw.length⟩ := by
    intro sp hsp
    unfold undefinedTail at hsp
    split at hsp
    · cases hsp
    · exact List.mem_singleton.mp hsp
  have hframe {a} (ha : ¬(dst.toNat + o.raw.length ≤ a ∧ a < dst.toNat + cap.toNat)) :
      (failChecksum dst cap e o pos s).mem.read a = (s.mem.writeBytes dst.toNat o.raw).read a :=
    hstop.frame a fun sp hsp hin => ha (by rw [htail sp hsp] at hin; simp only at hin; omega)
  constructor
  · rw [readBytes_congr (m' := s.mem.writeBytes dst.toNat o.raw) fun i hi => hframe (by omega),
      readBytes_writeBytes_same]
  · intro a ha
    rw [hframe (by omega), read_writeBytes_outside (by omega)]

/-- Settles O59: the stop is that of R287, at the block index the loop names. -/
theorem checksumMismatchKeepsOutput : Obligations.ChecksumMismatchKeepsOutput := by
  intro s src len dst cap wr e out pos hlen h hend hcode
  obtain ⟨hinfo, hpos⟩ := hend.namesChecksum hcode
  have hdecode := decodeStream_eq_iff.mpr hend
  obtain ⟨hout, hframe⟩ := failChecksum_mem (decodeStream_failed_length hdecode) e pos s (dst := dst)
  have hexec := exec_streamDec_of_inOrder hlen h
  rw [hdecode] at hexec
  refine ⟨_, hexec.trans (congrArg _ (if_pos hcode)), ?stopped, hinfo, ?results, hout, ?writer, ?reader, hframe⟩
  case stopped => constructor <;> simp [failChecksum, setStreamResults, hcode, hpos, ErrorCode.number]
  case results => simp [failChecksum, setStreamResults]
  case writer => simp [failChecksum, setStreamResults]
  case reader => simp [failChecksum, setStreamResults]

end Sys2Proof.Machine

/-! SUPPORT. The execution cycle: the faults of a fetch, the ways a run stops, and reset during a run. -/

namespace Sys2Proof.Machine

/-! ### A step of a run (60_exceptions.md R310, R321) -/

section
variable {s : State} (hbusy : s.busy = true)
include hbusy

theorem engineStep_of_fetch {i : Instr} (h : fetchCommand s = .ok i) : engineStep s = exec i (noteCommand s) := by
  simp [engineStep, hbusy, h]

theorem step_of_fetchError (hinputs : s.inputs = []) {e : EngineError} (h : fetchCommand s = .error e) :
    step s = .next (errorStop e s) := by
  simp [step_of_noInputs hinputs, engineStep, hbusy, h]

end

theorem step_of_input {s : State} {a : HostAction} {more : List HostAction} (h : s.inputs = a :: more) :
    step s = hostStep a { s with inputs := more } := by
  rw [step, h]

/-- The host's pending actions are no part of what a fetch reads. -/
theorem fetchCommand_withInputs (s : State) (more : List HostAction) :
    fetchCommand { s with inputs := more } = fetchCommand s :=
  fetchCommand_core rfl

theorem instrPlan_withInputs (i : Instr) (s : State) (more : List HostAction) :
    instrPlan i { s with inputs := more } = instrPlan i s :=
  instrPlan_core i rfl

theorem noteCommand_withInputs (s : State) (more : List HostAction) :
    noteCommand { s with inputs := more } = { s with inputs := more, runLog := (noteCommand s).runLog } := by
  have hranges : commandRanges { s with inputs := more } = commandRanges s := by
    simp only [commandRanges, fetchCommand_withInputs, instrPlan_withInputs, readSpans, writeSpans]
  simp only [noteCommand, hranges]

/-- Settles O4: the fetch gives the command at DP, and all that a step adds to it is the run's log. -/
theorem stepRunsTheDecodedCommand : Obligations.StepRunsTheDecodedCommand := by
  intro s i rest hbusy hfetch hdecode
  have hcommand := fetchCommand_of_inOrder hfetch hdecode
  refine ⟨(noteCommand s).runLog, noteCommand_noted hcommand, fun hinputs => ?_, fun more hinputs => ?_⟩
  · rw [step_of_noInputs hinputs, engineStep_of_fetch hbusy hcommand]
    rfl
  · rw [step_of_input hinputs, ← noteCommand_withInputs s more]
    exact engineStep_of_fetch (s := { s with inputs := more }) hbusy ((fetchCommand_withInputs s more).trans hcommand)

/-! ### The errors of a fetch (60_exceptions.md R302, R311) -/

theorem fetchCommand_of_misaligned {s : State} (h : s.dp.toNat % 4 ≠ 0) :
    fetchCommand s = .error { code := .descriptorFault, info := 1 } :=
  if_pos h

/-- A descriptor that wraps, or of which some byte is not admitted. -/
theorem fetchCommand_of_unadmitted {s : State} (haligned : s.dp.toNat % 4 = 0)
    (h : 4294967296 < s.dp.toNat + 32 ∨
      ∃ a, s.dp.toNat ≤ a ∧ a < s.dp.toNat + 32 ∧ s.platform.admits a = false) :
    fetchCommand s = .error { code := .descriptorFault, info := 2 } := by
  have hbad : (descriptorSpan s).wraps = true ∨ s.platform.admitsSpan (descriptorSpan s) = false := by
    refine h.imp (fun hwrap => decide_eq_true hwrap) ?_
    rintro ⟨a, hlo, hhi, hout⟩
    refine Bool.eq_false_iff.mpr fun hadmit => ?_
    have hin : s.platform.admits a = true := (admissionIsPerByte _ _).mp hadmit a hlo hhi
    exact Bool.false_ne_true (hout.symm.trans hin)
  rw [fetchCommand, if_neg (not_not_intro haligned), if_pos (by simpa using hbad)]

/-- Settles O5: a fetch that fails is an error stop with the code and the sub-code it names. -/
theorem descriptorFaults : Obligations.DescriptorFaults := by
  intro s hbusy hinputs
  refine ⟨fun hodd => ?_, fun haligned hbad => ?_⟩
  · exact step_of_fetchError hbusy hinputs (fetchCommand_of_misaligned hodd)
  · exact step_of_fetchError hbusy hinputs (fetchCommand_of_unadmitted haligned hbad)

/-- A descriptor fetched in order that does not decode is an ILLEGAL_COMMAND. -/
theorem fetchCommand_of_decodeError {s : State} {e : DecodeError} (h : FetchInOrder s)
    (he : decodeDescriptor (s.mem.readDescriptor s.dp.toNat) = .error e) :
    fetchCommand s = .error { code := .illegalCommand, info := illegalSub e } := by
  obtain ⟨haligned, hspace, hadmits⟩ := h
  have hwraps : (descriptorSpan s).wraps = false := decide_eq_false hspace.not_gt
  have hadmitted : s.platform.admitsSpan (descriptorSpan s) = true := (admissionIsPerByte _ _).mpr hadmits
  have hdecode : decodeBytes (s.mem.readBytes s.dp.toNat Config.descSize) = .error e := by
    rw [decodeBytes, if_neg (by simp), ← Memory.readDescriptor, he]
  simp [fetchCommand, haligned, hwraps, hadmitted, hdecode]

/-- W0 of the descriptor at an address is the little-endian word there (30_encoding.md R90). -/
theorem readDescriptor_w0 {m : Memory} {a : Nat} {w0 : Word} (h : w0.toNat = m.readNat a 4) :
    (m.readDescriptor a).w0 = w0 := by
  have hbytes : (m.readBytes a Config.descSize).take 4 = m.readBytes a 4 := by
    simp [Memory.readBytes, ← List.map_take, List.take_range, Config.descSize]
  rw [Memory.readDescriptor, descriptorOfBytes, wordAt, Nat.mul_zero, List.drop_zero, hbytes, ← Memory.readNat, ← h,
    BitVec.ofNat_toNat, BitVec.setWidth_eq]

/-- Settles O6: the sub-code is that of the decoding error, and those come in the order of R97. -/
theorem illegalCommandStops : Obligations.IllegalCommandStops := by
  intro s w0 hbusy hinputs hfetch hw0
  have hstop {e : DecodeError} (he : decodeDescriptor (s.mem.readDescriptor s.dp.toNat) = .error e) :
      step s = .next (stopRecord 1 (BitVec.ofNat 32 (illegalSub e)) 0 s) :=
    step_of_fetchError hbusy hinputs (fetchCommand_of_decodeError hfetch he)
  have herrors := decodeErrorsInOrder (s.mem.readDescriptor s.dp.toNat)
  rw [readDescriptor_w0 hw0] at herrors
  cases hused : usedOptionBits (w0.toNat % 256) with
  | none =>
    rw [hused] at herrors
    exact hstop herrors
  | some used =>
    rw [hused] at herrors
    obtain ⟨hreserved, hoption, -⟩ := herrors
    exact ⟨fun hres => hstop (hreserved hres), fun hres hopt => hstop (hoption hres hopt)⟩

/-! ### How a run stops (60_exceptions.md R310, R331) -/

/-- A command that stops the run has failed or is END. -/
theorem exec_stops {i : Instr} {s t : State} (h : exec i s = .next t) (hbusy : s.busy = true) (hstop : t.busy = false) :
    t.err = true ∨ ∃ wr, i = .endRun wr ∧ t.done = true := by
  rcases exec_cases h with ⟨e, -, rfl⟩ | ⟨-, hend⟩
  · exact .inl rfl
  · cases hend with
    | finished hw =>
      obtain ⟨r, w, b, m, rfl⟩ := hw.frame
      simp [hbusy] at hstop
    | jumped _ => simp [hbusy] at hstop
    | ended hi => exact .inr ⟨_, hi, rfl⟩
    | failed _ _ _ | failedAppend _ _ | failedRead _ _ => exact .inl rfl

/-- A register write stops a run only as an SRST. -/
theorem writeRegister_stops {o : Nat} {v : Word} {s : State} (hbusy : s.busy = true)
    (hstop : (writeRegister o v s).busy = false) : o = 0x008 ∧ v.getLsbD 31 = true := by
  have hrunning : s.busy ≠ false := by simp [hbusy]
  unfold writeRegister at hstop
  split at hstop
  · refine ⟨rfl, ?_⟩
    by_contra hreset
    rw [writeCtrl_of_noReset (Bool.eq_false_iff.mpr hreset)] at hstop
    simp [hbusy] at hstop
  · exact absurd hstop hrunning
  · rw [if_pos hbusy] at hstop
    exact absurd hstop hrunning
  · exact absurd hstop hrunning

/-- A host action stops a run only by letting the engine step or by reset. -/
theorem hostStep_stops {a : HostAction} {s t : State} (h : hostStep a s = .next t) (hbusy : s.busy = true)
    (hstop : t.busy = false) :
    a = .yield ∨ a = .resetPin ∨ ∃ v : Word, a = .writeReg 0x008 4 v ∧ v.getLsbD 31 = true := by
  have hrunning : s.busy ≠ false := by simp [hbusy]
  have haccess {sp : Span} {keeps : Bool} {s' : State} (h : hostAccess sp keeps s' s = .next t)
      (hs' : s'.busy = s.busy) : False := by
    rcases hostAccess_cases sp keeps s' s with ⟨-, -, -, he⟩ | ⟨-, he⟩ | ⟨-, he⟩ | ⟨-, he⟩ <;> rw [he] at h <;> cases h
    exact hrunning (hs'.symm.trans hstop)
  cases a with
  | yield => exact .inl rfl
  | resetPin => exact .inr (.inl rfl)
  | readReg offset width =>
    simp only [hostStep] at h
    split at h <;> cases h
    obtain ⟨v, f, hread⟩ := readRegister_value offset.toNat s
    rw [hread] at hstop
    exact absurd hstop hrunning
  | writeReg offset width v =>
    simp only [hostStep] at h
    split at h <;> cases h
    rename_i hword
    obtain ⟨hctrl, hreset⟩ := writeRegister_stops hbusy hstop
    obtain rfl : offset = 0x008 := BitVec.eq_of_toNat_eq hctrl
    obtain rfl : width = 4 := by simpa [alignedWord] using hword
    exact .inr (.inr ⟨v, rfl, hreset⟩)
  | readMem addr len => exact (haccess h rfl).elim
  | writeMem addr bytes => exact (haccess h rfl).elim

/-- Settles O10: the engine stops a run by an error stop or at END, the host by SRST, reset or the engine's own step. -/
theorem onlyEndOrErrorStopsRun : Obligations.OnlyEndOrErrorStopsRun := by
  refine ⟨fun s hinputs hidle => ?_, fun s hinputs hbusy => ?_, fun s t a more hinputs hbusy hstep hstop => ?_⟩
  · simp [step_of_noInputs hinputs, engineStep, hidle]
  · cases hfetch : fetchCommand s with
    | error e => exact ⟨_, step_of_fetchError hbusy hinputs hfetch, fun _ => .inl rfl⟩
    | ok i =>
      obtain ⟨t, ht⟩ := exec_next i (noteCommand s)
      refine ⟨t, by rw [step_of_noInputs hinputs, engineStep_of_fetch hbusy hfetch, ht], fun hstop => ?_⟩
      refine (exec_stops ht hbusy hstop).imp_right ?_
      rintro ⟨wr, rfl, hdone⟩
      exact ⟨wr, rfl, hdone⟩
  · rw [step_of_input hinputs] at hstep
    exact hostStep_stops hstep hbusy hstop

/-! ### Reset (70_reset_and_hazards.md R340, R342) -/

/-- Settles O12: the reset state is what `resetRegisters` leaves of it, with memory empty. -/
theorem invHoldsAtReset : Obligations.InvHoldsAtReset :=
  resetRegisters_inv (s := State.reset) ⟨rfl, rfl⟩

/-- What a reset during a run leaves unspecified: the write ranges of the command at DP, when its checks would hold. -/
theorem latchedWrites_of_fetch {s : State} {i : Instr} (h : fetchCommand s = .ok i) :
    latchedWrites s = if (instrPlan i s).check s.platform = none then writeSpans i s else [] := by
  rw [latchedWrites, commandRanges_of_fetch h]
  split <;> rfl

theorem latchedWrites_of_error {s : State} {e : EngineError} (h : fetchCommand s = .error e) :
    latchedWrites s = [] := by
  rw [latchedWrites, commandRanges_of_error h]

theorem resetEngine_mem_of_busy {s : State} (h : s.busy = true) :
    (resetEngine s).mem = (havocSpans (latchedWrites s) s).mem := by
  simp [resetEngine, h]

/-- Settles O16: reset ends in the reset registers, after the write ranges of the command at DP, if it has any. -/
theorem resetAbandonsRun : Obligations.ResetAbandonsRun := by
  intro s v more hbusy hreset
  have hmem := resetEngine_mem_of_busy (s := { s with inputs := more }) hbusy
  refine ⟨_, step_reset hreset, rfl, rfl, rfl, fun o => registerValue_resetRegisters _ o, ?_, fun hbad => ?_⟩
  · intro i hfetch hcheck a ha
    rw [hmem, latchedWrites_of_fetch ((fetchCommand_withInputs s more).trans hfetch), writeSpans, instrPlan_withInputs,
      if_pos hcheck]
    refine havocSpans_read_outside fun sp hsp => (contains_eq_false_iff sp a).mpr ?_
    have := ha sp hsp
    omega
  · rw [hmem]
    cases hfetch : fetchCommand s with
    | error e => rw [latchedWrites_of_error ((fetchCommand_withInputs s more).trans hfetch)]; rfl
    | ok i =>
      rw [latchedWrites_of_fetch ((fetchCommand_withInputs s more).trans hfetch), instrPlan_withInputs,
        if_neg (hbad i hfetch)]
      rfl

end Sys2Proof.Machine

/-! SUPPORT. The checks of a command in their order: each stage of `Plan.check`, in the words of the statements. -/

namespace Sys2Proof.Machine

/-! ### What each check looks at (60_exceptions.md R320, 20_memory.md R64, R68) -/

theorem compatible_iff (x y : OperandRange) : x.compatible y = true ↔ MayStandTogether x y := by
  simp only [OperandRange.compatible, MayStandTogether, Bool.or_eq_true, Bool.and_eq_true, beq_iff_eq, disjoint_iff,
    or_assoc]

theorem pairwiseCompatible_iff_mayStandTogether (rs : List OperandRange) :
    pairwiseCompatible rs = true ↔ rs.Pairwise MayStandTogether := by
  simp only [pairwiseCompatible_iff, compatible_iff]

theorem any_wraps_iff (rs : List OperandRange) :
    rs.any (fun r => r.span.wraps) = true ↔ ∃ r ∈ rs, 4294967296 < r.span.addr + r.span.len := by
  simp only [List.any_eq_true, Span.wraps, Span.limit, addressCount, decide_eq_true_eq]

/-- A range that `firstUnadmitted` passes over. -/
theorem admittedOrCursor_iff (p : Platform) (r : OperandRange) :
    AdmittedOrCursor p r ↔ (r.word != 0 && !p.admitsSpan r.span) = false := by
  have hadmits : p.admitsSpan r.span = true ↔ _ := admissionIsPerByte p r.span
  simp only [AdmittedOrCursor, ← hadmits, Bool.and_eq_false_iff, bne_eq_false_iff_eq, Bool.not_eq_false']

/-- The first range that is not admitted is the one reported. -/
theorem firstUnadmitted_of_first {p : Platform} {before after : List OperandRange} {r : OperandRange}
    (hbefore : ∀ x ∈ before, AdmittedOrCursor p x) (hr : ¬ AdmittedOrCursor p r) :
    firstUnadmitted p (before ++ r :: after) = some r.word := by
  induction before with
  | nil => exact if_pos (Bool.not_eq_false _ ▸ (admittedOrCursor_iff p r).not.mp hr)
  | cons x before ih =>
    obtain ⟨hx, hbefore⟩ := List.forall_mem_cons.mp hbefore
    refine (if_neg ?_).trans (ih hbefore)
    rw [(admittedOrCursor_iff p x).mp hx]
    exact Bool.false_ne_true

theorem firstUnadmitted_of_all {p : Platform} {rs : List OperandRange} (h : ∀ r ∈ rs, AdmittedOrCursor p r) :
    firstUnadmitted p rs = none :=
  firstUnadmitted_none.mpr fun r hr hword =>
    (admissionIsPerByte p r.span).mpr ((h r hr).resolve_left hword)

/-! ### The stages of the check, in order (60_exceptions.md R320 steps 2 to 5) -/

section
variable {p : Plan} {platform : Platform}

theorem check_of_badValues (h : p.values = false) : p.check platform = some (invalidParameter 1) := by
  simp [Plan.check, h]

theorem check_of_wrap (hvalues : p.values = true) (h : ∃ r ∈ p.ranges, 4294967296 < r.span.addr + r.span.len) :
    p.check platform = some (invalidParameter 2) := by
  rw [Plan.check, hvalues, if_neg (by decide), if_pos ((any_wraps_iff _).mpr h)]

/-- Without a wrap the overlap of the ranges decides, and then the first range that is not admitted. -/
theorem check_of_noWrap (hvalues : p.values = true)
    (hwrap : ∀ r ∈ p.ranges, r.span.addr + r.span.len ≤ 4294967296) : p.check platform =
      if !pairwiseCompatible p.ranges then some (invalidParameter 3)
      else (firstUnadmitted platform p.ranges).map fun word => { code := .busError, info := word } := by
  have hnone : ¬ p.ranges.any (fun r => r.span.wraps) = true := by
    rw [any_wraps_iff]
    rintro ⟨r, hr, hlt⟩
    exact (hwrap r hr).not_gt hlt
  rw [Plan.check, hvalues, if_neg (by decide), if_neg hnone]
  cases firstUnadmitted platform p.ranges <;> rfl

variable (hvalues : p.values = true) (hwrap : ∀ r ∈ p.ranges, r.span.addr + r.span.len ≤ 4294967296)
include hvalues hwrap

theorem check_of_overlap (h : ¬ p.ranges.Pairwise MayStandTogether) :
    p.check platform = some (invalidParameter 3) := by
  rw [← pairwiseCompatible_iff_mayStandTogether] at h
  rw [check_of_noWrap hvalues hwrap, if_pos (by simpa using h)]

variable (hapart : p.ranges.Pairwise MayStandTogether)
include hapart

theorem check_of_apart :
    p.check platform = (firstUnadmitted platform p.ranges).map fun word => { code := .busError, info := word } := by
  rw [← pairwiseCompatible_iff_mayStandTogether] at hapart
  rw [check_of_noWrap hvalues hwrap, if_neg (by simpa using hapart)]

theorem check_of_firstUnadmitted (before : List OperandRange) (r : OperandRange) (after : List OperandRange)
    (heq : p.ranges = before ++ r :: after) (hbefore : ∀ x ∈ before, AdmittedOrCursor platform x)
    (hr : ¬ AdmittedOrCursor platform r) : p.check platform = some { code := .busError, info := r.word } := by
  rw [check_of_apart hvalues hwrap hapart, heq, firstUnadmitted_of_first hbefore hr]
  rfl

theorem check_of_allAdmitted (hall : ∀ r ∈ p.ranges, AdmittedOrCursor platform r) : p.check platform = none := by
  rw [check_of_apart hvalues hwrap hapart, firstUnadmitted_of_all hall]
  rfl

end

/-- A command's checks name the error that it stops with. -/
theorem exec_of_check_some {i : Instr} {s : State} {e : EngineError} (h : (instrPlan i s).check s.platform = some e) :
    exec i s = .next (errorStop e s) := by
  obtain ⟨t, ht⟩ := exec_next i s
  rcases exec_cases ht with ⟨e', he', rfl⟩ | ⟨hnone, -⟩
  · rw [h] at he'
    rw [ht, Option.some.inj he']
  · rw [h] at hnone
    cases hnone

/-- Settles O8: a plan's check goes through its stages, and a command's plan has its rule's values and ranges. -/
theorem checksInOrder : Obligations.ChecksInOrder := by
  refine ⟨fun p platform => ⟨check_of_badValues, check_of_wrap, check_of_overlap, fun hvalues hwrap hapart =>
    ⟨check_of_firstUnadmitted hvalues hwrap hapart, check_of_allAdmitted hvalues hwrap hapart⟩⟩, fun i s => ?_⟩
  simp only [← instrPlan_values_iff i s, ← instrPlan_ranges i s, Bool.not_eq_true]
  refine ⟨fun hvalues => ?_, fun hvalues hwrap => ?_, fun hvalues hwrap hoverlap => ?_, fun hvalues hwrap hapart =>
    ⟨fun before r after heq hbefore hr => ?_, check_of_allAdmitted hvalues hwrap hapart⟩⟩
  · exact exec_of_check_some (check_of_badValues hvalues)
  · exact exec_of_check_some (check_of_wrap hvalues hwrap)
  · exact exec_of_check_some (check_of_overlap hvalues hwrap hoverlap)
  · exact exec_of_check_some (check_of_firstUnadmitted hvalues hwrap hapart before r after heq hbefore hr)

end Sys2Proof.Machine

/-! SUPPORT. The errors a reading can come to, by their codes: those of the block reader and of the stream decoder. -/

namespace Sys2Proof.Machine

/-! ### The codes of a reading's errors -/

/-- Every error of the reading has one of the codes. -/
def Reading.Raises {α : Type} (R : Reading α) (codes : List ErrorCode) : Prop :=
  ∀ pos bits e, R pos bits (.error e) → e.code ∈ codes

section
variable {α β : Type} {codes : List ErrorCode}

theorem Reading.Raises.andThen {R : Reading α} {S : α → Reading β} (hR : R.Raises codes)
    (hS : ∀ x, (S x).Raises codes) : (R.andThen S).Raises codes := by
  rintro pos bits e (⟨e', hfirst, he⟩ | ⟨x, pos', rest, -, hnext⟩)
  · cases he
    exact hR pos bits e hfirst
  · exact hS x pos' rest e hnext

/-- An error that the first of two readings does not raise comes from the second. -/
theorem Reading.Raises.second {R : Reading α} {S : α → Reading β} (hR : R.Raises codes) {pos : Nat} {bits : List Bool}
    {e : EngineError} (he : e.code ∉ codes) (h : (R.andThen S) pos bits (.error e)) :
    ∃ x pos' rest, R pos bits (.ok (x, pos', rest)) ∧ S x pos' rest (.error e) := by
  rcases h with ⟨e', hfirst, heq⟩ | hsecond
  · cases heq
    exact absurd (hR pos bits e hfirst) he
  · exact hsecond

theorem result_raises (x : α) : (result x).Raises codes := by
  rintro pos bits e h
  cases h

theorem checked_raises {P : Prop} {e : EngineError} (h : e.code ∈ codes) : (checked P e).Raises codes := by
  rintro pos bits e' (⟨-, he⟩ | ⟨-, he⟩) <;> cases he
  exact h

theorem fieldOf_raises (n : Nat) (h : .truncatedInput ∈ codes) : (fieldOf n).Raises codes := by
  rintro pos bits e (⟨v, rest, -, -, he⟩ | ⟨-, he⟩) <;> cases he
  exact h

theorem bitwise_raises {full : α → List Bool → Prop} {bad : EngineError → List Bool → Prop}
    (h : .truncatedInput ∈ codes) (hbad : ∀ e bits, bad e bits → e.code ∈ codes) : (bitwise full bad).Raises codes := by
  rintro pos bits e (⟨x, read, rest, -, -, he⟩ | ⟨e', read, rest, hb, -, he⟩ | ⟨-, he⟩) <;> cases he
  · exact hbad e read hb
  · exact h

end

/-! ### The block reader (47_block_stream.md R271, R276) -/

/-- The codes that the part of a block after its randomized bit can raise (47_block_stream.md R276). -/
def blockCodes : List ErrorCode :=
  [.truncatedInput, .formatError, .huffmanOverflow, .invalidHuffmanCode, .invalidOriginPointer, .outputBufferTooSmall]

theorem lengthsOf_raises (a : Nat) : (lengthsOf a).Raises blockCodes := by
  refine (fieldOf_raises 5 (by decide)).andThen fun start => bitwise_raises (by decide) ?_
  rintro e bits ⟨lens, before, steps, l, -, -, -, -, -, rfl⟩
  exact (by decide : ErrorCode.huffmanOverflow ∈ blockCodes)

theorem tablesOf_raises (a n : Nat) : (tablesOf a n).Raises blockCodes := by
  induction n with
  | zero => exact result_raises []
  | succ n ih =>
    exact (lengthsOf_raises a).andThen fun lens => (checked_raises (by decide)).andThen fun _ =>
      ih.andThen fun more => result_raises _

theorem isHufDec_raises (lens : List (List Nat)) (sel : List Nat) (eob : Nat) (takes : List Nat → Prop)
    {refusal : EngineError} (h : refusal.code ∈ blockCodes) :
    Reading.Raises (IsHufDec lens sel eob takes refusal) blockCodes := by
  intro pos bits e hend
  cases hend with
  | refused _ _ _ => exact h
  | exhausted _ _ => exact (by decide : ErrorCode.formatError ∈ blockCodes)
  | noCode _ _ _ => exact (by decide : ErrorCode.invalidHuffmanCode ∈ blockCodes)
  | short _ _ _ => exact (by decide : ErrorCode.truncatedInput ∈ blockCodes)

/-- The reading of a block is its CRC, its randomized bit with the check of it, and a rest that the bit has no part in. -/
theorem blockOf_eq (k cap : Nat) : ∃ body : Nat → Reading BlockRead, (∀ crc, (body crc).Raises blockCodes) ∧
    blockOf k cap = (fieldOf 32).andThen fun crc => (fieldOf 1).andThen fun randomized =>
      (checked (randomized = 0) { code := .unsupportedLegacyFeature }).andThen fun _ => body crc := by
  refine ⟨_, fun crc => ?_, rfl⟩
  refine (fieldOf_raises 24 (by decide)).andThen fun origPtr =>
    (bitwise_raises (by decide) fun _ _ h => h.elim).andThen fun used => (checked_raises (by decide)).andThen fun _ =>
    (fieldOf_raises 3 (by decide)).andThen fun nGroups => (checked_raises (by decide)).andThen fun _ =>
    (fieldOf_raises 15 (by decide)).andThen fun nSel => (checked_raises (by decide)).andThen fun _ =>
    (bitwise_raises (by decide) ?_).andThen fun sel => (tablesOf_raises _ _).andThen fun lens =>
    Reading.Raises.andThen (isHufDec_raises _ _ _ _ (by decide)) fun syms => ?_
  · rintro e bits ⟨_, -, -, -, rfl⟩
    exact (by decide : ErrorCode.formatError ∈ blockCodes)
  · rintro pos bits e ⟨last, -, -, h⟩
    refine Reading.Raises.andThen (checked_raises (by decide)) (fun _ => (checked_raises (by decide)).andThen
      fun _ => ?_) pos bits e h
    rintro pos bits e ⟨block, -, he⟩
    cases he

/-- The codes of the block reader's errors. -/
theorem blockOrFooter_raises (k cap : Nat) :
    (blockOrFooter k cap).Raises (.unsupportedLegacyFeature :: blockCodes) := by
  obtain ⟨body, hbody, heq⟩ := blockOf_eq k cap
  refine (fieldOf_raises 48 (by decide)).andThen fun magic => ?_
  rintro pos bits e (⟨-, h⟩ | ⟨-, h⟩)
  · exact (fieldOf_raises 32 (by decide)).andThen (fun _ => result_raises _) pos bits e h
  · rw [heq] at h
    exact (checked_raises (by decide)).andThen (fun _ => (fieldOf_raises 32 (by decide)).andThen fun crc =>
      (fieldOf_raises 1 (by decide)).andThen fun _ => (checked_raises (by decide)).andThen fun _ pos bits e h =>
      List.mem_cons_of_mem _ (hbody crc pos bits e h)) pos bits e h

theorem readBlock_error_code {r : BitReader} {k cap : Nat} {e : EngineError} (h : readBlock r k cap = .error e) :
    e.code ∈ .unsupportedLegacyFeature :: blockCodes :=
  blockOrFooter_raises k cap _ _ e ((agrees_readBlock k cap r _).mp (outcome_eq_error.mpr h))

/-! ### The randomized bit (60_exceptions.md R305) -/

/-- A field reads the number whose bits stand there. -/
theorem fieldOf_append (pos : Nat) (hd tl : List Bool) :
    fieldOf hd.length pos (hd ++ tl) (.ok (bitsValue 0 hd, pos + hd.length, tl)) :=
  (agrees_field hd.length ⟨pos, hd ++ tl⟩ _).mp (congrArg outcome (readBits_append pos hd tl))

theorem fieldOf_ok {n pos v pos' : Nat} {bits rest : List Bool} (h : fieldOf n pos bits (.ok (v, pos', rest))) :
    v < 2 ^ n ∧ bits = bitsMSB v n ++ rest := by
  rcases h with ⟨v', rest', hlt, hbits, hout⟩ | ⟨-, hout⟩ <;> cases hout
  exact ⟨hlt, hbits⟩

theorem checked_ok {P : Prop} {e : EngineError} {pos pos' : Nat} {bits rest : List Bool} {u : Unit}
    (h : checked P e pos bits (.ok (u, pos', rest))) : P ∧ rest = bits := by
  rcases h with ⟨hP, hout⟩ | ⟨-, hout⟩ <;> cases hout
  exact ⟨hP, rfl⟩

/-- A CRC and a 1 stop the reading of a block, whatever follows. -/
theorem blockOf_of_randomized (k cap pos : Nat) {crc : List Bool} (hlen : crc.length = 32) (more : List Bool) :
    blockOf k cap pos (crc ++ true :: more) (.error { code := .unsupportedLegacyFeature }) := by
  obtain ⟨body, -, heq⟩ := blockOf_eq k cap
  have hcrc := fieldOf_append pos crc (true :: more)
  rw [hlen] at hcrc
  rw [heq]
  exact .inr ⟨_, _, _, hcrc, .inr ⟨1, _, _, fieldOf_append _ [true] more, .inl ⟨_, .inr ⟨one_ne_zero, rfl⟩, rfl⟩⟩⟩

/-- The reading of a block raises UNSUPPORTED_LEGACY_FEATURE at the randomized bit only. -/
theorem randomized_of_blockOf {k cap pos : Nat} {bits : List Bool} {e : EngineError}
    (h : blockOf k cap pos bits (.error e)) (he : e.code = .unsupportedLegacyFeature) :
    ∃ crc more : List Bool, crc.length = 32 ∧ bits = crc ++ true :: more := by
  obtain ⟨body, hbody, heq⟩ := blockOf_eq k cap
  have hother : e.code ∉ blockCodes := by rw [he]; decide
  rw [heq] at h
  obtain ⟨crc, pos₁, rest₁, hcrc, hfrom⟩ := (fieldOf_raises 32 (by decide)).second hother h
  obtain ⟨randomized, pos₂, rest₂, hbit, hend⟩ := (fieldOf_raises 1 (by decide)).second hother hfrom
  obtain ⟨-, rfl⟩ := fieldOf_ok hcrc
  obtain ⟨hlt, rfl⟩ := fieldOf_ok hbit
  refine ⟨bitsMSB crc 32, rest₂, bitsMSB_length .., ?_⟩
  have hset : randomized ≠ 0 := by
    rintro rfl
    rcases hend with ⟨e', ⟨-, hok⟩ | ⟨hset, -⟩, -⟩ | ⟨_, pos₃, rest₃, -, hrest⟩
    · cases hok
    · exact hset rfl
    · exact hother (hbody crc pos₃ rest₃ e hrest)
  obtain rfl : randomized = 1 := by omega
  rfl

/-- The error of a randomized block passes through the reader of blocks and footers, and is raised nowhere else there. -/
theorem blockOrFooter_unsupported_iff (k cap pos : Nat) (bits : List Bool) :
    (∃ e, blockOrFooter k cap pos bits (.error e) ∧ e.code = .unsupportedLegacyFeature) ↔
    ∃ crc more : List Bool, crc.length = 32 ∧ bits = bitsMSB Config.blockMagic 48 ++ crc ++ true :: more := by
  constructor
  · rintro ⟨e, h, he⟩
    have hother : e.code ∉ blockCodes := by rw [he]; decide
    obtain ⟨magic, pos₁, rest₁, hmagic, ⟨-, h⟩ | ⟨-, h⟩⟩ := (fieldOf_raises 48 (by decide)).second hother h
    · obtain ⟨combined, pos₂, rest₂, -, hresult⟩ := (fieldOf_raises 32 (by decide)).second hother h
      cases hresult
    · obtain ⟨_, pos₂, rest₂, hcheck, hblock⟩ := (checked_raises (by decide)).second hother h
      obtain ⟨rfl, rfl⟩ := checked_ok hcheck
      obtain ⟨crc, more, hlen, rfl⟩ := randomized_of_blockOf hblock he
      exact ⟨crc, more, hlen, by rw [List.append_assoc]; exact (fieldOf_ok hmagic).2⟩
  · rintro ⟨crc, more, hlen, rfl⟩
    refine ⟨{ code := .unsupportedLegacyFeature }, ?_, rfl⟩
    have hmagic := fieldOf_append pos (bitsMSB Config.blockMagic 48) (crc ++ true :: more)
    rw [bitsValue_bitsMSB (by decide), bitsMSB_length] at hmagic
    rw [List.append_assoc]
    exact .inr ⟨_, _, _, hmagic, .inr ⟨by decide, .inr ⟨(), _, _, .inl ⟨rfl, rfl⟩,
      blockOf_of_randomized k cap _ hlen more⟩⟩⟩

/-- Settles O55: the block reader is the reading of R271, in which only the randomized bit raises this code. -/
theorem randomizedBlockRefused : Obligations.RandomizedBlockRefused := by
  intro r k cap
  have hmagic : (List.range 48).map (fun j => (0x314159265359 : Nat).testBit (47 - j)) =
      bitsMSB Config.blockMagic 48 := by decide
  have herror (e : EngineError) : readBlock r k cap = .error e ↔ blockOrFooter k cap r.pos r.rest (.error e) :=
    outcome_eq_error.symm.trans (agrees_readBlock k cap r _)
  simp only [hmagic, herror]
  exact blockOrFooter_unsupported_iff k cap r.pos r.rest

/-! ### The stream decoder (60_exceptions.md R306) -/

/-- The codes of the stream decoder's errors: the block reader's and those of the block loop. -/
def streamCodes : List ErrorCode :=
  .malformedRunLength :: .checksumMismatch :: .unsupportedLegacyFeature :: blockCodes

theorem headerOf_raises : headerOf.Raises streamCodes := by
  have hfield : (fieldOf 8).Raises streamCodes := fieldOf_raises 8 (by decide)
  have hcheck {P : Prop} : (checked P (formatError 1)).Raises streamCodes := checked_raises (by decide)
  exact hfield.andThen fun _ => hcheck.andThen fun _ => hfield.andThen fun _ => hcheck.andThen fun _ =>
    hfield.andThen fun _ => hcheck.andThen fun _ => hfield.andThen fun _ => hcheck.andThen fun _ => result_raises _

theorem IsBlockLoop.error_code {k cap pos pos' : Nat} {o o' : StreamOut} {bits : List Bool} {e : EngineError}
    (h : IsBlockLoop k cap o pos bits (.failed e o' pos')) : e.code ∈ streamCodes := by
  generalize hout : StreamEnd.failed e o' pos' = out at h
  induction h with
  | readError o pos bits e hread =>
    cases hout
    exact List.mem_cons_of_mem _ (List.mem_cons_of_mem _ (blockOrFooter_raises _ _ _ _ _ hread))
  | footer => cases hout
  | block _ _ _ _ _ _ _ _ _ _ _ _ _ _ ih => exact ih hout
  | footerMismatch | crcMismatch => cases hout; exact (by decide : ErrorCode.checksumMismatch ∈ streamCodes)
  | runError => cases hout; exact (by decide : ErrorCode.malformedRunLength ∈ streamCodes)
  | noRoom => cases hout; exact (by decide : ErrorCode.outputBufferTooSmall ∈ streamCodes)

theorem decodeStream_error_code {bytes : List Byte} {cap pos : Nat} {o : StreamOut} {e : EngineError}
    (h : decodeStream bytes cap = .failed e o pos) : e.code ∈ streamCodes := by
  rcases decodeStream_eq_iff.mp h with ⟨e', hheader, heq⟩ | ⟨k, pos', rest, -, hloop⟩
  · cases heq
    exact headerOf_raises _ _ _ hheader
  · exact hloop.error_code

/-- Settles O56: INVALID_SYMBOL is not among the codes of either decoder. -/
theorem noInvalidSymbolInBlocks : Obligations.NoInvalidSymbolInBlocks := by
  refine ⟨fun r k cap e h hcode => ?_, fun bytes cap e o pos h hcode => ?_⟩
  · have hmem := readBlock_error_code h
    rw [hcode] at hmem
    exact absurd hmem (by decide)
  · have hmem := decodeStream_error_code h
    rw [hcode] at hmem
    exact absurd hmem (by decide)

end Sys2Proof.Machine

/-! SUPPORT. How a command whose checks hold ends: completed, or stopped by an error of its execution, and what an error
stop keeps. -/

namespace Sys2Proof.Machine

/-! ### The codes of errors in execution (60_exceptions.md R300) -/

/-- The code is one that a command can raise past its checks: neither of the fetch nor of an unadmitted range. -/
abbrev ErrorCode.InExecution (c : ErrorCode) : Prop := 2 ≤ c.number.toNat ∧ c.number.toNat ≤ 12

theorem writeAll_error {w : BitSink} {bits : List Bool} {e : EngineError} (h : w.writeAll bits = .error e) :
    e = outputTooSmall := by
  induction bits generalizing w with
  | nil => cases h
  | cons b bits ih =>
    simp only [BitSink.writeAll] at h
    split at h
    · exact ih h
    · rename_i e' hbit
      cases h
      simp only [BitSink.writeBit] at hbit
      split_ifs at hbit
      cases hbit
      rfl

theorem packStream_error {cap : Nat} {bits : List Bool} {e : EngineError} (h : packStream cap bits = .error e) :
    e = outputTooSmall := by
  rcases packStream_cases cap bits with ⟨-, out, hout, -⟩ | ⟨-, hout⟩ <;> rw [hout] at h <;> cases h
  rfl

theorem checkTable_error {lens : List Nat} {e : EngineError} (h : checkTable lens = some e) :
    e.code.InExecution := by
  unfold checkTable at h
  split_ifs at h
  · cases h; exact (by decide : ErrorCode.InExecution .huffmanOverflow)
  · cases h; exact (by decide : ErrorCode.InExecution .invalidHuffmanCode)

theorem checkTables_error {lens : List (List Nat)} {e : EngineError} (h : checkTables lens = some e) :
    e.code.InExecution := by
  induction lens with
  | nil => cases h
  | cons t ts ih =>
    simp only [checkTables] at h
    split at h
    · cases h
      exact checkTable_error (by assumption)
    · exact ih h

theorem checkSelectors_error {g : Nat} {sel : List Nat} {e : EngineError} (h : checkSelectors g sel = some e) :
    e.code.InExecution := by
  unfold checkSelectors at h
  split_ifs at h
  cases h
  exact (by decide : ErrorCode.InExecution .invalidParameter)

theorem checkHufEnc_error {g a : Nat} {lens : List (List Nat)} {sel syms : List Nat} {e : EngineError}
    (h : checkHufEnc g a lens sel syms = some e) : e.code.InExecution := by
  unfold checkHufEnc at h
  split at h
  · cases h
    exact checkTables_error (by assumption)
  · split at h
    · cases h
      exact checkSelectors_error (by assumption)
    · split_ifs at h
      cases h
      exact (by decide : ErrorCode.InExecution .invalidSymbol)

theorem readBits_error {r : BitReader} {n : Nat} {e : EngineError} (h : r.readBits n = .error e) :
    e = truncatedInput r.pos := by
  rcases readBits_cases r n with ⟨hd, tl, -, -, he⟩ | ⟨-, he⟩ <;> rw [he] at h <;> cases h
  rfl

theorem hufSymFrom_error {t : CodeTable} {fuel l v : Nat} {r : BitReader} {e : EngineError}
    (h : hufSymFrom t fuel l v r = .error e) : e.code.InExecution := by
  induction fuel generalizing l v r with
  | zero => cases h; exact (by decide : ErrorCode.InExecution .invalidHuffmanCode)
  | succ fuel ih =>
    simp only [hufSymFrom] at h
    split at h
    · rename_i hbit
      cases h
      rw [readBits_error hbit]
      exact (by decide : ErrorCode.InExecution .truncatedInput)
    · split at h
      · cases h
      · exact ih h

section
variable {σ : Type} {emit : σ → Nat → Except EngineError σ}
  (hemit : ∀ st x e, emit st x = .error e → e.code.InExecution)
include hemit

theorem hufGroup_error {eob : Nat} {t : CodeTable} {n : Nat} {st : σ} {r : BitReader} {e : EngineError}
    (h : hufGroup emit eob t n st r = .error e) : e.code.InExecution := by
  induction n generalizing st r with
  | zero => cases h
  | succ n ih =>
    simp only [hufGroup] at h
    split at h
    · cases h
      exact hufSymFrom_error (by assumption)
    · split at h
      · cases h
        exact hemit _ _ _ (by assumption)
      · split_ifs at h
        exact ih h

theorem hufDec_error {eob : Nat} {tables : List CodeTable} {sel : List Nat} {st : σ} {r : BitReader} {e : EngineError}
    (h : hufDec emit eob tables sel st r = .error e) : e.code.InExecution := by
  induction sel generalizing st r with
  | nil => cases h; exact (by decide : ErrorCode.InExecution .formatError)
  | cons t sel ih =>
    simp only [hufDec] at h
    split at h
    · cases h
      exact hufGroup_error hemit (by assumption)
    · cases h
    · exact ih h

end

theorem hufDecode_error {g cap eob : Nat} {lens : List (List Nat)} {sel : List Nat} {r : BitReader} {e : EngineError}
    (h : hufDecode g cap eob lens sel r = .error e) : e.code.InExecution := by
  unfold hufDecode at h
  split at h
  · cases h
    exact checkTables_error (by assumption)
  split at h
  · cases h
    exact checkSelectors_error (by assumption)
  split at h <;> cases h
  refine hufDec_error (fun st x e he => ?_) (by assumption)
  unfold storeSymbol at he
  split_ifs at he
  cases he
  exact (by decide : ErrorCode.InExecution .outputBufferTooSmall)

theorem mtfStep_error {eob lim : Nat} {limitError : EngineError} (hlimit : limitError.code.InExecution) {d : MtfState}
    {sym : Nat} {e : EngineError} (h : mtfStep eob lim limitError d sym = .error e) : e.code.InExecution := by
  have hsymbol : ErrorCode.InExecution .invalidSymbol := by decide
  unfold mtfStep at h
  dsimp only at h
  split at h
  · cases h; exact hsymbol
  split at h
  · split_ifs at h
    cases h; exact hlimit
  split at h
  · cases h
  split at h
  · cases h; exact hsymbol
  · split_ifs at h
    cases h; exact hlimit

theorem mtfDecFrom_error {eob lim : Nat} {limitError : EngineError} (hlimit : limitError.code.InExecution) {k : Nat}
    {d : MtfState} {syms : List Nat} {e : EngineError} (h : mtfDecFrom eob lim limitError k d syms = .error e) :
    e.code.InExecution := by
  induction syms generalizing k d with
  | nil => cases h; exact (by decide : ErrorCode.InExecution .formatError)
  | cons sym syms ih =>
    simp only [mtfDecFrom] at h
    split at h
    · cases h
      exact mtfStep_error hlimit (by assumption)
    · split_ifs at h
      exact ih h

theorem mtfDecode_error {syms : List Nat} {map : List Byte} {cap : Nat} {e : EngineError}
    (h : mtfDecode syms map cap = .error e) : e.code.InExecution := by
  unfold mtfDecode mtfDec at h
  split_ifs at h
  · cases h; exact (by decide : ErrorCode.InExecution .formatError)
  · split at h <;> cases h
    exact mtfDecFrom_error (limitError := outputTooSmall) (by decide) (by assumption)

theorem rle1Dec_error {bytes : List Byte} {e : EngineError} (h : rle1Dec bytes = .error e) : e.code.InExecution := by
  rw [rle1Dec_eq_rle1Vars] at h
  split_ifs at h
  cases h
  exact (by decide : ErrorCode.InExecution .malformedRunLength)

theorem inExecution_of_streamCodes : ∀ c ∈ streamCodes, c.InExecution := by decide

theorem readBlock_error {r : BitReader} {k cap : Nat} {e : EngineError} (h : readBlock r k cap = .error e) :
    e.code.InExecution :=
  inExecution_of_streamCodes _ (List.mem_cons_of_mem _ (List.mem_cons_of_mem _ (readBlock_error_code h)))

/-! ### Completed or failed (60_exceptions.md R310, R321) -/

/-- `t` is an error stop of a command's execution begun in `s`: it has recorded an error of those past the checks, and the
cursors keep their bases and bounds. -/
structure FailedInExecution (s t : State) : Prop where
  stopped : ∃ e : EngineError, e.code.InExecution ∧
    Stopped s t e.code.number (BitVec.ofNat 32 e.info) (BitVec.ofNat 32 e.pos)
  writer : t.bw.base = s.bw.base ∧ t.bw.cap = s.bw.cap
  reader : t.br.base = s.br.base ∧ t.br.len = s.br.len

/-- `t` is how a command begun in `s` can end past its checks. -/
def EndsCommand (s t : State) : Prop := (∃ dp', Completed s t dp') ∨ FailedInExecution s t

theorem finish_endsCommand (wr : Option Word) {s u : State} {r : Results} {w : WriterRegs} {b : ReaderRegs} {m : Memory}
    (h : u = { s with results := r, bw := w, br := b, mem := m }) : EndsCommand s (finish wr u) :=
  .inl ⟨_, (finish_completedNext wr h).common⟩

theorem failSpans_endsCommand (spans : List Span) {e : EngineError} {s u : State} {r : Results} {m : Memory}
    (he : e.code.InExecution) (h : u = { s with results := r, mem := m }) : EndsCommand s (failSpans spans e u) := by
  subst h
  have hfailed := failSpans_failedWith spans e { s with results := r, mem := m }
  obtain ⟨hcode, hinfo, hpos, herr, hbusy, hdone, hdp, hcount⟩ := hfailed.stopped
  exact .inr ⟨⟨e, he, hcode, hinfo, hpos, herr, hbusy, hdone, hdp, hcount⟩, by simp, by simp⟩

theorem errorStop_endsCommand {e : EngineError} {s : State} (he : e.code.InExecution) : EndsCommand s (errorStop e s) :=
  failSpans_endsCommand [] he rfl

theorem failAppend_endsCommand {e : EngineError} {s : State} (he : e = outputTooSmall) :
    EndsCommand s (failAppend s.bw.freeSpan e s) := by
  subst he
  have hfailed := failAppend_failedAppend s
  exact .inr ⟨⟨outputTooSmall, by decide, hfailed.stopped⟩, ⟨hfailed.base, hfailed.cap⟩, by simp⟩

theorem failRead_endsCommand (dst : Span) {e : EngineError} {s : State} (he : e.code.InExecution) :
    EndsCommand s (failRead dst e s) := by
  have hfailed := failRead_failedRead s dst e
  exact .inr ⟨⟨e, he, hfailed.stopped⟩, by simp, ⟨hfailed.base, hfailed.len⟩⟩

theorem finishBytes_endsCommand (dst cap : Word) (out : List Byte) (wr : Option Word) (s : State) :
    EndsCommand s (finishBytes dst cap out wr s) := by
  unfold finishBytes
  split
  · exact finish_endsCommand wr rfl
  · exact failSpans_endsCommand _ (by decide) rfl

/-- A command whose checks hold ends as its body does. -/
theorem guarded_endsCommand {pl : Plan} {wr : Option Word} {body : State → State} {s t : State}
    (hc : (pl.withResults wr).check s.platform = none) (h : guarded pl wr body s = .next t)
    (hbody : EndsCommand s (body s)) : EndsCommand s t := by
  rw [guarded_of_none hc] at h
  cases h
  exact hbody

/-- A command whose checks hold completes or fails with one of the errors of its execution. -/
theorem exec_endsCommand {i : Instr} {s t : State} (hc : (instrPlan i s).check s.platform = none)
    (h : exec i s = .next t) : EndsCommand s t := by
  cases i with (simp only [exec] at h; refine guarded_endsCommand hc h ?_)
  | nop | bwInit | brInit | crc32 | crcCombine | hufLen => exact finish_endsCommand _ rfl
  | endRun wr => exact .inl ⟨s.dp, by constructor <;> simp⟩
  | jump target wr => exact .inl ⟨target, by constructor <;> simp⟩
  | bwBits | bwFlush =>
    split
    · exact finish_endsCommand _ rfl
    · exact failAppend_endsCommand (writeAll_error (by assumption))
  | blkEnc =>
    dsimp only
    split
    · exact finish_endsCommand _ rfl
    · exact failAppend_endsCommand (writeAll_error (by assumption))
  | brBits =>
    dsimp only
    split
    · exact finish_endsCommand _ rfl
    · exact errorStop_endsCommand (by decide : ErrorCode.InExecution .truncatedInput)
  | rle1Enc => exact finishBytes_endsCommand _ _ _ _ _
  | rle1Dec =>
    split
    · exact finishBytes_endsCommand _ _ _ _ _
    · exact failSpans_endsCommand _ (rle1Dec_error (by assumption)) rfl
  | bwtFwd => exact .inl ⟨_, (finish_completedNext_array ..).common⟩
  | bwtInv =>
    split
    · exact .inl ⟨_, (finish_completedNext_array ..).common⟩
    · exact errorStop_endsCommand (by decide)
  | mtfEnc =>
    dsimp only
    split
    · exact finish_endsCommand _ rfl
    · exact failSpans_endsCommand _ (by decide) rfl
  | mtfDec =>
    split
    · exact finish_endsCommand _ rfl
    · exact failSpans_endsCommand _ (mtfDecode_error (by assumption)) rfl
  | hufCodes =>
    dsimp only
    split
    · exact finish_endsCommand _ rfl
    · exact failSpans_endsCommand _ (checkTable_error (by assumption)) rfl
  | hufEnc =>
    dsimp only
    split
    · exact errorStop_endsCommand (checkHufEnc_error (by assumption))
    · split
      · exact finish_endsCommand _ rfl
      · exact failAppend_endsCommand (writeAll_error (by assumption))
  | hufDec =>
    split
    · exact finish_endsCommand _ rfl
    · exact failRead_endsCommand _ (hufDecode_error (by assumption))
  | blkDec =>
    split
    · exact finish_endsCommand _ rfl
    · exact finish_endsCommand _ rfl
    · exact failRead_endsCommand _ (readBlock_error (by assumption))
  | streamEnc =>
    dsimp only
    split
    · exact finish_endsCommand _ rfl
    · rename_i hpack
      exact failSpans_endsCommand _ (packStream_error hpack ▸ by decide) rfl
  | streamDec =>
    split
    · exact finish_endsCommand _ rfl
    · rename_i hdec
      have hcode := inExecution_of_streamCodes _ (decodeStream_error_code hdec)
      split
      · exact failSpans_endsCommand _ hcode rfl
      · exact failSpans_endsCommand _ hcode rfl

/-! ### The error a failing check names (60_exceptions.md R301, R320) -/

theorem firstUnadmitted_some {p : Platform} {rs : List OperandRange} {word : Nat}
    (h : firstUnadmitted p rs = some word) : ∃ r ∈ rs, r.word ≠ 0 ∧ r.word = word := by
  induction rs with
  | nil => cases h
  | cons r rs ih =>
    simp only [firstUnadmitted] at h
    split at h
    case isTrue hbad =>
      cases h
      exact ⟨r, List.mem_cons_self, by simpa using (Bool.and_eq_true_iff.mp hbad).1, rfl⟩
    case isFalse =>
      obtain ⟨r', hr', hword⟩ := ih h
      exact ⟨r', List.mem_cons_of_mem r hr', hword⟩

/-- A range's address is named by one of the words W1 to W7, or by none. -/
theorem operandTable_word_le (i : Instr) (s : State) : ∀ r ∈ operandTable i s, r.word ≤ 7 := by
  cases i <;> simp [operandTable, or_imp, forall_and]

/-- A failing check is one of the three INVALID_PARAMETER errors or the BUS_ERROR of a named range. -/
theorem check_some_cases {p : Plan} {platform : Platform} {e : EngineError} (h : p.check platform = some e) :
    (∃ sub, 1 ≤ sub ∧ sub ≤ 3 ∧ e = invalidParameter sub) ∨
    ∃ r ∈ p.ranges, r.word ≠ 0 ∧ e = { code := .busError, info := r.word } := by
  unfold Plan.check at h
  split_ifs at h
  · cases h; exact .inl ⟨1, by decide, by decide, rfl⟩
  · cases h; exact .inl ⟨2, by decide, by decide, rfl⟩
  · cases h; exact .inl ⟨3, by decide, by decide, rfl⟩
  · split at h
    · rename_i word hword
      cases h
      obtain ⟨r, hr, hne, rfl⟩ := firstUnadmitted_some hword
      exact .inr ⟨r, hr, hne, rfl⟩
    · cases h

/-- Settles O7: a failing check is the error stop it names, and past the checks a command completes or fails. -/
theorem commandCompletesOrStops : Obligations.CommandCompletesOrStops := by
  intro i s
  refine ⟨fun e hcheck => ?_, fun hcheck => ?_⟩
  · rcases check_some_cases hcheck with ⟨sub, hlo, hhi, rfl⟩ | ⟨r, hr, hne, rfl⟩
    · exact ⟨exec_of_check_some hcheck, .inl ⟨rfl, hlo, hhi⟩⟩
    · rw [instrPlan_ranges] at hr
      exact ⟨exec_of_check_some hcheck, .inr ⟨rfl, Nat.one_le_iff_ne_zero.mpr hne, operandTable_word_le i s r hr⟩⟩
  · obtain ⟨t, ht⟩ := exec_next i s
    rcases exec_endsCommand hcheck ht with ⟨dp', hdone⟩ | ⟨⟨e, ⟨hlo, hhi⟩, hstop⟩, -, -⟩
    · exact .inl ⟨t, dp', ht, hdone⟩
    · exact .inr ⟨t, _, _, _, ht, hstop, hlo, hhi⟩

/-! ### What a failing command keeps (60_exceptions.md R321, 20_memory.md R70) -/

/-- A command's own write ranges keep off its WR area when its checks hold (20_memory.md R68, R70). -/
theorem ownWrite_disjoint_resultSpan {i : Instr} {s : State} (hc : (instrPlan i s).check s.platform = none) {sp : Span}
    (hown : OwnWrite i s sp) {w : Word} (hw : resultOperand i = some w) : sp.disjoint (resultSpan w) = true := by
  obtain ⟨word, hne, hmem⟩ := hown
  obtain ⟨own, htable⟩ : ∃ own, operandTable i s =
      own ++ (resultOperand i).toList.map fun w => ⟨.write, resultSpan w, 7⟩ := ⟨_, rfl⟩
  rw [hw, Option.toList_some, List.map_singleton] at htable
  obtain ⟨-, -, hapart, -⟩ := check_none_iff.mp hc
  rw [instrPlan_ranges, htable, pairwiseCompatible_iff, List.pairwise_append] at hapart
  obtain ⟨-, -, hcross⟩ := hapart
  have hin : (⟨.write, sp, word⟩ : OperandRange) ∈ own := by
    rw [htable, List.mem_append, List.mem_singleton] at hmem
    exact hmem.resolve_right fun heq => hne (congrArg OperandRange.word heq)
  simpa [OperandRange.compatible] using hcross _ hin _ (List.mem_singleton_self _)

section
variable {i : Instr} {s : State} {a : Nat} (ha : ∀ sp, OwnWrite i s sp → sp.contains a = false)
include ha

/-- A byte outside a command's own write ranges, though it may be in its WR area, keeps its value until the command
ends. -/
theorem Work.read_outside_own {u : State} (h : Work i s u) : u.mem.read a = s.mem.read a := by
  induction h with
  | start | initWriter _ | initReader _ => rfl
  | results _ _ ih | seek _ _ _ _ ih => exact ih
  | store _ hown hfit ih =>
    have hout := (contains_eq_false_iff _ a).mp (ha _ hown)
    rw [storeBytes_mem, read_writeBytes_outside (by omega), ih]
  | append _ hown hwrite =>
    have hout := (contains_eq_false_iff _ a).mp (ha _ hown)
    obtain ⟨hstored, hcount⟩ := sink_bounds hwrite
    simp only [WriterRegs.freeSpan] at hout
    rw [putSink_mem, read_writeBytes_outside]
    rw [List.length_reverse]
    omega

end

/-- An error stop past the checks keeps RESULT, but for CHECKSUM_MISMATCH, and the bytes outside the command's own write
ranges. -/
theorem CommandEnd.kept_of_failed {i : Instr} {s t : State} (h : CommandEnd i s t) (hok : s.err = false)
    (herr : t.err = true) : (t.errcode ≠ 11 → t.results = s.results) ∧
    ∀ a, (∀ sp, OwnWrite i s sp → sp.contains a = false) → t.mem.read a = s.mem.read a := by
  cases h with
  | finished hw =>
    obtain ⟨r, w, b, m, rfl⟩ := hw.frame
    simp [hok] at herr
  | jumped _ | ended _ => simp [hok] at herr
  | @failed u e spans hw hchecksum hspans =>
    refine ⟨fun hcode => ?_, fun a ha => ?_⟩
    · have hne : e.code ≠ .checksumMismatch := fun heq => hcode (congrArg ErrorCode.number heq)
      simp [hchecksum hne]
    · refine (havocSpans_read_outside fun sp hsp => ?_).trans (hw.read_outside_own ha)
      obtain ⟨w, hown, hlo, hhi⟩ := hspans sp hsp
      have hout := (contains_eq_false_iff w a).mp (ha w hown)
      simp only [Span.limit] at hhi
      rw [contains_eq_false_iff]
      omega
  | failedAppend _ hown | failedRead _ hown => exact ⟨fun _ => by simp, fun a ha => havocSpan_read_outside (ha _ hown)⟩

/-- Settles O9: an error stop keeps the registers, and its free values stay in ranges that keep off the WR area. -/
theorem failureLeavesResults : Obligations.FailureLeavesResults := by
  intro i s t h hok herr
  rcases exec_cases h with ⟨e, -, rfl⟩ | ⟨hc, hend⟩
  · simp
  rcases exec_endsCommand hc h with ⟨dp', hdone⟩ | ⟨⟨e, -, hstop⟩, ⟨hwbase, hcap⟩, hrbase, hlen⟩
  · rw [hdone.err, hok] at herr
    cases herr
  · obtain ⟨hresults, hmem⟩ := hend.kept_of_failed hok herr
    refine ⟨hstop.busy, hstop.done, hstop.cmdcount, hstop.dp, hresults, hwbase, hcap, hrbase, hlen,
      fun w hw a hlo hhi => hmem a fun sp hown => ?_⟩
    have hapart := (disjoint_iff _ _).mp (ownWrite_disjoint_resultSpan hc hown hw) a
    rw [Bool.eq_false_iff, Ne, contains_iff]
    exact fun hin => hapart ⟨hin, hlo, hhi⟩

end Sys2Proof.Machine
